-- ==== Sys2Proof/Word.lean ====
section
/-!
DEFINITION. Word types, the closed sets of names that instruction fields hold, and the operand records of the
instructions.
-/
namespace Sys2Proof

abbrev W8 := BitVec 8
abbrev W16 := BitVec 16
abbrev W32 := BitVec 32
abbrev W64 := BitVec 64
/-- A lane mask: bit L stands for lane L (R192). -/
abbrev Mask := BitVec 64
/-- An F36 accumulator value (R50). -/
abbrev F36 := BitVec 36
/-- A scalar register index (R76); a pair is named by its even index. -/
abbrev SReg := BitVec 6
/-- A vector register index (R76). -/
abbrev VReg := BitVec 11
/-- A predicate index (R76). -/
abbrev Pred := BitVec 3

/-- Operand and element types (R35, R77). `bfp k` is `.bfp(k+2)`, for k from 0 to 6. -/
inductive Ty where
  | i8 | i16 | i32 | n8 | n16 | n32 | f32 | bf16 | e4m3 | e5m2 | b32 | x64 | f36
  | bfp (k : BitVec 3)
  deriving DecidableEq, Repr

/-- Rounding modes (R55). -/
inductive Rm where
  | rne | rtz | rdn | rup
  deriving DecidableEq, Repr

/-- The role a warp or a sequencer context issues under (R36, R38). -/
inductive Role where
  | any | copy | vector | matrix
  deriving DecidableEq, Repr

/-- Cause codes (R416). -/
def Cause.illegalInstr : W8 := 0x01
def Cause.reservedField : W8 := 0x02
def Cause.roleViolation : W8 := 0x03
def Cause.stallUndersized : W8 := 0x04
def Cause.regionStrict : W8 := 0x05
def Cause.misaligned : W8 := 0x06
def Cause.regUnheld : W8 := 0x07
def Cause.breakpoint : W8 := 0x08
def Cause.notPresent : W8 := 0x10
def Cause.permission : W8 := 0x11
def Cause.wpMigration : W8 := 0x12
def Cause.bounds : W8 := 0x13
def Cause.formatMismatch : W8 := 0x14
def Cause.noncanonical : W8 := 0x15
def Cause.ecc : W8 := 0x20
def Cause.fabricLost : W8 := 0x21
def Cause.linkDown : W8 := 0x22
def Cause.stageFault : W8 := 0x30
def Cause.gangMemberExited : W8 := 0x31
def Cause.shapeTimeout : W8 := 0x32
def Cause.squashed : W8 := 0x33
def Cause.registerCapacity : W8 := 0x34
def Cause.aborted : W8 := 0x35
def Cause.searchBadNode : W8 := 0x40

/-- Fields that every instruction word holds: the form LEN, the stall count, the guard and its negation (R72). -/
structure Head where
  len : BitVec 2
  stall : BitVec 4
  g : Pred
  gn : Bool
  deriving DecidableEq, Repr

/-- A scalar source in the B position: a register (or the even register of a pair) or the literal (R78, R205). -/
inductive SSrc where
  | reg (r : SReg)
  | lit (v : W64)
  deriving DecidableEq, Repr

/-- A vector source: a vector register, a scalar broadcast to every lane, or the literal (R77, R78). -/
inductive VSrc where
  | vec (r : VReg)
  | sca (r : SReg)
  | lit (v : W64)
  deriving DecidableEq, Repr

/-- A predicate source: a predicate or the 64-bit literal (R226). -/
inductive PSrc where
  | pred (p : Pred)
  | lit (v : W64)
  deriving DecidableEq, Repr

/-- A tile field: an immediate tile number, or a scalar register that holds it (R317). -/
inductive Tile where
  | imm (t : BitVec 10)
  | ind (r : SReg)
  deriving DecidableEq, Repr

/-- Scalar arithmetic (R205): destination, sources, type, saturation, and the instruction's X. -/
structure SBin where
  d : SReg
  a : SReg
  b : SSrc
  ty : Ty
  sat : Bool
  x : Bool
  deriving DecidableEq, Repr

/-- `scmp` (R209). -/
structure SCmp where
  d : Pred
  a : SReg
  b : SSrc
  cc : BitVec 3
  ty : Ty
  deriving DecidableEq, Repr

/-- `ssel` (R210). -/
structure SSel where
  d : SReg
  a : SReg
  b : SSrc
  c : Pred
  ty : Ty
  deriving DecidableEq, Repr

/-- `smov` and `sli` (R211). -/
structure SMov where
  d : SReg
  b : SSrc
  ty : Ty
  deriving DecidableEq, Repr

/-- `sbit` (R213). -/
structure SBit where
  d : SReg
  a : SReg
  b : SSrc
  f : BitVec 3
  deriving DecidableEq, Repr

/-- `pop` (R230): `a` is a predicate index, or the even index of a scalar pair for `.from`. -/
structure POp where
  d : Pred
  a : BitVec 6
  b : PSrc
  f : BitVec 3
  deriving DecidableEq, Repr

/-- `vshfl` (R232). -/
structure VShfl where
  d : VReg
  a : VSrc
  b : VSrc
  m : BitVec 2
  w : BitVec 3
  deriving DecidableEq, Repr

/-- `vscan` and `vred` (R233). -/
structure VScan where
  d : VReg
  a : VSrc
  op : BitVec 3
  w : BitVec 3
  ty : Ty
  rm : Rm
  x : Bool
  deriving DecidableEq, Repr

/-- Two-source vector instructions (R236, R240, R252). -/
structure VBin where
  d : VReg
  a : VSrc
  b : VSrc
  ty : Ty
  rm : Rm
  sat : Bool
  x : Bool
  deriving DecidableEq, Repr

/-- Three-source vector instructions (R237, R238, R240, R251). -/
structure VTri where
  d : VReg
  a : VSrc
  b : VSrc
  c : VSrc
  ty : Ty
  rm : Rm
  sat : Bool
  x : Bool
  deriving DecidableEq, Repr

/-- `vbit` (R213, R236). -/
structure VBitF where
  d : VReg
  a : VSrc
  b : VSrc
  f : BitVec 3
  deriving DecidableEq, Repr

/-- `vsel` (R239). -/
structure VSel where
  d : VReg
  a : VSrc
  b : VSrc
  c : Pred
  ty : Ty
  deriving DecidableEq, Repr

/-- `vcmp` and `vfcmp` (R239, R242). -/
structure VCmp where
  d : Pred
  a : VSrc
  b : VSrc
  cc : BitVec 3
  ty : Ty
  deriving DecidableEq, Repr

/-- One-source vector instructions with a rounding mode (R244, R250). -/
structure VUn where
  d : VReg
  a : VSrc
  rm : Rm
  deriving DecidableEq, Repr

/-- `vcvt` (R248). -/
structure VCvt where
  d : VReg
  a : VSrc
  src : Ty
  dst : Ty
  sp : BitVec 2
  dp : BitVec 2
  rm : Rm
  sat : Bool
  deriving DecidableEq, Repr

/-- `vsrt` (R339). -/
structure VSrt where
  d : VReg
  lj : BitVec 4
  lk : BitVec 4
  lr : BitVec 3
  ty : Ty
  dn : Bool
  deriving DecidableEq, Repr

/-- `vmrg` (R341). -/
structure VMrg where
  d : VReg
  a : VReg
  b : VReg
  lo : Bool
  ty : Ty
  dn : Bool
  deriving DecidableEq, Repr

/-- `vtopk` (R343). -/
structure VTopk where
  d : VReg
  a : VReg
  k : BitVec 7
  ty : Ty
  dn : Bool
  deriving DecidableEq, Repr

/-- The memory form (R79). -/
structure MemF where
  data : BitVec 11
  base : BitVec 11
  off : BitVec 24
  bk : Bool
  ord : BitVec 2
  scope : BitVec 3
  var : BitVec 4
  deriving DecidableEq, Repr

/-- The function field of `atm` (R82). -/
structure AtmFn where
  aop : BitVec 4
  glb : Bool
  ret : Bool
  deriving DecidableEq, Repr

/-- `ardv` (R323). -/
structure Ardv where
  d : VReg
  tile : Tile
  q : BitVec 4
  rm : Rm
  sat : Bool
  deriving DecidableEq, Repr

/-- `adrn` (R324): `a` is the octet number, so it names s(8a) to s(8a+7). -/
structure Adrn where
  tile : Tile
  a : BitVec 3
  ty : Ty
  rm : Rm
  sat : Bool
  deriving DecidableEq, Repr

/-- The quad of `laddr`: a vector quad or a scalar quad, by the number of its group of four (R311). -/
inductive Quad where
  | vec (q : BitVec 9)
  | sca (q : BitVec 4)
  deriving DecidableEq, Repr

/-- A part of RESET: the reset itself, with or without a loss of power, and what bring-up then does by itself, of which loading the route
tables may fail (R458, R462, R468, R471). -/
inductive ResetStage where
  | start (powerLost : Bool)
  | fuses
  | firmware
  | trained
  | routes (loaded : Bool)
  | frontEnd
  | nearUnits
  deriving DecidableEq, Repr

/-- What the check of a memory has found (R465, R466). -/
inductive EccReport where
  | corrected
  | uncorrectable
  | both
  deriving DecidableEq, Repr

def EccReport.ce : EccReport → Bool
  | .uncorrectable => false
  | .corrected | .both => true
def EccReport.ue : EccReport → Bool
  | .corrected => false
  | .uncorrectable | .both => true

end Sys2Proof
end

