-- ==== Sys2Proof/Config.lean ====
section
/-!
DEFINITION. What the spec fixes as numbers of the part, and the values that it leaves open: constants without a body,
of which no proof can see a value.
-/
namespace Sys2Proof

/-! Numbers of the part (R8 to R13). -/

def Config.dies : Nat := 8
def Config.coresPerDie : Nat := 28
def Config.cores : Nat := 224
def Config.stacks : Nat := 16
def Config.lanes : Nat := 64

/-! Free values (log 8): the n-th value drawn. -/

opaque Config.freeBits : Nat → W64

/-! Special functions whose results inside their error bounds the spec does not state (R245, log 14). -/

opaque Config.vfrsq : W32 → W32
opaque Config.vfexp : W32 → W32
opaque Config.vflog : W32 → W32
opaque Config.vftanh : W32 → W32
opaque Config.vfsinpi : W32 → W32
opaque Config.vfcospi : W32 → W32

/-! What fusing, repair and the part's construction fix (log 4, log 11). -/

/-- The set, of 1024, of an L2 slice that a line lies in; the spec does not give the function (log 11). -/
opaque Config.l2Hash : Nat → Nat
/-- Which line of a full set is evicted; the spec gives no policy (log 11). -/
opaque Config.l2Victim : Nat → List Nat → Nat
def Config.l2Set (line : Nat) : Nat := Config.l2Hash line % 1024
opaque Config.stepping : W8
/-- What the self-test of a reset, by its number, finds: whether a die's core fails, by site, and the usable pool of a core after
repair, 56 to 64 blocks (R11, R12, R462, R463). -/
opaque Config.coreFails : Nat → Nat → Nat → Bool
opaque Config.poolSpare : Nat → Nat → Nat
def Config.poolBlocks (boot c : Nat) : Nat := 56 + Config.poolSpare boot c % 9
/-- The firmware image in flash at first power-on, the digests, keys and minimum security version (R458, R460). -/
opaque Config.image : List W8
opaque Config.hash : List W8 → BitVec 384
/-- A digest of 48 bytes (R458, R460). -/
def Config.sha384 (b : List W8) : List W8 := (List.range 48).map fun i => (Config.hash b).extractLsb' (8 * i) 8
opaque Config.signature : List W8 → BitVec 768
/-- A signature by the identity key, of 96 bytes: r, then s (R460). -/
def Config.sign (b : List W8) : List W8 := (List.range 96).map fun i => (Config.signature b).extractLsb' (8 * i) 8
/-- Whether a public key accepts a signature of a digest (R458). -/
opaque Config.sigOk : List W8 → List W8 → List W8 → Bool
opaque Config.bootRom : List W8
/-- The bytes that stand for the fuse settings and a repair map in the measurement (R460). -/
opaque Config.fuseMap : List Nat → List W8
opaque Config.minVersion : Nat
opaque Config.keyDigest : List W8
/-- This device's number, and the link by which a device is reached, by the number of the route table that the host has loaded: the
spec does not give the table's form (R454). -/
opaque Config.devNum : Nat → BitVec 12
opaque Config.route : Nat → Nat → Nat
/-- The bodies of the SEQ, RINGS and STREAMS sections of a dump, by kind, from what R434 says they hold: the spec does not give
their layout (log 28). -/
opaque Config.sectionBody : Nat → List Nat → List W8
/-- Addresses and frames that Umber chooses for save records, range lists and tables, by a counter (log 18). -/
opaque Config.umberAddr : Nat → Nat
opaque Config.umberFrame : Nat → Nat

end Sys2Proof
end

