-- ==== Sys2Proof/Syntax.lean ====
section
/-!
DEFINITION. The instructions: one constructor per row of the opcode table. An encoded instruction holds its Head and
its operands; an event of another agent holds what says which unit, record or value it concerns (log 1).
-/
namespace Sys2Proof

inductive Instr where
  -- scalar (R205)
  | nop (h : Head)
  | sadd (h : Head) (o : SBin) | ssub (h : Head) (o : SBin) | smul (h : Head) (o : SBin) | sdiv (h : Head) (o : SBin)
  | sand (h : Head) (o : SBin) | sor (h : Head) (o : SBin) | sxor (h : Head) (o : SBin)
  | sshl (h : Head) (o : SBin) | sshr (h : Head) (o : SBin) | smin (h : Head) (o : SBin) | smax (h : Head) (o : SBin)
  | scmp (h : Head) (o : SCmp) | ssel (h : Head) (o : SSel) | smov (h : Head) (o : SMov) | sli (h : Head) (o : SMov)
  | sbfe (h : Head) (o : SBin) | sbit (h : Head) (o : SBit) | swide (h : Head) (o : SBin)
  -- engine submission (R378, R364, R353)
  | qsub (h : Head) (a : SReg) | cland (h : Head) (d : VReg) (a : SReg) (op : BitVec 2) (ty : Ty)
  | nbrun (h : Head) (a : SReg)
  -- traps (R422), sreg (R216), control (R219)
  | trapShort (h : Head) (a : SReg) | trap (h : Head) (c : BitVec 7) (a : SReg) | tret (h : Head) | tretSkip (h : Head)
  | brkpt (h : Head) (n : W8)
  | sregRead (h : Head) (d : SReg) (i : W8) | sregWrite (h : Head) (a : SReg) (i : W8)
  | sregSwap (h : Head) (d a : SReg) (i : W8)
  | br (h : Head) (t : W32) | brpAny (h : Head) (p : Pred) (t : W32) | brpAll (h : Head) (p : Pred) (t : W32)
  | jmp (h : Head) (t : W32) | jmpi (h : Head) (a : SReg) | call (h : Head) (d : VReg) (t : W32)
  | ret (h : Head) (a : VReg) | rcv (h : Head) | yld (h : Head)
  -- predicate and lane (R229)
  | pop (h : Head) (o : POp) | pvote (h : Head) (d : SReg) (a : Pred) (m : BitVec 2) | pball (h : Head) (d : SReg) (a : Pred)
  | pballPopc (h : Head) (d : SReg) (a : Pred) | vshfl (h : Head) (o : VShfl) | vscan (h : Head) (o : VScan)
  | vred (h : Head) (o : VScan) | vid (h : Head) (d : VReg) (b : Option VSrc)
  | vbcst (h : Head) (d : VReg) (a : VSrc) (b : Option VSrc)
  -- vector integer and logic (R236)
  | vadd (h : Head) (o : VBin) | vsub (h : Head) (o : VBin) | vmul (h : Head) (o : VBin) | vmad (h : Head) (o : VTri)
  | vmin (h : Head) (o : VBin) | vmax (h : Head) (o : VBin) | vand (h : Head) (o : VBin) | vor (h : Head) (o : VBin)
  | vxor (h : Head) (o : VBin) | vshl (h : Head) (o : VBin) | vshr (h : Head) (o : VBin) | vbit (h : Head) (o : VBitF)
  | vbfe (h : Head) (o : VBin) | vbfi (h : Head) (o : VTri) | vsel (h : Head) (o : VSel) | vcmp (h : Head) (o : VCmp)
  -- vector floating point (R240, R244) and conversion (R247)
  | vfadd (h : Head) (o : VBin) | vfsub (h : Head) (o : VBin) | vfmul (h : Head) (o : VBin) | vffma (h : Head) (o : VTri)
  | vfmin (h : Head) (o : VBin) | vfmax (h : Head) (o : VBin) | vfcmp (h : Head) (o : VCmp)
  | vfcls (h : Head) (d : Pred) (a : VSrc) (m : BitVec 9)
  | vfrcp (h : Head) (o : VUn) | vfrsq (h : Head) (o : VUn) | vfsqrt (h : Head) (o : VUn) | vfexp (h : Head) (o : VUn)
  | vflog (h : Head) (o : VUn) | vftanh (h : Head) (o : VUn) | vfsinpi (h : Head) (o : VUn) | vfcospi (h : Head) (o : VUn)
  | vcvt (h : Head) (o : VCvt) | vfrnd (h : Head) (o : VUn) | vdot2 (h : Head) (o : VTri) | vdot4 (h : Head) (o : VTri)
  | vmov (h : Head) (d : VReg) (b : VSrc) (ty : Ty) | vfscl (h : Head) (o : VBin)
  -- sorting (R335)
  | vsrt (h : Head) (o : VSrt) | vmrg (h : Head) (o : VMrg) | vtopk (h : Head) (o : VTopk)
  -- memory (R267)
  | sld (h : Head) (o : MemF) | sst (h : Head) (o : MemF) | vld (h : Head) (o : MemF) | vst (h : Head) (o : MemF)
  | vgth (h : Head) (o : MemF) | vsct (h : Head) (o : MemF) | lds (h : Head) (o : MemF) | sts (h : Head) (o : MemF)
  | gld (h : Head) (o : MemF) | gst (h : Head) (o : MemF) | mst (h : Head) (o : MemF) | ldx (h : Head) (o : MemF)
  | cpf (h : Head) (o : MemF) | copInv (h : Head) (o : MemF) | copInvall (h : Head) (o : MemF) | copWb (h : Head) (o : MemF)
  | copWbinv (h : Head) (o : MemF) | atm (h : Head) (f : AtmFn) (o : MemF)
  -- order and synchronisation (R391 to R400)
  | fenceRel (h : Head) (sc : BitVec 3) | fenceAcq (h : Head) (sc : BitVec 3) | fenceSc (h : Head) (sc : BitVec 3)
  | wcnt (h : Head) (m t : BitVec 6) | bar (h : Head) | gbar (h : Head) (d : SReg)
  | mon (h : Head) (d a : SReg) | monSp (h : Head) (d a : SReg) | mwait (h : Head) (d b : SReg)
  | mwaitWake (core unit : Nat) | mwaitDeadline (core unit : Nat) | watchTableFullReread (core unit : Nat)
  | parkedWatchSpuriousWake (task unit : Nat)
  -- stage rings, regions, blocks (R328, R198, R193)
  | sgacqE (h : Head) (d : SReg) (r : BitVec 3) | sgacqF (h : Head) (d : SReg) (r : BitVec 3)
  | sgrel (h : Head) (r : BitVec 3) (b : SReg) | sgrelInit (h : Head) (r : BitVec 3) (n : BitVec 5)
  | rgn (h : Head) (w : W64) | rgnend (h : Head) | xacq (h : Head) (k : BitVec 4) | xacqTry (h : Head) (d : SReg) (k : BitVec 4)
  | xrel (h : Head) (k : BitVec 4)
  -- tasks (R162)
  | spawn (h : Head) (a : SReg) | spawnr (h : Head) (a : VReg) (b : SReg) | join (h : Head) (d a b : SReg)
  | joinerWake (core unit : Nat)
  | fset (h : Head) (a : SReg) | fsetAt (h : Head) (d a b : SReg) | fflt (h : Head) (a b : SReg)
  | ffltAt (h : Head) (d a b c : SReg) | fpoll (h : Head) (d a b : SReg) | texit (h : Head) | tmark (h : Head) (a : SReg)
  -- copy and streams (R302 to R311), matrix (R319 to R326)
  | cpy (h : Head) (a : BitVec 3) | qput (h : Head) (d a b : SReg) | qputX2 (h : Head) (d a b : SReg)
  | strm (h : Head) (f : BitVec 2) (a : BitVec 3) | strmend (h : Head) (f : BitVec 2) | lbind (h : Head) (a b : SReg)
  | laddr (h : Head) (d : VReg) (c : Pred) (a : SReg) (b : Quad)
  | mma (h : Head) (t : Tile) (fa fb : Bool) (n : BitVec 11) | mmaSh (h : Head) (t : Tile) (fa fb : Bool) (n : BitVec 11)
  | accZero (h : Head) (t : Tile) (m : BitVec 11) | accCommit (h : Head) (t : Tile) (m : BitVec 11)
  | accDiscard (h : Head) (t : Tile) (m : BitVec 11) | accMove (h : Head) (t u : Tile) (m : BitVec 11)
  | ardv (h : Head) (o : Ardv) | ardvRaw (h : Head) (o : Ardv) | adrn (h : Head) (o : Adrn)
  | fskip (h : Head) (f : BitVec 2) (n : BitVec 11)
  -- events of a core's memory path
  | loadResultArrives (core unit idx : Nat) | fixedLatencyWriteback (core unit : Nat) | storePerformed (core unit idx : Nat)
  | leaseExpiry (core line : Nat) | tlbWalk (core cid va : Nat)
  -- staging, placement, stealing (R147 to R160, R411)
  | tileArrival (task desc n : Nat) | dequePop (core : Nat) | taskStart (core : Nat) | gangStart (gang : Nat)
  | stealAttempt (core : Nat) | stealAttemptReceived (msg : Nat) | stealOfferReceived (msg : Nat)
  | stealAckReceived (msg : Nat) | stealConfirmReceived (msg : Nat) | stealKeepReceived (msg : Nat)
  | stealOfferTimeout (core : Nat) | stealLendTimeout (core thief : Nat) | stealAnswerTimeout (core : Nat)
  | forwardProgressSwap (core : Nat) | teamRestore (task : Nat) | handlerEntry (core unit : Nat)
  | fatalFault (task : Nat) (ecc : Bool) | warpRetire (core unit : Nat) | taskRetire (task : Nat)
  -- engines
  | cpyTransfer (core idx : Nat) | cpyComplete (core idx : Nat) | streamSliceEnter (core idx : Nat)
  | mmaSliceApply (core unit : Nat) | mtxOpComplete (core unit : Nat) | adrnComplete (core unit : Nat)
  | gthComplete (core unit idx : Nat) | mstDelivery (core unit idx member : Nat)
  | nbProgramStart (u : Nat) | nbRowOperation (u : Nat) | nbWindowResume (u : Nat) | nbForcedRowOperation (u : Nat)
  | nbProgramComplete (u : Nat) | hbmRefreshDue (u bank : Nat) | hbmControllerRequest (u kind off len : Nat)
  | landingPacketApply (idx : Nat) | queryDistance (q idx : Nat) | queryRound (q : Nat) | queryComplete (q : Nat)
  -- speculation
  | shapeResolution (l : Nat) | shapeTimeout (l : Nat) | speculationTagFree (l : Nat)
  -- queues and packets
  | qsNotify (qid : Nat) | queueConsume (slot : Nat) | nopPacket (p : Nat) | launchPacket (p : Nat) | copyPacket (p core : Nat)
  | fillPacket (p : Nat) | signalStore (p : Nat) | signalAtomicAdd (p : Nat) | signalCompleteFuture (p : Nat)
  | waitPacket (p : Nat) | waitReevaluate (p : Nat) | waitTimeout (p : Nat) | fencePacket (p : Nat) | packetComplete (p : Nat)
  | launchComplete (l : Nat) | vfSettle | qsErrslotClear (m : W32)
  -- registers and translation
  | tlbShoot (cid : BitVec 12) (size : BitVec 2) | shootdownComplete | fwinWrite (i reg : Nat) (v : W64)
  | lwinWrite (i reg : Nat) (v : W64) | registerWrite (off : Nat) (v : W64)
  -- mailbox and firmware
  | ctxCreate | ctxDestroy | qCreate | qDestroy | rangesFree | peerBind | ckptReg | attest | fwLoad (u : Unit) | mbxUnknownOpc
  | umberQuantum | queueIdleSwap (qid : Nat) | queueReadyMap (qid : Nat) | umberFaultService (core unit : Nat) (replay : Bool)
  | pageMigration (cid va page : Nat) | umberPreemptRequest (task : Nat) | slateTakeover
  -- Axyel, CXL, fabric
  | axlNotify (qid : Nat) | axyelAppend (d : Nat) | axyelPut (d : Nat) | axyelGet (d : Nat) (data : List W8) | axyelLand (d : Nat)
  | axyelReceive (dev pcid dcid kind : Nat) (raddr : Nat) (opc : BitVec 4) (data : List W8)
  | axyelDescriptorComplete (d : Nat) (cause : W8) | linkLoss (dev : Nat)
  | hostCxlMemAccess (pa : Nat) (write : Bool) (data : List W8) (keep : Bool) | backInvalidateResponse (line : Nat)
  | fabricHeaderCheck (die site link kind : Nat) | fabricOpTimeout (core unit idx : Nat) | routerFailure (die site : Nat)
  | bridgeLoss (a b : Nat) | restitchComplete | dieLoss (d : Nat)
  -- reset, power, upkeep
  | reset (stage : ResetStage) | stackTrained (st : Nat) | repairDone (code : Nat) | linkTrained (l : Nat) | powerOverCap (watts : Nat)
  | powerUnderCap (watts : Nat) | currentLimit (amps : Nat) | patrolScrub (unit row line : Nat) (e : EccReport)
  | lifetimeCounterSave (tj : BitVec 4) (secs : Nat) (tj' : BitVec 4) (secs' : Nat) | bridgeReturn (a b : Nat)
  | currentFallsBelowLimit (amps : Nat)
  | cxlCacheSnoop (line : Nat) (inv : Bool)
  deriving DecidableEq, Repr

end Sys2Proof
end

