-- ==== Sys2Proof/WellFormed.lean ====
section
/-!
DEFINITION. When an instruction's operands are ones that the encoding admits: the form, the classes, ranges and
modifier values of R75 to R82 and of each instruction's own description.
-/
namespace Sys2Proof

/-- The form LEN agrees with the operands: `short` says that a base form exists and the operands fit it, `lit` that
the instruction holds a literal (R70, R75, R81). -/
def Head.fits (h : Head) (short lit : Bool) : Bool :=
  match h.len with
  | 0 => short && !lit
  | 1 => short && lit
  | 2 => !lit
  | _ => lit

def evenS (r : SReg) : Bool := r &&& 1 == 0
def evenV (r : VReg) : Bool := r &&& 1 == 0

/-- An ordinary literal holds 32 bits (R78); a 64-bit operand takes all 64. -/
def litFits (wide : Bool) (v : W64) : Bool := wide || v.toNat < 2 ^ 32

def SSrc.isLit : SSrc → Bool
  | .reg _ => false
  | .lit _ => true

def SSrc.ok (wide : Bool) : SSrc → Bool
  | .reg r => !wide || evenS r
  | .lit v => litFits wide v

def SSrc.short : SSrc → Bool
  | .reg r => r.toNat < 32
  | .lit _ => true

def VSrc.isLit : VSrc → Bool
  | .lit _ => true
  | _ => false

/-- A source that may be a literal. -/
def VSrc.ok (wide : Bool) : VSrc → Bool
  | .vec r => !wide || evenV r
  | .sca r => !wide || evenS r
  | .lit v => litFits wide v

/-- A source in the A or C position, which takes no literal (R78). -/
def VSrc.okReg (wide : Bool) (v : VSrc) : Bool := !v.isLit && v.ok wide

def VSrc.short : VSrc → Bool
  | .vec r => r.toNat < 32
  | .sca _ => false
  | .lit _ => true

def arithTys : List Ty := [.b32, .i8, .i16, .i32, .n8, .n16, .n32]
def orderTys : List Ty := [.i32, .i8, .i16, .n8, .n16, .n32]
def is32 (t : Ty) : Bool := t == .i32 || t == .n32

/-- Scalar arithmetic: `base` says that R81 gives a base form, whose type is the first of `tys`. -/
def SBin.wf (base : Bool) (tys : List Ty) (satOk xOk : Bool) (h : Head) (o : SBin) : Bool :=
  tys.contains o.ty && (!o.sat || satOk) && (!o.x || xOk) &&
  (o.ty != .x64 || (evenS o.d && evenS o.a)) && o.b.ok (o.ty == .x64) &&
  h.fits (base && o.d.toNat < 32 && o.a.toNat < 32 && o.b.short && tys.head? == some o.ty && !o.sat && !o.x) o.b.isLit

def SCmp.wf (h : Head) (o : SCmp) : Bool :=
  (orderTys ++ [Ty.x64]).contains o.ty && o.cc.toNat < 6 && (o.ty != .x64 || evenS o.a) && o.b.ok (o.ty == .x64) &&
  h.fits false o.b.isLit

def SSel.wf (h : Head) (o : SSel) : Bool :=
  [Ty.b32, .x64].contains o.ty && (o.ty != .x64 || (evenS o.d && evenS o.a)) && o.b.ok (o.ty == .x64) &&
  h.fits false o.b.isLit

def SMov.wf (litOnly : Bool) (h : Head) (o : SMov) : Bool :=
  [Ty.b32, .x64].contains o.ty && (o.ty != .x64 || evenS o.d) && o.b.ok (o.ty == .x64) && (!litOnly || o.b.isLit) &&
  h.fits (o.d.toNat < 32 && o.b.short && o.ty == .b32) o.b.isLit

def SBit.wf (h : Head) (o : SBit) : Bool :=
  o.f != 7 && (4 ≤ o.f.toNat || o.b == .reg 0) && o.b.ok false && h.fits false o.b.isLit

def POp.wf (h : Head) (o : POp) : Bool :=
  (if o.f == 7 then evenS o.a else if o.f == 6 then o.a == 0 else o.a.toNat < 8) &&
  (match o.b with
   | .pred p => !(o.f == 5 || o.f == 7) || p == 0
   | .lit _ => !(o.f == 5 || o.f == 7)) &&
  h.fits false (match o.b with | .pred _ => false | .lit _ => true)

def widthOk (w : BitVec 3) : Bool := w.toNat < 6

def VShfl.wf (h : Head) (o : VShfl) : Bool :=
  o.a.okReg false && o.b.ok false && widthOk o.w && h.fits false o.b.isLit

/-- The types of each scan operation (R233). -/
def scanTys (op : BitVec 3) : List Ty :=
  match op.toNat with
  | 1 | 2 => [.i32, .n32]
  | 6 | 7 => [.f32]
  | _ => [.b32]

def VScan.wf (excl : Bool) (h : Head) (o : VScan) : Bool :=
  o.a.okReg false && widthOk o.w && (scanTys o.op).contains o.ty && (o.rm == .rne || o.op == 6) && (!o.x || excl) &&
  h.fits false false

/-- Two-source vector instructions; `rmOk` says that RM is accepted. -/
def VBin.wf (base : Bool) (tys : List Ty) (rmOk satOk xOk : Bool) (h : Head) (o : VBin) : Bool :=
  tys.contains o.ty && (rmOk || o.rm == .rne) && (!o.sat || satOk) && (!o.x || xOk) &&
  (o.ty != .x64 || evenV o.d) && o.a.okReg (o.ty == .x64) && o.b.ok (o.ty == .x64) &&
  h.fits (base && o.d.toNat < 32 && o.a.short && o.b.short && tys.head? == some o.ty && o.rm == .rne && !o.sat && !o.x)
    o.b.isLit

def VTri.wf (tys : List Ty) (rmOk satOk xOk : Bool) (h : Head) (o : VTri) : Bool :=
  tys.contains o.ty && (rmOk || o.rm == .rne) && (!o.sat || satOk) && (!o.x || xOk) &&
  o.a.okReg false && o.b.ok false && o.c.okReg false && h.fits false o.b.isLit

def VBitF.wf (h : Head) (o : VBitF) : Bool :=
  o.f != 7 && (4 ≤ o.f.toNat || o.b == .vec 0) && o.a.okReg false && o.b.ok false && h.fits false o.b.isLit

def VSel.wf (h : Head) (o : VSel) : Bool :=
  [Ty.b32, .x64].contains o.ty && (o.ty != .x64 || evenV o.d) && o.a.okReg (o.ty == .x64) && o.b.ok (o.ty == .x64) &&
  h.fits false o.b.isLit

def VCmp.wf (tys : List Ty) (ccs : Nat) (h : Head) (o : VCmp) : Bool :=
  tys.contains o.ty && o.cc.toNat < ccs && o.a.okReg (o.ty == .x64) && o.b.ok (o.ty == .x64) && h.fits false o.b.isLit

def VUn.wf (rmOk : Bool) (h : Head) (o : VUn) : Bool :=
  (rmOk || o.rm == .rne) && o.a.okReg false && h.fits false false

/-- Bits of an element of a type, as `vcvt` and the stores use them. -/
def Ty.bits : Ty → Nat
  | .i8 | .n8 | .e4m3 | .e5m2 => 8
  | .i16 | .n16 | .bf16 => 16
  | .x64 => 64
  | .f36 => 36
  | .bfp k => k.toNat + 2
  | _ => 32

def Ty.isInt : Ty → Bool
  | .i8 | .i16 | .i32 | .n8 | .n16 | .n32 => true
  | _ => false

def Ty.isSmallFp : Ty → Bool
  | .bf16 | .e4m3 | .e5m2 => true
  | _ => false

/-- The pairs of R61 that `vcvt` converts. -/
def cvtPair (src dst : Ty) : Bool :=
  match src with
  | .f32 => dst.isSmallFp || dst.isInt
  | .bf16 => dst == .e4m3 || dst == .e5m2 || dst == .f32 || dst.isInt
  | .e4m3 => dst == .bf16 || dst == .f32 || dst == .e5m2
  | .e5m2 => dst == .bf16 || dst == .f32 || dst == .e4m3
  | t => t.isInt && (dst == .f32 || dst == .bf16)

def VCvt.wf (h : Head) (o : VCvt) : Bool :=
  cvtPair o.src o.dst && (!o.sat || o.dst.isSmallFp) && o.sp.toNat < 32 / o.src.bits &&
  (if o.dst.isInt then o.dp == 0 else o.dp.toNat < 32 / o.dst.bits) && o.a.okReg false && h.fits false false

def keyTys : List Ty := [.f32, .i32, .n32]

def VSrt.wf (h : Head) (o : VSrt) : Bool :=
  keyTys.contains o.ty && evenV o.d && o.lr.toNat ≤ 4 && o.lj.toNat < o.lr.toNat + 6 && o.lj.toNat < o.lk.toNat &&
  o.lk.toNat ≤ o.lr.toNat + 6 && o.d.toNat + 2 * 2 ^ o.lr.toNat - 1 ≤ 2047 && h.fits false false

def VMrg.wf (h : Head) (o : VMrg) : Bool :=
  keyTys.contains o.ty && evenV o.a && evenV o.b && (if o.lo then evenV o.d else o.d.toNat % 4 == 0) && h.fits false false

def VTopk.wf (h : Head) (o : VTopk) : Bool :=
  keyTys.contains o.ty && evenV o.d && evenV o.a && 1 ≤ o.k.toNat && o.k.toNat ≤ 64 && h.fits false false

def tileOk : Tile → Bool := fun _ => true

/-- Bytes of an access type (R268). -/
def accBytes (c : Nat) : Nat :=
  match c with
  | 1 => 8
  | 2 | 3 => 1
  | 4 | 5 => 2
  | 6 => 16
  | _ => 4

/-- A data register of an access type: a register, a pair, or four registers (R268). -/
def dataOk (scalar : Bool) (c : Nat) (d : BitVec 11) : Bool :=
  (!scalar || d.toNat < 64) && (c != 1 || d.toNat % 2 == 0) && (c != 6 || d.toNat % 4 == 0)

def baseOk (global : Bool) (o : MemF) : Bool :=
  (o.bk || o.base.toNat < 64) && (!global || o.base.toNat % 2 == 0)

def ordOk (ords : List (BitVec 2)) (o : MemF) : Bool :=
  ords.contains o.ord && o.scope.toNat < 6 && (o.ord != 0 || o.scope == 0)

/-- R267 for a load or store with an access type: `maxC` is the last code accepted, `uniOk` permits UNI. -/
def MemF.wfAcc (scalar global uniOk raw : Bool) (maxC : Nat) (bks : List Bool) (ords : List (BitVec 2)) (h : Head)
    (o : MemF) : Bool :=
  let c := o.var.toNat % 8
  c ≤ maxC && (!raw || !(c == 3 || c == 5)) && (o.var.toNat < 8 || (uniOk && !o.bk)) && dataOk scalar c o.data &&
  bks.contains o.bk && baseOk global o && ordOk ords o && h.fits false false

/-- R274: `vgth` and `vsct`, whose DATA is a scalar that holds the scratchpad offset. -/
def MemF.wfGth (h : Head) (o : MemF) : Bool :=
  let c := o.var.toNat
  (c == 0 || c == 1 || c == 2 || c == 4 || c == 6) && o.data.toNat < 64 && o.bk && baseOk true o && ordOk [0, 1] o &&
  h.fits false false

/-- R276: VAR is the member index. -/
def MemF.wfGang (h : Head) (o : MemF) : Bool := baseOk false o && ordOk [0] o && h.fits false false

def MemF.wfLdx (h : Head) (o : MemF) : Bool :=
  o.var == 0 && !o.bk && baseOk true o && ordOk [0] o && h.fits false false

/-- R279, R280: `cpf` and `cop`, which name no data register. -/
def MemF.wfLine (vars : List (BitVec 4)) (h : Head) (o : MemF) : Bool :=
  vars.contains o.var && o.data == 0 && baseOk true o && ordOk [0] o && h.fits false false

/-- R281: the combinations of operation and type that `atm` allows. -/
def atmOk (aop ty : Nat) : Bool :=
  if aop < 8 then ty < 3 else if aop < 10 then ty == 3 else false

def MemF.wfAtm (h : Head) (f : AtmFn) (o : MemF) : Bool :=
  let t := o.var.toNat
  t < 4 && atmOk f.aop.toNat t && baseOk f.glb o && o.scope.toNat < 6 && (f.glb || (o.ord == 0 && o.scope == 0)) &&
  (if f.aop == 7 then (if t == 2 then o.data.toNat % 4 == 0 else o.data.toNat % 2 == 0)
   else (t != 2 || o.data.toNat % 2 == 0)) && h.fits false false

/-- The defined special-register indices (R217). -/
def sregDefined (i : W8) : Bool := i.toNat ≤ 0x13 || (0x18 ≤ i.toNat && i.toNat ≤ 0x1A)

/-- A branch distance is a multiple of 4 (R218). -/
def distOk (t : W32) : Bool := t.toNat % 4 == 0

def sOpt (b : Option VSrc) : Bool :=
  match b with
  | none => true
  | some (.vec _) => false
  | some v => v.ok false

def optLit (b : Option VSrc) : Bool :=
  match b with
  | some v => v.isLit
  | none => false

def adrnTys : List Ty := [.f32, .bf16, .e4m3, .e5m2, .bfp 0, .bfp 1, .bfp 2, .bfp 3, .bfp 4, .bfp 5, .bfp 6]

/-- Well-formed instructions; an event has no encoding and is always well formed. -/
def Instr.wf : Instr → Bool
  | .nop _ => true
  | .sadd h o | .ssub h o => o.wf true arithTys (o.ty != .b32) false h
  | .smul h o => o.wf true arithTys (!o.x && o.ty != .b32) (is32 o.ty) h
  | .sdiv h o => o.wf true orderTys false true h
  | .sand h o | .sor h o | .sxor h o | .sshl h o => o.wf true [.b32] false false h
  | .sshr h o => o.wf true [.n32, .i32] false false h
  | .smin h o | .smax h o => o.wf true orderTys false false h
  | .scmp h o => o.wf h
  | .ssel h o => o.wf h
  | .smov h o => o.wf false h
  | .sli h o => o.wf true h
  | .sbfe h o => o.wf false [.n32, .i32] false false h
  | .sbit h o => o.wf h
  | .swide h o => o.wf false [.x64, .i32, .n32] false true h && evenS o.d && evenS o.a
  | .qsub h a | .nbrun h a => evenS a && h.fits false false
  | .cland h _ a op ty =>
    evenS a && op.toNat < 3 && (ty == .f32 || ((ty == .bf16 || ty == .i32) && op == 0)) && h.fits false false
  | .trapShort h a => evenS a && a.toNat < 32 && h.len == 0
  | .trap h _ a => evenS a && h.len == 2
  | .tret h | .tretSkip h | .brkpt h _ => h.len == 2
  | .sregRead h _ i | .sregWrite h _ i | .sregSwap h _ _ i => sregDefined i && h.len == 2
  | .br h t | .jmp h t => distOk t && h.fits true true
  | .brpAny h _ t => distOk t && h.fits true true
  | .brpAll h _ t => distOk t && h.fits false true
  | .jmpi h a => evenS a && h.fits (a.toNat < 32) false
  | .call h d t => evenV d && distOk t && h.fits (d.toNat < 32) true
  | .ret h a => evenV a && h.fits (a.toNat < 32) false
  | .rcv h | .yld h => h.fits true false
  | .pop h o => o.wf h
  | .pvote h _ _ m => m != 3 && h.fits false false
  | .pball h d _ => evenS d && h.fits false false
  | .pballPopc h _ _ => h.fits false false
  | .vshfl h o => o.wf h
  | .vscan h o => o.wf true h
  | .vred h o => o.wf false h
  | .vid h _ b => (match b with | none => true | some (.vec _) => false | some v => v.ok false) && h.fits false (optLit b)
  | .vbcst h _ a b => a.okReg false && sOpt b && h.fits false (optLit b)
  | .vadd h o | .vsub h o => o.wf true (arithTys ++ [.x64]) false (o.ty != .b32 && o.ty != .x64) false h
  | .vmul h o => o.wf true arithTys false (!o.x && o.ty != .b32) (is32 o.ty) h
  | .vmad h o => o.wf [.b32, .i32, .n32] false (!o.x && is32 o.ty) (is32 o.ty) h
  | .vmin h o | .vmax h o => o.wf true orderTys false false false h
  | .vand h o | .vor h o | .vxor h o | .vshl h o => o.wf true [.b32] false false false h
  | .vshr h o => o.wf true [.n32, .i32] false false false h
  | .vbit h o => o.wf h
  | .vbfe h o => o.wf false [.n32, .i32] false false false h
  | .vbfi h o => o.wf [.b32] false false false h
  | .vsel h o => o.wf h
  | .vcmp h o => o.wf (orderTys ++ [.x64]) 6 h
  | .vfadd h o | .vfsub h o | .vfmul h o => o.wf true [.f32] true false false h
  | .vffma h o => o.wf [.f32] true false false h
  | .vfmin h o | .vfmax h o => o.wf true [.f32] false false true h
  | .vfcmp h o => o.wf [.f32] 8 h
  | .vfcls h _ a _ => a.okReg false && h.fits false false
  | .vfrcp h o | .vfsqrt h o => o.wf true h
  | .vfrsq h o | .vfexp h o | .vflog h o | .vftanh h o | .vfsinpi h o | .vfcospi h o => o.wf false h
  | .vcvt h o => o.wf h
  | .vfrnd h o => o.wf true h
  | .vdot2 h o => o.wf [.bf16, .i16, .n16] (o.ty == .bf16) o.ty.isInt false h
  | .vdot4 h o => o.wf [.i8, .n8, .e4m3, .e5m2] o.ty.isSmallFp o.ty.isInt false h
  | .vmov h d b ty => [Ty.b32, .x64].contains ty && (ty != .x64 || evenV d) && b.ok (ty == .x64) && h.fits false b.isLit
  | .vfscl h o => o.wf false [.f32] true false false h
  | .vsrt h o => o.wf h
  | .vmrg h o => o.wf h
  | .vtopk h o => o.wf h
  | .sld h o => o.wfAcc true true false false 5 [false] [0, 1, 2] h
  | .sst h o => o.wfAcc true true false false 5 [false] [0, 1, 3] h
  | .vld h o => o.wfAcc false true true false 6 [false, true] [0, 1, 2] h
  | .vst h o => o.wfAcc false true true false 6 [false, true] [0, 1, 3] h
  | .vgth h o | .vsct h o => o.wfGth h
  | .lds h o | .sts h o => o.wfAcc false false true false 6 [false, true] [0] h
  | .gld h o | .gst h o => o.wfGang h
  | .mst h o => o.wfAcc false false false true 6 [false, true] [0] h
  | .ldx h o => o.wfLdx h
  | .cpf h o => o.wfLine [0, 1] h
  | .copInv h o => o.wfLine [0] h
  | .copInvall h o => o.wfLine [1] h && o.base == 0 && o.off == 0 && !o.bk
  | .copWb h o => o.wfLine [2] h
  | .copWbinv h o => o.wfLine [3] h
  | .atm h f o => o.wfAtm h f
  | .fenceRel h sc | .fenceAcq h sc | .fenceSc h sc => sc.toNat < 6 && h.fits false false
  | .wcnt h m _ => m != 0 && h.fits false false
  | .bar h => h.fits false false
  | .gbar h _ => h.fits false false
  | .mon h d a => evenS d && evenS a && h.fits false false
  | .monSp h d _ | .mwait h d _ => evenS d && h.fits false false
  | .sgacqE h _ _ | .sgacqF h _ _ | .sgrel h _ _ => h.fits false false
  | .sgrelInit h _ n => 1 ≤ n.toNat && n.toNat ≤ 16 && h.fits false false
  | .rgn h _ => h.fits false true
  | .rgnend h => h.fits false false
  | .xacq h k | .xacqTry h _ k | .xrel h k => k != 0 && h.fits false false
  | .spawn h a => evenS a && h.fits false false
  | .spawnr h _ b => evenS b && h.fits false false
  | .join h d a _ | .fpoll h d a _ => evenS d && evenS a && h.fits false false
  | .fset h a => evenS a && h.fits false false
  | .fsetAt h _ a b => evenS a && evenS b && h.fits false false
  | .fflt h _ b => evenS b && h.fits false false
  | .ffltAt h _ _ b c => evenS b && evenS c && h.fits false false
  | .texit h => h.fits false false
  | .tmark h _ => h.fits false false
  | .cpy h _ => h.fits false false
  | .qput h d a _ | .qputX2 h d a _ => evenS d && evenS a && h.fits false false
  | .strm h _ _ | .strmend h _ => h.fits false false
  | .lbind h _ b => evenS b && h.fits false false
  | .laddr h d _ _ _ => evenV d && h.fits false false
  | .mma h _ _ _ n | .mmaSh h _ _ _ n => n != 0 && h.fits false false
  | .accZero h _ m | .accCommit h _ m | .accDiscard h _ m => 1 ≤ m.toNat && m.toNat ≤ 1024 && h.fits false false
  | .accMove h t u m =>
    1 ≤ m.toNat && m.toNat ≤ 1024 && h.fits false false &&
    (match t, u with | .imm _, .imm _ => true | .ind _, .ind _ => true | _, _ => false)
  | .ardv h _ => h.fits false false
  | .ardvRaw h o => evenV o.d && o.rm == .rne && !o.sat && h.fits false false
  | .adrn h o => adrnTys.contains o.ty && (!o.sat || o.ty == .f32 || o.ty.isSmallFp) && h.fits false false
  | .fskip h _ n => n != 0 && h.fits false false
  | .mwaitWake .. | .mwaitDeadline .. | .watchTableFullReread .. | .parkedWatchSpuriousWake .. | .joinerWake ..
  | .loadResultArrives .. | .fixedLatencyWriteback .. | .storePerformed .. | .leaseExpiry .. | .tlbWalk ..
  | .tileArrival .. | .dequePop .. | .taskStart .. | .gangStart .. | .stealAttempt .. | .stealAttemptReceived ..
  | .stealOfferReceived .. | .stealAckReceived .. | .stealConfirmReceived .. | .stealKeepReceived ..
  | .stealOfferTimeout .. | .stealLendTimeout .. | .stealAnswerTimeout .. | .forwardProgressSwap .. | .teamRestore ..
  | .handlerEntry .. | .fatalFault .. | .warpRetire .. | .taskRetire .. | .cpyTransfer .. | .cpyComplete ..
  | .streamSliceEnter .. | .mmaSliceApply .. | .mtxOpComplete .. | .adrnComplete .. | .gthComplete .. | .mstDelivery ..
  | .nbProgramStart .. | .nbRowOperation .. | .nbWindowResume .. | .nbForcedRowOperation .. | .nbProgramComplete ..
  | .hbmRefreshDue .. | .hbmControllerRequest .. | .landingPacketApply .. | .queryDistance .. | .queryRound ..
  | .queryComplete .. | .shapeResolution .. | .shapeTimeout .. | .speculationTagFree .. | .qsNotify .. | .queueConsume ..
  | .nopPacket .. | .launchPacket .. | .copyPacket .. | .fillPacket .. | .signalStore .. | .signalAtomicAdd ..
  | .signalCompleteFuture .. | .waitPacket .. | .waitReevaluate .. | .waitTimeout .. | .fencePacket .. | .packetComplete ..
  | .launchComplete .. | .vfSettle | .qsErrslotClear .. | .tlbShoot .. | .shootdownComplete | .fwinWrite .. | .lwinWrite ..
  | .registerWrite .. | .ctxCreate | .ctxDestroy | .qCreate | .qDestroy | .rangesFree | .peerBind | .ckptReg | .attest
  | .fwLoad .. | .mbxUnknownOpc | .umberQuantum | .queueIdleSwap .. | .queueReadyMap .. | .umberFaultService ..
  | .pageMigration .. | .umberPreemptRequest .. | .slateTakeover | .axlNotify .. | .axyelAppend .. | .axyelPut ..
  | .axyelGet .. | .axyelLand .. | .axyelReceive .. | .axyelDescriptorComplete .. | .linkLoss .. | .hostCxlMemAccess ..
  | .backInvalidateResponse .. | .fabricHeaderCheck .. | .fabricOpTimeout .. | .routerFailure .. | .bridgeLoss ..
  | .restitchComplete | .dieLoss .. | .reset .. | .stackTrained .. | .repairDone .. | .linkTrained .. | .powerOverCap ..
  | .powerUnderCap .. | .currentLimit .. | .patrolScrub .. | .lifetimeCounterSave .. | .bridgeReturn ..
  | .currentFallsBelowLimit .. | .cxlCacheSnoop .. => true

end Sys2Proof
end

