-- ==== Sys2Proof/Machine/Float.lean ====
section
/-!
DEFINITION. Numbers: formats, exact values, rounding, saturation and conversions (R45 to R64).
-/
namespace Sys2Proof.Machine

/-- A floating-point format: precision, exponent bits, bias, whether it has infinity and subnormals (R47, R50). -/
structure Fmt where
  p : Nat
  ew : Nat
  bias : Nat
  inf : Bool
  sub : Bool
  deriving DecidableEq, Repr

def fmtF32 : Fmt := ⟨24, 8, 127, true, true⟩
def fmtBf16 : Fmt := ⟨8, 8, 127, true, true⟩
def fmtE4m3 : Fmt := ⟨4, 4, 7, false, true⟩
def fmtE5m2 : Fmt := ⟨3, 5, 15, true, true⟩
def fmtF36 : Fmt := ⟨27, 9, 255, true, false⟩

def fmtOf : Ty → Fmt
  | .bf16 => fmtBf16
  | .e4m3 => fmtE4m3
  | .e5m2 => fmtE5m2
  | .f36 => fmtF36
  | _ => fmtF32

/-- An exact value: NaN, an infinity, or ±m × 2^e. -/
inductive XV where
  | nan
  | inf (neg : Bool)
  | fin (neg : Bool) (m : Nat) (e : Int)
  deriving DecidableEq, Repr

def emin (f : Fmt) : Int := 1 - (f.bias : Int)

/-- The value of an encoding (R47, R48, R50). -/
def unpack (f : Fmt) (n : Nat) : XV :=
  let neg := (n / 2 ^ (f.ew + f.p - 1)) % 2 == 1
  let e := (n / 2 ^ (f.p - 1)) % 2 ^ f.ew
  let fr := n % 2 ^ (f.p - 1)
  let top := 2 ^ f.ew - 1
  if f.inf && e == top then (if fr == 0 then .inf neg else .nan)
  else if !f.inf && e == top && fr == 2 ^ (f.p - 1) - 1 then .nan
  else if e == 0 then (if f.sub then .fin neg fr (emin f - (f.p - 1 : Nat)) else .fin neg 0 0)
  else .fin neg (2 ^ (f.p - 1) + fr) ((e : Int) - f.bias - (f.p - 1 : Nat))

/-- The canonical NaN (R48, R49, R50). -/
def canonNan (f : Fmt) : Nat :=
  if f.inf then (2 ^ f.ew - 1) * 2 ^ (f.p - 1) + 2 ^ (f.p - 2) else 2 ^ (f.ew + f.p - 1) - 1

def signBit (f : Fmt) (neg : Bool) : Nat := if neg then 2 ^ (f.ew + f.p - 1) else 0
def infBits (f : Fmt) (neg : Bool) : Nat := signBit f neg + (2 ^ f.ew - 1) * 2 ^ (f.p - 1)
def largest (f : Fmt) (neg : Bool) : Nat :=
  signBit f neg + (if f.inf then (2 ^ f.ew - 1) * 2 ^ (f.p - 1) - 1 else 2 ^ (f.ew + f.p - 1) - 2)

/-- The exponent of the largest finite number. -/
def emax (f : Fmt) : Int := (if f.inf then (2 ^ f.ew - 2 : Nat) else (2 ^ f.ew - 1 : Nat)) - (f.bias : Int)

/-- The integer next to m / 2^k by the mode, for a number of the given sign (R55). -/
def roundShift (rm : Rm) (neg : Bool) (m k : Nat) : Nat :=
  let q := m / 2 ^ k
  let r := m % 2 ^ k
  let up := match rm with
    | .rne => r * 2 > 2 ^ k || (r * 2 == 2 ^ k && q % 2 == 1)
    | .rtz => false
    | .rdn => neg && r != 0
    | .rup => !neg && r != 0
  if up then q + 1 else q

/-- Multiples of 2^qe selected from m × 2^e (R56). -/
def quantum (rm : Rm) (neg : Bool) (m : Nat) (e qe : Int) : Nat :=
  if qe ≤ e then m * 2 ^ (e - qe).toNat else roundShift rm neg m (qe - e).toNat

/-- The flags of FPFLAGS (R59). -/
def fNV : W32 := 1
def fDZ : W32 := 2
def fOF : W32 := 4
def fUF : W32 := 8
def fNX : W32 := 16
def fSAT : W32 := 32

/-- The encoding of a finite y × 2^qe with y ≤ 2^p that the format holds. -/
def packFin (f : Fmt) (neg : Bool) (y : Nat) (qe : Int) : Nat :=
  if y = 0 then signBit f neg
  else
    let l := Nat.log2 y
    let e := (l : Int) + qe
    if e < emin f then signBit f neg + y * 2 ^ (qe - (emin f - (f.p - 1 : Nat))).toNat
    else
      let fr := if l ≤ f.p - 1 then y * 2 ^ (f.p - 1 - l) else y / 2 ^ (l - (f.p - 1))
      signBit f neg + (e + f.bias).toNat * 2 ^ (f.p - 1) + fr % 2 ^ (f.p - 1)

/-- Rounding an exact value to a format (R56), with saturation when `sat` is set (R58), and the flags that the result
raises (R59). -/
def rnd (f : Fmt) (rm : Rm) (sat : Bool) (x : XV) : Nat × W32 :=
  match x with
  | .nan => (canonNan f, 0)
  | .inf neg =>
    if sat then (largest f neg, fNX ||| fSAT) else if f.inf then (infBits f neg, 0) else (canonNan f, fNX)
  | .fin neg 0 _ => (signBit f neg, 0)
  | .fin neg m e =>
    let lead := (Nat.log2 m : Int) + e
    let e' := if f.sub then max lead (emin f) else lead
    let qe := e' - f.p + 1
    let y := quantum rm neg m e qe
    let exact := (if qe ≤ e then true else m % 2 ^ (qe - e).toNat == 0)
    let top := if y = 0 then emin f else (Nat.log2 y : Int) + qe
    let past := emax f < top ||
      (top == emax f && !f.inf && y * 2 ^ (f.p - 1 - Nat.log2 y) == 2 ^ f.p - 1)
    if past then
      let toInf := match rm with
        | .rne => true
        | .rtz => false
        | .rdn => neg
        | .rup => !neg
      if !toInf then (largest f neg, fOF ||| fNX)
      else if sat then (largest f neg, fOF ||| fNX ||| fSAT)
      else if f.inf then (infBits f neg, fOF ||| fNX)
      else (canonNan f, fOF ||| fNX)
    else
      let qu := lead - f.p + 1
      let yu := quantum rm neg m e qu
      let tiny := (Nat.log2 yu : Int) + qu < emin f
      if !f.sub && tiny then (signBit f neg, 0)
      else (packFin f neg y qe, if exact then 0 else if tiny then fUF ||| fNX else fNX)

/-- An F36 value and whether it was flushed to zero (R51). -/
def f36 (rm : Rm) (x : XV) : F36 × Bool :=
  let r := (rnd fmtF36 rm false x).1
  (BitVec.ofNat 36 r, match x with
    | .fin _ m _ => m != 0 && r % 2 ^ 35 == 0
    | _ => false)

def XV.neg? : XV → Bool
  | .nan => false
  | .inf n => n
  | .fin n _ _ => n

def XV.negate : XV → XV
  | .nan => .nan
  | .inf n => .inf !n
  | .fin n m e => .fin (!n) m e

def XV.abs : XV → XV
  | .nan => .nan
  | .inf _ => .inf false
  | .fin _ m e => .fin false m e

def XV.isNan : XV → Bool
  | .nan => true
  | _ => false

def XV.isZero : XV → Bool
  | .fin _ 0 _ => true
  | _ => false

/-- An exact product; `0 × ∞` is NaN (R241). -/
def XV.mul : XV → XV → XV
  | .nan, _ => .nan
  | _, .nan => .nan
  | .inf a, .inf b => .inf (a != b)
  | .inf a, .fin b m _ => if m = 0 then .nan else .inf (a != b)
  | .fin a m _, .inf b => if m = 0 then .nan else .inf (a != b)
  | .fin a m e, .fin b n k => .fin (a != b) (m * n) (e + k)

/-- The product is `0 × ∞`. -/
def mulInvalid : XV → XV → Bool
  | .inf _, .fin _ 0 _ => true
  | .fin _ 0 _, .inf _ => true
  | _, _ => false

def minExp : List XV → Int → Int
  | [], e => e
  | .fin _ 0 _ :: l, e => minExp l e
  | .fin _ _ k :: l, e => minExp l (min k e)
  | _ :: l, e => minExp l e

def termAt (e : Int) : XV → Int
  | .fin neg m k => let v : Int := m * 2 ^ (k - e).toNat
    if m = 0 then 0 else if neg then -v else v
  | _ => 0

def sumInvalid (l : List XV) : Bool := l.contains (.inf true) && l.contains (.inf false)

/-- An exact sum (R57, R67). -/
def xsum (rm : Rm) (l : List XV) : XV :=
  if l.any XV.isNan || sumInvalid l then .nan
  else if l.contains (.inf true) then .inf true
  else if l.contains (.inf false) then .inf false
  else
    let e := minExp l 1000
    let t := l.foldl (fun a x => a + termAt e x) 0
    if t = 0 then
      (if l.all (fun x => x.isZero && x.neg?) then .fin true 0 0 else .fin (rm == .rdn) 0 0)
    else .fin (t < 0) t.natAbs e

def f32v (w : W32) : XV := unpack fmtF32 w.toNat
def ofF32 (r : Nat × W32) : W32 × W32 := (BitVec.ofNat 32 r.1, r.2)

/-- `rne` to FP32 of an exact value, without flags. -/
def rne32 (x : XV) : W32 := BitVec.ofNat 32 (rnd fmtF32 .rne false x).1

/-- FP32 add, subtract, multiply and fused multiply-add with their flags (R241). -/
def fadd (rm : Rm) (a b : W32) : W32 × W32 :=
  let l := [f32v a, f32v b]
  let r := rnd fmtF32 rm false (xsum rm l)
  if !(l.any XV.isNan) && sumInvalid l then (BitVec.ofNat 32 r.1, fNV) else ofF32 r

def fneg (a : W32) : W32 := a ^^^ 0x80000000

def fsub (rm : Rm) (a b : W32) : W32 × W32 :=
  if (f32v b).isNan then fadd rm a b else fadd rm a (fneg b)

def fmul (rm : Rm) (a b : W32) : W32 × W32 :=
  let r := rnd fmtF32 rm false ((f32v a).mul (f32v b))
  if mulInvalid (f32v a) (f32v b) then (BitVec.ofNat 32 r.1, fNV) else ofF32 r

def ffma (rm : Rm) (a b c : W32) : W32 × W32 :=
  let pr := (f32v a).mul (f32v b)
  let l := [pr, f32v c]
  let r := rnd fmtF32 rm false (xsum rm l)
  if mulInvalid (f32v a) (f32v b) || (!(l.any XV.isNan) && sumInvalid l) then (BitVec.ofNat 32 r.1, fNV) else ofF32 r

/-- The order of FP32 values with -0 below +0, as an integer (R241, R336). -/
def fkey (w : W32) : Int := if w.getLsbD 31 then -((w.toNat % 2 ^ 31 : Nat) : Int) - 1 else (w.toNat : Int)

def isNan32 (w : W32) : Bool := (f32v w).isNan
def cNan32 : W32 := 0x7FC00000

def fmin (abs : Bool) (a b : W32) : W32 :=
  let a' := if abs then a &&& 0x7FFFFFFF else a
  let b' := if abs then b &&& 0x7FFFFFFF else b
  if isNan32 a && isNan32 b then cNan32
  else if isNan32 a then b' else if isNan32 b then a'
  else if fkey b' < fkey a' then b' else a'

def fmax (abs : Bool) (a b : W32) : W32 :=
  let a' := if abs then a &&& 0x7FFFFFFF else a
  let b' := if abs then b &&& 0x7FFFFFFF else b
  if isNan32 a && isNan32 b then cNan32
  else if isNan32 a then b' else if isNan32 b then a'
  else if fkey a' < fkey b' then b' else a'

/-- `famax`: NaN when either operand is NaN, else the larger magnitude (R282). -/
def famax (a b : W32) : W32 := if isNan32 a || isNan32 b then cNan32 else fmax true a b

/-- The order of two FP32 values, with -0 equal to +0; none when unordered (R242). -/
def fcompare (a b : W32) : Option Ordering :=
  if isNan32 a || isNan32 b then none
  else
    let k := fun (w : W32) => let v : Int := (w.toNat % 2 ^ 31 : Nat)
      if w.getLsbD 31 then -v else v
    some (compare (k a) (k b))

/-- Conditions of `vfcmp` (R242). -/
def fcond (cc : BitVec 3) (a b : W32) : Bool :=
  let c := fcompare a b
  match cc.toNat with
  | 0 => c == some .eq
  | 1 => c != some .eq
  | 2 => c == some .lt
  | 3 => c == some .lt || c == some .eq
  | 4 => c == some .gt
  | 5 => c == some .gt || c == some .eq
  | 6 => c.isSome
  | _ => c.isNone

/-- The class bit of `vfcls` (R243). -/
def fclass (w : W32) : Nat :=
  let neg := w.getLsbD 31
  match f32v w with
  | .nan => 8
  | .inf _ => if neg then 0 else 7
  | .fin _ m _ =>
    if m = 0 then (if neg then 3 else 4)
    else if m < 2 ^ 23 then (if neg then 2 else 5)
    else (if neg then 1 else 6)

/-- 1 / a, correctly rounded: the quotient to 64 places with a last place that keeps any remainder (R245). -/
def frcp (rm : Rm) (a : W32) : W32 × W32 :=
  match f32v a with
  | .nan => (cNan32, 0)
  | .inf n => (if n then 0x80000000 else 0, 0)
  | .fin n 0 _ => (if n then 0xFF800000 else 0x7F800000, fDZ)
  | .fin n m e =>
    let q := 2 ^ 96 / m
    ofF32 (rnd fmtF32 rm false (.fin n (q * 2 + (if 2 ^ 96 % m = 0 then 0 else 1)) (-e - 97)))

/-- The integer square root by bisection over `k` bits. -/
def isqrt : Nat → Nat → Nat → Nat
  | 0, _, r => r
  | k + 1, n, r => let t := r + 2 ^ k
    isqrt k n (if t * t ≤ n then t else r)

/-- The square root, correctly rounded (R245). -/
def fsqrt (rm : Rm) (a : W32) : W32 × W32 :=
  match f32v a with
  | .nan => (cNan32, 0)
  | .inf n => if n then (cNan32, fNV) else (0x7F800000, 0)
  | .fin n 0 _ => (if n then 0x80000000 else 0, 0)
  | .fin true _ _ => (cNan32, fNV)
  | .fin _ m e =>
    let m' := if e % 2 = 0 then m * 2 ^ 64 else m * 2 ^ 65
    let e' := if e % 2 = 0 then e - 64 else e - 65
    let r := isqrt 48 m' 0
    ofF32 (rnd fmtF32 rm false (.fin false (r * 2 + (if r * r = m' then 0 else 1)) (e' / 2 - 1)))

/-- Flags on the returned value of a function whose result is not exact (R246): NX for a finite result, OF for an
infinity, UF when the result is below the smallest normal. -/
def sfuFlags (r : W32) : W32 :=
  match f32v r with
  | .nan => 0
  | .inf _ => fOF
  | .fin _ m _ => if m < 2 ^ 23 then fNX ||| fUF else fNX

/-- A finite value is an integer. -/
def isInteger (m : Nat) (e : Int) : Bool := 0 ≤ e || m % 2 ^ (-e).toNat == 0

/-- The value is a power of two, with its exponent. -/
def pow2? (m : Nat) (e : Int) : Option Int := if m ≠ 0 ∧ m = 2 ^ Nat.log2 m then some (Nat.log2 m + e) else none

/-- The integer of a finite integral value. -/
def intOf (n : Bool) (m : Nat) (e : Int) : Int :=
  let v : Int := if 0 ≤ e then m * 2 ^ e.toNat else (m / 2 ^ (-e).toNat : Nat)
  if n then -v else v

/-! The functions whose results the spec bounds (R245). Their exact values are enclosed in multiples of 2^-256, the logarithm's from
its first 100 digits and the others' from multiples of 2^-96, with an error below 2^-80 (log 14). -/

/-- `m` times 2^`e`, in multiples of 2^-96. -/
def fix96 (m : Nat) (e : Int) : Nat := if 0 ≤ e + 96 then m * 2 ^ (e + 96).toNat else m / 2 ^ (-(e + 96)).toNat

/-- The first `k` terms of the exponential's series, the n-th of them `t`; all in multiples of 2^-96. -/
def expSeries (z : Nat) : Nat → Nat → Nat → Nat
  | 0, _, _ => 0
  | k + 1, n, t => t + expSeries z k (n + 1) (t * z / 2 ^ 96 / n)

/-- Two to the power of `t`, at least 0 and below 1. -/
def exp2Frac (t : Nat) : Nat := expSeries (t * 0xB17217F7D1CF79ABC9E3B398 / 2 ^ 96) 32 1 (2 ^ 96)

/-- The sine's series, alternating: `t` is the term of the odd power `n`. -/
def sinSeries (z : Nat) : Nat → Nat → Nat → Nat
  | 0, _, _ => 0
  | k + 1, n, t => t - sinSeries z k (n + 2) (t * z / 2 ^ 96 * z / 2 ^ 96 / ((n + 1) * (n + 2)))

/-- The sine of pi times `f`, at least 0 and at most a half. -/
def sinPiFrac (f : Nat) : Nat := let z := f * 0x3243F6A8885A308D313198A2E / 2 ^ 96
  sinSeries z 16 1 z

/-- The first `k` binary digits of the logarithm of `x`, at least 1 and below 2, in multiples of 2^-256. -/
def logDigits : Nat → Nat → Nat → Nat
  | 0, _, acc => acc
  | k + 1, x, acc => let y := x * x / 2 ^ 256
    if 2 ^ 257 ≤ y then logDigits k (y / 2) (2 * acc + 1) else logDigits k y (2 * acc)

/-- A result lies within the larger of `n` ulp and 2^-`lo` of every value from `x` to `y`, between which the exact one lies, in
multiples of 2^-256, with no power of two between (R245, log 14). -/
def sfuWithin (n : Nat) (lo : Option Nat) (x y : Int) (r : W32) : Bool :=
  match f32v r with
  | .fin neg m e =>
    let v : Int := (m * 2 ^ (e + 256).toNat : Nat)
    let v := if neg then -v else v
    let ulp := 2 ^ (max (Nat.log2 (max x.natAbs y.natAbs - 1)) 130 - 23)
    let b : Int := (max (n * ulp) (match lo with | some k => 2 ^ (256 - k) | none => 0) : Nat)
    v - b ≤ x && y ≤ v + b
  | _ => false

/-- The part's value where it lies within the bound, otherwise the value nearest to the exact one (log 14). -/
def sfuBounded (n : Nat) (lo : Option Nat) (x y : Int) (part : W32) : W32 × W32 :=
  let mid := (x + y) / 2
  let r := if sfuWithin n lo x y part then part else rne32 (.fin (mid < 0) mid.natAbs (-256))
  (r, sfuFlags r)

/-- The interval of a function's values of one sign, between -1 and 1. -/
def signed (neg : Bool) : Int × Int := if neg then (-(2 ^ 256), 0) else (0, 2 ^ 256)

/-- An exact value near `x`, by less than `err`, kept between the bounds that the function has there. -/
def sfuNear (n : Nat) (lo : Option Nat) (x err low high : Int) (part : W32) : W32 × W32 :=
  sfuBounded n lo (max (x - err) low) (min (x + err) high) part

/-- 1 over the square root. -/
def rsqExact (m : Nat) (e : Int) : Int := isqrt 340 (2 ^ (512 - e).toNat / m) 0
/-- 2 to the power of the value. -/
def expExact (n : Bool) (m : Nat) (e : Int) : Int :=
  let q : Int := if n then -(fix96 m e : Int) else fix96 m e
  exp2Frac (q % 2 ^ 96).toNat * 2 ^ (q / 2 ^ 96 + 160).toNat
/-- 2 to the power of the value, enclosed: the power itself at an integer, otherwise between the powers of two around it. -/
def expBounds (n : Bool) (m : Nat) (e : Int) : Int × Int :=
  let k : Int := (fix96 m e / 2 ^ 96 : Nat)
  if isInteger m e then (2 ^ ((if n then -k else k) + 256).toNat - 1, 2 ^ ((if n then -k else k) + 256).toNat + 1)
  else
    let x := expExact n m e
    let low : Int := 2 ^ ((if n then -k - 1 else k) + 256).toNat
    (max (x - x / 2 ^ 80 - 1) low, min (x + x / 2 ^ 80 + 1) (2 * low))
/-- The logarithm to base 2. -/
def logExact (m : Nat) (e : Int) : Int :=
  let l := Nat.log2 m
  ((l + e) * 2 ^ 100 + logDigits 100 (m * 2 ^ 256 / 2 ^ l) 0) * 2 ^ 156
/-- (E - 1) / (E + 1), where E is 2 to the power of 2x over the logarithm of 2. -/
def tanhExact (n : Bool) (m : Nat) (e : Int) : Int :=
  let q := fix96 m (e + 1) * 0x171547652B82FE1777D0FFDA0 / 2 ^ 96
  let p := exp2Frac (q % 2 ^ 96) * 2 ^ (q / 2 ^ 96)
  let t : Int := ((p - 2 ^ 96) * 2 ^ 256 / (p + 2 ^ 96) : Nat)
  if n then -t else t
/-- The sine of pi times the value, and whether it is negative. -/
def sinpiNeg (n : Bool) (m : Nat) (e : Int) : Bool := (fix96 m e / 2 ^ 96 % 2 == 1) != n
def sinpiExact (n : Bool) (m : Nat) (e : Int) : Int :=
  let f := fix96 m e % 2 ^ 96
  let t : Int := (sinPiFrac (min f (2 ^ 96 - f)) * 2 ^ 160 : Nat)
  if sinpiNeg n m e then -t else t
/-- The cosine of pi times the value, and whether it is negative. -/
def cospiNeg (m : Nat) (e : Int) : Bool := (fix96 m e / 2 ^ 96 % 2 == 1) != (2 ^ 95 < fix96 m e % 2 ^ 96)
def cospiExact (m : Nat) (e : Int) : Int :=
  let f := fix96 m e % 2 ^ 96
  let t : Int := (sinPiFrac (if f ≤ 2 ^ 95 then 2 ^ 95 - f else f - 2 ^ 95) * 2 ^ 160 : Nat)
  if cospiNeg m e then -t else t

/-- `vfrsq`, with its special cases (R245, R246). -/
def sfuRsq (a : W32) : W32 × W32 :=
  match f32v a with
  | .nan => (cNan32, 0)
  | .inf n => if n then (cNan32, fNV) else (0, fNX)
  | .fin n 0 _ => (if n then 0xFF800000 else 0x7F800000, 0)
  | .fin true _ _ => (cNan32, fNV)
  | .fin _ m e =>
    match pow2? m e with
    | some k => if k % 2 = 0 then (rne32 (.fin false 1 (-(k / 2))), 0) else sfuBounded 1 none (rsqExact m e) (rsqExact m e + 1) (Config.vfrsq a)
    | none => sfuBounded 1 none (rsqExact m e) (rsqExact m e + 1) (Config.vfrsq a)

/-- `vfexp` (R245): the exact powers, the stated limits, and otherwise the part's value. -/
def sfuExp (a : W32) : W32 × W32 :=
  match f32v a with
  | .nan => (cNan32, 0)
  | .inf n => if n then (0, fNX) else (0x7F800000, 0)
  | .fin n m e =>
    if !n && m ≠ 0 && 7 ≤ (Nat.log2 m : Int) + e then (0x7F800000, fOF ||| fNX)
    else if n && 150 * 2 ^ 149 ≤ m * 2 ^ (e + 149).toNat then (0, fUF ||| fNX)
    else if isInteger m e && -126 ≤ intOf n m e then (rne32 (.fin false 1 (intOf n m e)), 0)
    else sfuBounded 2 none (expBounds n m e).1 (expBounds n m e).2 (Config.vfexp a)

/-- `vflog` (R245). -/
def sfuLog (a : W32) : W32 × W32 :=
  match f32v a with
  | .nan => (cNan32, 0)
  | .inf n => if n then (cNan32, fNV) else (0x7F800000, 0)
  | .fin _ 0 _ => (0xFF800000, fDZ)
  | .fin true _ _ => (cNan32, fNV)
  | .fin _ m e =>
    match pow2? m e with
    | some k => (rne32 (.fin (k < 0) k.natAbs 0), 0)
    | none =>
      let low := (Nat.log2 m + e) * 2 ^ 256
      sfuNear 2 (some 22) (logExact m e) (2 ^ 176) low (low + 2 ^ 256) (Config.vflog a)

/-- `vftanh` (R245): ±1 from magnitude 10 on. -/
def sfuTanh (a : W32) : W32 × W32 :=
  match f32v a with
  | .nan => (cNan32, 0)
  | .inf n => (if n then 0xBF800000 else 0x3F800000, fNX)
  | .fin _ 0 _ => (a, 0)
  | .fin n m e =>
    if 10 * 2 ^ 149 ≤ m * 2 ^ (e + 149).toNat then (if n then 0xBF800000 else 0x3F800000, fNX)
    else sfuNear 2 (some 24) (tanhExact n m e) (2 ^ 176) (signed n).1 (signed n).2 (Config.vftanh a)

/-- `vfsinpi` and `vfcospi` at integers and half-integers (R245); 2a is formed by one step of the exponent. -/
def sfuSinpi (a : W32) : W32 × W32 :=
  match f32v a with
  | .nan => (cNan32, 0)
  | .inf _ => (cNan32, fNV)
  | .fin n m e =>
    if isInteger m e then (if n then 0x80000000 else 0, 0)
    else if isInteger m (e + 1) then
      (if intOf n m (e + 1) % 4 = 1 then 0x3F800000 else 0xBF800000, 0)
    else sfuNear 2 (some 23) (sinpiExact n m e) (2 ^ 176) (signed (sinpiNeg n m e)).1 (signed (sinpiNeg n m e)).2 (Config.vfsinpi a)

def sfuCospi (a : W32) : W32 × W32 :=
  match f32v a with
  | .nan => (cNan32, 0)
  | .inf _ => (cNan32, fNV)
  | .fin n m e =>
    if isInteger m e then (if intOf n m e % 2 = 0 then 0x3F800000 else 0xBF800000, 0)
    else if isInteger m (e + 1) then (0, 0)
    else sfuNear 2 (some 23) (cospiExact m e) (2 ^ 176) (signed (cospiNeg m e)).1 (signed (cospiNeg m e)).2 (Config.vfcospi a)

/-! Integers (R45, R46, R58). -/

def Ty.signed : Ty → Bool
  | .i8 | .i16 | .i32 => true
  | _ => false

/-- The value of a type's low bits (R46). -/
def rdInt (t : Ty) (w : Nat) : Int :=
  let n := t.bits
  let v := w % 2 ^ n
  if Ty.signed t && 2 ^ (n - 1) ≤ v then (v : Int) - 2 ^ n else v

def intMin (t : Ty) : Int := if Ty.signed t then -(2 ^ (t.bits - 1)) else 0
def intMax (t : Ty) : Int := if Ty.signed t then 2 ^ (t.bits - 1) - 1 else 2 ^ t.bits - 1

def satInt (t : Ty) (r : Int) : Int := max (intMin t) (min (intMax t) r)

/-- A result in 32 bits: wrapped to the type and extended by it (R46). -/
def wrInt (t : Ty) (r : Int) : W32 := BitVec.ofInt 32 (rdInt t (r % 2 ^ t.bits).toNat)

/-- FP to integer (R62): the rounded integer, clamped, with its flags. -/
def fpToInt (rm : Rm) (t : Ty) (x : XV) : W32 × W32 :=
  match x with
  | .nan => (0, fNV)
  | .inf n => (wrInt t (if n then intMin t else intMax t), fNV)
  | .fin n m e =>
    let k := quantum rm n m e 0
    let v : Int := if n then -(k : Int) else k
    if v < intMin t then (wrInt t (intMin t), fNV)
    else if intMax t < v then (wrInt t (intMax t), fNV)
    else (wrInt t v, if 0 ≤ e || m % 2 ^ (-e).toNat == 0 then 0 else fNX)

/-- `vfrnd` (R250): an integral FP32 value; the only flag is NX. -/
def frndInt (rm : Rm) (a : W32) : W32 × W32 :=
  match f32v a with
  | .nan => (cNan32, 0)
  | .inf _ => (a, 0)
  | .fin n m e =>
    if 0 ≤ e || m % 2 ^ (-e).toNat == 0 then (a, 0)
    else (rne32 (.fin n (quantum rm n m e 0) 0), fNX)

/-- `vfscl` (R252): a × 2^b. -/
def fscl (rm : Rm) (a b : W32) : W32 × W32 :=
  match f32v a with
  | .fin n m e => ofF32 (rnd fmtF32 rm false (.fin n m (e + max (-600) (min 600 b.toInt))))
  | .nan => (cNan32, 0)
  | .inf _ => (a, 0)

/-- `vcvt` of one source part (R248, R249, R61): the destination's bits and the flags. -/
def convert (src dst : Ty) (rm : Rm) (sat : Bool) (x : Nat) : Nat × W32 :=
  if src.isInt then
    let v := rdInt src x
    rnd (fmtOf dst) rm false (.fin (v < 0) v.natAbs 0)
  else if dst.isInt then
    let r := fpToInt rm dst (unpack (fmtOf src) x)
    (r.1.toNat, r.2)
  else rnd (fmtOf dst) rm sat (unpack (fmtOf src) x)

/-! Block floating point (R53, R54, R63, R64). -/

/-- Mantissa `i` of a block given as one little-endian number (R54). -/
def bfpMant (b n i : Nat) : Int :=
  let v := (n / 2 ^ (b * i)) % 2 ^ b
  if 2 ^ (b - 1) ≤ v then (v : Int) - 2 ^ b else v

/-- The value of a mantissa under the shared exponent (R53). -/
def bfpVal (b e : Nat) (m : Int) : XV :=
  if e = 0xFF then .nan else .fin (m < 0) m.natAbs ((e : Int) - 127 - (b - 2 : Nat))

/-- The drain of a block (R63): the exponent, the mantissas, how many were clamped, and whether it is a NaN block. -/
def bfpBlock (b : Nat) (rm : Rm) (xs : List XV) : Nat × List Int × List Bool × Bool :=
  if xs.any (fun x => match x with | .fin _ _ _ => false | _ => true) then (0xFF, xs.map fun _ => 0, [], true)
  else
    let lead := xs.foldl (fun (a : Option Int) x => match x with
      | .fin _ m e => if m = 0 then a else some (max (a.getD ((Nat.log2 m : Int) + e)) ((Nat.log2 m : Int) + e))
      | _ => a) none
    match lead with
    | none => (0, xs.map fun _ => 0, [], false)
    | some l =>
      let e := (max 0 (min 254 (l + 127 - 1))).toNat
      let raw := xs.map fun x => match x with
        | .fin n m k => let q := quantum rm n m k ((e : Int) - 127 - (b - 2 : Nat))
          (if n then -(q : Int) else q)
        | _ => 0
      let lo : Int := -(2 ^ (b - 1))
      let hi : Int := 2 ^ (b - 1) - 1
      (e, raw.map fun v => max lo (min hi v), raw.map fun v => v < lo || hi < v, false)

/-- A block's mantissas as one number (R54). -/
def bfpPack (b : Nat) : List Int → Nat
  | [] => 0
  | m :: l => (m % 2 ^ b).toNat + 2 ^ b * bfpPack b l

end Sys2Proof.Machine
end

