-- ==== Sys2Proof/Decode.lean ====
section
/-!
DEFINITION. The decoder: from the bits of an instruction to the instruction or the cause of its refusal (R70 to R83),
and after it the encoder, written from the same tables. The decoder reads the fields of a candidate instruction and
accepts it when it is well formed and its own encoding is the word read, up to the bits that the hardware ignores, so
every bit that must be 0 is checked.
-/
namespace Sys2Proof

/-- The fields of the non-memory extension (R76, R77) with the literal (R78). -/
structure Fields where
  d : BitVec 11 := 0
  a : BitVec 11 := 0
  b : BitVec 11 := 0
  c : BitVec 11 := 0
  sa : Bool := false
  sb : Bool := false
  sc : Bool := false
  rm : BitVec 2 := 0
  sat : Bool := false
  ty : BitVec 5 := 0
  x : Bool := false
  lit : Option W64 := none
  deriving DecidableEq, Repr

/-- The operand part of a word: the non-memory or the memory form. -/
inductive Body where
  | reg (f : Fields)
  | mem (m : MemF)
  deriving DecidableEq, Repr

/-- An instruction's fields as they stand in its words. -/
structure Raw where
  head : Head
  op : BitVec 7
  fn : BitVec 8
  body : Body
  deriving DecidableEq, Repr

/-- Type codes (R77). -/
def Ty.code : Ty → BitVec 5
  | .i8 => 0x01 | .i16 => 0x02 | .i32 => 0x03 | .n8 => 0x04 | .n16 => 0x05 | .n32 => 0x06 | .f32 => 0x07
  | .bf16 => 0x08 | .e4m3 => 0x09 | .e5m2 => 0x0a | .b32 => 0x0b | .x64 => 0x0c | .f36 => 0x0d
  | .bfp k => 0x12 + k.setWidth 5

def Ty.ofCode (c : BitVec 5) : Option Ty :=
  match c.toNat with
  | 0x01 => some .i8 | 0x02 => some .i16 | 0x03 => some .i32 | 0x04 => some .n8 | 0x05 => some .n16
  | 0x06 => some .n32 | 0x07 => some .f32 | 0x08 => some .bf16 | 0x09 => some .e4m3 | 0x0a => some .e5m2
  | 0x0b => some .b32 | 0x0c => some .x64 | 0x0d => some .f36
  | 0x12 => some (.bfp 0) | 0x13 => some (.bfp 1) | 0x14 => some (.bfp 2) | 0x15 => some (.bfp 3)
  | 0x16 => some (.bfp 4) | 0x17 => some (.bfp 5) | 0x18 => some (.bfp 6)
  | _ => none

/-- The default type is written as code 0 (R77). -/
def Ty.enc (t dflt : Ty) : BitVec 5 := if t = dflt then 0 else t.code
def Ty.dec (dflt : Ty) (c : BitVec 5) : Option Ty := if c = 0 then some dflt else Ty.ofCode c

def Rm.code : Rm → BitVec 2
  | .rne => 0 | .rtz => 1 | .rdn => 2 | .rup => 3

def Rm.ofCode (c : BitVec 2) : Rm :=
  match c.toNat with
  | 0 => .rne | 1 => .rtz | 2 => .rdn | _ => .rup

def s11 (r : SReg) : BitVec 11 := r.setWidth 11
def sr (f : BitVec 11) : SReg := f.setWidth 6
def pr (f : BitVec 11) : Pred := f.setWidth 3
/-- `xacq` and `xrel` hold 128k in field A (R193). -/
def blk11 (k : BitVec 4) : BitVec 11 := k ++ (0 : BitVec 7)
def blk (f : BitVec 11) : BitVec 4 := f.extractLsb' 7 4
/-- An octet's first register is a multiple of 8 (R302). -/
def oct11 (k : BitVec 3) : BitVec 11 := (k ++ (0 : BitVec 3)).setWidth 11
def oct (f : BitVec 11) : BitVec 3 := f.extractLsb' 3 3
def fifoA (fa : Bool) : BitVec 11 := if fa then 1 else 0
def fifoB (fb : Bool) : BitVec 11 := if fb then 3 else 2

/-- A literal as the operand takes it: all 64 bits, or the low 32 (R78). -/
def litOf (wide : Bool) (v : W64) : W64 := if wide then v else (v.setWidth 32).setWidth 64

def Fields.lit32 (f : Fields) : W32 := (f.lit.getD 0).setWidth 32
def Fields.va (f : Fields) : VSrc := if f.sa then .sca (sr f.a) else .vec f.a
def Fields.vc (f : Fields) : VSrc := if f.sc then .sca (sr f.c) else .vec f.c
/-- The B operand of a vector instruction. -/
def Fields.vbW (f : Fields) (wide : Bool) : VSrc :=
  match f.lit with
  | some v => .lit (litOf wide v)
  | none => if f.sb then .sca (sr f.b) else .vec f.b
def Fields.vb (f : Fields) : VSrc := f.vbW false
/-- The B operand of a scalar instruction. -/
def Fields.sbW (f : Fields) (wide : Bool) : SSrc :=
  match f.lit with
  | some v => .lit (litOf wide v)
  | none => .reg (sr f.b)

def VSrc.fld : VSrc → BitVec 11
  | .vec r => r | .sca r => s11 r | .lit _ => 0
def VSrc.sca? : VSrc → Bool
  | .sca _ => true | _ => false
def VSrc.lit? : VSrc → Option W64
  | .lit v => some v | _ => none
def SSrc.fld : SSrc → BitVec 11
  | .reg r => s11 r | .lit _ => 0
def SSrc.lit? : SSrc → Option W64
  | .lit v => some v | .reg _ => none
def PSrc.fld : PSrc → BitVec 11
  | .pred p => p.setWidth 11 | .lit _ => 0
def PSrc.lit? : PSrc → Option W64
  | .lit v => some v | .pred _ => none
def Tile.fld : Tile → BitVec 11
  | .imm t => t.setWidth 11 | .ind r => s11 r
def Tile.ind? : Tile → Bool
  | .imm _ => false | .ind _ => true
def Tile.dec (f : BitVec 11) (x : Bool) : Tile := if x then .ind (sr f) else .imm (f.setWidth 10)
def Quad.fld : Quad → BitVec 11
  | .vec q => q ++ (0 : BitVec 2) | .sca q => (q ++ (0 : BitVec 2)).setWidth 11
def Quad.sca? : Quad → Bool
  | .vec _ => false | .sca _ => true
def Quad.dec (f : BitVec 11) (sb : Bool) : Quad :=
  if sb then .sca (f.extractLsb' 2 4) else .vec (f.extractLsb' 2 9)

/-! Operand records and their fields. -/

def SBin.enc (t : Ty) (o : SBin) : Fields :=
  { d := s11 o.d, a := s11 o.a, b := o.b.fld, ty := o.ty.enc t, sat := o.sat, x := o.x, lit := o.b.lit? }
def SBin.dec (t : Ty) (f : Fields) : Option SBin :=
  (Ty.dec t f.ty).map fun ty => ⟨sr f.d, sr f.a, f.sbW (ty == .x64), ty, f.sat, f.x⟩
def SCmp.enc (o : SCmp) : Fields :=
  { d := o.d.setWidth 11, a := s11 o.a, b := o.b.fld, c := o.cc.setWidth 11, ty := o.ty.enc .i32, lit := o.b.lit? }
def SCmp.dec (f : Fields) : Option SCmp :=
  (Ty.dec .i32 f.ty).map fun ty => ⟨pr f.d, sr f.a, f.sbW (ty == .x64), f.c.setWidth 3, ty⟩
def SSel.enc (o : SSel) : Fields :=
  { d := s11 o.d, a := s11 o.a, b := o.b.fld, c := o.c.setWidth 11, ty := o.ty.enc .b32, lit := o.b.lit? }
def SSel.dec (f : Fields) : Option SSel :=
  (Ty.dec .b32 f.ty).map fun ty => ⟨sr f.d, sr f.a, f.sbW (ty == .x64), pr f.c, ty⟩
def SMov.enc (o : SMov) : Fields := { d := s11 o.d, b := o.b.fld, ty := o.ty.enc .b32, lit := o.b.lit? }
def SMov.dec (f : Fields) : Option SMov :=
  (Ty.dec .b32 f.ty).map fun ty => ⟨sr f.d, f.sbW (ty == .x64), ty⟩
def SBit.enc (o : SBit) : Fields :=
  { d := s11 o.d, a := s11 o.a, b := o.b.fld, c := o.f.setWidth 11, lit := o.b.lit?, ty := 0 }
def SBit.dec (f : Fields) : SBit := ⟨sr f.d, sr f.a, f.sbW false, f.c.setWidth 3⟩
def POp.enc (o : POp) : Fields :=
  { d := o.d.setWidth 11, a := s11 o.a, b := o.b.fld, c := o.f.setWidth 11, lit := o.b.lit? }
def POp.dec (f : Fields) : POp :=
  ⟨pr f.d, sr f.a, match f.lit with | some v => .lit v | none => .pred (pr f.b), f.c.setWidth 3⟩
def VShfl.enc (o : VShfl) : Fields :=
  { d := o.d, a := o.a.fld, sa := o.a.sca?, b := o.b.fld, sb := o.b.sca?, lit := o.b.lit?,
    c := o.m.setWidth 11 + o.w.setWidth 11 * 8 }
def VShfl.dec (f : Fields) : VShfl := ⟨f.d, f.va, f.vb, f.c.setWidth 2, f.c.extractLsb' 3 3⟩
/-- The default type of each scan operation (R233). -/
def scanDflt (op : BitVec 3) : Ty :=
  match op.toNat with
  | 1 | 2 => .i32
  | 6 | 7 => .f32
  | _ => .b32
def VScan.enc (o : VScan) : Fields :=
  { d := o.d, a := o.a.fld, sa := o.a.sca?, c := o.op.setWidth 11 + o.w.setWidth 11 * 8,
    ty := o.ty.enc (scanDflt o.op), rm := o.rm.code, x := o.x }
def VScan.dec (f : Fields) : Option VScan :=
  (Ty.dec (scanDflt (f.c.setWidth 3)) f.ty).map fun ty =>
    ⟨f.d, f.va, f.c.setWidth 3, f.c.extractLsb' 3 3, ty, Rm.ofCode f.rm, f.x⟩
def VBin.enc (t : Ty) (o : VBin) : Fields :=
  { d := o.d, a := o.a.fld, sa := o.a.sca?, b := o.b.fld, sb := o.b.sca?, lit := o.b.lit?, ty := o.ty.enc t,
    rm := o.rm.code, sat := o.sat, x := o.x }
def VBin.dec (t : Ty) (f : Fields) : Option VBin :=
  (Ty.dec t f.ty).map fun ty => ⟨f.d, f.va, f.vbW (ty == .x64), ty, Rm.ofCode f.rm, f.sat, f.x⟩
def VTri.enc (t : Ty) (o : VTri) : Fields :=
  { d := o.d, a := o.a.fld, sa := o.a.sca?, b := o.b.fld, sb := o.b.sca?, lit := o.b.lit?, c := o.c.fld, sc := o.c.sca?,
    ty := o.ty.enc t, rm := o.rm.code, sat := o.sat, x := o.x }
def VTri.dec (t : Ty) (f : Fields) : Option VTri :=
  (Ty.dec t f.ty).map fun ty => ⟨f.d, f.va, f.vb, f.vc, ty, Rm.ofCode f.rm, f.sat, f.x⟩
def VBitF.enc (o : VBitF) : Fields :=
  { d := o.d, a := o.a.fld, sa := o.a.sca?, b := o.b.fld, sb := o.b.sca?, lit := o.b.lit?, c := o.f.setWidth 11 }
def VBitF.dec (f : Fields) : VBitF := ⟨f.d, f.va, f.vb, f.c.setWidth 3⟩
def VSel.enc (o : VSel) : Fields :=
  { d := o.d, a := o.a.fld, sa := o.a.sca?, b := o.b.fld, sb := o.b.sca?, lit := o.b.lit?, c := o.c.setWidth 11,
    ty := o.ty.enc .b32 }
def VSel.dec (f : Fields) : Option VSel :=
  (Ty.dec .b32 f.ty).map fun ty => ⟨f.d, f.va, f.vbW (ty == .x64), pr f.c, ty⟩
def VCmp.enc (t : Ty) (o : VCmp) : Fields :=
  { d := o.d.setWidth 11, a := o.a.fld, sa := o.a.sca?, b := o.b.fld, sb := o.b.sca?, lit := o.b.lit?,
    c := o.cc.setWidth 11, ty := o.ty.enc t }
def VCmp.dec (t : Ty) (f : Fields) : Option VCmp :=
  (Ty.dec t f.ty).map fun ty => ⟨pr f.d, f.va, f.vbW (ty == .x64), f.c.setWidth 3, ty⟩
def VUn.enc (o : VUn) : Fields := { d := o.d, a := o.a.fld, sa := o.a.sca?, rm := o.rm.code }
def VUn.dec (f : Fields) : VUn := ⟨f.d, f.va, Rm.ofCode f.rm⟩
def VCvt.enc (o : VCvt) : Fields :=
  { d := o.d, a := o.a.fld, sa := o.a.sca?,
    c := o.dst.code.setWidth 11 + o.sp.setWidth 11 * 32 + o.dp.setWidth 11 * 128, ty := o.src.enc .f32, rm := o.rm.code,
    sat := o.sat }
def VCvt.dec (f : Fields) : Option VCvt :=
  match Ty.dec .f32 f.ty, Ty.ofCode (f.c.setWidth 5) with
  | some src, some dst => some ⟨f.d, f.va, src, dst, f.c.extractLsb' 5 2, f.c.extractLsb' 7 2, Rm.ofCode f.rm, f.sat⟩
  | _, _ => none
def VSrt.enc (o : VSrt) : Fields :=
  { d := o.d, c := o.lj.setWidth 11 + o.lk.setWidth 11 * 16 + o.lr.setWidth 11 * 256, ty := o.ty.enc .f32, x := o.dn }
def VSrt.dec (f : Fields) : Option VSrt :=
  (Ty.dec .f32 f.ty).map fun ty => ⟨f.d, f.c.setWidth 4, f.c.extractLsb' 4 4, f.c.extractLsb' 8 3, ty, f.x⟩
def VMrg.enc (o : VMrg) : Fields :=
  { d := o.d, a := o.a, b := o.b, c := if o.lo then 1 else 0, ty := o.ty.enc .f32, x := o.dn }
def VMrg.dec (f : Fields) : Option VMrg :=
  (Ty.dec .f32 f.ty).map fun ty => ⟨f.d, f.a, f.b, f.c == 1, ty, f.x⟩
def VTopk.enc (o : VTopk) : Fields := { d := o.d, a := o.a, c := o.k.setWidth 11, ty := o.ty.enc .f32, x := o.dn }
def VTopk.dec (f : Fields) : Option VTopk :=
  (Ty.dec .f32 f.ty).map fun ty => ⟨f.d, f.a, f.c.setWidth 7, ty, f.x⟩
def Ardv.enc (o : Ardv) : Fields :=
  { d := o.d, a := o.tile.fld, c := o.q.setWidth 11, rm := o.rm.code, sat := o.sat, x := o.tile.ind? }
def Ardv.dec (f : Fields) : Ardv := ⟨f.d, Tile.dec f.a f.x, f.c.setWidth 4, Rm.ofCode f.rm, f.sat⟩
def Adrn.enc (o : Adrn) : Fields :=
  { d := o.tile.fld, a := oct11 o.a, ty := o.ty.enc .f32, rm := o.rm.code, sat := o.sat, x := o.tile.ind? }
def Adrn.dec (f : Fields) : Option Adrn :=
  (Ty.dec .f32 f.ty).map fun ty => ⟨Tile.dec f.d f.x, oct f.a, ty, Rm.ofCode f.rm, f.sat⟩
def AtmFn.enc (f : AtmFn) : BitVec 8 :=
  f.aop.setWidth 8 + (if f.glb then 16 else 0) + (if f.ret then 32 else 0)
def AtmFn.dec (fn : BitVec 8) : AtmFn := ⟨fn.setWidth 4, fn.getLsbD 4, fn.getLsbD 5⟩
def optEnc (f : Fields) : Option VSrc → Fields
  | none => f
  | some v => { f with b := v.fld, sb := v.sca?, lit := v.lit?, x := true }
def bcstEnc (d : VReg) (a : VSrc) : Option VSrc → Fields
  | none => { d := d, a := a.fld, sa := a.sca?, x := true }
  | some v => { d := d, a := a.fld, sa := a.sca?, b := v.fld, sb := v.sca?, lit := v.lit? }

/-! The major opcode map (R81). -/

/-- Use of the literal by an opcode. -/
inductive LitUse where
  | none | optional | required | ignored
  deriving DecidableEq, Repr

def opReserved (op : Nat) : Bool := (0x41 ≤ op && op ≤ 0x46) || op == 0x5f || op == 0x7f

def opLit (op : Nat) : LitUse :=
  if op == 0 then .ignored
  else if op ≤ 0x0e then .optional
  else if op == 0x0f then .required
  else if op ≤ 0x12 then .optional
  else if op ≤ 0x17 then .none
  else if op ≤ 0x1a || op == 0x1c then .required
  else if op ≤ 0x1f then .none
  else if op ≤ 0x3f then .optional
  else if 0x47 ≤ op && op ≤ 0x4c then .optional
  else if op == 0x68 then .required
  else .none

/-- Opcodes with a base form. -/
def opBase (op : Nat) : Bool :=
  op ≤ 0x0b || op == 0x0e || op == 0x0f || op == 0x16 || (0x18 ≤ op && op ≤ 0x1f) ||
  (0x28 ≤ op && op ≤ 0x3d && !(op == 0x2b || (0x33 ≤ op && op ≤ 0x37) || op == 0x3b))

/-- The function values that an opcode defines (R81, R82). -/
def fnOk (op fn : Nat) : Bool :=
  if op == 0 then true
  else if op == 0x16 || op == 0x17 || op == 0x60 then fn ≤ 2
  else if op == 0x40 then fn ≤ 7
  else if op == 0x5e then fn < 64 && fn % 16 ≤ 9
  else if op == 0x6a || op == 0x7a then fn ≤ 1
  else if op == 0x7b then fn ≤ 3
  else fn == 0

/-- LEN is valid for the opcode (R81). `trap` has its base form for FN 0 only, which a base form always has. -/
def lenOk (op len : Nat) : Bool :=
  match opLit op, len with
  | .ignored, _ => true
  | .none, 0 => opBase op
  | .none, 2 => true
  | .none, _ => false
  | .optional, 0 | .optional, 1 => opBase op
  | .optional, _ => true
  | .required, 1 => opBase op
  | .required, 3 => true
  | .required, _ => false

/-! Bits of a word. -/

/-- The field of `w` bits that begins at bit `lo` of the number `n`. -/
def bitsAt (n lo w : Nat) : BitVec w := BitVec.ofNat w (n / 2 ^ lo)
def flagAt (n lo : Nat) : Bool := (n / 2 ^ lo) % 2 == 1

def headOf (n : Nat) : Head := ⟨bitsAt n 0 2, bitsAt n 2 4, bitsAt n 13 3, flagAt n 16⟩
def opOf (n : Nat) : BitVec 7 := bitsAt n 6 7
def isLong (n : Nat) : Bool := 2 ≤ n % 4
def extOf (n : Nat) : Nat := (n / 2 ^ 32) % 2 ^ 64
def fnOf (n : Nat) : BitVec 8 := if isLong n then bitsAt (extOf n) 0 8 else 0
def litOfWord (n : Nat) : Option W64 :=
  match n % 4 with
  | 1 => some (bitsAt n 32 64)
  | 3 => some (bitsAt n 96 64)
  | _ => none

def fieldsOf (n : Nat) : Fields :=
  if isLong n then
    let e := extOf n
    { d := bitsAt e 8 11, a := bitsAt e 19 11, b := bitsAt e 30 11, c := bitsAt e 41 11, sa := flagAt e 52,
      sb := flagAt e 53, sc := flagAt e 54, rm := bitsAt e 55 2, sat := flagAt e 57, ty := bitsAt e 58 5,
      x := flagAt e 63, lit := litOfWord n }
  else
    { d := (bitsAt n 17 5).setWidth 11, a := (bitsAt n 22 5).setWidth 11, b := (bitsAt n 27 5).setWidth 11,
      lit := litOfWord n }

def memOf (n : Nat) : MemF :=
  let e := extOf n
  ⟨bitsAt e 8 11, bitsAt e 19 11, bitsAt e 30 24, flagAt e 54, bitsAt e 55 2, bitsAt e 57 3, bitsAt e 60 4⟩

/-- The bytes of an instruction (R71). -/
def Head.bytes (h : Head) : Nat :=
  match h.len.toNat with
  | 0 => 4
  | 1 | 2 => 12
  | _ => 20

/-! The encoder's field tables. -/

/-- The fields of an instruction's words; an event has none. -/
def Instr.raw : Instr → Option Raw
  | .nop h => some ⟨h, 0x00, 0, .reg {}⟩
  | .sadd h o => some ⟨h, 1, 0, .reg (o.enc .b32)⟩
  | .ssub h o => some ⟨h, 2, 0, .reg (o.enc .b32)⟩
  | .smul h o => some ⟨h, 3, 0, .reg (o.enc .b32)⟩
  | .sdiv h o => some ⟨h, 4, 0, .reg (o.enc .i32)⟩
  | .sand h o => some ⟨h, 5, 0, .reg (o.enc .b32)⟩
  | .sor h o => some ⟨h, 6, 0, .reg (o.enc .b32)⟩
  | .sxor h o => some ⟨h, 7, 0, .reg (o.enc .b32)⟩
  | .sshl h o => some ⟨h, 8, 0, .reg (o.enc .b32)⟩
  | .sshr h o => some ⟨h, 9, 0, .reg (o.enc .n32)⟩
  | .smin h o => some ⟨h, 10, 0, .reg (o.enc .i32)⟩
  | .smax h o => some ⟨h, 11, 0, .reg (o.enc .i32)⟩
  | .sbfe h o => some ⟨h, 16, 0, .reg (o.enc .n32)⟩
  | .swide h o => some ⟨h, 18, 0, .reg (o.enc .x64)⟩
  | .scmp h o => some ⟨h, 12, 0, .reg o.enc⟩
  | .ssel h o => some ⟨h, 13, 0, .reg o.enc⟩
  | .smov h o => some ⟨h, 14, 0, .reg o.enc⟩
  | .sli h o => some ⟨h, 15, 0, .reg o.enc⟩
  | .sbit h o => some ⟨h, 17, 0, .reg o.enc⟩
  | .qsub h a => some ⟨h, 19, 0, .reg { a := s11 a }⟩
  | .cland h d a op ty => some ⟨h, 20, 0, .reg { d := d, a := s11 a, c := op.setWidth 11, ty := ty.enc .f32 }⟩
  | .nbrun h a => some ⟨h, 21, 0, .reg { a := s11 a }⟩
  | .trapShort h a => some ⟨h, 0x16, 0, .reg { a := s11 a }⟩
  | .trap h c a => some ⟨h, 0x16, 0, .reg { a := s11 a, c := c.setWidth 11 }⟩
  | .tret h => some ⟨h, 0x16, 1, .reg {}⟩
  | .tretSkip h => some ⟨h, 0x16, 1, .reg { x := true }⟩
  | .brkpt h n => some ⟨h, 22, 2, .reg { c := n.setWidth 11 }⟩
  | .sregRead h d i => some ⟨h, 23, 0, .reg { d := s11 d, c := i.setWidth 11 }⟩
  | .sregWrite h a i => some ⟨h, 23, 1, .reg { a := s11 a, c := i.setWidth 11 }⟩
  | .sregSwap h d a i => some ⟨h, 23, 2, .reg { d := s11 d, a := s11 a, c := i.setWidth 11 }⟩
  | .br h t => some ⟨h, 24, 0, .reg { lit := some (t.setWidth 64) }⟩
  | .brpAny h p t => some ⟨h, 0x19, 0, .reg { a := p.setWidth 11, lit := some (t.setWidth 64) }⟩
  | .brpAll h p t => some ⟨h, 0x19, 0, .reg { a := p.setWidth 11, x := true, lit := some (t.setWidth 64) }⟩
  | .jmp h t => some ⟨h, 26, 0, .reg { lit := some (t.setWidth 64) }⟩
  | .jmpi h a => some ⟨h, 27, 0, .reg { a := s11 a }⟩
  | .call h d t => some ⟨h, 28, 0, .reg { d := d, lit := some (t.setWidth 64) }⟩
  | .ret h a => some ⟨h, 29, 0, .reg { a := a }⟩
  | .rcv h => some ⟨h, 30, 0, .reg {}⟩
  | .yld h => some ⟨h, 31, 0, .reg {}⟩
  | .pop h o => some ⟨h, 32, 0, .reg o.enc⟩
  | .pvote h d a m => some ⟨h, 33, 0, .reg { d := s11 d, a := a.setWidth 11, c := m.setWidth 11 }⟩
  | .pball h d a => some ⟨h, 0x22, 0, .reg { d := s11 d, a := a.setWidth 11 }⟩
  | .pballPopc h d a => some ⟨h, 0x22, 0, .reg { d := s11 d, a := a.setWidth 11, x := true }⟩
  | .vshfl h o => some ⟨h, 35, 0, .reg o.enc⟩
  | .vscan h o => some ⟨h, 36, 0, .reg o.enc⟩
  | .vred h o => some ⟨h, 37, 0, .reg o.enc⟩
  | .vid h d b => some ⟨h, 38, 0, .reg (optEnc { d := d } b)⟩
  | .vbcst h d a b => some ⟨h, 39, 0, .reg (bcstEnc d a b)⟩
  | .vadd h o => some ⟨h, 40, 0, .reg (o.enc .b32)⟩
  | .vsub h o => some ⟨h, 41, 0, .reg (o.enc .b32)⟩
  | .vmul h o => some ⟨h, 42, 0, .reg (o.enc .b32)⟩
  | .vmin h o => some ⟨h, 44, 0, .reg (o.enc .i32)⟩
  | .vmax h o => some ⟨h, 45, 0, .reg (o.enc .i32)⟩
  | .vand h o => some ⟨h, 46, 0, .reg (o.enc .b32)⟩
  | .vor h o => some ⟨h, 47, 0, .reg (o.enc .b32)⟩
  | .vxor h o => some ⟨h, 48, 0, .reg (o.enc .b32)⟩
  | .vshl h o => some ⟨h, 49, 0, .reg (o.enc .b32)⟩
  | .vshr h o => some ⟨h, 50, 0, .reg (o.enc .n32)⟩
  | .vbfe h o => some ⟨h, 52, 0, .reg (o.enc .n32)⟩
  | .vfadd h o => some ⟨h, 56, 0, .reg (o.enc .f32)⟩
  | .vfsub h o => some ⟨h, 57, 0, .reg (o.enc .f32)⟩
  | .vfmul h o => some ⟨h, 58, 0, .reg (o.enc .f32)⟩
  | .vfmin h o => some ⟨h, 60, 0, .reg (o.enc .f32)⟩
  | .vfmax h o => some ⟨h, 61, 0, .reg (o.enc .f32)⟩
  | .vfscl h o => some ⟨h, 76, 0, .reg (o.enc .f32)⟩
  | .vmad h o => some ⟨h, 43, 0, .reg (o.enc .b32)⟩
  | .vbfi h o => some ⟨h, 53, 0, .reg (o.enc .b32)⟩
  | .vffma h o => some ⟨h, 59, 0, .reg (o.enc .f32)⟩
  | .vdot2 h o => some ⟨h, 73, 0, .reg (o.enc .bf16)⟩
  | .vdot4 h o => some ⟨h, 74, 0, .reg (o.enc .i8)⟩
  | .vbit h o => some ⟨h, 51, 0, .reg o.enc⟩
  | .vsel h o => some ⟨h, 54, 0, .reg o.enc⟩
  | .vcmp h o => some ⟨h, 55, 0, .reg (o.enc .i32)⟩
  | .vfcmp h o => some ⟨h, 62, 0, .reg (o.enc .f32)⟩
  | .vfcls h d a m => some ⟨h, 63, 0, .reg { d := d.setWidth 11, a := a.fld, sa := a.sca?, c := m.setWidth 11 }⟩
  | .vfrcp h o => some ⟨h, 64, 0, .reg o.enc⟩
  | .vfrsq h o => some ⟨h, 64, 1, .reg o.enc⟩
  | .vfsqrt h o => some ⟨h, 64, 2, .reg o.enc⟩
  | .vfexp h o => some ⟨h, 64, 3, .reg o.enc⟩
  | .vflog h o => some ⟨h, 64, 4, .reg o.enc⟩
  | .vftanh h o => some ⟨h, 64, 5, .reg o.enc⟩
  | .vfsinpi h o => some ⟨h, 64, 6, .reg o.enc⟩
  | .vfcospi h o => some ⟨h, 64, 7, .reg o.enc⟩
  | .vcvt h o => some ⟨h, 71, 0, .reg o.enc⟩
  | .vfrnd h o => some ⟨h, 72, 0, .reg o.enc⟩
  | .vmov h d b ty => some ⟨h, 75, 0, .reg { d := d, b := b.fld, sb := b.sca?, lit := b.lit?, ty := ty.enc .b32 }⟩
  | .vsrt h o => some ⟨h, 77, 0, .reg o.enc⟩
  | .vmrg h o => some ⟨h, 78, 0, .reg o.enc⟩
  | .vtopk h o => some ⟨h, 79, 0, .reg o.enc⟩
  | .sld h o => some ⟨h, 80, 0, .mem o⟩
  | .sst h o => some ⟨h, 81, 0, .mem o⟩
  | .vld h o => some ⟨h, 82, 0, .mem o⟩
  | .vst h o => some ⟨h, 83, 0, .mem o⟩
  | .vgth h o => some ⟨h, 84, 0, .mem o⟩
  | .vsct h o => some ⟨h, 85, 0, .mem o⟩
  | .lds h o => some ⟨h, 86, 0, .mem o⟩
  | .sts h o => some ⟨h, 87, 0, .mem o⟩
  | .gld h o => some ⟨h, 88, 0, .mem o⟩
  | .gst h o => some ⟨h, 89, 0, .mem o⟩
  | .mst h o => some ⟨h, 90, 0, .mem o⟩
  | .ldx h o => some ⟨h, 91, 0, .mem o⟩
  | .cpf h o => some ⟨h, 92, 0, .mem o⟩
  | .copInv h o => some ⟨h, 0x5d, 0, .mem o⟩
  | .copInvall h o => some ⟨h, 0x5d, 0, .mem o⟩
  | .copWb h o => some ⟨h, 0x5d, 0, .mem o⟩
  | .copWbinv h o => some ⟨h, 0x5d, 0, .mem o⟩
  | .atm h f o => some ⟨h, 0x5e, f.enc, .mem o⟩
  | .fenceRel h sc => some ⟨h, 96, 0, .reg { c := sc.setWidth 11 }⟩
  | .fenceAcq h sc => some ⟨h, 96, 1, .reg { c := sc.setWidth 11 }⟩
  | .fenceSc h sc => some ⟨h, 96, 2, .reg { c := sc.setWidth 11 }⟩
  | .wcnt h m t => some ⟨h, 97, 0, .reg { b := t.setWidth 11, c := m.setWidth 11 }⟩
  | .bar h => some ⟨h, 98, 0, .reg {}⟩
  | .gbar h d => some ⟨h, 99, 0, .reg { d := s11 d }⟩
  | .mon h d a => some ⟨h, 0x64, 0, .reg { d := s11 d, a := s11 a }⟩
  | .monSp h d a => some ⟨h, 0x64, 0, .reg { d := s11 d, a := s11 a, x := true }⟩
  | .mwait h d b => some ⟨h, 101, 0, .reg { d := s11 d, b := s11 b }⟩
  | .sgacqE h d r => some ⟨h, 0x66, 0, .reg { d := s11 d, a := r.setWidth 11 }⟩
  | .sgacqF h d r => some ⟨h, 0x66, 0, .reg { d := s11 d, a := r.setWidth 11, x := true }⟩
  | .sgrel h r b => some ⟨h, 0x67, 0, .reg { a := r.setWidth 11, b := s11 b }⟩
  | .sgrelInit h r n => some ⟨h, 0x67, 0, .reg { a := r.setWidth 11, c := n.setWidth 11, x := true }⟩
  | .rgn h w => some ⟨h, 104, 0, .reg { lit := some w }⟩
  | .rgnend h => some ⟨h, 105, 0, .reg {}⟩
  | .xacq h k => some ⟨h, 106, 0, .reg { a := blk11 k }⟩
  | .xacqTry h d k => some ⟨h, 106, 1, .reg { d := s11 d, a := blk11 k }⟩
  | .xrel h k => some ⟨h, 107, 0, .reg { a := blk11 k }⟩
  | .spawn h a => some ⟨h, 108, 0, .reg { a := s11 a }⟩
  | .spawnr h a b => some ⟨h, 109, 0, .reg { a := a, b := s11 b }⟩
  | .join h d a b => some ⟨h, 110, 0, .reg { d := s11 d, a := s11 a, b := s11 b }⟩
  | .fset h a => some ⟨h, 0x6f, 0, .reg { a := s11 a }⟩
  | .fsetAt h d a b => some ⟨h, 0x6f, 0, .reg { d := s11 d, a := s11 a, b := s11 b, x := true }⟩
  | .fflt h a b => some ⟨h, 0x70, 0, .reg { a := s11 a, b := s11 b }⟩
  | .ffltAt h d a b c => some ⟨h, 0x70, 0, .reg { d := s11 d, a := s11 a, b := s11 b, c := s11 c, x := true }⟩
  | .fpoll h d a b => some ⟨h, 113, 0, .reg { d := s11 d, a := s11 a, b := s11 b }⟩
  | .texit h => some ⟨h, 114, 0, .reg {}⟩
  | .tmark h a => some ⟨h, 115, 0, .reg { a := s11 a }⟩
  | .cpy h a => some ⟨h, 116, 0, .reg { a := oct11 a }⟩
  | .qput h d a b => some ⟨h, 0x75, 0, .reg { d := s11 d, a := s11 a, b := s11 b }⟩
  | .qputX2 h d a b => some ⟨h, 0x75, 0, .reg { d := s11 d, a := s11 a, b := s11 b, x := true }⟩
  | .strm h q a => some ⟨h, 118, 0, .reg { d := q.setWidth 11, a := oct11 a }⟩
  | .strmend h q => some ⟨h, 119, 0, .reg { d := q.setWidth 11 }⟩
  | .lbind h a b => some ⟨h, 120, 0, .reg { a := s11 a, b := s11 b }⟩
  | .laddr h d c a b => some ⟨h, 121, 0, .reg { d := d, a := s11 a, c := c.setWidth 11, b := b.fld, sb := b.sca? }⟩
  | .mma h t fa fb n => some ⟨h, 122, 0, .reg { d := t.fld, a := fifoA fa, b := fifoB fb, c := n, x := t.ind? }⟩
  | .mmaSh h t fa fb n => some ⟨h, 122, 1, .reg { d := t.fld, a := fifoA fa, b := fifoB fb, c := n, x := t.ind? }⟩
  | .accZero h t m => some ⟨h, 123, 0, .reg { d := t.fld, c := m, x := t.ind? }⟩
  | .accCommit h t m => some ⟨h, 123, 1, .reg { d := t.fld, c := m, x := t.ind? }⟩
  | .accDiscard h t m => some ⟨h, 123, 2, .reg { d := t.fld, c := m, x := t.ind? }⟩
  | .accMove h t u m => some ⟨h, 123, 3, .reg { d := t.fld, a := u.fld, c := m, x := t.ind? }⟩
  | .ardv h o => some ⟨h, 0x7c, 0, .reg o.enc⟩
  | .ardvRaw h o => some ⟨h, 0x7c, 0, .reg { o.enc with ty := 0x0d }⟩
  | .adrn h o => some ⟨h, 125, 0, .reg o.enc⟩
  | .fskip h q n => some ⟨h, 126, 0, .reg { d := q.setWidth 11, c := n }⟩
  | _ => none

/-- The instruction that the fields of a non-memory word name, before its reserved fields are checked. -/
def regCandidate (h : Head) (op : Nat) (fn : BitVec 8) (f : Fields) : Option Instr :=
  match op with
  | 0x01 => (SBin.dec .b32 f).map (Instr.sadd h)
  | 0x02 => (SBin.dec .b32 f).map (Instr.ssub h)
  | 0x03 => (SBin.dec .b32 f).map (Instr.smul h)
  | 0x04 => (SBin.dec .i32 f).map (Instr.sdiv h)
  | 0x05 => (SBin.dec .b32 f).map (Instr.sand h)
  | 0x06 => (SBin.dec .b32 f).map (Instr.sor h)
  | 0x07 => (SBin.dec .b32 f).map (Instr.sxor h)
  | 0x08 => (SBin.dec .b32 f).map (Instr.sshl h)
  | 0x09 => (SBin.dec .n32 f).map (Instr.sshr h)
  | 0x0a => (SBin.dec .i32 f).map (Instr.smin h)
  | 0x0b => (SBin.dec .i32 f).map (Instr.smax h)
  | 0x0c => (SCmp.dec f).map (Instr.scmp h)
  | 0x0d => (SSel.dec f).map (Instr.ssel h)
  | 0x0e => (SMov.dec f).map (Instr.smov h)
  | 0x0f => (SMov.dec f).map (Instr.sli h)
  | 0x10 => (SBin.dec .n32 f).map (Instr.sbfe h)
  | 0x11 => some (.sbit h (SBit.dec f))
  | 0x12 => (SBin.dec .x64 f).map (Instr.swide h)
  | 0x13 => some (.qsub h (sr f.a))
  | 0x14 => (Ty.dec .f32 f.ty).map (Instr.cland h f.d (sr f.a) (f.c.setWidth 2))
  | 0x15 => some (.nbrun h (sr f.a))
  | 0x16 =>
    match fn.toNat with
    | 0 => if h.len == 0 then some (.trapShort h (sr f.a)) else some (.trap h (f.c.setWidth 7) (sr f.a))
    | 1 => some (if f.x then .tretSkip h else .tret h)
    | 2 => some (.brkpt h (f.c.setWidth 8))
    | _ => none
  | 0x17 =>
    match fn.toNat with
    | 0 => some (.sregRead h (sr f.d) (f.c.setWidth 8))
    | 1 => some (.sregWrite h (sr f.a) (f.c.setWidth 8))
    | 2 => some (.sregSwap h (sr f.d) (sr f.a) (f.c.setWidth 8))
    | _ => none
  | 0x18 => some (.br h f.lit32)
  | 0x19 => some (if f.x then .brpAll h (pr f.a) f.lit32 else .brpAny h (pr f.a) f.lit32)
  | 0x1a => some (.jmp h f.lit32)
  | 0x1b => some (.jmpi h (sr f.a))
  | 0x1c => some (.call h f.d f.lit32)
  | 0x1d => some (.ret h f.a)
  | 0x1e => some (.rcv h)
  | 0x1f => some (.yld h)
  | 0x20 => some (.pop h (POp.dec f))
  | 0x21 => some (.pvote h (sr f.d) (pr f.a) (f.c.setWidth 2))
  | 0x22 => some (if f.x then .pballPopc h (sr f.d) (pr f.a) else .pball h (sr f.d) (pr f.a))
  | 0x23 => some (.vshfl h (VShfl.dec f))
  | 0x24 => (VScan.dec f).map (Instr.vscan h)
  | 0x25 => (VScan.dec f).map (Instr.vred h)
  | 0x26 => some (.vid h f.d (if f.x then some f.vb else none))
  | 0x27 => some (.vbcst h f.d f.va (if f.x then none else some f.vb))
  | 0x28 => (VBin.dec .b32 f).map (Instr.vadd h)
  | 0x29 => (VBin.dec .b32 f).map (Instr.vsub h)
  | 0x2a => (VBin.dec .b32 f).map (Instr.vmul h)
  | 0x2b => (VTri.dec .b32 f).map (Instr.vmad h)
  | 0x2c => (VBin.dec .i32 f).map (Instr.vmin h)
  | 0x2d => (VBin.dec .i32 f).map (Instr.vmax h)
  | 0x2e => (VBin.dec .b32 f).map (Instr.vand h)
  | 0x2f => (VBin.dec .b32 f).map (Instr.vor h)
  | 0x30 => (VBin.dec .b32 f).map (Instr.vxor h)
  | 0x31 => (VBin.dec .b32 f).map (Instr.vshl h)
  | 0x32 => (VBin.dec .n32 f).map (Instr.vshr h)
  | 0x33 => some (.vbit h (VBitF.dec f))
  | 0x34 => (VBin.dec .n32 f).map (Instr.vbfe h)
  | 0x35 => (VTri.dec .b32 f).map (Instr.vbfi h)
  | 0x36 => (VSel.dec f).map (Instr.vsel h)
  | 0x37 => (VCmp.dec .i32 f).map (Instr.vcmp h)
  | 0x38 => (VBin.dec .f32 f).map (Instr.vfadd h)
  | 0x39 => (VBin.dec .f32 f).map (Instr.vfsub h)
  | 0x3a => (VBin.dec .f32 f).map (Instr.vfmul h)
  | 0x3b => (VTri.dec .f32 f).map (Instr.vffma h)
  | 0x3c => (VBin.dec .f32 f).map (Instr.vfmin h)
  | 0x3d => (VBin.dec .f32 f).map (Instr.vfmax h)
  | 0x3e => (VCmp.dec .f32 f).map (Instr.vfcmp h)
  | 0x3f => some (.vfcls h (pr f.d) f.va (f.c.setWidth 9))
  | 0x40 =>
    match fn.toNat with
    | 0 => some (.vfrcp h (VUn.dec f))
    | 1 => some (.vfrsq h (VUn.dec f))
    | 2 => some (.vfsqrt h (VUn.dec f))
    | 3 => some (.vfexp h (VUn.dec f))
    | 4 => some (.vflog h (VUn.dec f))
    | 5 => some (.vftanh h (VUn.dec f))
    | 6 => some (.vfsinpi h (VUn.dec f))
    | 7 => some (.vfcospi h (VUn.dec f))
    | _ => none
  | 0x47 => (VCvt.dec f).map (Instr.vcvt h)
  | 0x48 => some (.vfrnd h (VUn.dec f))
  | 0x49 => (VTri.dec .bf16 f).map (Instr.vdot2 h)
  | 0x4a => (VTri.dec .i8 f).map (Instr.vdot4 h)
  | 0x4b => (Ty.dec .b32 f.ty).map fun t => .vmov h f.d (f.vbW (t == .x64)) t
  | 0x4c => (VBin.dec .f32 f).map (Instr.vfscl h)
  | 0x4d => (VSrt.dec f).map (Instr.vsrt h)
  | 0x4e => (VMrg.dec f).map (Instr.vmrg h)
  | 0x4f => (VTopk.dec f).map (Instr.vtopk h)
  | 0x60 =>
    match fn.toNat with
    | 0 => some (.fenceRel h (f.c.setWidth 3))
    | 1 => some (.fenceAcq h (f.c.setWidth 3))
    | 2 => some (.fenceSc h (f.c.setWidth 3))
    | _ => none
  | 0x61 => some (.wcnt h (f.c.setWidth 6) (f.b.setWidth 6))
  | 0x62 => some (.bar h)
  | 0x63 => some (.gbar h (sr f.d))
  | 0x64 => some (if f.x then .monSp h (sr f.d) (sr f.a) else .mon h (sr f.d) (sr f.a))
  | 0x65 => some (.mwait h (sr f.d) (sr f.b))
  | 0x66 => some (if f.x then .sgacqF h (sr f.d) (pr f.a) else .sgacqE h (sr f.d) (pr f.a))
  | 0x67 => some (if f.x then .sgrelInit h (pr f.a) (f.c.setWidth 5) else .sgrel h (pr f.a) (sr f.b))
  | 0x68 => some (.rgn h (f.lit.getD 0))
  | 0x69 => some (.rgnend h)
  | 0x6a =>
    match fn.toNat with
    | 0 => some (.xacq h (blk f.a))
    | 1 => some (.xacqTry h (sr f.d) (blk f.a))
    | _ => none
  | 0x6b => some (.xrel h (blk f.a))
  | 0x6c => some (.spawn h (sr f.a))
  | 0x6d => some (.spawnr h f.a (sr f.b))
  | 0x6e => some (.join h (sr f.d) (sr f.a) (sr f.b))
  | 0x6f => some (if f.x then .fsetAt h (sr f.d) (sr f.a) (sr f.b) else .fset h (sr f.a))
  | 0x70 => some (if f.x then .ffltAt h (sr f.d) (sr f.a) (sr f.b) (sr f.c) else .fflt h (sr f.a) (sr f.b))
  | 0x71 => some (.fpoll h (sr f.d) (sr f.a) (sr f.b))
  | 0x72 => some (.texit h)
  | 0x73 => some (.tmark h (sr f.a))
  | 0x74 => some (.cpy h (oct f.a))
  | 0x75 => some (if f.x then .qputX2 h (sr f.d) (sr f.a) (sr f.b) else .qput h (sr f.d) (sr f.a) (sr f.b))
  | 0x76 => some (.strm h (f.d.setWidth 2) (oct f.a))
  | 0x77 => some (.strmend h (f.d.setWidth 2))
  | 0x78 => some (.lbind h (sr f.a) (sr f.b))
  | 0x79 => some (.laddr h f.d (pr f.c) (sr f.a) (Quad.dec f.b f.sb))
  | 0x7a =>
    match fn.toNat with
    | 0 => some (.mma h (Tile.dec f.d f.x) (f.a == 1) (f.b == 3) f.c)
    | 1 => some (.mmaSh h (Tile.dec f.d f.x) (f.a == 1) (f.b == 3) f.c)
    | _ => none
  | 0x7b =>
    match fn.toNat with
    | 0 => some (.accZero h (Tile.dec f.d f.x) f.c)
    | 1 => some (.accCommit h (Tile.dec f.d f.x) f.c)
    | 2 => some (.accDiscard h (Tile.dec f.d f.x) f.c)
    | 3 => some (.accMove h (Tile.dec f.d f.x) (Tile.dec f.a f.x) f.c)
    | _ => none
  | 0x7c => if f.ty == 0x0d then some (.ardvRaw h (Ardv.dec f)) else some (.ardv h (Ardv.dec f))
  | 0x7d => (Adrn.dec f).map (Instr.adrn h)
  | 0x7e => some (.fskip h (f.d.setWidth 2) f.c)
  | _ => none

/-- The instruction that the fields of a memory word name (R267). -/
def memCandidate (h : Head) (op : Nat) (fn : BitVec 8) (m : MemF) : Option Instr :=
  match op with
  | 0x50 => some (.sld h m)
  | 0x51 => some (.sst h m)
  | 0x52 => some (.vld h m)
  | 0x53 => some (.vst h m)
  | 0x54 => some (.vgth h m)
  | 0x55 => some (.vsct h m)
  | 0x56 => some (.lds h m)
  | 0x57 => some (.sts h m)
  | 0x58 => some (.gld h m)
  | 0x59 => some (.gst h m)
  | 0x5a => some (.mst h m)
  | 0x5b => some (.ldx h m)
  | 0x5c => some (.cpf h m)
  | 0x5d => some (if m.var == 0 then .copInv h m else if m.var == 1 then .copInvall h m else if m.var == 2 then .copWb h m else .copWbinv h m)
  | 0x5e => some (.atm h (AtmFn.dec fn) m)
  | _ => none

/-- The default type an opcode may also name by its own code (R77); an opcode that uses no TYPE has none. -/
def opDflt (op c : Nat) : Option Ty :=
  if op ≤ 0x0f then
    (if op == 4 || op == 0x0a || op == 0x0b || op == 0x0c then some .i32 else if op == 9 then some .n32 else some .b32)
  else if op == 0x10 then some .n32
  else if op == 0x11 then some .b32
  else if op == 0x12 then some .x64
  else if op == 0x14 then some .f32
  else if op == 0x24 || op == 0x25 then some (scanDflt (BitVec.ofNat 3 c))
  else if op == 0x23 || op == 0x26 || op == 0x27 then some .b32
  else if 0x28 ≤ op && op ≤ 0x3f then
    (if op == 0x2c || op == 0x2d || op == 0x37 then some .i32 else if op == 0x32 || op == 0x34 then some .n32
     else if 0x38 ≤ op then some .f32 else some .b32)
  else if op == 0x40 || op == 0x47 || op == 0x48 || op == 0x4c then some .f32
  else if op == 0x49 then some .bf16
  else if op == 0x4a then some .i8
  else if op == 0x4b then some .b32
  else if 0x4d ≤ op && op ≤ 0x4f then some .f32
  else if op == 0x7c || op == 0x7d then some .f32
  else none

/-- The word read, `r`, is the encoding `e`, up to a default type named by its code and the ignored upper half of a
literal (R77, R78). -/
def Fields.accepts (dflt : Option Ty) (r e : Fields) : Bool :=
  r.d == e.d && r.a == e.a && r.b == e.b && r.c == e.c && r.sa == e.sa && r.sb == e.sb && r.sc == e.sc &&
  r.rm == e.rm && r.sat == e.sat && r.x == e.x && r.lit.isSome == e.lit.isSome &&
  (r.ty == e.ty || (e.ty == 0 && some r.ty == dflt.map Ty.code))

/-- The bits [31:17] of the base word of an extended form are 0 (R72). -/
def upperClear (n : Nat) : Bool := !isLong n || (n / 2 ^ 17) % 2 ^ 15 == 0

/-- Checks 6 to 8 of R83: the instruction, when every operand and modifier is one that it accepts. -/
def operands (n : Nat) : Option Instr :=
  let h := headOf n
  let op := (opOf n).toNat
  if op == 0 then some (.nop h)
  else if 0x50 ≤ op && op ≤ 0x5e then
    match memCandidate h op (fnOf n) (memOf n) with
    | some i => if i.wf && upperClear n then some i else none
    | none => none
  else
    match regCandidate h op (fnOf n) (fieldsOf n) with
    | some i =>
      match i.raw with
      | some ⟨_, _, _, .reg e⟩ =>
        if i.wf && upperClear n && (fieldsOf n).accepts (opDflt op ((fieldsOf n).c.toNat % 8)) e then some i else none
      | _ => none
    | none => none

/-- The opcodes permitted to a role (R37), and the matrix role's set (R315). -/
def roleAllows (r : Role) (op : Nat) : Bool :=
  match r with
  | .matrix =>
    op ≤ 0x12 || op == 0x16 || op == 0x17 || (0x18 ≤ op && op ≤ 0x1f) || op == 0x50 || op == 0x51 ||
    op == 0x60 || op == 0x61 || op == 0x62 || op == 0x66 || op == 0x67 || op == 0x72 || op == 0x73 ||
    (0x74 ≤ op && op ≤ 0x78) || op == 0x7a || op == 0x7b || op == 0x7d || op == 0x7e
  | .any => !(op == 0x7a || op == 0x7b || op == 0x7e)
  | .copy =>
    op ≤ 0x12 || op == 0x16 || op == 0x17 || (0x18 ≤ op && op ≤ 0x1f) || op == 0x50 || op == 0x51 ||
    (0x60 ≤ op && op ≤ 0x79)
  | .vector =>
    !(op == 0x7a || op == 0x7b || op == 0x7e) && !(0x74 ≤ op && op ≤ 0x79)

/-- In a sequencer context `call` and `ret` name a scalar pair (R221). -/
def seqPairOk : Instr → Bool
  | .call _ d _ => d.toNat < 64
  | .ret _ a => a.toNat < 64
  | _ => true

/-- Decoding under a role: the checks of R83 in their order. -/
def decodeFor (r : Role) (n : Nat) : Except W8 Instr :=
  let op := (opOf n).toNat
  let fn := (fnOf n).toNat
  if opReserved op then .error Cause.illegalInstr
  else if !lenOk op (n % 4) then .error Cause.illegalInstr
  else if !fnOk op fn then .error Cause.illegalInstr
  else if r = .matrix && !roleAllows .matrix op then .error Cause.illegalInstr
  else if r ≠ .matrix && !roleAllows r op then .error Cause.roleViolation
  else
    match operands n with
    | none => .error Cause.reservedField
    | some i => if r = .matrix && !seqPairOk i then .error Cause.reservedField else .ok i

/-- Decoding whatever the role: checks 1 to 3 and 6 to 8 of R83. -/
def decode (n : Nat) : Except W8 Instr :=
  let op := (opOf n).toNat
  if opReserved op || !lenOk op (n % 4) || !fnOk op (fnOf n).toNat then .error Cause.illegalInstr
  else
    match operands n with
    | none => .error Cause.reservedField
    | some i => .ok i

/-- The instruction that the decoder reads from the bits `w` of an opcode-table row. -/
def decodeTableWord (nbits w : Nat) : Option Instr :=
  match decode (w % 2 ^ nbits) with
  | .ok i => some i
  | .error _ => none

/-! The encoder. -/

def b2n (b : Bool) : Nat := if b then 1 else 0

/-- The base word (R72); only a base form holds operands in it. -/
def baseWord (r : Raw) : Nat :=
  r.head.len.toNat + r.head.stall.toNat * 2 ^ 2 + r.op.toNat * 2 ^ 6 + r.head.g.toNat * 2 ^ 13 + b2n r.head.gn * 2 ^ 16 +
  (if r.head.len.toNat < 2 then
    match r.body with
    | .reg f => f.d.toNat * 2 ^ 17 + f.a.toNat * 2 ^ 22 + f.b.toNat * 2 ^ 27
    | .mem _ => 0
   else 0)

/-- The extension (R76, R79). -/
def extWord (r : Raw) : Nat :=
  match r.body with
  | .reg f =>
    r.fn.toNat + f.d.toNat * 2 ^ 8 + f.a.toNat * 2 ^ 19 + f.b.toNat * 2 ^ 30 + f.c.toNat * 2 ^ 41 + b2n f.sa * 2 ^ 52 +
    b2n f.sb * 2 ^ 53 + b2n f.sc * 2 ^ 54 + f.rm.toNat * 2 ^ 55 + b2n f.sat * 2 ^ 57 + f.ty.toNat * 2 ^ 58 +
    b2n f.x * 2 ^ 63
  | .mem m =>
    r.fn.toNat + m.data.toNat * 2 ^ 8 + m.base.toNat * 2 ^ 19 + m.off.toNat * 2 ^ 30 + b2n m.bk * 2 ^ 54 +
    m.ord.toNat * 2 ^ 55 + m.scope.toNat * 2 ^ 57 + m.var.toNat * 2 ^ 60

def Raw.litN (r : Raw) : Nat :=
  match r.body with
  | .reg f => (f.lit.getD 0).toNat
  | .mem _ => 0

/-- The words of an instruction as one number, the base word lowest (R70). -/
def Raw.word (r : Raw) : Nat :=
  match r.head.len.toNat with
  | 0 => baseWord r
  | 1 => baseWord r + r.litN * 2 ^ 32
  | 2 => baseWord r + extWord r * 2 ^ 32
  | _ => baseWord r + extWord r * 2 ^ 32 + r.litN * 2 ^ 96

/-- The encoding of an instruction as one number; an event has none. -/
def encode (i : Instr) : Option Nat := i.raw.map Raw.word

/-- The bytes of a number, lowest first (R1). -/
def leBytes : Nat → Nat → List W8
  | 0, _ => []
  | k + 1, n => BitVec.ofNat 8 n :: leBytes k (n / 256)

/-- The bytes of an instruction in memory. -/
def encodeBytes (i : Instr) : List W8 :=
  match i.raw with
  | some r => leBytes r.head.bytes r.word
  | none => []

end Sys2Proof
end

