-- ==== Sys2Proof/Machine/State.lean ====
section
/-!
DEFINITION. The state of the machine as plain data, the reasons a step may stop, and the state after reset.
Tables are lists of key and value in rising key order (`SMap`); byte memory lists no byte that reads 0.
-/
namespace Sys2Proof.Machine

/-- A table: keys strictly rising. -/
abbrev SMap (α : Type) := List (Nat × α)

/-- A fault record (R417), with the time at which it was made, for a dump's chain (R433). -/
structure FaultRec where
  cause : W8 := 0
  faddr : W64 := 0
  fpc : W64 := 0
  ilen : Nat := 0
  time : Nat := 0
  deriving DecidableEq, Repr

/-- Lane states (R183). -/
inductive LaneSt where
  | active | waiting | parked | exited
  deriving DecidableEq, Repr

/-- Why a parked lane is held from its handler: a speculative task (R128), a page under migration (R292), or Umber
acting on the fault (R290). -/
inductive Hold where
  | none | spec | wpm | umber
  deriving DecidableEq, Repr

/-- A lane (R183, R417, R419). `sub` orders parked sub-warps by the time they parked, and `tr` says that a translation raised
the fault (R290); `outer` is the record of the handler that a lane is in while a further fault of it is held (R290), and `keep` the bytes of a store that parked with WP_MIGRATION, until it
issues again (R292). -/
structure Lane where
  pc : W64 := 0
  st : LaneSt := .active
  deferred : Bool := false
  inHandler : Bool := false
  hold : Hold := .none
  sub : Nat := 0
  inst : Nat := 0
  tr : Bool := false
  frec : FaultRec := {}
  outer : FaultRec := {}
  keep : Option (Nat × Nat) := none
  deriving DecidableEq, Repr

/-- Where a result goes, with the lanes that receive it. -/
inductive Dst where
  | none
  | s (r : Nat)
  | v (r : Nat)
  deriving DecidableEq, Repr

/-- A fixed-latency result pending (R188, R189): the value lands at `due`. -/
inductive RegW where
  | s (r : Nat) (v : W32)
  | p (r : Nat) (m v : Mask)
  | v (r : Nat) (m : Mask) (row : List W32)
  | flags (f : W32)
  deriving DecidableEq, Repr

structure Pend where
  due : Nat
  w : RegW
  deriving DecidableEq, Repr

/-- Kinds of access in flight; fences stand in the list as markers (R383, R391). -/
inductive AccKind where
  | load | store | atm | ldx | copWb | copWbinv | relFence | acqFence
  deriving DecidableEq, Repr

/-- One access that a thread has issued and that has not performed (R271, R384). `sent` is its issue time; `out` is when its request
went out, once its order let it (R404, R410), `lost` says that a packet of it was dropped (R405, R406, R409), and `bad` that its
data arrives with an uncorrectable flit (R409). -/
structure Acc where
  seq : Nat
  lane : Nat := 0
  kind : AccKind
  va : Nat := 0
  pa : Nat := 0
  n : Nat := 0
  data : Nat := 0
  data2 : Nat := 0
  aop : Nat := 0
  code : Nat := 0
  dst : Dst := .none
  strong : Bool := false
  acq : Bool := false
  rel : Bool := false
  scope : Nat := 0
  fmt : Nat := 0
  blk : Nat := 0
  side : Nat := 0
  fpc : W64 := 0
  ilen : Nat := 0
  sent : Nat := 0
  out : Option Nat := none
  lost : Bool := false
  bad : Bool := false
  counted : Bool := false
  deriving DecidableEq, Repr

/-- A monitor (R399): `addr` is a physical address, or an offset when `sp` is set. -/
structure Mon where
  sp : Bool
  va : Nat
  addr : Nat
  saved : W64
  trig : Bool
  full : Bool := false
  due : Nat := 0
  deriving DecidableEq, Repr

/-- What a thread waits for (R157, R427); `push` is a `spawnr` that has written its line and waits for its push
(R166), `counters` a `wcnt` at a PC that has looked for faults and waits for its counters (R396), and `slot` an `sgrel` at a PC that
has found its slot held and waits to release it (R329). -/
inductive Wait where
  | none
  | bar (phase : Nat)
  | gbar (d : SReg) (phase : Nat)
  | join (f : Nat) (d b : SReg)
  | mwait (d : SReg) (deadline : Option Nat)
  | xacq (k order : Nat)
  | member (m : Nat)
  | sgacq (r : Nat) (full : Bool) (d : SReg) (order : Nat)
  | qroom (home order : Nat)
  | push (c : Nat)
  | counters (pc : W64)
  | slot (pc : W64) (k : Nat)
  deriving DecidableEq, Repr

/-- One lane of a gather, a scatter, or a gang access. -/
structure GLane where
  lane : Nat
  va : Nat
  pa : Nat
  off : Nat
  data : Nat := 0
  deriving DecidableEq, Repr

/-- A drain's parameters as read at issue (R324). -/
structure Drain where
  tile : Nat
  ty : Ty
  rm : Rm
  sat : Bool
  dst : Nat
  rowb : Nat
  scale : W32
  amx : Nat
  flags : W32
  hdr : Nat
  deriving DecidableEq, Repr

/-- Engine operations of a thread, by class (R393). -/
inductive EngKind where
  | cpy | strm
  | mma (t : Nat) (fa fb : Bool) (n : Nat) (sh : Bool)
  | acc (fn t u m : Nat)
  | fskip (f n : Nat)
  | ardv (d tile q : Nat) (raw : Bool) (rm : Rm) (sat : Bool) (mask : Mask)
  | adrn (d : Drain) (gwct : Option Nat)
  | vgth (lanes : List GLane) (n : Nat)
  | vsct (lanes : List GLane) (n : Nat)
  | gld (m d : Nat) (lanes : List GLane)
  | gst (m : Nat) (lanes : List GLane)
  | mst (lanes : List GLane) (n : Nat) (todo : List Nat)
  | cland | qsub | nbrun
  deriving DecidableEq, Repr

/-- An outstanding engine operation; completions are reported in issue order within a class (R393). `at'` is its issue time,
and `counted` says that a stall of it has been counted, or its fault held (R124, R125, R128); `lost` is when a packet of it was
dropped, after which only its timeout ends it (R405, R406, R409, R410). -/
structure EngOp where
  id : Nat
  cls : Nat
  done : Bool := false
  gwct : Nat := 0
  seq : Nat := 0
  spec : Bool := false
  pc : W64 := 0
  ilen : Nat := 0
  rd : List (Nat × Nat) := []
  wr : List (Nat × Nat) := []
  wsp : List (Nat × Nat) := []
  rsp : List (Nat × Nat) := []
  at' : Nat := 0
  counted : Bool := false
  lost : Option Nat := none
  kind : EngKind
  deriving DecidableEq, Repr

/-- Where a thread blocked, in `join` or `mwait`: the physical address of the future or the word that it waits for, and the
instruction with its lanes, for a fault of the read that ends the wait (R170, R400). A future's home counts its joiner (R44); `lapsed`
says that its page is no longer mapped, so that no home counts it (R291). -/
structure JoinAt where
  pa : Nat
  pc : W64
  ilen : Nat
  m : Mask
  lapsed : Bool := false
  deriving DecidableEq, Repr

/-- A warp, or a sequencer context, whose only lane is lane 0 (R183 to R202, R314, R434). `width` is how many bytes the
instruction being issued stores at most, and `yield` says that an instruction has waited while a lane kept the place of a store (R292). -/
structure Thread where
  lanes : List Lane := []
  s : SMap W32 := []
  p : SMap Mask := []
  v : SMap (List W32) := []
  xblk : W32 := 1
  wctl : W32 := 0x5A01
  fpflags : W32 := 0
  h : Nat := 0
  q : Nat := 0
  p0c : W64 := 0
  timehi : Option W32 := none
  maxw : Nat := 0
  mark : Option (W32 × Nat) := none
  region : Option W64 := none
  stage : SMap (List W32) := []
  written : List Nat := []
  mon : Option Mon := none
  ops : List EngOp := []
  pendFault : SMap (W8 × W64) := []
  pendAt : SMap Nat := []
  flight : List Acc := []
  pending : List Pend := []
  nextSeq : Nat := 0
  nextIssue : Nat := 0
  wait : Wait := .none
  joined : Option JoinAt := none
  mwaitAt : Option JoinAt := none
  since : Nat := 0
  wake : Bool := false
  subNo : Nat := 0
  ctxRec : FaultRec := {}
  width : Nat := 16
  retired : Bool := false
  noted : Bool := false
  delayed : Bool := false
  yield : Bool := false
  deriving DecidableEq, Repr

/-- A tile descriptor (R30). -/
structure Desc where
  handle : Nat
  dir : Nat
  loc : Bool
  lidx : Nat
  coord : List Nat
  deriving DecidableEq, Repr

/-- A layout record as read (R34), with its address. -/
structure Rec where
  addr : Nat := 0
  base : Nat := 0
  fmt : Nat := 0
  rank : Nat := 0
  pad : Nat := 0
  rsv : Nat := 0
  padval : Nat := 0
  dim : List Nat := []
  stride : List Nat := []
  tshape : List Nat := []
  deriving DecidableEq, Repr

/-- A stage ring (R327). -/
structure Ring where
  ns : Nat := 16
  phase : W16 := 0
  held : W16 := 0
  e : Nat := 0
  f : Nat := 0
  deriving DecidableEq, Repr

/-- A task's outcome (R174, R178). -/
inductive TOut where
  | full (v : W64)
  | faulted (cause : W8) (aux : W64)
  deriving DecidableEq, Repr

/-- A tile buffer of a task (R33): its header's offset, and for a LOCAL descriptor the owner. -/
structure Buf where
  off : Nat
  size : Nat := 0
  owner : Option Nat := none
  lrec : Rec := {}
  filled : Bool := false
  deriving DecidableEq, Repr

/-- Where a task stands. -/
inductive TaskSt where
  | staged | running | swapped | done | dead
  deriving DecidableEq, Repr

/-- A cause of a dump's chain (R433). -/
structure DumpCause where
  code : W8
  unit : Nat
  lane : Nat
  warp : Nat
  time : Nat
  addr : W64
  deriving DecidableEq, Repr

/-- How far the dump of a fatal task has come (R432): it has not begun; its slot was taken at a time; its sections, with the number of
causes in its header, perform at a time; it is abandoned, and LOST has to advance; it is over. -/
inductive DumpSt where
  | idle
  | taken (slot start : Nat)
  | written (slot start gw causes nsect size : Nat)
  | lost
  | over
  deriving DecidableEq, Repr

/-- Kinds of deque entry (R143). -/
inductive EntKind where
  | closure (addr future cid : Nat) (noSteal : Bool) (spawner : Option Nat) (locals : List Nat)
  | range (launch lo hi : Nat)
  | tail (launch lo hi : Nat) (origin extent : W64)
  deriving DecidableEq, Repr

/-- A deque entry with its launch, root and tag (R122, R143), and its raise and lend marks (R172, R411); `counted` marks a
committed identifier that has been counted and was then stolen from staging (R142, R154), and `split` an offered part of the range
entry that stands before it, whose place it shares until it is given (R149, R411). `ended` counts the members of a gang entry's first unit that have been ended
unstarted (R413). -/
structure Ent where
  id : Nat
  kind : EntKind
  launch : Option Nat := none
  root : W64 := 0
  tag : Option Nat := none
  raised : Bool := false
  lent : Option Nat := none
  counted : Bool := false
  split : Bool := false
  ended : Nat := 0
  deriving DecidableEq, Repr

/-- An open stream (R307); `bad` is the index of its first poison slice (R309, R310). -/
structure Strm where
  id : Nat
  tid : Nat
  fifo : Nat
  lrec : Rec
  spb : Option Nat
  k0 : Nat
  row0 : Nat
  d2 : Nat
  d3 : Nat
  nsl : Nat
  next : Nat := 0
  stop : Bool := false
  poison : Bool := false
  bad : Nat := 0
  deriving DecidableEq, Repr

/-- A slice in an operand FIFO (R306): its task, stream, index, format, 1024 element codes and 32 exponents. -/
structure Slice where
  task : Nat
  strm : Nat
  idx : Nat
  fmt : Nat
  data : List Nat
  exps : List Nat
  deriving DecidableEq, Repr

/-- A task (R20 to R33); `haltAt` is when its first fatal fault came (R431, R435), and `lost` is when a packet of a fetch for its staging was dropped (R410). -/
structure Task where
  cid : Nat := 0
  core : Nat := 0
  st : TaskSt := .staged
  closure : Nat := 0
  entry : W64 := 0
  entry2 : W64 := 0
  future : Nat := 0
  wid : W64 := 0
  flags : W16 := 0
  team : W8 := 0
  descs : List Desc := []
  spkib : Nat := 0
  nacc : Nat := 0
  launch : Option Nat := none
  ident : Bool := false
  tag : Option Nat := none
  root : W64 := 0
  stageFault : Option W64 := none
  bufs : List Buf := []
  spad : List Host.Cell := []
  spoison : List Nat := []
  size : Nat := 0
  units : List Nat := []
  spwatch : List (Nat × Nat) := []
  cells : SMap F36 := []
  shadow : List Nat := []
  rings : SMap Ring := []
  out : TOut := .full 0
  fout : Option (W8 × W64) := none
  ending : Bool := false
  barPhase : Nat := 0
  barHere : List Nat := []
  gang : Option (Nat × Nat) := none
  spawner : Option Nat := none
  fatal : List DumpCause := []
  haltAt : Nat := 0
  heldFatal : List DumpCause := []
  badBlocks : Nat := 0
  raised : Bool := false
  preempt : Bool := false
  ent : Option Ent := none
  streams : List Strm := []
  slices : List (Nat × Slice) := []
  written : Bool := false
  wbGw : Nat := 0
  wbFault : Option (W8 × W64) := none
  counted : Bool := false
  dump : DumpSt := .idle
  stagedAt : Nat := 0
  record : Option (Nat × Nat) := none
  lost : Option Nat := none
  deriving DecidableEq, Repr

/-- A gang (R39, R156, R277, R398). -/
structure Gang where
  launch : Nat
  members : List Nat := []
  started : Bool := false
  errs : Nat := 0
  phase : Nat := 0
  here : List Nat := []
  core : Nat := 0
  unit : Nat := 0
  deriving DecidableEq, Repr

/-- An L1 line with its lease (R254, R385). -/
structure L1Line where
  line : Nat
  expiry : Nat
  bytes : List W8
  tag : Option Nat := none
  deriving DecidableEq, Repr

/-- A cached leaf translation (R289). -/
structure TlbEnt where
  cid : Nat
  va : Nat
  bits : Nat
  pa : Nat
  w : Bool
  x : Bool
  wpm : Bool
  deriving DecidableEq, Repr

/-- A non-leaf entry that the walkers of a die cache: the table of `level` for the addresses from `va` (R286, R289). -/
structure WalkEnt where
  cid : Nat
  va : Nat
  level : Nat
  table : Nat
  deriving DecidableEq, Repr

/-- A copy command (R302); `lost` is when a packet of a COPY packet's was dropped (R410). -/
structure CpyCmd where
  id : Nat
  tid : Option Nat
  pkt : Option Nat := none
  cid : Nat
  kind : Nat
  cmd : W64
  src : Nat
  dst : Nat
  count : Nat
  lrec : Rec := {}
  state : Nat := 0
  gwct : Nat := 0
  counted : Bool := false
  at' : Nat := 0
  fault : Option (W8 × W64) := none
  lost : Option Nat := none
  deriving DecidableEq, Repr

/-- A thief's attempt (R411). -/
structure Attempt where
  victim : Nat
  tag : Nat
  offerDue : Nat
  copy : Option Ent := none
  ackDue : Nat := 0
  deriving DecidableEq, Repr

/-- What a victim keeps for a thief (R411): the lent entry, its timer, and the answer recorded. -/
structure Lend where
  tag : Nat
  ent : Option Nat
  due : Nat
  given : Option Ent := none
  kept : Bool := false
  deriving DecidableEq, Repr

/-- The two issue pipes of a quadrant (R181, R182, R338): the cycle after each one's last issue, the slot that issued
last, and until when which thread holds VB. -/
structure Pipes where
  vaFree : Nat := 0
  vaLast : Nat := 7
  vbFree : Nat := 0
  vbLast : Nat := 7
  vbUntil : Nat := 0
  vbOwner : Nat := 0
  deriving DecidableEq, Repr

/-- A logical core (R13); `lastTeam` is the queue slot whose launch won team resources last (R109). -/
structure Core where
  lost : Bool := false
  ctx : Option Nat := none
  slots : SMap Nat := []
  pipes : SMap Pipes := []
  seqFree : Nat := 0
  seqLast : Nat := 3
  deque : List Ent := []
  spill : List Ent := []
  spillCap : Nat := 0
  staged : List Nat := []
  joinPos : Option Nat := none
  retiredBlks : Nat := 0
  units : SMap Nat := []
  accUsed : Nat := 0
  l1 : List L1Line := []
  tlb : List TlbEnt := []
  cpy : List CpyCmd := []
  layout : List (Nat × Rec) := []
  streams : List Strm := []
  fifo0 : List Slice := []
  fifo1 : List Slice := []
  fifo2 : List Slice := []
  fifo3 : List Slice := []
  slices : Nat := 0
  flush : Nat := 0
  fskips : Nat := 0
  drsat : Nat := 0
  bfpclamp : Nat := 0
  nanblk : Nat := 0
  fmtmis : Nat := 0
  cpysat : Nat := 0
  thief : Option Attempt := none
  lends : SMap Lend := []
  firstFail : Option Nat := none
  lastIssue : Nat := 0
  lastSwap : Nat := 0
  lastTeam : Nat := 31
  deriving DecidableEq, Repr

/-- A home's record of a line (R262, R265, R385, R446). -/
structure L2Line where
  lease : Nat := 0
  inL2 : Bool := false
  dirty : Bool := false
  side : SMap Nat := []
  host : Bool := false
  biWait : Bool := false
  deriving DecidableEq, Repr

/-- A speculative sector (R125); `bad` are its bytes that arrived with an uncorrectable flit (R409, R466). -/
structure Sector where
  tag : Nat
  sector : Nat
  root : W64
  bytes : List Host.Cell
  bad : List Nat := []
  deriving DecidableEq, Repr

/-- A completion of a future held in speculative lines, with the virtual address at which it is applied (R131, R171). -/
structure SpecFut where
  tag : Nat
  root : W64
  cid : Nat
  va : Nat
  addr : Nat
  state : Nat
  cause : W8
  value : W64
  aux : W64
  pwid : W64
  deriving DecidableEq, Repr

/-- A context (R285, R448). -/
structure Ctx where
  ltbase : Nat := 0
  hpc : W64 := 0
  dumpbase : Nat := 0
  cores : List Nat := []
  quota : Nat := 0
  upf : Bool := false
  root : Nat := 0
  dying : Bool := false
  deriving DecidableEq, Repr

/-- A queue or a send ring as Umber holds it (R98, R450, R455). -/
structure Queue where
  cid : Nat
  qcb : Nat
  send : Bool
  slot : Option Nat := none
  unmapped : Nat := 0
  mapped : Nat := 0
  inFlight : Nat := 0
  idle : Bool := true
  stopped : Bool := false
  heldWait : Option Nat := none
  errOwed : Option Nat := none
  w : Nat := 0
  dying : Bool := false
  deriving DecidableEq, Repr

/-- A predictor entry (R120): the shape site and up to four true shapes, latest first. -/
structure Predict where
  site : Nat
  shapes : List (List Nat)
  deriving DecidableEq, Repr

/-- A hardware queue slot (R108, R109, R120). -/
structure Slot where
  qid : Option Nat := none
  predict : List Predict := []
  lastQid : Option Nat := none
  deriving DecidableEq, Repr

/-- A packet that has been read and has not completed (R100, R106). -/
structure Pkt where
  qid : Nat
  index : Nat
  addr : Nat
  kind : Nat
  barrier : Bool
  intr : Bool
  intrx : Bool := false
  bytes : List W8
  ext : List W8 := []
  started : Bool := false
  done : Bool := false
  deadline : Option Nat := none
  cmd : Option Nat := none
  gwct : Nat := 0
  fault : Option (W8 × W64) := none
  deriving DecidableEq, Repr

/-- Launch states (R137). -/
inductive LSt where
  | waiting | speculating | resolving | squashing | draining | running | complete
  deriving DecidableEq, Repr

/-- A speculative task that has retired: its root, its own identifier and future, whether it is an identifier of the
launch, and its outcome (R132, R138, R441). -/
structure DoneRoot where
  root : W64
  wid : W64
  future : Nat
  ident : Bool
  out : TOut
  deriving DecidableEq, Repr

/-- A launch (R104, R112, R115, R440). `early` says that its record was VALID when it was accepted (R118); `merges` and `squashes`
are the completions that resolution still owes (R130 to R132). `held` says that it was accepted during a re-stitch (R407), and
`teamW` is when its teams last won team resources, or came to wait for them (R109). -/
structure Launch where
  cid : Nat := 0
  pkt : Nat := 0
  qid : Nat := 0
  slot : Nat := 0
  addr : Nat := 0
  st : LSt := .waiting
  template : Nat := 0
  image : List W8 := []
  teamcfg : W32 := 0
  widths : List Nat := []
  ext : List Nat := []
  box : List Nat := []
  lb : List Nat := []
  truth : List Nat := []
  partition : List Nat := []
  gsize : Nat := 0
  future : Nat := 0
  done : Nat := 0
  shape : Nat := 0
  shapePa : Nat := 0
  site : Nat := 0
  mode : Nat := 0
  vf : Nat := 8
  arena : Nat := 0
  aslot : Nat := 0
  tag : Option Nat := none
  deadline : Nat := 0
  status : Nat := 0
  retired : Nat := 0
  faulted : Nat := 0
  commit : Nat := 0
  squash : Nat := 0
  tail : Nat := 0
  stands : List Nat := []
  doneRoots : List DoneRoot := []
  pendingTails : List (Nat × Ent) := []
  early : Bool := false
  merges : List SpecFut := []
  squashes : List (Nat × W64) := []
  seeds : List (Nat × Ent) := []
  held : Bool := false
  teamW : Nat := 0
  refused : Option W8 := none
  recGw : Option Nat := none
  rangeAt : Nat := 0
  nrange : Nat := 0
  aborted : Bool := false
  linkDown : Bool := false
  vfWait : Bool := false
  deriving DecidableEq, Repr

/-- A fabric message of the steal exchange (R411). -/
structure Msg where
  kind : Nat
  thief : Nat
  victim : Nat
  tag : Nat
  ent : Option Ent := none
  deriving DecidableEq, Repr

/-- A near-bank program (R349 to R352), and what runs of it; `lost` is when a packet of it was dropped (R410). -/
structure NbProg where
  tid : Nat
  op : Nat
  cid : Nat
  uops : List W64
  bmask : W16
  rva : List Nat
  str : List Int
  progress : Nat
  sc : List W32
  mpc : Nat := 0
  i : Nat := 0
  bank : Nat := 0
  acc : SMap (SMap W32) := []
  lease : Nat := 0
  ended : Bool := false
  fault : Option (W8 × W64) := none
  lost : Option Nat := none
  deriving DecidableEq, Repr

/-- A near-bank unit with its pseudo-channel's controller (R346, R347, R349, R357); `arrived` says that a core request has come during
the row operation under way, which the unit makes unless it is suspended. -/
structure NbUnit where
  run : Option NbProg := none
  queue : List NbProg := []
  susp : Option Nat := none
  quiet : Nat := 0
  arrived : Bool := false
  reqs : List (Nat × Nat) := []
  wq : List (Nat × Nat) := []
  burst : List Nat := []
  postponed : SMap Nat := []
  deriving DecidableEq, Repr

/-- A landing packet on its way (R363); `peer` is the device and the RADDR that a peer's is answered to (R454), and `applied`
is when its last line was written (R393). -/
structure Landing where
  tid : Option Nat
  peer : Option (Nat × Nat) := none
  op : Nat
  opc : Nat
  cid : Nat
  line : Nat
  mask : List Bool
  data : List W8
  va : Nat
  seen : Bool := false
  applied : Option Nat := none
  deriving DecidableEq, Repr

/-- A candidate of a query, with the node whose list held it (R372, R377). -/
structure Cand where
  d : W32
  id : Nat
  exp : Bool
  parent : Nat := 0
  deriving DecidableEq, Repr

/-- A node whose distance a query has asked for (R373, R377): its parent, and what came of it. -/
structure QDist where
  id : Nat
  parent : Nat
  d : Option W32 := none
  fault : Option (W8 × W64) := none
  deriving DecidableEq, Repr

/-- A Cerulean query (R369, R372); `lost` is when a packet of it was dropped (R410). -/
structure Query where
  tid : Nat
  op : Nat
  cid : Nat
  home : Nat
  wid : W64
  pkt : List W8
  hdr : List W8
  v : List Nat := []
  c : List Cand := []
  list : List QDist := []
  entryDone : Bool := false
  rounds : Nat := 0
  expanded : Nat := 0
  visited : Nat := 0
  status : Nat := 0
  stopped : Bool := false
  gw : Option Nat := none
  fault : Option (W8 × W64) := none
  lost : Option Nat := none
  deriving DecidableEq, Repr

/-- A fabric log entry (R414). -/
structure FabLog where
  time : Nat
  die : Nat
  site : Nat
  link : Nat
  kind : Nat
  deriving DecidableEq, Repr

/-- A journal entry (R452). -/
structure Jrnl where
  seq : W64
  time : W64
  op : W16
  qid : W16
  slot : W8
  cid : W16
  arg : W64
  deriving DecidableEq, Repr

/-- An Axyel descriptor being carried out (R454): `asked` says that the request of a GET has gone out; `purpose` 1 and 2 are the two
reads of a recovery (R457). -/
structure AxDesc where
  qid : Nat
  cid : Nat
  index : Nat
  bytes : List W8
  asked : Bool := false
  started : Bool := false
  done : Bool := false
  gwct : Nat := 0
  fault : Option (W8 × W64) := none
  purpose : Nat := 0
  deriving DecidableEq, Repr

/-- What is sent to a peer device from this one's number (R454): a request of a descriptor, with its DCID, OPC, RADDR and COUNT, or
the answer to one of the peer's. `due` is when it goes out: an answer waits until what it answers for has performed. -/
structure Sent where
  dev : Nat
  kind : Nat
  raddr : Nat
  cause : W8
  data : List W8
  src : BitVec 12 := 0
  dcid : Nat := 0
  opc : Nat := 0
  count : Nat := 0
  due : Nat := 0
  deriving DecidableEq, Repr

/-- A migration under way (R292). -/
structure Migr where
  cid : Nat
  va : Nat
  page : Nat
  phase : Nat
  shoot : Nat
  deriving DecidableEq, Repr

/-- A shootdown under way (R291). -/
structure Shoot where
  num : Nat
  cid : Nat
  va : Nat
  size : Nat
  deriving DecidableEq, Repr

/-- A format window (R263). -/
structure FWin where
  base : Nat := 0
  limit : Nat := 0
  en : Bool := false
  fmt : Nat := 0
  blke : Nat := 0
  scale : Nat := 0
  deriving DecidableEq, Repr

/-- A landing window (R361). -/
structure LWin where
  base : Nat := 0
  limit : Nat := 0
  en : Bool := false
  cid : Nat := 0
  deriving DecidableEq, Repr

/-- What the agenda makes act: a thread of a core issues, or an agent's event takes place (log 1). -/
inductive Act where
  | issue (core unit : Nat)
  | event (i : Instr)
  deriving DecidableEq, Repr

/-- One turn of the agenda: the ticks that pass before it, and the act (log 1). -/
structure Turn where
  wait : Nat
  act : Act
  deriving DecidableEq, Repr

/-- The instruction being issued: its thread, its run of lanes, its PC (log 6), whether what it has done stays although it
waits (R166), and the pages of its core's misses (R289). -/
structure Issue where
  core : Nat := 0
  unit : Nat := 0
  tid : Nat := 0
  run : Mask := 0
  pc : W64 := 0
  ilen : Nat := 0
  stalled : Bool := false
  kept : Bool := false
  hold : Nat := 0
  reqs : List (Nat × Nat) := []
  deriving DecidableEq, Repr

/-- Lifetime counters (R468): resets, the ticks at each operating point, and the seconds in each bin of temperature. -/
structure Lifetime where
  resets : W32 := 0
  opTicks : SMap Nat := []
  tjhist : SMap W64 := []
  deriving DecidableEq, Repr

/-- Error and lifetime counters (R467, R468): the lifetime ones as they stand, with the time up to which the running point has been
credited, and as flash holds them; the rows with their correctable errors of this scrub pass and when it began, the rows queued
for repair, and those repaired. -/
structure Life where
  ceCore : W32 := 0
  ceL2 : W32 := 0
  ceHbm : W32 := 0
  ue : W32 := 0
  now : Lifetime := {}
  kept : Lifetime := {}
  since : Nat := 0
  scrubRows : SMap Nat := []
  scrubAt : Nat := 0
  rowQueue : List Nat := []
  rowsFixed : List Nat := []
  deriving DecidableEq, Repr

/-- The state of the machine. -/
structure State where
  time : Nat := 0
  agenda : List Turn := []
  free : Nat := 0
  issue : Issue := {}
  nextId : Nat := 1
  mem : List Host.Cell := []
  poison : List Nat := []
  l2 : SMap L2Line := []
  spec : List Sector := []
  specFut : List SpecFut := []
  -- tables of work
  ctxs : SMap Ctx := []
  cores : SMap Core := []
  threads : SMap Thread := []
  tasks : SMap Task := []
  gangs : SMap Gang := []
  launches : SMap Launch := []
  packets : SMap Pkt := []
  queues : SMap Queue := []
  slots : SMap Slot := []
  doorbell : List Nat := []
  msgs : List Msg := []
  -- engines beneath the memory
  nb : SMap NbUnit := []
  landing : List Landing := []
  queries : SMap Query := []
  -- DEV_ registers (R17, R471)
  fuses : Bool := false
  hbmMask : W16 := 0
  regpoolMin : Nat := 0
  ready : BitVec 10 := 0
  links : W16 := 0
  failcode : Nat := 0
  -- QS_ registers (R108)
  ageq : W32 := 50
  errslot : W32 := 0
  doneFail : W32 := 0
  futFail : W32 := 0
  lastSlot : Nat := 31
  -- SPEC_ registers (R142)
  tags : W64 := 0
  scommit : W64 := 0
  ssquash : W64 := 0
  stail : W64 := 0
  stmo : W32 := 0
  sinval : W32 := 0
  secstall : W32 := 0
  waystall : W32 := 0
  predhit : W32 := 0
  predfall : W32 := 0
  -- XSTEAL_ registers (R161)
  xsEnable : Bool := true
  xsMinvictim : Nat := 4
  xsIdle : Nat := 2048
  xsSwap : Nat := 65536
  xsLocal : W64 := 0
  xsRemote : W64 := 0
  xsFail : W32 := 0
  xsRestage : W32 := 0
  xsSpill : W32 := 0
  xsSwaps : W32 := 0
  -- windows (R263, R361)
  fwin : SMap FWin := []
  lwin : SMap LWin := []
  lwinDrop : W64 := 0
  -- TLB_ registers and the die TLBs (R289, R293)
  ctxBase : Nat := 0
  shootVa : Nat := 0
  shootReq : W32 := 0
  shootDone : W32 := 0
  shoots : List Shoot := []
  tlbMiss : W64 := 0
  tlbCoal : W32 := 0
  badPte : W32 := 0
  dieTlb : SMap (List TlbEnt) := []
  walkCache : SMap (List WalkEnt) := []
  migr : List Migr := []
  faultq : List (Nat × Nat) := []
  -- near-bank, HBM and Cerulean counters by stack (R348, R360, R381)
  nbWindow : Nat := 100
  nbMaxsusp : Nat := 20
  nbCnt : SMap W64 := []
  -- FAB_ registers (R414)
  opTimeout : Nat := 1048576
  stitching : Bool := false
  fabGen : W32 := 0
  bypass : SMap W32 := []
  hcorr : W32 := 0
  hdrop : W32 := 0
  timeouts : W64 := 0
  fabNext : Nat := 0
  fabCount : Nat := 0
  fabLog : SMap FabLog := []
  lostBridges : List (Nat × Nat) := []
  lostDies : List Nat := []
  lostSlices : List Nat := []
  deadSites : List Nat := []
  siteMap : SMap Nat := []
  -- MBX_ and UMB_ registers, journal (R447, R452, R453)
  mbxOpc : W16 := 0
  mbxRun : Option (Nat × SMap W64) := none
  mbxResult : W8 := 0
  mbxArg : SMap W64 := []
  quantum : Nat := 2000
  lastQuantum : Nat := 0
  standby : Bool := true
  slate : Bool := false
  maps : W64 := 0
  journal : List Jrnl := []
  jseq : Nat := 0
  hostEvents : List (Nat × Nat × Nat) := []
  hostReads : List (Nat × List W8 × Bool) := []
  ranges : List (Nat × Nat × Nat) := []
  -- peers, checkpoints, links (R454, R456, R457)
  peers : List (Nat × Nat × Nat × Bool) := []
  ckpts : List (List W64) := []
  descs : SMap AxDesc := []
  sent : List Sent := []
  lostDevs : List Nat := []
  routeGen : Nat := 0
  recov : SMap Nat := []
  flash : Option (List W8) := none
  -- power (R470)
  cap : Nat := 3000
  oplim : Nat := 0
  ppoint : Nat := 0
  op : Nat := 0
  settling : Bool := false
  watts : W16 := 0
  amps : List (Nat × W16) := []
  overAt : Option Nat := none
  underAt : Option Nat := none
  skips : W64 := 0
  limited : Bool := false
  life : Life := {}
  deriving DecidableEq, Repr

/-- No fault stops the machine: every fault of the spec is a next state, in which lanes are parked, a context stopped
or a future completed. -/
inductive Fault where
  /-- Raised by no meaning; it stands so that the type names the outcome. Safe: a claim about it is about nothing. -/
  | none
  deriving DecidableEq, Repr

/-- Why an instruction is refused. -/
inductive Refusal where
  /-- Raised by the dispatch for an instruction that has no meaning yet. Safe: nothing can be proved of its effect. -/
  | notModelled (mnemonic : String)
  deriving DecidableEq, Repr

/-- The machine right after reset: no context, no work, every register block at its reset value (R17, R108, R142, R161,
R263, R293, R333, R360, R361, R381, R414, R447, R453, R470, R471), and memory that lists nothing (log 2, log 3). -/
def State.reset : State := {}

end Sys2Proof.Machine
end

