-- ==== Sys2Proof/Machine/Ops.lean ====
section
/-!
DEFINITION. The named operations over tables, byte memory, registers, lanes and tasks, and the one operation by which
an instruction takes a fault (R417 to R425), with the return from it beside it.
-/
namespace Sys2Proof.Machine

/-! Tables. -/

/-- The entry of a key, or the default. -/
def tget {α : Type} (d : α) : SMap α → Nat → α
  | [], _ => d
  | (k, v) :: l, a => if k = a then v else tget d l a

def thas {α : Type} : SMap α → Nat → Bool
  | [], _ => false
  | (k, _) :: l, a => k = a || thas l a

def tfind {α : Type} : SMap α → Nat → Option α
  | [], _ => none
  | (k, v) :: l, a => if k = a then some v else tfind l a

/-- Writing an entry keeps the keys rising. -/
def tput {α : Type} : SMap α → Nat → α → SMap α
  | [], a, x => [(a, x)]
  | (k, v) :: l, a, x => if a < k then (a, x) :: (k, v) :: l else if a = k then (a, x) :: l else (k, v) :: tput l a x

def tdel {α : Type} : SMap α → Nat → SMap α
  | [], _ => []
  | (k, v) :: l, a => if k = a then l else (k, v) :: tdel l a

/-- Keys strictly rising, each above the bound. -/
def tsorted {α : Type} : SMap α → Nat → Bool
  | [], _ => true
  | (k, _) :: l, b => b ≤ k && tsorted l (k + 1)

/-- Writing an entry of a table that lists no default. -/
def tputD {α : Type} [DecidableEq α] (d : α) (m : SMap α) (a : Nat) (x : α) : SMap α :=
  if x = d then tdel m a else tput m a x

/-- Strictly rising keys and no default entry. -/
def Memory.wf {α : Type} [DecidableEq α] (d : α) (m : SMap α) : Bool := tsorted m 0 && m.all fun c => c.2 != d

/-! Byte memory: an unlisted byte reads 0 (log 2). -/

def byteAt (m : List Host.Cell) (a : Nat) : W8 := tget 0 m a
def byteSet (m : List Host.Cell) (a : Nat) (v : W8) : List Host.Cell := tputD 0 m a v

/-- `n` bytes from an address, as a little-endian number (R1). -/
def bytesAt (m : List Host.Cell) : Nat → Nat → Nat
  | _, 0 => 0
  | a, n + 1 => (byteAt m a).toNat + 256 * bytesAt m (a + 1) n

def bytesSet (m : List Host.Cell) : Nat → Nat → Nat → List Host.Cell
  | _, 0, _ => m
  | a, n + 1, v => bytesSet (byteSet m a (BitVec.ofNat 8 v)) (a + 1) n (v / 256)

/-- Bytes as a little-endian number. -/
def leNat : List W8 → Nat
  | [] => 0
  | b :: l => b.toNat + 256 * leNat l

def listSet (m : List Host.Cell) : Nat → List W8 → List Host.Cell
  | _, [] => m
  | a, b :: l => listSet (byteSet m a b) (a + 1) l

/-- A field of `n` bytes at an offset of a record held as bytes. -/
def fieldAt (l : List W8) (off n : Nat) : Nat := leNat ((l.drop off).take n)

/-! Masks and lanes. -/

def laneIds : List Nat := List.range 64
def bit (m : Mask) (l : Nat) : Bool := m.getLsbD l
def maskOf (f : List Bool) : Mask := BitVec.ofNat 64 (f.foldr (fun b n => (if b then 1 else 0) + 2 * n) 0)
def maskBy (p : List Nat) : Mask := p.foldl (fun m l => m ||| (1#64 <<< l)) 0
def lanesOf (m : Mask) : List Nat := laneIds.filter (bit m)
/-- The lowest lane of a mask. -/
def lowLane (m : Mask) : Nat := (lanesOf m).headD 0
def popc (n w : Nat) : Nat := ((List.range w).filter fun i => n.testBit i).length

/-- Lane-wise: `f l x` for each lane `l` of a mask, and the entry itself elsewhere. -/
def mapMask {α : Type} (m : Mask) (f : Nat → α → α) (l : List α) : List α :=
  (l.zipIdx).map fun p => if bit m p.2 then f p.2 p.1 else p.1

/-! Threads, tasks and cores. Thread `16 t + w` is warp `w` of task `t`; `w = 8` is its sequencer context. -/

def State.thread (s : State) (tid : Nat) : Thread := tget {} s.threads tid
def State.setThread (s : State) (tid : Nat) (t : Thread) : State := { s with threads := tput s.threads tid t }
def State.task (s : State) (k : Nat) : Task := tget {} s.tasks k
def State.setTask (s : State) (k : Nat) (t : Task) : State := { s with tasks := tput s.tasks k t }
def State.core (s : State) (c : Nat) : Core := tget {} s.cores c
def State.setCore (s : State) (c : Nat) (x : Core) : State := { s with cores := tput s.cores c x }
def State.launch (s : State) (l : Nat) : Launch := tget {} s.launches l
def State.setLaunch (s : State) (l : Nat) (x : Launch) : State := { s with launches := tput s.launches l x }
def State.ctx (s : State) (c : Nat) : Ctx := tget {} s.ctxs c
def State.gang (s : State) (g : Nat) : Gang := tget { launch := 0 } s.gangs g
def State.setGang (s : State) (g : Nat) (x : Gang) : State := { s with gangs := tput s.gangs g x }

def taskOf (tid : Nat) : Nat := tid / 16
def warpOf (tid : Nat) : Nat := tid % 16
def isSeq (tid : Nat) : Bool := warpOf tid == 8
def tidOf (task w : Nat) : Nat := task * 16 + w

def State.taskT (s : State) (tid : Nat) : Task := s.task (taskOf tid)

/-- Changing a thread, a task, a core. -/
def State.onThread (s : State) (tid : Nat) (f : Thread → Thread) : State := s.setThread tid (f (s.thread tid))
def State.onTask (s : State) (k : Nat) (f : Task → Task) : State := s.setTask k (f (s.task k))
def State.onCore (s : State) (c : Nat) (f : Core → Core) : State := s.setCore c (f (s.core c))

/-- The thread being issued. -/
def State.cur (s : State) : Thread := s.thread s.issue.tid
def State.setCur (s : State) (t : Thread) : State := s.setThread s.issue.tid t
def State.onCur (s : State) (f : Thread → Thread) : State := s.setCur (f s.cur)
def State.curTask (s : State) : Task := s.taskT s.issue.tid

/-- Team configuration (R36). -/
def teamWarps (team : W8) : Nat := team.toNat % 8 + 1
def teamSeq (team : W8) : Bool := team.getLsbD 3
def teamCopy (team : W8) : Nat := (team.toNat / 16) % 8
/-- The role of warp `w` (R36, R38). -/
def roleOf (team : W8) (w : Nat) : Role :=
  if w == 8 then .matrix else if team.toNat % 128 == 0 then .any else if w < teamCopy team then .copy else .vector

/-- The threads of a task: its warps and its sequencer context. -/
def tidsOf (k : Nat) (team : W8) : List Nat :=
  (List.range (teamWarps team)).map (tidOf k) ++ (if teamSeq team then [tidOf k 8] else [])

def State.tids (s : State) (k : Nat) : List Nat := tidsOf k (s.task k).team

/-! Registers (R76, R192). -/

def Thread.sget (t : Thread) (r : SReg) : W32 := tget 0 t.s r.toNat
def Thread.sset (t : Thread) (r : SReg) (v : W32) : Thread := { t with s := tputD 0 t.s r.toNat v }
/-- A scalar pair, the even register holding bits [31:0] (R45). -/
def Thread.sget2 (t : Thread) (r : SReg) : W64 := t.sget (r + 1) ++ t.sget r
def Thread.sset2 (t : Thread) (r : SReg) (v : W64) : Thread :=
  (t.sset r (v.setWidth 32)).sset (r + 1) (v.extractLsb' 32 32)
/-- p7 reads all ones and keeps no write (R76). -/
def Thread.pget (t : Thread) (p : Pred) : Mask := if p = 7 then BitVec.allOnes 64 else tget 0 t.p p.toNat
def Thread.pset (t : Thread) (p : Pred) (v : Mask) : Thread := if p = 7 then t else { t with p := tputD 0 t.p p.toNat v }

def zeroRow : List W32 := List.replicate 64 0
/-- The main file (R201), and the register as the warp reads it: its staging copy while a region holds it (R200). -/
def Thread.vmain (t : Thread) (r : Nat) : List W32 := tget zeroRow t.v r
def Thread.vget (t : Thread) (r : Nat) : List W32 :=
  match t.region with
  | some _ => (match tfind t.stage r with | some row => row | none => t.vmain r)
  | none => t.vmain r
def Thread.vput (t : Thread) (r : Nat) (row : List W32) : Thread :=
  match t.region with
  | some _ =>
    if thas t.stage r then
      { t with stage := tput t.stage r row, written := if t.written.contains r then t.written else r :: t.written }
    else { t with v := tputD zeroRow t.v r row }
  | none => { t with v := tputD zeroRow t.v r row }
/-- The lanes of a mask take the row's values; the others keep theirs (R7). -/
def Thread.vset (t : Thread) (r : Nat) (m : Mask) (row : List W32) : Thread :=
  t.vput r (mapMask m (fun l _ => row.getD l 0) (t.vget r))
def Thread.vlane (t : Thread) (r l : Nat) : W32 := (t.vget r).getD l 0

/-- Bit `k` of XBLK: the block of register `v(128 k)` is held (R192, R195). -/
def Thread.held (t : Thread) (r : Nat) : Bool := t.xblk.getLsbD (r / 128)

/-! Fixed-latency results (R188, R189). -/

def Thread.land1 (t : Thread) (w : RegW) : Thread :=
  match w with
  | .s r v => t.sset (BitVec.ofNat 6 r) v
  | .p r m v => t.pset (BitVec.ofNat 3 r) ((t.pget (BitVec.ofNat 3 r) &&& ~~~m) ||| (v &&& m))
  | .v r m row => t.vset r m row
  | .flags f => { t with fpflags := t.fpflags ||| f }

def insertPend (x : Pend) : List Pend → List Pend
  | [] => [x]
  | y :: l => if x.due < y.due then x :: y :: l else y :: insertPend x l

/-- Results that are due land, in completion order, those of one cycle in issue order (R189). -/
def landDue (now : Nat) (t : Thread) : List Pend → Thread
  | [] => { t with pending := [] }
  | x :: l => if x.due ≤ now then landDue now (t.land1 x.w) l else { t with pending := x :: l }

def Thread.land (t : Thread) (now : Nat) : Thread := landDue now t t.pending

/-- A result with latency `lat`: pending in a warp, at once in a sequencer context, which interlocks it (R188, R191). -/
def writeFixed (lat : Nat) (w : RegW) (s : State) : State :=
  if isSeq s.issue.tid then s.onCur fun t => t.land1 w
  else s.onCur fun t => { t with pending := insertPend ⟨s.time + lat, w⟩ t.pending }

/-- A register name, for the scoreboard and the interlocks. -/
inductive RegName where
  | s (r : Nat)
  | p (r : Nat)
  | v (r : Nat)
  deriving DecidableEq, Repr

def RegW.name : RegW → Option RegName
  | .s r _ => some (.s r)
  | .p r _ _ => if r = 7 then none else some (.p r)
  | .v r _ _ => some (.v r)
  | .flags _ => none

/-- Pending writes of one register land before a later variable-latency result of it does (R190). -/
def Thread.settle (t : Thread) (n : RegName) : Thread :=
  let mine := t.pending.filter fun x => x.w.name == some n
  mine.foldl (fun t x => t.land1 x.w) { t with pending := t.pending.filter fun x => x.w.name != some n }

/-- A variable-latency scalar or vector result lands (R190). -/
def Thread.varS (t : Thread) (r : SReg) (v : W32) : Thread := (t.settle (.s r.toNat)).sset r v
def Thread.varS2 (t : Thread) (r : SReg) (v : W64) : Thread :=
  (t.varS r (v.setWidth 32)).varS (r + 1) (v.extractLsb' 32 32)
def Thread.varV (t : Thread) (r : Nat) (m : Mask) (row : List W32) : Thread := (t.settle (.v r)).vset r m row
def Thread.varP (t : Thread) (r : Pred) (m v : Mask) : Thread :=
  let t := t.settle (.p r.toNat)
  t.pset r ((t.pget r &&& ~~~m) ||| (v &&& m))

/-! The run, its guard and its PCs (R7, R74, R184). -/

/-- The lanes of the issuing run that pass the guard. -/
def execMask (h : Head) (s : State) : Mask :=
  let g := s.cur.pget h.g
  s.issue.run &&& (if h.gn then ~~~g else g)

/-- PC of the next sequential instruction (R71). -/
def nextPc (h : Head) (s : State) : W64 := s.issue.pc + BitVec.ofNat 64 h.bytes

/-- The lanes of a mask go to a PC. -/
def setPcs (m : Mask) (pc : W64) (s : State) : State :=
  s.onCur fun t => { t with lanes := mapMask m (fun _ x => { x with pc := pc }) t.lanes }

/-- Every lane of the run moves to the next instruction (R184). -/
def advance (h : Head) (s : State) : State := setPcs s.issue.run (nextPc h s) s

/-- Issue waits: nothing of the instruction takes effect, and it is tried again (log 6). -/
def stall (s : State) : State := { s with issue := { s.issue with stalled := true } }

/-- The next instruction of the warp issues no sooner than `n` cycles later. -/
def holdIssue (n : Nat) (s : State) : State := { s with issue := { s.issue with hold := n } }

/-- WAITING lanes are released once no lane is ACTIVE or PARKED (R187). -/
def Thread.release (t : Thread) : Thread :=
  if t.lanes.any fun x => x.st == .active || x.st == .parked then t
  else { t with lanes := t.lanes.map fun x => if x.st == .waiting then { x with st := .active } else x }

/-! Taking a fault (R417 to R425, R430). -/

/-- The task has a handler (R418). -/
def hasHandler (s : State) (k : Nat) : Bool := (s.task k).flags.getLsbD 0 && (s.ctx (s.task k).cid).hpc != 0

/-- A fatal fault has stopped the task's threads and its engine operations (R431). -/
def halted (s : State) (k : Nat) : Bool := !(s.task k).fatal.isEmpty

/-- The task is speculative now (R122). -/
def isSpec (s : State) (k : Nat) : Bool := (s.task k).tag.isSome

/-- At a blocking point (R157). -/
def Wait.blocked : Wait → Bool
  | .none | .qroom .. | .push _ | .counters _ | .slot .. => false
  | _ => true

def exitLane (x : Lane) : Lane := { x with st := .exited, inHandler := false, hold := .none, deferred := false, keep := none }

/-- What becomes of a thread of a task that is ending by a fault (R424). -/
def endThread (swapped seq : Bool) (t : Thread) : Thread :=
  if seq || swapped || t.wait.blocked then { t with lanes := t.lanes.map exitLane, wait := .none }
  else { t with lanes := t.lanes.map fun x => if x.st == .waiting then exitLane x else x }

/-- The task ends by a fault without a handler; the first such fault fixes the outcome (R424). -/
def endTask (k : Nat) (cause : W8) (aux : W64) (s : State) : State :=
  let t := s.task k
  let s := s.setTask k { t with fout := some (t.fout.getD (cause, aux)), ending := true }
  if t.ending then s
  else (s.tids k).foldl (fun s i => s.onThread i (endThread (t.st == .swapped) (isSeq i))) s

/-- A cause joins a chain, in the order of occurrence; those of one cycle stand in ascending UNIT order (R433, R435). -/
def chainCause : List DumpCause → DumpCause → List DumpCause
  | [], c => [c]
  | d :: l, c => if c.time < d.time ∨ (d.time = c.time ∧ c.unit < d.unit) then c :: d :: l else d :: chainCause l c

/-- Fatal causes of a task (R430). -/
def addCauses (k : Nat) (cs : List DumpCause) (s : State) : State :=
  s.onTask k fun t => { t with fatal := cs.foldl chainCause t.fatal, haltAt := if t.fatal.isEmpty then s.time else t.haltAt }

def dumpCause (unit : Nat) (s : State) (tid lane : Nat) (r : FaultRec) : DumpCause :=
  ⟨r.cause, unit, lane, if isSeq tid then 0xFE else warpOf tid, s.time, r.faddr⟩

/-- The fault of a sub-warp of parked lanes is acted on (R418, R421, R424, R425): a nested fault and a breakpoint
without a handler are fatal; a task without a handler ends; otherwise the lanes wait for the handler. -/
def reportFault (tid : Nat) (m : Mask) (s : State) : State :=
  let k := taskOf tid
  let t := s.thread tid
  let low := t.lanes.getD (lowLane m) {}
  let first := { low with hold := .none }.frec
  let nested := (lanesOf m).filter fun l => (t.lanes.getD l {}).inHandler
  let brk := first.cause == Cause.breakpoint && (isSeq tid || !hasHandler s k)
  let s := s.onThread tid fun t => { t with lanes := mapMask m (fun _ x => { x with hold := .none }) t.lanes }
  if isSeq tid then
    let s := s.onThread tid fun t => { t with ctxRec := first, lanes := mapMask m (fun _ x => exitLane x) t.lanes }
    if brk then addCauses k [dumpCause 1 s tid 0xFF first] s
    else endTask k first.cause first.faddr s
  else if !nested.isEmpty then
    let l := nested.headD 0
    let x := t.lanes.getD l {}
    addCauses k [{ dumpCause 0 s tid l x.outer with time := x.outer.time }, dumpCause 0 s tid l x.frec] s
  else if brk then addCauses k [dumpCause 0 s tid (lowLane m) first] s
  else if hasHandler s k && !(s.task k).ending then s
  else
    (endTask k first.cause first.faddr s).onThread tid
      fun t => Thread.release { t with lanes := mapMask m (fun _ x => exitLane x) t.lanes }

/-- A fault of one lane: its cause, its address, and whether a translation raised it (R290). -/
structure LFault where
  lane : Nat
  cause : W8
  faddr : W64 := 0
  tr : Bool := false
  deriving DecidableEq, Repr

/-- UPF of a context's entry in the context table: faults of translation go to Umber first (R285, R290). -/
def upfOf (s : State) (cid : Nat) : Bool := (bytesAt s.mem (s.ctxBase + 8 * cid) 8).testBit 1

/-- Where a fault waits before it is acted on (R128, R290). -/
def holdOf (s : State) (tid : Nat) (f : LFault) : Hold :=
  if isSpec s (taskOf tid) then .spec
  else if f.cause == Cause.wpMigration then .wpm
  else if f.tr && (f.cause == Cause.notPresent || f.cause == Cause.permission) && upfOf s (s.taskT tid).cid then .umber
  else .none

/-- FAB_TIMEOUTS: an operation has faulted with FABRIC_LOST (R410, R414). -/
def countLost (c : W8) (s : State) : State := if c = Cause.fabricLost then { s with timeouts := s.timeouts + 1 } else s

/-- TAKING A FAULT: the lanes named park with their records, as one sub-warp, and the fault is acted on unless it is
held (R417). The record with which a lane entered its handler stays with its nested fault for the dump (R421). -/
def park (tid : Nat) (fs : List LFault) (fpc : W64) (ilen : Nat) (s : State) : State :=
  if fs.isEmpty then s
  else
    let old := s.thread tid
    let s := s.onThread tid fun t =>
      { t with
        subNo := t.subNo + 1
        lanes := fs.foldl (fun ls f => ls.modify f.lane fun x =>
          { x with st := .parked, pc := fpc, deferred := false, sub := t.subNo, inst := t.nextSeq - 1, hold := holdOf s tid f, tr := f.tr,
                   keep := if f.cause == Cause.wpMigration then some (f.faddr.toNat, t.width) else none,
                   frec := ⟨f.cause, f.faddr, fpc, ilen, s.time⟩, outer := if x.inHandler then x.frec else {} }) t.lanes }
    let s := if fs.any fun f => f.cause == Cause.fabricLost then countLost Cause.fabricLost s else s
    let held := fs.filter fun f => holdOf s tid f == .umber
    let s := if held.isEmpty then s else { s with faultq := s.faultq ++ [(tid, old.subNo)] }
    let now := fs.filter fun f => holdOf s tid f == .none
    if now.isEmpty then s else reportFault tid (maskBy (now.map LFault.lane)) s

/-- Lanes of the instruction being issued take a fault. -/
def parkCur (h : Head) (fs : List LFault) (s : State) : State := park s.issue.tid fs s.issue.pc h.bytes s

/-- The instruction faults in every lane of `exec`, and nothing of it takes effect. -/
def faultAll (h : Head) (cause : W8) (faddr : W64) (tr : Bool) (s : State) : State :=
  parkCur h ((lanesOf (execMask h s)).map fun l => ⟨l, cause, faddr, tr⟩) (advance h s)

/-- THE RETURN FROM A FAULT (R423): handler lanes go back to the faulting PC, or past the faulting instruction. -/
def returnLanes (m : Mask) (skip : Bool) (s : State) : State :=
  s.onCur fun t =>
    { t with lanes := mapMask m (fun _ x =>
        { x with inHandler := false, frec := {},
                 pc := if skip then x.frec.fpc + BitVec.ofNat 64 x.frec.ilen else x.frec.fpc }) t.lanes }

/-- Lanes parked with a held fault become ACTIVE again at their faulting PC: a replay, which leaves a lane in its handler the
record that it entered with (R290, R292). -/
def replayLanes (tid : Nat) (m : Mask) (s : State) : State :=
  s.onThread tid fun t =>
    { t with lanes := mapMask m (fun _ x =>
        if x.st == .parked then { x with st := .active, hold := .none, pc := x.frec.fpc, frec := x.outer, outer := {} } else x) t.lanes }

/-- A uniform instruction: once when `exec` is not empty (R74). -/
def uniform (h : Head) (f : State → State) (s : State) : Host.Outcome State Fault Refusal :=
  .next (if execMask h s = 0 then advance h s else f s)

/-- The next free value (log 8). -/
def State.drawFree (s : State) : W64 × State := (Config.freeBits s.free, { s with free := s.free + 1 })

/-- A new identifier for a record of the model. -/
def State.fresh (s : State) : Nat × State := (s.nextId, { s with nextId := s.nextId + 1 })

/-- Canonical addresses have bits [63:52] zero (R284). -/
def canonical (a : W64) : Bool := a.toNat < 2 ^ 52

/-- An uncorrectable error is counted, whatever its unit (R468). -/
def State.countUe (s : State) : State := { s with life := { s.life with ue := s.life.ue + 1 } }

/-- A correctable error in a core is counted (R465, R468). -/
def State.countCore (s : State) : State := { s with life := { s.life with ceCore := s.life.ceCore + 1 } }

/-- An event of the host: an MSI-X vector or a mailbox event with its arguments. -/
def tellHost (v a b : Nat) (s : State) : State := { s with hostEvents := s.hostEvents ++ [(v, a, b)] }

/-! The journal (R452). Its codes are the model's own numbers (log 18). -/

def jMapBegin : Nat := 1
def jMapDone : Nat := 2
def jUnmapBegin : Nat := 3
def jUnmapDone : Nat := 4
def jMigrate (step : Nat) : Nat := 4 + step
def jPreempt : Nat := 9
def jLoss : Nat := 10
/-- BEGIN and DONE of a mailbox command. -/
def jBegin (opc : Nat) : Nat := 32 + 2 * opc
def jDone (opc : Nat) : Nat := 33 + 2 * opc

/-- An entry, the oldest of 8192 giving way. -/
def jlog (op qid slot cid arg : Nat) (s : State) : State :=
  let l := s.journal ++ [⟨BitVec.ofNat 64 s.jseq, BitVec.ofNat 64 s.time, BitVec.ofNat 16 op, BitVec.ofNat 16 qid, BitVec.ofNat 8 slot,
    BitVec.ofNat 16 cid, BitVec.ofNat 64 arg⟩]
  { s with journal := l.drop (l.length - 8192), jseq := s.jseq + 1 }

end Sys2Proof.Machine
end

