-- ==== Sys2Proof/Machine/Operands.lean ====
section
/-!
DEFINITION. Operand forms: the values of scalar, vector, predicate and literal sources, and the forms in which results
are written (R76 to R80, R188, R226, R227).
-/
namespace Sys2Proof
open Machine

/-- The scalar pair a field names holds its low half in the even register (R45). -/
def SSrc.v32 (t : Thread) : SSrc → W32
  | .reg r => t.sget r
  | .lit v => v.setWidth 32

def SSrc.v64 (t : Thread) : SSrc → W64
  | .reg r => t.sget2 r
  | .lit v => v

/-- A vector source in one lane: the lane's register, the broadcast scalar, or the literal (R226). -/
def VSrc.at (t : Thread) (l : Nat) : VSrc → W32
  | .vec r => t.vlane r.toNat l
  | .sca r => t.sget r
  | .lit v => v.setWidth 32

def VSrc.at64 (t : Thread) (l : Nat) : VSrc → W64
  | .vec r => t.vlane (r.toNat + 1) l ++ t.vlane r.toNat l
  | .sca r => t.sget2 r
  | .lit v => v

def PSrc.mask (t : Thread) : PSrc → Mask
  | .pred p => t.pget p
  | .lit v => v

end Sys2Proof

namespace Sys2Proof.Machine

/-- A vector pair of registers in one lane. -/
def Thread.vlane2 (t : Thread) (r l : Nat) : W64 := t.vlane (r + 1) l ++ t.vlane r l

/-- Part `i` of width `n` of a register (R46). -/
def partOf (w : W32) (n i : Nat) : Nat := w.toNat / 2 ^ (n * i) % 2 ^ n

/-- The register with one part replaced. -/
def partSet (w : W32) (n i v : Nat) : W32 :=
  BitVec.ofNat 32 (w.toNat - partOf w n i * 2 ^ (n * i) + v % 2 ^ n * 2 ^ (n * i))

/-- A row of 64 lane values. -/
def rowOf (f : Nat → W32) : List W32 := laneIds.map f

/-- An effect that takes place when `exec` is not empty, after which every lane of the run moves on (R74, R184). -/
def plain (h : Head) (f : State → State) (s : State) : Host.Outcome State Fault Refusal :=
  uniform h (fun s => advance h (f s)) s

/-- A scalar result of latency 2 (R188). -/
def putS (d : SReg) (v : W32) (s : State) : State := writeFixed 2 (.s d.toNat v) s
def putS2 (d : SReg) (v : W64) (s : State) : State :=
  putS (d + 1) (v.extractLsb' 32 32) (putS d (v.setWidth 32) s)
/-- A whole predicate. -/
def putP (lat : Nat) (d : Pred) (m v : Mask) (s : State) : State := writeFixed lat (.p d.toNat m v) s
/-- A vector result in the lanes of `exec` (R227). -/
def putV (lat : Nat) (h : Head) (d : Nat) (f : Nat → W32) (s : State) : State :=
  writeFixed lat (.v d (execMask h s) (rowOf f)) s
def putV2 (lat : Nat) (h : Head) (d : Nat) (f : Nat → W64) (s : State) : State :=
  putV lat h (d + 1) (fun l => (f l).extractLsb' 32 32) (putV lat h d (fun l => (f l).setWidth 32) s)

/-- A variable-latency result that the model delivers at once, after the pending fixed-latency writes of its register
(R190). -/
def giveS (d : SReg) (v : W32) (s : State) : State := s.onCur fun t => t.varS d v
def giveS2 (d : SReg) (v : W64) (s : State) : State := s.onCur fun t => t.varS2 d v

/-- A mask of the lanes of `m` in which the test holds. -/
def maskIf (m : Mask) (f : Nat → Bool) : Mask := maskBy ((lanesOf m).filter f)

/-- The lanes of a lane's segment of width `w` (R229). -/
def segWidth (w : BitVec 3) : Nat := if w.toNat = 0 then 64 else 2 ^ w.toNat

/-! Integer operations shared by the scalar and the vector instructions (R206 to R214, R236). -/

/-- A result clamped under SAT, otherwise wrapped, extended to 32 bits (R206). -/
def fitInt (t : Ty) (sat : Bool) (r : Int) : W32 := wrInt t (if sat then satInt t r else r)

def intAdd (t : Ty) (sat : Bool) (a b : W32) : W32 := fitInt t sat (rdInt t a.toNat + rdInt t b.toNat)
def intSub (t : Ty) (sat : Bool) (a b : W32) : W32 := fitInt t sat (rdInt t a.toNat - rdInt t b.toNat)
/-- `.hi` takes bits [63:32] of the product. -/
def intMul (t : Ty) (sat hi : Bool) (a b : W32) : W32 :=
  let p := rdInt t a.toNat * rdInt t b.toNat
  if hi then BitVec.ofInt 32 (p / 2 ^ 32) else fitInt t sat p

/-- Truncating division; a zero divisor gives all ones, and the remainder is then the dividend (R207). -/
def intDiv (t : Ty) (rem : Bool) (a b : W32) : W32 :=
  let x := rdInt t a.toNat
  let y := rdInt t b.toNat
  if y = 0 then (if rem then wrInt t x else wrInt t (-1))
  else if rem then wrInt t (Int.tmod x y) else wrInt t (Int.tdiv x y)

def intMinOf (t : Ty) (a b : W32) : W32 :=
  let x := rdInt t a.toNat
  let y := rdInt t b.toNat
  wrInt t (if y < x then y else x)
def intMaxOf (t : Ty) (a b : W32) : W32 :=
  let x := rdInt t a.toNat
  let y := rdInt t b.toNat
  wrInt t (if x < y then y else x)

/-- Shifts read the whole count (R208). -/
def shl32 (a b : W32) : W32 := if b.toNat < 32 then a <<< b.toNat else 0
def shr32 (t : Ty) (a b : W32) : W32 :=
  if t = .i32 then a.sshiftRight (min b.toNat 31) else if b.toNat < 32 then a >>> b.toNat else 0

/-- Bit `i` of a bit-field source, beyond bit 31 by the type (R212). -/
def srcBit (t : Ty) (a : W32) (i : Nat) : Bool := if i < 32 then a.getLsbD i else t == .i32 && a.getLsbD 31

/-- `sbfe` and `vbfe` (R212). -/
def bfe (t : Ty) (a b : W32) : W32 :=
  let pos := b.toNat % 256
  let w := min (b.toNat / 256 % 256) 32
  if w = 0 then 0
  else BitVec.ofNat 32 ((List.range 32).foldl (fun n i =>
    if srcBit t a (pos + i) && i < w || (w ≤ i && t == .i32 && srcBit t a (pos + w - 1)) then n + 2 ^ i else n) 0)

/-- `vbfi` (R238). -/
def bfi (a b c : W32) : W32 :=
  let pos := b.toNat % 256
  let w := min (b.toNat / 256 % 256) 32
  BitVec.ofNat 32 ((List.range 32).foldl (fun n i =>
    if (if pos ≤ i && i < pos + w then a.getLsbD (i - pos) else c.getLsbD i) then n + 2 ^ i else n) 0)

def clz32 (a : W32) : Nat := if a = 0 then 32 else 31 - Nat.log2 a.toNat
def ctz32 (a : W32) : Nat := ((List.range 32).find? fun i => a.getLsbD i).getD 32
def brev32 (a : W32) : W32 :=
  BitVec.ofNat 32 ((List.range 32).foldl (fun n i => if a.getLsbD i then n + 2 ^ (31 - i) else n) 0)

/-- `sbit` and `vbit` (R213). -/
def bitOp (f : BitVec 3) (a b : W32) : W32 :=
  match f.toNat with
  | 0 => BitVec.ofNat 32 (popc a.toNat 32)
  | 1 => BitVec.ofNat 32 (clz32 a)
  | 2 => BitVec.ofNat 32 (ctz32 a)
  | 3 => brev32 a
  | 4 => a ||| (1#32 <<< (b.toNat % 32))
  | 5 => a &&& ~~~(1#32 <<< (b.toNat % 32))
  | _ => BitVec.ofNat 32 (popc a.toNat (min b.toNat 32))

end Sys2Proof.Machine
end

