-- ==== Sys2Proof/Machine/Flags.lean ====
section
/-!
DEFINITION. Condition codes (R209) and the flags of FPFLAGS (R59, R60, R228).
-/
namespace Sys2Proof.Machine

/-- The condition codes of `scmp` and `vcmp` on values of one type (R209). -/
def intCond (cc : BitVec 3) (x y : Int) : Bool :=
  match cc.toNat with
  | 0 => x == y
  | 1 => x != y
  | 2 => x < y
  | 3 => x ≤ y
  | 4 => y < x
  | _ => y ≤ x

/-- The flags of a flag-raising instruction, whatever they are, enter FPFLAGS when it completes (R60, R216, R228). -/
def raiseFlags (lat : Nat) (f : W32) (s : State) : State := writeFixed lat (.flags f) s

/-- A vector floating-point result: each lane's value, and the union of the flags of the lanes in `exec` (R228). -/
def putF (lat : Nat) (h : Head) (d : Nat) (f : Nat → W32 × W32) (s : State) : State :=
  let m := execMask h s
  raiseFlags lat ((lanesOf m).foldl (fun a l => a ||| (f l).2) 0) (putV lat h d (fun l => (f l).1) s)

/-- An instruction that raises flags has not completed: one of fixed latency, or an `ldx` whose result is outstanding (R64,
R216, R278). -/
def Thread.flagsPending (t : Thread) : Bool :=
  (t.pending.any fun x => match x.w with
    | .flags _ => true
    | _ => false) || t.flight.any fun a => a.kind == .ldx

/-- Only the defined bits of FPFLAGS are stored (R59). -/
def flagsWritten (v : W32) : W32 := v &&& 0x3F

end Sys2Proof.Machine
end

