-- ==== Sys2Proof/Machine/Scalar.lean ====
section
/-!
DEFINITION. The scalar instructions, OP 0x00 to 0x12 (R205 to R215), and `sreg` with the special registers (R216, R217).
-/
namespace Sys2Proof.Machine

/-- The result of a scalar instruction with one 32-bit destination (R206). -/
def scalar1 (h : Head) (d : SReg) (f : Thread → W32) (s : State) : Host.Outcome State Fault Refusal :=
  plain h (fun s => putS d (f s.cur) s) s

/-- `nop` only moves the run on (R215). -/
def execNop (h : Head) (s : State) : Host.Outcome State Fault Refusal := .next (advance h s)

def execSadd (h : Head) (o : SBin) (s : State) : Host.Outcome State Fault Refusal :=
  scalar1 h o.d (fun t => intAdd o.ty o.sat (t.sget o.a) (o.b.v32 t)) s
def execSsub (h : Head) (o : SBin) (s : State) : Host.Outcome State Fault Refusal :=
  scalar1 h o.d (fun t => intSub o.ty o.sat (t.sget o.a) (o.b.v32 t)) s
def execSmul (h : Head) (o : SBin) (s : State) : Host.Outcome State Fault Refusal :=
  scalar1 h o.d (fun t => intMul o.ty o.sat o.x (t.sget o.a) (o.b.v32 t)) s
def execSdiv (h : Head) (o : SBin) (s : State) : Host.Outcome State Fault Refusal :=
  scalar1 h o.d (fun t => intDiv o.ty o.x (t.sget o.a) (o.b.v32 t)) s
def execSand (h : Head) (o : SBin) (s : State) : Host.Outcome State Fault Refusal :=
  scalar1 h o.d (fun t => t.sget o.a &&& o.b.v32 t) s
def execSor (h : Head) (o : SBin) (s : State) : Host.Outcome State Fault Refusal :=
  scalar1 h o.d (fun t => t.sget o.a ||| o.b.v32 t) s
def execSxor (h : Head) (o : SBin) (s : State) : Host.Outcome State Fault Refusal :=
  scalar1 h o.d (fun t => t.sget o.a ^^^ o.b.v32 t) s
def execSshl (h : Head) (o : SBin) (s : State) : Host.Outcome State Fault Refusal :=
  scalar1 h o.d (fun t => shl32 (t.sget o.a) (o.b.v32 t)) s
def execSshr (h : Head) (o : SBin) (s : State) : Host.Outcome State Fault Refusal :=
  scalar1 h o.d (fun t => shr32 o.ty (t.sget o.a) (o.b.v32 t)) s
def execSmin (h : Head) (o : SBin) (s : State) : Host.Outcome State Fault Refusal :=
  scalar1 h o.d (fun t => intMinOf o.ty (t.sget o.a) (o.b.v32 t)) s
def execSmax (h : Head) (o : SBin) (s : State) : Host.Outcome State Fault Refusal :=
  scalar1 h o.d (fun t => intMaxOf o.ty (t.sget o.a) (o.b.v32 t)) s

/-- The condition of `scmp` (R209). -/
def scmpHolds (o : SCmp) (t : Thread) : Bool :=
  if o.ty = .x64 then intCond o.cc (t.sget2 o.a).toNat (o.b.v64 t).toNat
  else intCond o.cc (rdInt o.ty (t.sget o.a).toNat) (rdInt o.ty (o.b.v32 t).toNat)

/-- Every bit of the predicate takes the condition (R209). -/
def execScmp (h : Head) (o : SCmp) (s : State) : Host.Outcome State Fault Refusal :=
  plain h (fun s => putP 2 o.d (BitVec.allOnes 64) (if scmpHolds o s.cur then BitVec.allOnes 64 else 0) s) s

/-- The bit of pC for the lowest lane in `exec` chooses (R210). -/
def execSsel (h : Head) (o : SSel) (s : State) : Host.Outcome State Fault Refusal :=
  plain h (fun s =>
    let t := s.cur
    let c := bit (t.pget o.c) (lowLane (execMask h s))
    if o.ty = .x64 then putS2 o.d (if c then t.sget2 o.a else o.b.v64 t) s
    else putS o.d (if c then t.sget o.a else o.b.v32 t) s) s

/-- R211. -/
def moveS (h : Head) (o : SMov) (s : State) : Host.Outcome State Fault Refusal :=
  plain h (fun s => if o.ty = .x64 then putS2 o.d (o.b.v64 s.cur) s else putS o.d (o.b.v32 s.cur) s) s
def execSmov (h : Head) (o : SMov) (s : State) : Host.Outcome State Fault Refusal := moveS h o s
def execSli (h : Head) (o : SMov) (s : State) : Host.Outcome State Fault Refusal := moveS h o s

def execSbfe (h : Head) (o : SBin) (s : State) : Host.Outcome State Fault Refusal :=
  scalar1 h o.d (fun t => bfe o.ty (t.sget o.a) (o.b.v32 t)) s
def execSbit (h : Head) (o : SBit) (s : State) : Host.Outcome State Fault Refusal :=
  scalar1 h o.d (fun t => bitOp o.f (t.sget o.a) (o.b.v32 t)) s

/-- The second term of `swide` in 64 bits (R214). -/
def swideB (o : SBin) (t : Thread) : W64 :=
  match o.ty with
  | .x64 => o.b.v64 t
  | .i32 => (o.b.v32 t).signExtend 64
  | _ => (o.b.v32 t).setWidth 64
def execSwide (h : Head) (o : SBin) (s : State) : Host.Outcome State Fault Refusal :=
  plain h (fun s =>
    let t := s.cur
    putS2 o.d (if o.x then t.sget2 o.a - swideB o t else t.sget2 o.a + swideB o t) s) s

/-! Special registers (R216, R217). -/

/-- A write of WCTL (R202): out-of-range limits are stored at the nearest end, and clearing PROGRESS ends the quantum
and every deferral. -/
def wctlWritten (v : W32) : W32 :=
  let l := v.toNat / 2 ^ 8 % 16
  let q := v.toNat / 2 ^ 12 % 16
  BitVec.ofNat 32 (v.toNat % 8 + max 4 l * 2 ^ 8 + min 10 q * 2 ^ 12)

def setWctl (v : W32) (t : Thread) : Thread :=
  let t := { t with wctl := wctlWritten v }
  if v.getLsbD 0 then t
  else { t with q := 0, h := 0, lanes := t.lanes.map fun x => { x with deferred := false } }

/-- The fault record that a read gives: a context's own, or that of the lowest lane in `exec` when it runs a handler
(R217, R420, R425). -/
def recordRead (h : Head) (s : State) : FaultRec :=
  if isSeq s.issue.tid then s.cur.ctxRec
  else
    let x := s.cur.lanes.getD (lowLane (execMask h s)) {}
    if x.inHandler then x.frec else {}

def lo32 (v : W64) : W32 := v.setWidth 32
def hi32 (v : W64) : W32 := v.extractLsb' 32 32

/-- Where a task's speculation stands (R121). -/
def specst (s : State) (k : Nat) : W32 :=
  if isSpec s k then BitVec.ofNat 32 (1 + 2 * ((s.task k).tag.getD 0)) else 0

/-- The value of special register `i` (R217). -/
def sregVal (h : Head) (i : W8) (s : State) : W32 :=
  let t := s.cur
  let k := s.curTask
  let seq := isSeq s.issue.tid
  let now : W64 := BitVec.ofNat 64 s.time
  match i.toNat with
  | 0x00 => if seq then 0 else BitVec.ofNat 32 (lowLane (execMask h s))
  | 0x01 => if seq then 0xFFFFFFFF else BitVec.ofNat 32 (warpOf s.issue.tid)
  | 0x02 => BitVec.ofNat 32 s.issue.core
  | 0x03 => BitVec.ofNat 32 (s.issue.core / Config.coresPerDie)
  | 0x04 => lo32 now
  | 0x05 => t.timehi.getD (hi32 now)
  | 0x06 => lo32 k.wid
  | 0x07 => hi32 k.wid
  | 0x08 => lo32 (BitVec.ofNat 64 k.closure)
  | 0x09 => hi32 (BitVec.ofNat 64 k.closure)
  | 0x0A => match roleOf k.team (warpOf s.issue.tid) with
    | .any => 0
    | .copy => 1
    | .vector => 2
    | .matrix => 3
  | 0x0B => BitVec.ofNat 32 (teamWarps k.team)
  | 0x0C => match k.gang with
    | some g => BitVec.ofNat 32 g.2
    | none => 0xFFFFFFFF
  | 0x0D => lo32 (BitVec.ofNat 64 t.maxw)
  | 0x0E => hi32 (BitVec.ofNat 64 t.maxw)
  | 0x0F => if seq then 0 else t.fpflags
  | 0x10 => (recordRead h s).cause.setWidth 32
  | 0x11 => lo32 (recordRead h s).faddr
  | 0x12 => hi32 (recordRead h s).faddr
  | 0x13 => lo32 (recordRead h s).fpc
  | 0x18 => if seq then 0 else t.wctl
  | 0x19 => if seq then 0 else t.xblk
  | 0x1A => specst s (taskOf s.issue.tid)
  | _ => 0

/-- A read of TIMELO latches the upper half (R217). -/
def latchTime (i : W8) (s : State) : State :=
  if i = 0x04 then s.onCur fun t => { t with timehi := some (hi32 (BitVec.ofNat 64 s.time)) } else s

/-- A write acts by the register's access (R216). -/
def sregApply (i : W8) (v : W32) (s : State) : State :=
  if isSeq s.issue.tid then s
  else if i = 0x0F then s.onCur fun t => { t with fpflags := flagsWritten v }
  else if i = 0x18 then s.onCur (setWctl v)
  else s

/-- An access of FPFLAGS waits for the earlier flag-raising instructions (R216). -/
def sregWaits (i : W8) (s : State) : Bool := i == 0x0F && s.cur.flagsPending

def execSregRead (h : Head) (d : SReg) (i : W8) (s : State) : Host.Outcome State Fault Refusal :=
  uniform h (fun s => if sregWaits i s then stall s else advance h (putS d (sregVal h i s) (latchTime i s))) s
def execSregWrite (h : Head) (a : SReg) (i : W8) (s : State) : Host.Outcome State Fault Refusal :=
  uniform h (fun s => if sregWaits i s then stall s else advance h (sregApply i (s.cur.sget a) s)) s
def execSregSwap (h : Head) (d a : SReg) (i : W8) (s : State) : Host.Outcome State Fault Refusal :=
  uniform h (fun s => if sregWaits i s then stall s
    else advance h (putS d (sregVal h i s) (sregApply i (s.cur.sget a) (latchTime i s)))) s

end Sys2Proof.Machine
end

