-- ==== Sys2Proof/Machine/Control.lean ====
section
/-!
DEFINITION. The control instructions (R218 to R222), `rcv` and `yld` (R186, R187), and `trap`, `tret` and `brkpt`
(R422, R423).
-/
namespace Sys2Proof.Machine

/-- The target of a distance (R218). -/
def branchTarget (t : W32) (s : State) : W64 := s.issue.pc + t.signExtend 64

/-- The fault of a target: NONCANONICAL before MISALIGNED (R218, R220). -/
def targetFault (t : W64) : Option W8 :=
  if !canonical t then some Cause.noncanonical else if t.toNat % 4 ≠ 0 then some Cause.misaligned else none

/-- The lanes of `m` go to a target, or park; the run has moved on before (R218, R219). -/
def goTo (h : Head) (m : Mask) (t : W64) (s : State) : State :=
  match targetFault t with
  | some c => parkCur h ((lanesOf (execMask h s)).map fun l => ⟨l, c, t, false⟩) (advance h s)
  | none => setPcs m t (advance h s)

def execBr (h : Head) (t : W32) (s : State) : Host.Outcome State Fault Refusal :=
  uniform h (fun s => goTo h (execMask h s) (branchTarget t s) s) s

/-- `brp` moves the whole run when its condition holds (R219). -/
def branchP (h : Head) (taken : Mask → Bool) (p : Pred) (t : W32) (s : State) : State :=
  goTo h (if taken (s.cur.pget p) then s.issue.run else 0) (branchTarget t s) s

def execBrpAny (h : Head) (p : Pred) (t : W32) (s : State) : Host.Outcome State Fault Refusal :=
  uniform h (fun s => branchP h (fun m => m &&& execMask h s != 0) p t s) s
def execBrpAll (h : Head) (p : Pred) (t : W32) (s : State) : Host.Outcome State Fault Refusal :=
  uniform h (fun s => branchP h (fun m => execMask h s &&& ~~~m == 0) p t s) s
def execJmp (h : Head) (t : W32) (s : State) : Host.Outcome State Fault Refusal :=
  uniform h (fun s => goTo h s.issue.run (branchTarget t s) s) s
def execJmpi (h : Head) (a : SReg) (s : State) : Host.Outcome State Fault Refusal :=
  uniform h (fun s => goTo h s.issue.run (s.cur.sget2 a) s) s

/-- The link goes to the vector pair, or in a sequencer context to the scalar pair, before the lanes move (R220, R221). -/
def putLink (h : Head) (d : VReg) (s : State) : State :=
  let ra := nextPc h s
  if isSeq s.issue.tid then putS2 (d.setWidth 6) ra s else putV2 2 h d.toNat (fun _ => ra) s

def execCall (h : Head) (d : VReg) (t : W32) (s : State) : Host.Outcome State Fault Refusal :=
  uniform h (fun s => goTo h (execMask h s) (branchTarget t s)
    (if (targetFault (branchTarget t s)).isNone then putLink h d s else s)) s

/-- The target of one lane of `ret` (R220, R221). -/
def retTarget (a : VReg) (s : State) (l : Nat) : W64 :=
  if isSeq s.issue.tid then s.cur.sget2 (a.setWidth 6) else s.cur.vlane2 a.toNat l

/-- Each lane goes to the address of its own link pair; a lane with a bad target parks (R219, R220). -/
def execRet (h : Head) (a : VReg) (s : State) : Host.Outcome State Fault Refusal :=
  uniform h (fun s =>
    let ls := lanesOf (execMask h s)
    let moved := ls.foldl (fun z l => setPcs (1#64 <<< l) (retTarget a s l) z) (advance h s)
    parkCur h (ls.filterMap fun l => (targetFault (retTarget a s l)).map fun c => ⟨l, c, retTarget a s l, false⟩) moved) s

/-- `rcv`: lanes wait, or exit in a task that is ending by a fault (R187, R424). -/
def waitLanes (m : Mask) (ending : Bool) (t : Thread) : Thread :=
  Thread.release
    { t with lanes := mapMask m (fun _ x => if ending then exitLane x else { x with st := .waiting }) t.lanes }

def execRcv (h : Head) (s : State) : Host.Outcome State Fault Refusal :=
  plain h (fun s => if isSeq s.issue.tid then s
    else s.onCur (waitLanes (execMask h s) s.curTask.ending)) s

/-- `yld` defers the lanes in `exec` while PROGRESS is 1 (R186). -/
def deferLanes (m : Mask) (t : Thread) : Thread :=
  if t.wctl.getLsbD 0 then { t with lanes := mapMask m (fun _ x => { x with deferred := true }) t.lanes } else t

def execYld (h : Head) (s : State) : Host.Outcome State Fault Refusal :=
  plain h (fun s => if isSeq s.issue.tid then s else s.onCur (deferLanes (execMask h s))) s

/-- R423: the lanes in `exec` park with a cause and an address. -/
def execTrapShort (h : Head) (a : SReg) (s : State) : Host.Outcome State Fault Refusal :=
  uniform h (fun s => faultAll h 0x80 (s.cur.sget2 a) false s) s
def execTrap (h : Head) (c : BitVec 7) (a : SReg) (s : State) : Host.Outcome State Fault Refusal :=
  uniform h (fun s => faultAll h (0x80 + c.setWidth 8) (s.cur.sget2 a) false s) s
def execBrkpt (h : Head) (n : W8) (s : State) : Host.Outcome State Fault Refusal :=
  uniform h (fun s => faultAll h Cause.breakpoint (n.setWidth 64) false s) s

/-- `tret`: handler lanes return, and a lane outside a handler parks with ILLEGAL_INSTR (R423). -/
def leaveHandler (h : Head) (skip : Bool) (s : State) : State :=
  let m := execMask h s
  let inside := maskIf m fun l => (s.cur.lanes.getD l {}).inHandler
  parkCur h ((lanesOf (m &&& ~~~inside)).map fun l => ⟨l, Cause.illegalInstr, 0, false⟩)
    (returnLanes inside skip (advance h s))

def execTret (h : Head) (s : State) : Host.Outcome State Fault Refusal := uniform h (leaveHandler h false) s
def execTretSkip (h : Head) (s : State) : Host.Outcome State Fault Refusal := uniform h (leaveHandler h true) s

end Sys2Proof.Machine
end

