-- ==== Sys2Proof/Machine/Vector.lean ====
section
/-!
DEFINITION. The predicate, lane and vector instructions, OP 0x20 to 0x4C (R225 to R252).
-/
namespace Sys2Proof.Machine

/-! Predicates and lanes (R229 to R235). -/

/-- Bit L of the result of `pop` (R230). -/
def popMask (o : POp) (t : Thread) : Mask :=
  let a := t.pget (o.a.setWidth 3)
  let b := o.b.mask t
  match o.f.toNat with
  | 0 => a &&& b
  | 1 => a ||| b
  | 2 => a ^^^ b
  | 3 => a &&& ~~~b
  | 4 => a ||| ~~~b
  | 5 => ~~~a
  | 6 => b
  | _ => t.sget2 o.a

def execPop (h : Head) (o : POp) (s : State) : Host.Outcome State Fault Refusal :=
  plain h (fun s => putP 2 o.d (execMask h s) (popMask o s.cur) s) s

/-- R231. -/
def voteHolds (m : BitVec 2) (e a : Mask) : Bool :=
  match m.toNat with
  | 0 => a &&& e != 0
  | 1 => e &&& ~~~a == 0
  | _ => a &&& e == 0 || e &&& ~~~a == 0

def execPvote (h : Head) (d : SReg) (a : Pred) (m : BitVec 2) (s : State) : Host.Outcome State Fault Refusal :=
  plain h (fun s => putS d (if voteHolds m (execMask h s) (s.cur.pget a) then 1 else 0) s) s
def execPball (h : Head) (d : SReg) (a : Pred) (s : State) : Host.Outcome State Fault Refusal :=
  plain h (fun s => putS2 d (s.cur.pget a &&& execMask h s) s) s
def execPballPopc (h : Head) (d : SReg) (a : Pred) (s : State) : Host.Outcome State Fault Refusal :=
  plain h (fun s => putS d (BitVec.ofNat 32 (popc (s.cur.pget a &&& execMask h s).toNat 64)) s) s

/-- The source lane of `vshfl` (R232). -/
def shuffleLane (m : BitVec 2) (w b l : Nat) : Nat :=
  match m.toNat with
  | 0 => l - l % w + b % w
  | 1 => if b ≤ l % w then l - b else l
  | 2 => if l % w + b < w then l + b else l
  | _ => l ^^^ (b % w)

def execVshfl (h : Head) (o : VShfl) (s : State) : Host.Outcome State Fault Refusal :=
  plain h (fun s =>
    let t := s.cur
    putV 8 h o.d.toNat (fun l => o.a.at t (shuffleLane o.m (segWidth o.w) (o.b.at t l).toNat l)) s) s

/-- One step of a scan (R233). -/
def scanOp (op : BitVec 3) (ty : Ty) (rm : Rm) (a b : W32) : W32 × W32 :=
  match op.toNat with
  | 0 => (a + b, 0)
  | 1 => (intMinOf ty a b, 0)
  | 2 => (intMaxOf ty a b, 0)
  | 3 => (a &&& b, 0)
  | 4 => (a ||| b, 0)
  | 5 => (a ^^^ b, 0)
  | 6 => fadd rm a b
  | _ => (fmax false a b, 0)

def scanIdentity (op : BitVec 3) (ty : Ty) : W32 :=
  match op.toNat with
  | 1 => if ty = .i32 then 0x7FFFFFFF else 0xFFFFFFFF
  | 2 => if ty = .i32 then 0x80000000 else 0
  | 3 => 0xFFFFFFFF
  | 6 => 0x80000000
  | 7 => 0xFF800000
  | _ => 0

/-- The running value over a list of lane values, with the flags of the additions performed. -/
def runScan (op : BitVec 3) (ty : Ty) (rm : Rm) : List W32 → Option (W32 × W32)
  | [] => none
  | x :: l => some (l.foldl (fun r y => let z := scanOp op ty rm r.1 y
      (z.1, r.2 ||| z.2)) (x, 0))

/-- The lanes of `exec` in a lane's segment. -/
def segLanes (e : Mask) (w l : Nat) : List Nat := (lanesOf e).filter fun i => i / w == l / w

/-- A lane's value under `vscan` (R233). -/
def scanAt (o : VScan) (t : Thread) (e : Mask) (l : Nat) : W32 × W32 :=
  let seg := segLanes e (segWidth o.w) l
  let upto := seg.filter fun i => if o.x then i < l else i ≤ l
  let all := (runScan o.op o.ty o.rm (seg.map fun i => o.a.at t i)).getD (0, 0)
  match runScan o.op o.ty o.rm (upto.map fun i => o.a.at t i) with
  | some r => (r.1, all.2)
  | none => (scanIdentity o.op o.ty, all.2)

/-- The result of `vscan` or `vred`: only additions of floating-point values raise flags (R228, R233). -/
def putScan (h : Head) (o : VScan) (f : Nat → W32 × W32) (s : State) : State :=
  if o.op = 6 then putF 8 h o.d.toNat f s else putV 8 h o.d.toNat (fun l => (f l).1) s

def execVscan (h : Head) (o : VScan) (s : State) : Host.Outcome State Fault Refusal :=
  plain h (fun s => putScan h o (scanAt o s.cur (execMask h s)) s) s

/-- One level of the tree of `vred.fadd` (R234). -/
def treeLevel (rm : Rm) : List (Option (W32 × W32)) → List (Option (W32 × W32))
  | some a :: some b :: l => let r := fadd rm a.1 b.1
    some (r.1, a.2 ||| b.2 ||| r.2) :: treeLevel rm l
  | a :: none :: l => a :: treeLevel rm l
  | none :: b :: l => b :: treeLevel rm l
  | [a] => [a]
  | [] => []

/-- A lane's value under `vred` (R233, R234). -/
def reduceAt (o : VScan) (t : Thread) (e : Mask) (l : Nat) : W32 × W32 :=
  let w := segWidth o.w
  if o.op.toNat = 6 then
    let leaves := (List.range w).map fun i =>
      let j := l - l % w + i
      if bit e j then some (o.a.at t j, (0 : W32)) else none
    (((List.range 6).foldl (fun ns _ => treeLevel o.rm ns) leaves).headD none).getD (0, 0)
  else (runScan o.op o.ty o.rm ((segLanes e w l).map fun i => o.a.at t i)).getD (0, 0)

def execVred (h : Head) (o : VScan) (s : State) : Host.Outcome State Fault Refusal :=
  plain h (fun s => putScan h o (reduceAt o s.cur (execMask h s)) s) s

/-- R235. -/
def execVid (h : Head) (d : VReg) (b : Option VSrc) (s : State) : Host.Outcome State Fault Refusal :=
  plain h (fun s => putV 4 h d.toNat (fun l => BitVec.ofNat 32 l + (match b with
    | some b => b.at s.cur l
    | none => 0)) s) s

def execVbcst (h : Head) (d : VReg) (a : VSrc) (b : Option VSrc) (s : State) : Host.Outcome State Fault Refusal :=
  plain h (fun s => putV 4 h d.toNat (fun l => a.at s.cur (match b with
    | some b => (b.at s.cur l).toNat % 64
    | none => lowLane (execMask h s))) s) s

/-! Vector integer and logic (R236 to R239). -/

/-- One 32-bit result of two sources in each lane. -/
def vector2 (lat : Nat) (h : Head) (o : VBin) (f : W32 → W32 → W32) (s : State) : Host.Outcome State Fault Refusal :=
  plain h (fun s => putV lat h o.d.toNat (fun l => f (o.a.at s.cur l) (o.b.at s.cur l)) s) s

def execVadd (h : Head) (o : VBin) (s : State) : Host.Outcome State Fault Refusal :=
  if o.ty = .x64 then plain h (fun s => putV2 4 h o.d.toNat (fun l => o.a.at64 s.cur l + o.b.at64 s.cur l) s) s
  else vector2 4 h o (intAdd o.ty o.sat) s
def execVsub (h : Head) (o : VBin) (s : State) : Host.Outcome State Fault Refusal :=
  if o.ty = .x64 then plain h (fun s => putV2 4 h o.d.toNat (fun l => o.a.at64 s.cur l - o.b.at64 s.cur l) s) s
  else vector2 4 h o (intSub o.ty o.sat) s
def execVmul (h : Head) (o : VBin) (s : State) : Host.Outcome State Fault Refusal := vector2 4 h o (intMul o.ty o.sat o.x) s
def execVmin (h : Head) (o : VBin) (s : State) : Host.Outcome State Fault Refusal := vector2 4 h o (intMinOf o.ty) s
def execVmax (h : Head) (o : VBin) (s : State) : Host.Outcome State Fault Refusal := vector2 4 h o (intMaxOf o.ty) s
def execVand (h : Head) (o : VBin) (s : State) : Host.Outcome State Fault Refusal := vector2 4 h o (fun a b => a &&& b) s
def execVor (h : Head) (o : VBin) (s : State) : Host.Outcome State Fault Refusal := vector2 4 h o (fun a b => a ||| b) s
def execVxor (h : Head) (o : VBin) (s : State) : Host.Outcome State Fault Refusal := vector2 4 h o (fun a b => a ^^^ b) s
def execVshl (h : Head) (o : VBin) (s : State) : Host.Outcome State Fault Refusal := vector2 4 h o shl32 s
def execVshr (h : Head) (o : VBin) (s : State) : Host.Outcome State Fault Refusal := vector2 4 h o (shr32 o.ty) s
def execVbfe (h : Head) (o : VBin) (s : State) : Host.Outcome State Fault Refusal := vector2 4 h o (bfe o.ty) s
def execVbit (h : Head) (o : VBitF) (s : State) : Host.Outcome State Fault Refusal :=
  plain h (fun s => putV 4 h o.d.toNat (fun l => bitOp o.f (o.a.at s.cur l) (o.b.at s.cur l)) s) s

/-- `vmad` (R237). -/
def madOf (ty : Ty) (sat hi : Bool) (a b c : W32) : W32 :=
  if hi then intMul ty false true a b + c
  else fitInt ty sat (rdInt ty a.toNat * rdInt ty b.toNat + rdInt ty c.toNat)

/-- One 32-bit result of three sources in each lane. -/
def vector3 (lat : Nat) (h : Head) (o : VTri) (f : W32 → W32 → W32 → W32) (s : State) :
    Host.Outcome State Fault Refusal :=
  plain h (fun s => putV lat h o.d.toNat (fun l => f (o.a.at s.cur l) (o.b.at s.cur l) (o.c.at s.cur l)) s) s

def execVmad (h : Head) (o : VTri) (s : State) : Host.Outcome State Fault Refusal := vector3 4 h o (madOf o.ty o.sat o.x) s
def execVbfi (h : Head) (o : VTri) (s : State) : Host.Outcome State Fault Refusal := vector3 4 h o bfi s

def execVsel (h : Head) (o : VSel) (s : State) : Host.Outcome State Fault Refusal :=
  plain h (fun s =>
    let t := s.cur
    let c := t.pget o.c
    if o.ty = .x64 then putV2 4 h o.d.toNat (fun l => if bit c l then o.a.at64 t l else o.b.at64 t l) s
    else putV 4 h o.d.toNat (fun l => if bit c l then o.a.at t l else o.b.at t l) s) s

/-- The condition of `vcmp` in one lane (R209, R239). -/
def vcmpHolds (o : VCmp) (t : Thread) (l : Nat) : Bool :=
  if o.ty = .x64 then intCond o.cc (o.a.at64 t l).toNat (o.b.at64 t l).toNat
  else intCond o.cc (rdInt o.ty (o.a.at t l).toNat) (rdInt o.ty (o.b.at t l).toNat)

/-- A predicate of one bit per lane in `exec` (R227). -/
def vectorP (lat : Nat) (h : Head) (d : Pred) (f : Thread → Nat → Bool) (s : State) : Host.Outcome State Fault Refusal :=
  plain h (fun s => putP lat d (execMask h s) (maskIf (execMask h s) (f s.cur)) s) s

def execVcmp (h : Head) (o : VCmp) (s : State) : Host.Outcome State Fault Refusal := vectorP 4 h o.d (vcmpHolds o) s

/-! Vector floating point (R240 to R243). -/

/-- Two FP32 sources, a result and flags in each lane. -/
def vectorF (lat : Nat) (h : Head) (o : VBin) (f : W32 → W32 → W32 × W32) (s : State) : Host.Outcome State Fault Refusal :=
  plain h (fun s => putF lat h o.d.toNat (fun l => f (o.a.at s.cur l) (o.b.at s.cur l)) s) s

def execVfadd (h : Head) (o : VBin) (s : State) : Host.Outcome State Fault Refusal := vectorF 6 h o (fadd o.rm) s
def execVfsub (h : Head) (o : VBin) (s : State) : Host.Outcome State Fault Refusal := vectorF 6 h o (fsub o.rm) s
def execVfmul (h : Head) (o : VBin) (s : State) : Host.Outcome State Fault Refusal := vectorF 6 h o (fmul o.rm) s
def execVffma (h : Head) (o : VTri) (s : State) : Host.Outcome State Fault Refusal :=
  plain h (fun s => putF 6 h o.d.toNat (fun l => ffma o.rm (o.a.at s.cur l) (o.b.at s.cur l) (o.c.at s.cur l)) s) s
def execVfmin (h : Head) (o : VBin) (s : State) : Host.Outcome State Fault Refusal := vector2 6 h o (fmin o.x) s
def execVfmax (h : Head) (o : VBin) (s : State) : Host.Outcome State Fault Refusal := vector2 6 h o (fmax o.x) s
def execVfcmp (h : Head) (o : VCmp) (s : State) : Host.Outcome State Fault Refusal :=
  vectorP 6 h o.d (fun t l => fcond o.cc (o.a.at t l) (o.b.at t l)) s
def execVfcls (h : Head) (d : Pred) (a : VSrc) (m : BitVec 9) (s : State) : Host.Outcome State Fault Refusal :=
  vectorP 6 h d (fun t l => m.getLsbD (fclass (a.at t l))) s

/-! Special functions (R244 to R246). -/

/-- One FP32 source, a result and flags in each lane. -/
def vectorU (lat : Nat) (h : Head) (o : VUn) (f : W32 → W32 × W32) (s : State) : Host.Outcome State Fault Refusal :=
  plain h (fun s => putF lat h o.d.toNat (fun l => f (o.a.at s.cur l)) s) s

def execVfrcp (h : Head) (o : VUn) (s : State) : Host.Outcome State Fault Refusal := vectorU 14 h o (frcp o.rm) s
def execVfrsq (h : Head) (o : VUn) (s : State) : Host.Outcome State Fault Refusal := vectorU 14 h o sfuRsq s
def execVfsqrt (h : Head) (o : VUn) (s : State) : Host.Outcome State Fault Refusal := vectorU 14 h o (fsqrt o.rm) s
def execVfexp (h : Head) (o : VUn) (s : State) : Host.Outcome State Fault Refusal := vectorU 14 h o sfuExp s
def execVflog (h : Head) (o : VUn) (s : State) : Host.Outcome State Fault Refusal := vectorU 14 h o sfuLog s
def execVftanh (h : Head) (o : VUn) (s : State) : Host.Outcome State Fault Refusal := vectorU 14 h o sfuTanh s
def execVfsinpi (h : Head) (o : VUn) (s : State) : Host.Outcome State Fault Refusal := vectorU 14 h o sfuSinpi s
def execVfcospi (h : Head) (o : VUn) (s : State) : Host.Outcome State Fault Refusal := vectorU 14 h o sfuCospi s

/-! Conversion, dot product, move and scale (R247 to R252). -/

/-- A lane of `vcvt`: the destination part replaced, or the whole register (R248). -/
def cvtLane (o : VCvt) (t : Thread) (l : Nat) : W32 × W32 :=
  let r := convert o.src o.dst o.rm o.sat (partOf (o.a.at t l) o.src.bits o.sp.toNat)
  (if o.dst.isSmallFp then partSet (t.vlane o.d.toNat l) o.dst.bits o.dp.toNat r.1 else BitVec.ofNat 32 r.1, r.2)

def execVcvt (h : Head) (o : VCvt) (s : State) : Host.Outcome State Fault Refusal :=
  plain h (fun s => putF 6 h o.d.toNat (cvtLane o s.cur) s) s
def execVfrnd (h : Head) (o : VUn) (s : State) : Host.Outcome State Fault Refusal := vectorU 6 h o (frndInt o.rm) s

/-- A dot product of `n` parts plus c (R251). Beside a NaN element a product of zero and an infinity raises NV, as R241 says of `vffma`, and
opposite infinities do not: R251 does not say, and it is the model's choice (log 75). -/
def dotOf (n : Nat) (o : VTri) (a b c : W32) : W32 × W32 :=
  let w := 32 / n
  let ps := (List.range n).map fun i => (partOf a w i, partOf b w i)
  if o.ty.isInt then
    let ct : Ty := if Ty.signed o.ty then .i32 else .n32
    (fitInt ct o.sat (ps.foldl (fun t p => t + rdInt o.ty p.1 * rdInt o.ty p.2) (rdInt ct c.toNat)), 0)
  else
    let f := fmtOf o.ty
    let xs := ps.map fun p => (unpack f p.1, unpack f p.2)
    let l := xs.map (fun p => p.1.mul p.2) ++ [f32v c]
    let r := rnd fmtF32 o.rm false (xsum o.rm l)
    if xs.any (fun p => mulInvalid p.1 p.2) || (!l.any XV.isNan && sumInvalid l) then (BitVec.ofNat 32 r.1, fNV)
    else ofF32 r

/-- The result of a dot product: only those of floating-point parts raise flags (R228, R251). -/
def putDot (h : Head) (o : VTri) (f : Nat → W32 × W32) (s : State) : State :=
  if o.ty.isInt then putV 8 h o.d.toNat (fun l => (f l).1) s else putF 8 h o.d.toNat f s

def execVdot2 (h : Head) (o : VTri) (s : State) : Host.Outcome State Fault Refusal :=
  plain h (fun s => putDot h o (fun l => dotOf 2 o (o.a.at s.cur l) (o.b.at s.cur l) (o.c.at s.cur l)) s) s
def execVdot4 (h : Head) (o : VTri) (s : State) : Host.Outcome State Fault Refusal :=
  plain h (fun s => putDot h o (fun l => dotOf 4 o (o.a.at s.cur l) (o.b.at s.cur l) (o.c.at s.cur l)) s) s

def execVmov (h : Head) (d : VReg) (b : VSrc) (ty : Ty) (s : State) : Host.Outcome State Fault Refusal :=
  plain h (fun s => if ty = .x64 then putV2 4 h d.toNat (fun l => b.at64 s.cur l) s
    else putV 4 h d.toNat (fun l => b.at s.cur l) s) s
def execVfscl (h : Head) (o : VBin) (s : State) : Host.Outcome State Fault Refusal := vectorF 6 h o (fscl o.rm) s

end Sys2Proof.Machine
end

