-- ==== Sys2Proof/Machine/Sort.lean ====
section
/-!
DEFINITION. Sorting and selection (R335 to R343).
-/
namespace Sys2Proof.Machine

/-- The quadrant of a warp slot (R13). -/
def quadrantOf (unit : Nat) : Nat := unit / 8

def Core.pipesOf (c : Core) (q : Nat) : Pipes := tget {} c.pipes q

/-- A sort holds VB of its quadrant for `n` cycles (R338). R338 sets no condition on `exec`; that an instruction with an empty `exec`
holds nothing, as it does nothing else, is the model's choice (log 26). -/
def holdVb (n : Nat) (s : State) : State :=
  s.onCore s.issue.core fun c =>
    let q := quadrantOf s.issue.unit
    { c with pipes := tput c.pipes q { c.pipesOf q with vbUntil := max (c.pipesOf q).vbUntil (s.time + n), vbOwner := s.issue.tid } }

/-- An element: key and index (R335). -/
abbrev Elem := W32 × W32

/-- A key as a number in its order (R336). -/
def keyInt (ty : Ty) (k : W32) : Int :=
  match ty with
  | .i32 => k.toInt
  | .n32 => k.toNat
  | _ => fkey k

/-- The order of elements: NaN keys last in both directions, equal keys by index (R336). -/
def before (ty : Ty) (dn : Bool) (a b : Elem) : Bool :=
  let na := ty == .f32 && isNan32 a.1
  let nb := ty == .f32 && isNan32 b.1
  if na || nb then (if na && nb then a.2.toNat < b.2.toNat else nb)
  else
    let x := keyInt ty a.1
    let y := keyInt ty b.1
    if x = y then a.2.toNat < b.2.toNat else if dn then y < x else x < y

/-- Lane `l` of the pair at register `r`. -/
def elemAt (t : Thread) (r l : Nat) : Elem := (t.vlane r l, t.vlane (r + 1) l)

/-- The element at position `p` of `vsrt`, and whether it exchanges with its partner (R339). -/
def sortElem (o : VSrt) (t : Thread) (p : Nat) : Elem := elemAt t (o.d.toNat + 2 * (p / 64)) (p % 64)
def sortSwaps (o : VSrt) (t : Thread) (e : Mask) (p : Nat) : Bool :=
  let q := p ^^^ 2 ^ o.lj.toNat
  let lo := min p q
  let hi := max p q
  bit e (p % 64) && bit e (q % 64) &&
    (if (p &&& 2 ^ o.lk.toNat) = 0 || o.lk.toNat = o.lr.toNat + 6
     then before o.ty o.dn (sortElem o t hi) (sortElem o t lo)
     else before o.ty o.dn (sortElem o t lo) (sortElem o t hi))

/-- One compare-exchange stage: the lanes of pair `r` that exchange take their partner's element (R339). -/
def sortPair (o : VSrt) (t : Thread) (e : Mask) (r : Nat) (s : State) : State :=
  let m := maskIf e fun l => sortSwaps o t e (64 * r + l)
  let from' := fun l => sortElem o t ((64 * r + l) ^^^ 2 ^ o.lj.toNat)
  let d := o.d.toNat + 2 * r
  writeFixed 10 (.v (d + 1) m (rowOf fun l => (from' l).2)) (writeFixed 10 (.v d m (rowOf fun l => (from' l).1)) s)

def execVsrt (h : Head) (o : VSrt) (s : State) : Host.Outcome State Fault Refusal :=
  plain h (fun s =>
    let t := s.cur
    let e := execMask h s
    holdVb (2 ^ o.lr.toNat) ((List.range (2 ^ o.lr.toNat)).foldl (fun z r => sortPair o t e r z) s)) s

/-- The merge of two lists: the second list's element goes first only when it is strictly before (R341). -/
def mergeBy (lt : Elem → Elem → Bool) : Nat → List Elem → List Elem → List Elem
  | 0, _, _ => []
  | n + 1, a :: as, b :: bs => if lt b a then b :: mergeBy lt n (a :: as) bs else a :: mergeBy lt n as (b :: bs)
  | n + 1, a :: as, [] => a :: mergeBy lt n as []
  | n + 1, [], b :: bs => b :: mergeBy lt n [] bs
  | _ + 1, [], [] => []

def execVmrg (h : Head) (o : VMrg) (s : State) : Host.Outcome State Fault Refusal :=
  plain h (fun s =>
    let t := s.cur
    let row := fun r => laneIds.map (elemAt t r)
    let out := mergeBy (before o.ty o.dn) 128 (row o.a.toNat) (row o.b.toNat)
    let put := fun d base z =>
      putV 10 h (d + 1) (fun l => (out.getD (base + l) (0, 0)).2) (putV 10 h d (fun l => (out.getD (base + l) (0, 0)).1) z)
    let s := put o.d.toNat 0 s
    holdVb 2 (if o.lo then s else put (o.d.toNat + 2) 64 s)) s

/-- Insertion after the elements that are not after it, which keeps the order among equals (R343). -/
def insertElem (lt : Elem → Elem → Bool) (x : Elem) : List Elem → List Elem
  | [] => [x]
  | y :: l => if lt x y then x :: y :: l else y :: insertElem lt x l

/-- The first k of the list and the candidates (R343). -/
def topk (o : VTopk) (t : Thread) (e : Mask) : List Elem :=
  let list := (List.range o.k.toNat).map (elemAt t o.d.toNat)
  let cand := (lanesOf e).map (elemAt t o.a.toNat)
  ((list ++ cand).foldl (fun l x => insertElem (before o.ty o.dn) x l) []).take o.k.toNat

def execVtopk (h : Head) (o : VTopk) (s : State) : Host.Outcome State Fault Refusal :=
  plain h (fun s =>
    let r := topk o s.cur (execMask h s)
    let m := maskBy (List.range o.k.toNat)
    holdVb 2 (writeFixed 10 (.v (o.d.toNat + 1) m (rowOf fun l => (r.getD l (0, 0)).2))
      (writeFixed 10 (.v o.d.toNat m (rowOf fun l => (r.getD l (0, 0)).1)) s))) s

end Sys2Proof.Machine
end

