-- ==== Sys2Proof/Machine/Units.lean ====
section
/-!
DEFINITION. The units beneath the stacks: where an address lies, the micro-op that a running program has reached, and the
arbitration of a program with core requests (R345, R351, R357).
-/
namespace Sys2Proof.Machine

/-! Placement (R345). -/

def stackOf (pa : Nat) : Nat := pa / 2 ^ 36
def pcOf (pa : Nat) : Nat := pa / 2 ^ 8 % 64
/-- The near-bank unit of an address: 64 to a stack. -/
def unitOf (pa : Nat) : Nat := 64 * stackOf pa + pcOf pa

/-! Micro-ops (R351). -/

def uopOf (w : W64) : Nat := w.toNat % 16
def uFmt (w : W64) : Bool := w.getLsbD 4
def uRs (w : W64) : Nat := w.toNat / 2 ^ 5 % 4
def uSi (w : W64) : Nat := w.toNat / 2 ^ 7 % 4
def uTarget (w : W64) : Nat := w.toNat / 2 ^ 16 % 32
def uCount (w : W64) : Nat := w.toNat / 2 ^ 32 % 2 ^ 16

/-- A micro-op of a row. -/
def isData (w : W64) : Bool := 1 ≤ uopOf w && uopOf w ≤ 4

/-! Units and counters (R348, R360, R381). -/

def State.unit (s : State) (u : Nat) : NbUnit := tget {} s.nb u
def State.onUnit (s : State) (u : Nat) (f : NbUnit → NbUnit) : State := { s with nb := tputD {} s.nb u (f (s.unit u)) }

/-- Counters of stack `st`: 0 RUNS, 1 SUSPENDS, 2 FORCED, 3 DIRTYDROP, 4 FAULTS of the near-bank units (R360), 8 to 11 of
the controllers (R348), 16 to 22 of the Cerulean engine (R381). -/
def cntKey (st i : Nat) : Nat := 32 * st + i
/-- A counter of `w` bits advances by `n`. -/
def countBy (w st i n : Nat) (s : State) : State :=
  let v := tget 0 s.nbCnt (cntKey st i)
  { s with nbCnt := tputD 0 s.nbCnt (cntKey st i) (BitVec.ofNat 64 ((v.toNat + n) % 2 ^ w)) }
def count32 (st i : Nat) (s : State) : State := countBy 32 st i 1 s
def count64 (st i : Nat) (s : State) : State := countBy 64 st i 1 s

/-! Arbitration (R357, R479, R480). -/

def nbOp (p : NbProg) : W64 := p.uops.getD p.mpc 0

/-- A core request is queued at the unit's controller (R357). -/
def requested (x : NbUnit) : Bool := !x.reqs.isEmpty || !x.wq.isEmpty

/-- A row operation is under way: the unit begins the next as soon as one ends, unless it is suspended (R357, R480). -/
def rowGoing (x : NbUnit) : Bool := x.susp.isNone && x.run.any fun p => isData (nbOp p) && !p.ended

/-- The queue has emptied now. -/
def quietNow (now : Nat) (x : NbUnit) : NbUnit := if requested x then x else { x with quiet := now }

/-- The unit suspends before a data micro-op (R357, R480). -/
def suspendNb (u : Nat) (s : State) : State :=
  count32 (u / 64) 1 (s.onUnit u fun x => quietNow s.time { x with susp := some s.time, arrived := false })

/-- At a row boundary a request that is queued, or that came during the row operation, suspends the unit. -/
def arbitrate (u : Nat) (s : State) : State :=
  let x := s.unit u
  if rowGoing x && (requested x || x.arrived) then suspendNb u s else s

/-- A core request has come: during a row operation it makes the unit suspend at the end of that operation, and a suspended unit counts
its window from the moment at which none is queued (R357, R479). -/
def comeNow (now : Nat) (x : NbUnit) : NbUnit := if rowGoing x then { x with arrived := true } else quietNow now x

/-! The write queue (R346). Entries are a line and a mask of its bytes. -/

def lineMask : Nat := 2 ^ 128 - 1
def meets (w r : Nat × Nat) : Bool := w.1 == r.1 && w.2 &&& r.2 != 0
def covers (w r : Nat × Nat) : Bool := w.1 == r.1 && w.2 &&& r.2 == r.2

/-- The last queued write that meets a read covers it, so that it alone gives the read's bytes (R346). -/
def forwards (wq : List (Nat × Nat)) (r : Nat × Nat) : Bool := (wq.reverse.find? fun w => meets w r).any fun w => covers w r

/-- What is left of the queue once every write that meets the read has been written to the array, with those queued before it. -/
def pastWrites (r : Nat × Nat) : List (Nat × Nat) → List (Nat × Nat)
  | [] => []
  | w :: l => if (w :: l).any fun w => meets w r then pastWrites r l else w :: l

/-- A read of a line's bytes reaches the controller: a queued write gives it alone, or the writes that meet it are written to the array
first, and it is served (R346, R348, R357, log 59). -/
def readUnit (line mask : Nat) (s : State) : State :=
  let u := unitOf (128 * line)
  let r := (line, mask)
  let x := s.unit u
  if x.run.isNone && x.wq.isEmpty then s
  else if forwards x.wq r then count64 (u / 64) 8 s
  else
    (if x.wq.any fun w => meets w r then count64 (u / 64) 9 s else s).onUnit u fun x => comeNow s.time { x with wq := pastWrites r x.wq }

/-- A write of an HBM line's bytes is accepted by the controller, and stands in its queue until it is written to the array (R346, R357). -/
def writeUnit (line mask : Nat) (s : State) : State :=
  if 2 ^ 40 ≤ 128 * line then s
  else s.onUnit (unitOf (128 * line)) fun x => comeNow s.time { x with wq := x.wq ++ [(line, mask)] }

/-- While no row operation is under way the oldest queued write is written to the array, and the oldest waiting read that no queued write
meets is served (R346, R357). -/
def serveWrite (now : Nat) (x : NbUnit) : NbUnit := if rowGoing x || x.wq.isEmpty then x else quietNow now { x with wq := x.wq.drop 1 }
def serveRead (now : Nat) (x : NbUnit) : NbUnit :=
  match x.reqs with
  | r :: l => if rowGoing x || x.wq.any (fun w => meets w r) then x else quietNow now { x with reqs := l }
  | [] => x

end Sys2Proof.Machine
end

