-- ==== Sys2Proof/Machine/Memory.lean ====
section
/-!
DEFINITION. Memory as the homes see it: the physical map, home slices, format and landing windows, leases, poison,
monitors, speculative lines, scratchpad with its headers and windows, and address translation (R124 to R127, R254 to
R266, R284 to R293, R361, R385, R399, R445, R446, R466, R484).
-/
namespace Sys2Proof.Machine

/-! The physical map and the homes (R261, R284). -/

def hostBase : Nat := 2 ^ 51
def stackPresent (s : State) (st : Nat) : Bool := s.hbmMask.getLsbD st
def isHbm (s : State) (pa : Nat) : Bool := pa < 2 ^ 40 && stackPresent s (pa / 2 ^ 36)
def present (s : State) (pa : Nat) : Bool := isHbm s pa || (hostBase ≤ pa && pa < 2 ^ 52)

/-- The exclusive OR of `k` fields of `w` bits. -/
def xorFields (w : Nat) : Nat → Nat → Nat
  | 0, _ => 0
  | k + 1, n => (n % 2 ^ w) ^^^ xorFields w k (n / 2 ^ w)

def lineOf (pa : Nat) : Nat := pa / 128
/-- The home slice of an address (R261). -/
def sliceOf (pa : Nat) : Nat :=
  if pa < 2 ^ 40 then 32 * (pa / 2 ^ 37) + xorFields 5 9 (pa / 128)
  else xorFields 8 5 (pa / 128) ^^^ (pa / 2 ^ 47 % 32)
def homeDie (pa : Nat) : Nat := sliceOf pa / 32

/-- A request for the line receives a FABRIC_LOST reply (R412, R413). -/
def sliceLost (s : State) (pa : Nat) : Bool := s.lostSlices.contains (sliceOf pa)
/-- The home's die has stopped, so no reply comes (R412). -/
def dieLost (s : State) (pa : Nat) : Bool := s.lostDies.contains (homeDie pa)
/-- A request made as part of a step cannot be answered: it fails with FABRIC_LOST (R410, R412, log 7). -/
def homeGone (s : State) (pa : Nat) : Bool := dieLost s pa || sliceLost s pa

/-- The sites of a die whose cores worked at the last reset: neither the self-test nor a loss in service before it has put
them out (R12, R413, R462). -/
def workingSites (s : State) (die : Nat) : List Nat :=
  (List.range 32).filter fun i => !Config.coreFails s.life.now.resets.toNat die i && !s.deadSites.contains (32 * die + i)

/-- The pool of a core that the repair of this reset has left (R462, R463). -/
def poolBlocks (s : State) (c : Nat) : Nat := Config.poolBlocks s.life.now.resets.toNat c

/-- The sites that hold a die's logical cores: its 28 lowest working ones (R462). -/
def coreSites (s : State) (die : Nat) : List Nat := (workingSites s die).take 28

/-- The physical site of a logical core, by the repair map that the flash keeps; a part that has never been repaired has them in
ascending order (R11, R462, log 4). -/
def siteOf (s : State) (c : Nat) : Nat := match tfind s.siteMap c with
  | some i => i
  | none => (coreSites s (c / 28)).getD (c % 28) 0

/-! Format windows (R263 to R265). -/

def fmtWindowOk (f : Nat) : Bool := f == 8 || f == 9 || f == 0xA || (0x12 ≤ f && f ≤ 0x18)
def isBfp (f : Nat) : Bool := 0x12 ≤ f && f ≤ 0x18
/-- Bits of a BFP element. -/
def bfpBits (f : Nat) : Nat := f - 0x10
def FWin.invalid (w : FWin) : Bool :=
  !fmtWindowOk w.fmt || w.blke != (if isBfp w.fmt then 32 else 1) || w.limit ≤ w.base
def FWin.governs (w : FWin) (pa : Nat) : Bool := w.en && !w.invalid && w.base ≤ pa && pa < w.limit

/-- The lowest-numbered valid window of an address governs it (R264). -/
def fwinAt (s : State) (pa : Nat) : Option FWin := (s.fwin.find? fun w => w.2.governs pa).map Prod.snd

/-! Landing windows (R361, R362). -/

def lwinErr (s : State) (w : LWin) : Bool :=
  w.en && (w.limit ≤ w.base || 2 ^ 40 < w.limit || w.base / 2 ^ 36 != (w.limit - 1) / 2 ^ 36 || !isHbm s w.base)
/-- An enabled valid window that covers an address. -/
def lwinCovers (s : State) (w : LWin) (pa : Nat) : Bool := w.en && !lwinErr s w && w.base ≤ pa && pa < w.limit
def lwinAt (s : State) (pa : Nat) : Option LWin := (s.lwin.find? fun w => lwinCovers s w.2 pa).map Prod.snd
def landsAt (s : State) (pa : Nat) : Bool := (lwinAt s pa).isSome

/-! L2 lines (R262, R265). -/

def State.l2line (s : State) (line : Nat) : L2Line := tget {} s.l2 line
def State.setL2 (s : State) (line : Nat) (x : L2Line) : State := { s with l2 := tputD {} s.l2 line x }
def State.onL2 (s : State) (line : Nat) (f : L2Line → L2Line) : State := s.setL2 line (f (s.l2line line))

/-- The BFP blocks with a byte in a line: window and block numbers (R265). -/
def blocksOf (s : State) (line : Nat) : List (FWin × Nat) :=
  match fwinAt s (128 * line) with
  | some w =>
    if isBfp w.fmt then
      let sz := 4 * bfpBits w.fmt
      let lo := (128 * line - w.base) / sz
      let hi := (128 * line + 127 - w.base) / sz
      (List.range (hi + 1 - lo)).map fun i => (w, lo + i)
    else []
  | none => []

/-- A fill attaches the exponents of the line's blocks as sideband (R265); it reaches the line's stack, as every access to a
landing window does (R357, R362). -/
def fillL2 (line : Nat) (s : State) : State :=
  if landsAt s (128 * line) then readUnit line lineMask s
  else if (s.l2line line).inL2 then s
  else (readUnit line lineMask s).onL2 line fun x =>
    { x with inL2 := true, dirty := false,
             side := (blocksOf s line).map fun b => (b.2, (byteAt s.mem (b.1.scale + b.2)).toNat) }

/-- A write-back of a dirty copy writes its sideband exponents to the scale region, and the copy stays (R265, R280). -/
def writeBackL2 (line : Nat) (s : State) : State :=
  let x := s.l2line line
  if x.inL2 && x.dirty then
    let mem := match fwinAt s (128 * line) with
      | some w => x.side.foldl (fun m e => byteSet m (w.scale + e.1) (BitVec.ofNat 8 e.2)) s.mem
      | none => s.mem
    { s with mem := mem }.onL2 line fun x => { x with dirty := false }
  else s

/-- A write-back that leaves the L2 reaches the line's stack (R357). -/
def pushL2 (line : Nat) (s : State) : State :=
  let x := s.l2line line
  writeBackL2 line (if x.inL2 && x.dirty then writeUnit line lineMask s else s)

def dropL2 (line : Nat) (s : State) : State :=
  s.onL2 line fun x => { x with inL2 := false, dirty := false, side := [] }

/-- Every L2 line that touches a range is written back and invalidated (R266, R361). -/
def flushRange (lo hi : Nat) (s : State) : State :=
  (s.l2.filter fun e => lo < 128 * e.1 + 128 && 128 * e.1 < hi && e.2.inL2).foldl
    (fun s e => dropL2 e.1 (pushL2 e.1 s)) s

/-! Poison (R466). -/

/-- A line is poisoned until every byte that the error hit has been overwritten (R466, log 10). -/
def poisoned (s : State) (pa n : Nat) : Bool := n != 0 && s.poison.any fun a => lineOf pa ≤ lineOf a && lineOf a ≤ lineOf (pa + n - 1)

/-! Monitors on global words (R399). -/

/-- The tag whose speculative bytes a task sees: its own, or its launch's (R126). -/
def viewTag (s : State) (k : Nat) : Option Nat :=
  match (s.task k).tag with
  | some t => some t
  | none => (s.task k).launch.bind fun l => (s.launch l).tag

def overlaps (a n b m : Nat) : Bool := a < b + m && b < a + n

/-- Threads whose global monitor a write covers see it, those of one tag only when `tag` is given. -/
def triggerGlobal (pa n : Nat) (tag : Option Nat) (s : State) : State :=
  { s with threads := s.threads.map fun e =>
      match e.2.mon with
      | some m =>
        if !m.sp && overlaps pa n m.addr 8 && (tag.isNone || viewTag s (taskOf e.1) == tag)
        then (e.1, { e.2 with mon := some { m with trig := true } }) else e
      | none => e }

/-! Writes and reads at the home (R262, R384, R385). -/

/-- A byte of an L1 copy that a store changes: an untagged copy takes committed stores, a tagged copy takes the
stores of its tag, and committed stores where it holds no speculative byte (R126, R273). -/
def l1Takes (s : State) (l : L1Line) (tag : Option Nat) (a : Nat) : Bool :=
  match l.tag with
  | none => tag.isNone
  | some t => tag == some t ||
    (tag.isNone && !(s.spec.any fun x => x.tag == t && x.sector == a / 32 && thas x.bytes a))

/-- A copy of a line with the bytes of a store. -/
def l1Line (s : State) (pa n v : Nat) (tag : Option Nat) (l : L1Line) : L1Line :=
  let one := fun (b : W8 × Nat) =>
    let a := 128 * l.line + b.2
    if pa ≤ a && a < pa + n && l1Takes s l tag a then BitVec.ofNat 8 (v / 256 ^ (a - pa)) else b.1
  if overlaps pa n (128 * l.line) 128 then { l with bytes := l.bytes.zipIdx.map one } else l

/-- The bytes stored enter the core's own L1 copies (R273). -/
def l1Store (core pa n v : Nat) (tag : Option Nat) (s : State) : State :=
  s.onCore core fun c => { c with l1 := c.l1.map (l1Line s pa n v tag) }

/-- The lines that an access touches. -/
def linesOf (pa n : Nat) : List Nat := (List.range (lineOf (pa + n - 1) + 1 - lineOf pa)).map (lineOf pa + ·)

/-- The write completion time of a write performed now (R385); a landing window grants no lease (R362). -/
def gwctOf (s : State) (pa : Nat) : Nat := if landsAt s pa then s.time else max s.time (s.l2line (lineOf pa)).lease

/-- A committed write to a watched shape record that makes VALID equal to 1 before the launch's time is up starts
resolution, unless a task of the launch makes it (R129, R136). -/
def watchShape (own : Option Nat) (pa n : Nat) (s : State) : State :=
  { s with launches := s.launches.map fun e =>
      if e.2.st == .speculating && own != some e.1 && overlaps pa n (e.2.shapePa + 0x18) 4 &&
          bytesAt s.mem (e.2.shapePa + 0x18) 4 = 1 && s.time < e.2.deadline
      then (e.1, { e.2 with st := .resolving }) else e }

/-- What a committed write sets off: monitors, and the watch of a shape record. `own` is the writer's launch. -/
def performed (own : Option Nat) (pa n : Nat) (s : State) : State := watchShape own pa n (triggerGlobal pa n none s)

/-- The bytes of a line that a range holds, as a mask. -/
def maskIn (line pa n : Nat) : Nat := (List.range 128).foldl (fun m i => if pa ≤ 128 * line + i && 128 * line + i < pa + n then m + 2 ^ i else m) 0

/-- Committed bytes written at their homes by a task of a launch, or by no task: the lines become dirty, poison is
cleared, and monitors trigger. -/
def homeWriteOf (own : Option Nat) (pa n v : Nat) (s : State) : State :=
  let s := (linesOf pa n).foldl (fun s l => if landsAt s (128 * l) then writeUnit l (maskIn l pa n) s else (fillL2 l s).onL2 l fun x => { x with dirty := true }) s
  performed own pa n
    { s with mem := bytesSet s.mem pa n v, poison := s.poison.filter fun a => !(pa ≤ a && a < pa + n) }

def homeWrite (pa n v : Nat) (s : State) : State := homeWriteOf none pa n v s

/-- Bytes in memory at their homes. -/
def homeRead (s : State) (pa n : Nat) : Nat := bytesAt s.mem pa n

/-- A lease granted now runs for 256 ticks (R385). -/
def grantLease (line : Nat) (s : State) : State :=
  (fillL2 line s).onL2 line fun x => { x with lease := max x.lease (s.time + 256) }

/-! Speculative lines (R124 to R127). -/

def specByte (s : State) (tag pa : Nat) : Option W8 :=
  (s.spec.find? fun x => x.tag == tag && x.sector == pa / 32).bind fun x => tfind x.bytes pa

/-- A byte of a completion held in speculative lines; WAITERS is kept by hardware in memory (R41, R124). -/
def specFutByte (x : SpecFut) (i : Nat) : Option W8 :=
  if i = 0 then some (BitVec.ofNat 8 x.state)
  else if i = 1 then some x.cause
  else if i < 4 then none
  else if i < 8 then some 0
  else if i < 16 then some (BitVec.ofNat 8 (x.value.toNat / 256 ^ (i - 8)))
  else if i < 24 then some (BitVec.ofNat 8 (x.aux.toNat / 256 ^ (i - 16)))
  else some (BitVec.ofNat 8 (x.pwid.toNat / 256 ^ (i - 24)))

def specFutAt (s : State) (tag pa : Nat) : Option SpecFut :=
  s.specFut.find? fun x => x.tag == tag && x.addr ≤ pa && pa < x.addr + 32

/-- A byte as an observer under a tag sees it (R126). -/
def viewByte (s : State) (tag : Option Nat) (pa : Nat) : W8 :=
  match tag with
  | some t =>
    match (specFutAt s t pa).bind fun x => specFutByte x (pa - x.addr) with
    | some b => b
    | none => (specByte s t pa).getD (byteAt s.mem pa)
  | none => byteAt s.mem pa

/-- The bytes are poisoned as an observer under a tag sees them: at their home, or in the tag's lines (R126, R409, R466). -/
def poisonedFor (s : State) (tag : Option Nat) (pa n : Nat) : Bool :=
  poisoned s pa n || (n != 0 && tag.any fun t => s.spec.any fun x => x.tag == t && x.bad.any fun a =>
    lineOf pa ≤ lineOf a && lineOf a ≤ lineOf (pa + n - 1))
/-- The same for a thread's task. -/
def poisonedTo (s : State) (tid pa n : Nat) : Bool := poisonedFor s (viewTag s (taskOf tid)) pa n

def viewRead (s : State) (tag : Option Nat) : Nat → Nat → Nat
  | _, 0 => 0
  | pa, n + 1 => (viewByte s tag pa).toNat + 256 * viewRead s tag (pa + 1) n

def sectorsOf (pa n : Nat) : List Nat := (List.range ((pa + n - 1) / 32 + 1 - pa / 32)).map (pa / 32 + ·)

/-- Every owned sector with its tag and its root: those of stores, and those of held completions (R124, R125). -/
def specSectors (s : State) : List (Nat × Nat × W64) :=
  (s.spec.map fun x => (x.tag, x.sector, x.root)) ++ s.specFut.map fun x => (x.tag, x.addr / 32, x.root)

/-- A sector that another root owns (R125). -/
def sectorTaken (s : State) (tag : Nat) (root : W64) (pa n : Nat) : Bool :=
  (sectorsOf pa n).any fun c => (specSectors s).any fun x => x.1 == tag && x.2.1 == c && x.2.2 != root

/-- Speculative lines in the set of a line: distinct tags and lines of the same slice and set (R125, log 11). Exponents of
blocks stand beside their lines and take no way of their own (R265). -/
def specLinesInSet (s : State) (line : Nat) : List (Nat × Nat) :=
  (((specSectors s).map fun x => (x.1, x.2.1 / 4)).filter fun p =>
    p.2 < 2 ^ 45 && sliceOf (128 * p.2) == sliceOf (128 * line) && Config.l2Set p.2 == Config.l2Set line).eraseDups

/-- Lines in the L2 that share a line's slice and set; a set has 16 ways (R14, R125, log 11). -/
def l2Peers (s : State) (line : Nat) : List Nat :=
  (s.l2.filter fun e => e.2.inL2 && sliceOf (128 * e.1) == sliceOf (128 * line) && Config.l2Set e.1 == Config.l2Set line).map Prod.fst

/-- A set that holds more lines than its ways evicts: a free choice of the line, which is written back (R265, log 11). -/
def evictFor (s : State) (line : Nat) : State :=
  let ls := l2Peers s line
  if ls.length + (specLinesInSet s line).length ≤ 16 then s
  else
    let v := ls.getD (Config.l2Victim line ls % ls.length) line
    dropL2 v (pushL2 v s)

/-- The L2 holds 256 slices of 2 MiB: what was filled beyond a set's ways is evicted (R14). -/
def trimL2 (s : State) : State :=
  if s.l2.length ≤ 12 then s
  else s.l2.foldl (fun s e => evictFor s e.1) s

/-- A store needs a new speculative line in a set whose four are taken (R125). -/
def waysFull (s : State) (tag pa n : Nat) : Bool :=
  (linesOf pa n).any fun l =>
    let ls := specLinesInSet s l
    !ls.contains (tag, l) && 4 ≤ ls.length

/-- One byte written under a tag; the first writer of a sector owns it (R125). -/
def specPut (tag : Nat) (root : W64) (pa : Nat) (v : W8) : List Sector → List Sector
  | [] => [⟨tag, pa / 32, root, [(pa, v)], []⟩]
  | x :: l => if x.tag == tag && x.sector == pa / 32 then { x with bytes := tput x.bytes pa v, bad := x.bad.filter (· != pa) } :: l
    else x :: specPut tag root pa v l

/-- Copies of lines held under a tag leave the L1s, but for the writer's own, which takes the bytes of its stores (R273). A write in
speculative lines returns its own issue time (R124), so no completion time holds a reader back from a copy that is older than it, and
an acquire of the tag is to see it (R43, R126): the model's choice (log 31). -/
def dropCopies (but : Option Nat) (tag pa n : Nat) (s : State) : State :=
  { s with cores := s.cores.map fun e =>
      if but != some e.1 && e.2.l1.any fun x => x.tag == some tag && overlaps pa n (128 * x.line) 128
      then (e.1, { e.2 with l1 := e.2.l1.filter fun x => !(x.tag == some tag && overlaps pa n (128 * x.line) 128) }) else e }

def specWrite (tag : Nat) (root : W64) (pa n v : Nat) (s : State) : State :=
  triggerGlobal pa n (some tag)
    { s with spec := (List.range n).foldl (fun l i => specPut tag root (pa + i) (BitVec.ofNat 8 (v / 256 ^ i)) l) s.spec }

/-- A write by a task: to its tag's lines while it is speculative, otherwise at the home. -/
def taskWrite (k pa n v : Nat) (s : State) : State :=
  match isSpec s k, (s.task k).tag with
  | true, some t => specWrite t (s.task k).root pa n v (dropCopies (some (s.task k).core) t pa n s)
  | _, _ => homeWriteOf (s.task k).launch pa n v s

/-- The write of a speculative task cannot be made yet (R124, R125). -/
def taskWriteBlocked (s : State) (k pa n : Nat) : Bool :=
  match isSpec s k, (s.task k).tag with
  | true, some t => landsAt s pa || sectorTaken s t (s.task k).root pa n || waysFull s t pa n
  | _, _ => false

/-- The completion time that a task's write gives: the time at which it was issued while speculative (R124). -/
def taskGwct (s : State) (k pa issued : Nat) : Nat := if isSpec s k then issued else gwctOf s pa

/-- A stall of a speculative write is counted by its reason: a sector of another root, or full ways (R125, R142). A landing
window's is neither. -/
def noteStall (k pa n : Nat) (s : State) : State :=
  if landsAt s pa then s
  else if sectorTaken s ((s.task k).tag.getD 0) (s.task k).root pa n then { s with secstall := s.secstall + 1 }
  else { s with waystall := s.waystall + 1 }

/-- An access lies wholly in its root's arena slot (R127). -/
def inArena (s : State) (k va n : Nat) : Bool :=
  match (s.task k).launch with
  | some l =>
    let a := (s.launch l).arena
    let z := (s.launch l).aslot
    a != 0 && a + z * (s.task k).root.toNat ≤ va && va + n ≤ a + z * ((s.task k).root.toNat + 1)
  | none => false

/-! The L1 (R254, R255, R385). -/

def pinnedWays (c : Core) (line : Nat) : Nat := tget 0 c.units (line % 1024 / 32)

/-- Entering a line: the least recently used unpinned ways of its set give way (R254). -/
def l1Insert (l : L1Line) (c : Core) : Core :=
  let rest := c.l1.filter fun x => !(x.line == l.line && x.tag == l.tag)
  let same := fun (x : L1Line) => x.line % 1024 == l.line % 1024
  let room := 16 - pinnedWays c l.line - 1
  let kept := (rest.filter same).take room
  { c with l1 := l :: rest.filter fun x => !same x || kept.contains x }

/-- A hit makes the line the most recently used (R254). -/
def l1Use (l : L1Line) (c : Core) : Core :=
  { c with l1 := l :: c.l1.filter fun x => !(x.line == l.line && x.tag == l.tag) }

def l1Find (c : Core) (line : Nat) (tag : Option Nat) (now : Nat) : Option L1Line :=
  c.l1.find? fun x => x.line == line && x.tag == tag && now < x.expiry

/-- A line filled from its home under a lease (R273, R385). -/
def l1Fill (core line : Nat) (tag : Option Nat) (s : State) : State :=
  let s := grantLease line s
  s.onCore core (l1Insert ⟨line, s.time + 256, (List.range 128).map fun i => viewByte s tag (128 * line + i), tag⟩)

def bytesOfLine (l : L1Line) (pa n : Nat) : Nat := leNat ((l.bytes.drop (pa - 128 * l.line)).take n)

/-- Dropping L1 copies of a line, or every copy (R280). -/
def l1Drop (core : Nat) (line : Option Nat) (s : State) : State :=
  s.onCore core fun c => { c with l1 := c.l1.filter fun x => match line with
    | some l => x.line != l
    | none => false }

/-! Scratchpad (R256 to R260, R484). -/

/-- The task and offset that `n` bytes at a scratchpad address reach: the task's own allocation, or a buffer of its
LOCAL window (R256, R484). -/
def spLoc (s : State) (k o n : Nat) : Option (Nat × Nat) :=
  if o + n ≤ (s.task k).size then some (k, o)
  else if o < 2 ^ 31 then none
  else ((s.task k).bufs.find? fun b => b.owner.isSome && b.off ≤ o - 2 ^ 31 && o - 2 ^ 31 + n ≤ b.off + b.size).bind
    fun b => b.owner.map fun j => (j, o - 2 ^ 31)

def spRead (s : State) (p : Nat × Nat) (n : Nat) : Nat := bytesAt (s.task p.1).spad p.2 n

/-- The header of a task's own buffers that an offset lies in the first slot of. -/
def headerOf (t : Task) (o : Nat) : Option Nat := (t.bufs.find? fun b => b.owner.isNone && b.off ≤ o && o < b.off + 128).map Buf.off

/-- The headers of a task's own buffers that `n` bytes reach. -/
def headersIn (t : Task) (o n : Nat) : List Nat :=
  (t.bufs.filter fun b => b.owner.isNone && overlaps o n b.off 8).map Buf.off

/-- A warp slot of the task's core that waits on a header, as the bit of WAITMASK (R258, R399). -/
def slotOf (s : State) (tid : Nat) : Nat := (((s.core (s.taskT tid).core).slots.find? fun e => e.2 == tid).map Prod.fst).getD 0

/-- Scratchpad watches that a write covers trigger (R399). -/
def triggerSpad (k o n : Nat) (s : State) : State :=
  ((s.task k).spwatch.filter fun w => overlaps o n w.2 8).foldl
    (fun s w => s.onThread w.1 fun t => { t with mon := t.mon.map fun m => { m with trig := true } }) s

/-- The bits of a header word 0 that a wake depends on: STATE and GEN (R259). -/
def headStateGen (w : Nat) : Nat := w % 2 ^ 16

/-- A change of STATE or GEN wakes the warps in WAITMASK and clears it (R259). -/
def wakeHeader (k off before' : Nat) (s : State) : State :=
  if headStateGen (bytesAt (s.task k).spad off 8) = headStateGen before' then s
  else s.onTask k fun t => { t with spad := bytesSet t.spad (off + 8) 4 0 }

/-- One byte that software stores: of a header's first slot it writes word 0, and in word 1 the field OWNER (R260). -/
def spStoreByte (k o : Nat) (v : W8) (s : State) : State :=
  match headerOf (s.task k) o with
  | some h =>
    if o - h < 8 then s.onTask k fun t => { t with spad := byteSet t.spad o v }
    else if o - h = 12 then s.onTask k fun t => { t with spad := byteSet t.spad o (v &&& 0x1F) }
    else s
  | none => s.onTask k fun t => { t with spad := byteSet t.spad o v }

/-- A word of a task's scratchpad has an uncorrectable error that has not been wholly overwritten (R465, R466, log 10). -/
def spPoisoned (s : State) (p : Nat × Nat) (n : Nat) : Bool :=
  (s.task p.1).spoison.any fun a => p.2 / 4 ≤ a / 4 && a / 4 ≤ (p.2 + n - 1) / 4
/-- A write takes its bytes from what is left of a poisoned word (R466, log 10). -/
def spClean (p : Nat × Nat) (n : Nat) (s : State) : State :=
  if (s.task p.1).spoison.isEmpty then s
  else s.onTask p.1 fun t => { t with spoison := t.spoison.filter fun a => !(p.2 ≤ a && a < p.2 + n) }

/-- A store of `n` bytes to scratchpad (R257, R260). -/
def spWrite (p : Nat × Nat) (n v : Nat) (s : State) : State :=
  let hdrs := headersIn (s.task p.1) p.2 n
  let olds := hdrs.map fun h => (h, bytesAt (s.task p.1).spad h 8)
  let s := (List.range n).foldl (fun s i => spStoreByte p.1 (p.2 + i) (BitVec.ofNat 8 (v / 256 ^ i)) s) s
  let s := triggerSpad p.1 p.2 n (spClean p n s)
  olds.foldl (fun s e => wakeHeader p.1 e.1 e.2 s) s

/-! Tile headers, as the hardware moves them (R258, R259). -/

def hdrState (w : Nat) : Nat := w % 4
def hdrGen (w : Nat) : Nat := w / 4 % 2 ^ 14
def hdrTarget (w : Nat) : Nat := w / 2 ^ 16 % 2 ^ 24
def hdrArrived (w : Nat) : Nat := w / 2 ^ 40 % 2 ^ 24
def hdrWord (st gen target arrived : Nat) : Nat := st + 4 * (gen % 2 ^ 14) + 2 ^ 16 * target + 2 ^ 40 * arrived

def readHdr (s : State) (k off : Nat) : Nat := bytesAt (s.task k).spad off 8

/-- A hardware change of word 0: it triggers the watches of the word and wakes WAITMASK (R259, R399). -/
def setHdr (k off w : Nat) (s : State) : State :=
  let old := readHdr s k off
  wakeHeader k off old (triggerSpad k off 8 (s.onTask k fun t => { t with spad := bytesSet t.spad off 8 w }))

/-- An arrival of `n` bytes is counted; none when it is refused (R259). -/
def arriveHdr (w n : Nat) : Option Nat :=
  let st := hdrState w
  let a := (if st = 0 then 0 else hdrArrived w) + n
  if 2 ≤ st || hdrTarget w < a then none
  else if a = hdrTarget w then some (hdrWord 2 (hdrGen w + 1) (hdrTarget w) a)
  else some (hdrWord 1 (hdrGen w) (hdrTarget w) a)

/-- Bytes written by an engine to scratchpad (R257); those of a header's slot change it as a store's do, so that its reserved
bytes and WAITMASK stay (R258, R260). -/
def spPut (p : Nat × Nat) (bytes : List W8) (s : State) : State := spWrite p bytes.length (leNat bytes) s

/-! Translation (R284 to R290). -/

/-- What an access needs. -/
inductive Need where
  | read | write | fetch
  deriving DecidableEq, Repr

/-- A table entry's fields (R287). -/
def pteV (e : W64) : Bool := e.getLsbD 0
def pteLeaf (e : W64) : Bool := e.getLsbD 1
def pteAddr (e : W64) : Nat := e.toNat / 2 ^ 12 % 2 ^ 40 * 2 ^ 12
def pteReserved (e : W64) : Bool := e.toNat / 2 ^ 5 % 2 ^ 7 != 0 || e.toNat / 2 ^ 52 != 0

/-- Offset bits of a leaf of a level (R286). -/
def pageBits (level : Nat) : Nat := 16 + 9 * level

/-- A valid entry is malformed (R287). -/
def pteBad (s : State) (level : Nat) (e : W64) : Bool :=
  pteReserved e ||
  (if pteLeaf e then level == 3 || pteAddr e % 2 ^ pageBits level != 0 || !present s (pteAddr e) ||
      !present s (pteAddr e + 2 ^ pageBits level - 1)
   else level == 0 || !isHbm s (pteAddr e))

/-- The outcome of a walk: a leaf, or a cause with whether an entry was malformed. -/
inductive Walk where
  | leaf (e : TlbEnt)
  | bad (cause : W8) (malformed : Bool)
  deriving DecidableEq, Repr

/-- The walk from a table of a level (R286 to R288). An entry with an uncorrectable error is used as it stands: R288 and R466 name no
outcome of a walk for it, and it is the model's choice (log 76). -/
def walkFrom (s : State) (cid va : Nat) : Nat → Nat → Walk
  | level, table =>
    let a := table + 8 * (va / 2 ^ pageBits level % 512)
    if homeGone s a then .bad Cause.fabricLost false
    else
      let e : W64 := BitVec.ofNat 64 (homeRead s a 8)
      if !pteV e then .bad Cause.notPresent false
      else if pteBad s level e then .bad Cause.notPresent true
      else if pteLeaf e then
        .leaf ⟨cid, va / 2 ^ pageBits level * 2 ^ pageBits level, pageBits level, pteAddr e, e.getLsbD 2, e.getLsbD 3, e.getLsbD 4⟩
      else match level with
        | 0 => .bad Cause.notPresent true
        | l + 1 => walkFrom s cid va l (pteAddr e)
  termination_by structural level => level

def ctxEntry (s : State) (cid : Nat) : W64 := BitVec.ofNat 64 (homeRead s (s.ctxBase + 8 * cid) 8)

/-- A walk from the context table (R285, R288). Reserved bits of the entry are ignored, and ROOT is used as it stands wherever it points:
R285 gives neither an effect, and it is the model's choice (log 76). -/
def walk (s : State) (cid va : Nat) : Walk :=
  let e := ctxEntry s cid
  if homeGone s (s.ctxBase + 8 * cid) then .bad Cause.fabricLost false
  else if !e.getLsbD 0 then .bad Cause.notPresent false else walkFrom s cid va 3 (pteAddr e)

/-- The non-leaf entries that a walk reads from a table of a level (R286, R289). -/
def walkPath (s : State) (cid va : Nat) : Nat → Nat → List WalkEnt
  | 0, _ => []
  | l + 1, table =>
    let e : W64 := BitVec.ofNat 64 (homeRead s (table + 8 * (va / 2 ^ pageBits (l + 1) % 512)) 8)
    if pteLeaf e then []
    else ⟨cid, va / 2 ^ pageBits (l + 1) * 2 ^ pageBits (l + 1), l, pteAddr e⟩ :: walkPath s cid va l (pteAddr e)
  termination_by structural level => level

def WalkEnt.covers (e : WalkEnt) (cid va : Nat) : Bool :=
  e.cid == cid && e.va ≤ va && va < e.va + 2 ^ pageBits (e.level + 1)

/-- The lowest table that a die's walkers hold for an address (R289). -/
def cachedTable (s : State) (die cid va : Nat) : Option WalkEnt :=
  ((tget [] s.walkCache die).filter fun e => e.covers cid va).foldl (fun a e => match a with
    | some x => if e.level < x.level then some e else a
    | none => some e) none

/-- A walk by a die's walkers, from the lowest table they hold (R289). -/
def walkVia (s : State) (die cid va : Nat) : Walk :=
  match cachedTable s die cid va with
  | some e => walkFrom s cid va e.level e.table
  | none => walk s cid va

/-- The walkers keep the non-leaf entries of a walk that found a leaf (R289). How many they hold and which they replace is not said; the
model keeps every one until a shootdown, its choice (log 76). -/
def keepWalk (die cid va : Nat) (s : State) : State :=
  let path := match cachedTable s die cid va with
    | some e => walkPath s cid va e.level e.table
    | none => walkPath s cid va 3 (pteAddr (ctxEntry s cid))
  { s with walkCache := tput s.walkCache die (path ++ tget [] s.walkCache die) }

def TlbEnt.covers (e : TlbEnt) (cid va : Nat) : Bool := e.cid == cid && e.va ≤ va && va < e.va + 2 ^ e.bits

/-- The die of a core. -/
def dieOfCore (core : Nat) : Nat := core / Config.coresPerDie

/-- The page of a miss already requested by another lane of the instruction being issued (R289). -/
def merged (s : State) (cid va : Nat) : Bool := s.issue.reqs.contains (cid, va / 2 ^ 16)

/-- A miss of the instruction being issued becomes a request of its core. -/
def noteMiss (cid va : Nat) (s : State) : State :=
  if s.issue.ilen = 0 then s else { s with issue := { s.issue with reqs := (cid, va / 2 ^ 16) :: s.issue.reqs } }

/-- The die's answer to a core's request: its TLB's entry, or what a walk finds and leaves cached (R289). -/
def dieLookup (die cid va : Nat) (s : State) : State × (TlbEnt ⊕ W8) :=
  match (tget [] s.dieTlb die).find? fun e => e.covers cid va with
  | some e => (s, .inl e)
  | none =>
    let s := { s with tlbMiss := s.tlbMiss + 1 }
    match walkVia s die cid va with
    | .leaf e =>
      let s := keepWalk die cid va s
      ({ s with dieTlb := tput s.dieTlb die ((e :: tget [] s.dieTlb die).take 16384) }, .inl e)
    | .bad c m => (if m then { s with badPte := s.badPte + 1 } else s, .inr c)

/-- The translation that the TLBs hold, or that a walk finds and leaves in them. The lanes of one instruction that miss on
one page share a request and its answer (R289). -/
def lookup (core cid va : Nat) (s : State) : State × (TlbEnt ⊕ W8) :=
  if merged s cid va then
    ({ s with tlbCoal := s.tlbCoal + 1 },
      match (s.core core).tlb.find? fun e => e.covers cid va with
      | some e => .inl e
      | none => match walkVia s (dieOfCore core) cid va with
        | .leaf e => .inl e
        | .bad c _ => .inr c)
  else
    match (s.core core).tlb.find? fun e => e.covers cid va with
    | some e => (s, .inl e)
    | none =>
      match dieLookup (dieOfCore core) cid va (noteMiss cid va s) with
      | (s, .inl e) => (s.onCore core fun c => { c with tlb := (e :: c.tlb).take 256 }, .inl e)
      | (s, .inr c) => (s, .inr c)

/-- The permission check on a leaf (R288). -/
def permitted (need : Need) (e : TlbEnt) : Option W8 :=
  match need with
  | .read => none
  | .fetch => if e.x then none else some Cause.permission
  | .write => if !e.w then some Cause.permission else if e.wpm then some Cause.wpMigration else none

/-- Check 4 of R270 for one address: its physical address, or the cause of the fault. A walk that ends in a fault leaves
nothing cached (R289). -/
def translate (core cid va : Nat) (need : Need) (s : State) : State × (Nat ⊕ W8) :=
  if 2 ^ 52 ≤ va then (s, .inr Cause.noncanonical)
  else
    match lookup core cid va s with
    | (s', .inl e) =>
      (match permitted need e with
       | some c =>
         (if s'.tlbMiss = s.tlbMiss then s'
          else { s with tlbMiss := s'.tlbMiss, tlbCoal := s'.tlbCoal, issue := s'.issue }, .inr c)
       | none => (s', .inl (e.pa + (va - e.va))))
    | (s', .inr c) => (s', .inr c)

/-- Physical runs of a virtual range, page by page: 64 KiB is the smallest page. -/
def translateRange (core cid : Nat) (need : Need) : Nat → Nat → Nat → State → State × (List (Nat × Nat) ⊕ (W8 × Nat))
  | 0, _, _, s => (s, .inl [])
  | fuel + 1, va, n, s =>
    if n = 0 then (s, .inl [])
    else
      let here := min n (2 ^ 16 - va % 2 ^ 16)
      match translate core cid va need s with
      | (s, .inr c) => (s, .inr (c, va))
      | (s, .inl pa) =>
        match translateRange core cid need fuel (va + here) (n - here) s with
        | (s, .inl l) => (s, .inl ((pa, here) :: l))
        | (s, .inr c) => (s, .inr c)

/-! Translation by an agent that holds no core's TLB. -/

/-- A walk whose result is not kept. -/
def walkAddr (s : State) (cid va : Nat) (need : Need) : Nat ⊕ W8 :=
  if 2 ^ 52 ≤ va then .inr Cause.noncanonical
  else
    match walk s cid va with
    | .bad c _ => .inr c
    | .leaf e => match permitted need e with
      | some c => .inr c
      | none => .inl (e.pa + (va - e.va))

/-- The malformed entry that such a walk meets is counted, as a core's is (R288, log 16). -/
def countBad (cid va : Nat) (s : State) : State :=
  match walk s cid va with
  | .bad _ true => if 2 ^ 52 ≤ va then s else { s with badPte := s.badPte + 1 }
  | _ => s

/-- A byte range read under a context, 64 KiB piece by piece. -/
def walkRange (s : State) (cid : Nat) (need : Need) : Nat → Nat → Nat → List (Nat × Nat) ⊕ (W8 × Nat)
  | 0, _, _ => .inl []
  | fuel + 1, va, n =>
    if n = 0 then .inl []
    else
      let here := min n (2 ^ 16 - va % 2 ^ 16)
      match walkAddr s cid va need with
      | .inr c => .inr (c, va)
      | .inl pa => match walkRange s cid need fuel (va + here) (n - here) with
        | .inl l => .inl ((pa, here) :: l)
        | .inr c => .inr c

/-- The physical runs of those pieces of a range that translate. -/
def walkPieces (s : State) (cid : Nat) : Nat → Nat → Nat → List (Nat × Nat)
  | 0, _, _ => []
  | fuel + 1, va, n =>
    if n = 0 then []
    else
      let here := min n (2 ^ 16 - va % 2 ^ 16)
      let l := walkPieces s cid fuel (va + here) (n - here)
      match walkAddr s cid va .read with
      | .inr _ => l
      | .inl pa => (pa, here) :: l

/-- The physical runs of a range that an engine operation names by virtual address. -/
def runsOf (s : State) (cid : Nat) (r : Nat × Nat) : List (Nat × Nat) := walkPieces s cid (r.2 / 2 ^ 16 + 2) r.1 r.2

/-- Bytes that an engine operation names by virtual address reach physical bytes of an access (R271). -/
def reaches (s : State) (cid pa n : Nat) (r : Nat × Nat) : Bool := (runsOf s cid r).any fun x => overlaps pa n x.1 x.2

/-- Two such ranges share a physical byte. -/
def rangesMeet (s : State) (cid : Nat) (x y : Nat × Nat) : Bool := (runsOf s cid x).any fun p => reaches s cid p.1 p.2 y

/-- What a run has in landing windows, out to the ends of its lines (R362). -/
def landRuns (s : State) (p : Nat × Nat) : List (Nat × Nat) :=
  (s.lwin.filter fun w => w.2.en && !lwinErr s w.2 && overlaps p.1 p.2 w.2.base (w.2.limit - w.2.base)).map fun w =>
    let lo := max p.1 w.2.base / 128 * 128
    (lo, (min (p.1 + p.2) w.2.limit + 127) / 128 * 128 - lo)

/-- Ranges that an engine operation names reach a line of a landing window that physical runs reach too (R362). -/
def landsWith (s : State) (cid : Nat) (rs : List (Nat × Nat)) (ps : List (Nat × Nat)) : Bool :=
  (ps.flatMap (landRuns s)).any fun p => rs.any fun r => reaches s cid p.1 p.2 r

/-! Block exponents (R265). -/

/-- A block's exponent in speculative lines stands at an address of its own, above every physical address. -/
def expKey (pa : Nat) : Nat := 2 ^ 52 + pa

/-- The exponent as its line's sideband gives it, after a fill (R265). -/
def expOf (s : State) (tag : Option Nat) (w : FWin) (j pa : Nat) : Nat :=
  match tag.bind fun t => specByte s t (expKey pa) with
  | some b => b.toNat
  | none => if landsAt s pa then (byteAt s.mem (w.scale + j)).toNat else tget 0 (s.l2line (lineOf pa)).side j

end Sys2Proof.Machine
end

