-- ==== Sys2Proof/Machine/Access.lean ====
section
/-!
DEFINITION. Accesses in flight: the order in which a thread's accesses perform (R271, R383 to R391), and the performing
of loads, stores, atomics and write-backs at their homes (R273, R280, R282, R384, R385).
-/
namespace Sys2Proof.Machine

/-! Order (R271, R387 to R391). -/

def Acc.marker (a : Acc) : Bool := a.kind == .relFence || a.kind == .acqFence
def Acc.isLoad (a : Acc) : Bool := a.kind == .load || a.kind == .ldx
/-- A load or an atomic that returns a value. -/
def Acc.returns (a : Acc) : Bool := a.isLoad || (a.kind == .atm && a.dst != .none)

/-- The bytes of an access: one run, or the two bytes of an `ldx` element, which may lie in two pages (R278). -/
def Acc.pieces (a : Acc) : List (Nat × Nat) := if a.kind == .ldx && a.n != 1 then [(a.pa, 1), (a.data2, 1)] else [(a.pa, a.n)]
def Acc.meets (a : Acc) (pa n : Nat) : Bool := a.pieces.any fun p => overlaps p.1 p.2 pa n

/-- The release condition of a scope over the accesses issued before (R389). -/
def relHolds (s : State) (tid : Nat) (earlier : List Acc) (scope : Nat) : Bool :=
  earlier.all Acc.marker && (scope < 2 || (s.thread tid).maxw < s.time)

/-- The condition of a release fence: a speculative task's waits for its strong loads only (R124, R391). -/
def fenceHolds (s : State) (tid : Nat) (earlier : List Acc) (scope : Nat) : Bool :=
  if isSpec s (taskOf tid) then earlier.all fun b => b.marker || !(b.isLoad && b.strong) else relHolds s tid earlier scope

/-- Every load, `mon` read and returning atomic before has returned; a speculative task waits for its strong loads only (R124,
R391, R402). -/
def acqHolds (s : State) (tid : Nat) (earlier : List Acc) : Bool :=
  if isSpec s (taskOf tid) then earlier.all fun b => b.marker || !(b.isLoad && b.strong) else !earlier.any Acc.returns

/-- Fence markers whose conditions hold leave the list (R391). -/
def cleanFlight (s : State) (tid : Nat) : List Acc → List Acc → List Acc
  | kept, [] => kept
  | kept, a :: l =>
    match a.kind with
    | .relFence => cleanFlight s tid (if fenceHolds s tid kept a.scope then kept else kept ++ [a]) l
    | .acqFence => cleanFlight s tid (if acqHolds s tid kept then kept else kept ++ [a]) l
    | _ => cleanFlight s tid (kept ++ [a]) l

def clean (tid : Nat) (s : State) : State := s.onThread tid fun t => { t with flight := cleanFlight s tid [] t.flight }

/-- Two strong operations of one warp at homes of its own die perform in order, unless a store comes before a load
(R387). -/
def strongOrder (die : Nat) (x y : Acc) : Bool :=
  x.strong && y.strong && homeDie x.pa == die && homeDie y.pa == die && !(x.kind == .store && y.isLoad)

/-- Access `b`, issued before `a` or a lower lane of its instruction, holds `a` back (R271, R387, R388). -/
def holdsBack (die : Nat) (b a : Acc) : Bool :=
  b.acq || b.seq == a.seq || (b.pieces.any fun p => a.meets p.1 p.2) || strongOrder die b a

/-- What stands at place `j` among the accesses issued before `a` holds it back: an access, or a fence whose condition does not hold
yet (R391). -/
def heldBack (s : State) (die tid : Nat) (earlier : List Acc) (a : Acc) (x : Acc × Nat) : Bool :=
  match x.1.kind with
  | .relFence => !a.isLoad && !fenceHolds s tid (earlier.take x.2) x.1.scope
  | .acqFence => !acqHolds s tid (earlier.take x.2)
  | _ => holdsBack die x.1 a

/-- An engine operation issued before holds back an access to bytes that it writes, or a write to bytes that it reads,
under whatever addresses (R271), and any access to a line of a landing window that it reaches (R362). -/
def opHolds (s : State) (cid : Nat) (o : EngOp) (a : Acc) : Bool :=
  let meets := fun (r : Nat × Nat) => overlaps a.va a.n r.1 r.2 || a.pieces.any fun p => reaches s cid p.1 p.2 r
  !o.done && o.seq < a.seq && (o.wr.any meets || (!a.isLoad && o.rd.any meets) || landsWith s cid (o.rd ++ o.wr) a.pieces)

/-- A speculative task's stores are made in program order, and those that have stalled keep it after the commit (R125,
R133); the accesses of a warp to one line of a landing window reach the unit in issue order (R362). -/
def keepsOrder (s : State) (tid : Nat) (b a : Acc) : Bool :=
  ((isSpec s (taskOf tid) || b.counted) && !b.isLoad && !a.isLoad && !b.marker) ||
  (!b.marker && a.pieces.any fun p => landsAt s p.1 && b.meets (p.1 / 128 * 128) 128)

/-- Access `i` of a thread may perform now. -/
def accOrdered (s : State) (core tid i : Nat) (a : Acc) : Bool :=
  let t := s.thread tid
  let earlier := t.flight.take i
  !a.marker &&
  (earlier.zipIdx.all fun x => !heldBack s (dieOfCore core) tid earlier a x && !keepsOrder s tid x.1 a) &&
  (!a.rel || relHolds s tid earlier a.scope) &&
  (t.ops.all fun o => !opHolds s (s.taskT tid).cid o a)

/-- A store or an atomic of a speculative task is stalled, and its warp with it (R124, R125). -/
def storeStalled (s : State) (tid : Nat) : Bool :=
  (s.thread tid).flight.any fun a => !a.isLoad && !a.marker &&
    (a.counted || taskWriteBlocked s (taskOf tid) a.pa a.n)

/-- The core's L1 serves a weak load of a byte under a lease (R383, R385). -/
def l1Serves (s : State) (core tid : Nat) (a : Acc) (pa : Nat) : Bool :=
  a.isLoad && !a.strong && !landsAt s pa && (l1Find (s.core core) (lineOf pa) (viewTag s (taskOf tid)) s.time).isSome

/-- The bytes that an access takes from a home. -/
def fromHome (s : State) (core tid : Nat) (a : Acc) : List (Nat × Nat) := a.pieces.filter fun p => !l1Serves s core tid a p.1

/-- It performs at homes that answer (R412), unless its packet was dropped (R405, R406, R409). -/
def accReady (s : State) (core tid i : Nat) (a : Acc) : Bool :=
  ((fromHome s core tid a).all fun p => !dieLost s p.1) && !a.lost && accOrdered s core tid i a

/-- Its answer would come after its timeout, and be discarded; one that has waited at its home for resolution has been answered
(R410). -/
def overdue (s : State) (a : Acc) : Bool := !a.counted && a.out.any fun t => t + s.opTimeout ≤ s.time

/-- The requests that go out in this tick: those whose order lets them and that need a home, while the write of a speculative task may
be made (R404, R410). -/
def sendReady (s : State) : State :=
  { s with threads := s.threads.map fun e =>
      if e.2.flight.isEmpty then e
      else (e.1, { e.2 with flight := e.2.flight.zipIdx.map fun x =>
        if x.1.out.isNone && !(fromHome s (s.taskT e.1).core e.1 x.1).isEmpty && accOrdered s (s.taskT e.1).core e.1 x.2 x.1 &&
            (x.1.isLoad || !taskWriteBlocked s (taskOf e.1) x.1.pa x.1.n)
        then { x.1 with out := some s.time } else x.1 }) }

/-- The accesses of an instruction enter the list (R271). -/
def enqueue (l : List Acc) (s : State) : State :=
  s.onCur fun t =>
    { t with nextSeq := t.nextSeq + 1
             flight := t.flight ++ l.map fun a =>
               { a with seq := t.nextSeq, fpc := s.issue.pc, ilen := s.issue.ilen, sent := s.time } }

/-- An acquire or an acquire fence that has not taken effect holds back what an instruction does at issue (R388, R391). -/
def acqPending (t : Thread) : Bool := t.flight.any fun a => a.acq || a.kind == .acqFence
/-- A release fence whose condition does not hold yet (R391). -/
def relPending (t : Thread) : Bool := t.flight.any fun a => a.kind == .relFence

/-- A store that parked with WP_MIGRATION keeps its place until it issues again: later accesses to its bytes wait (R292). -/
def wpmBlocks (t : Thread) (va n : Nat) : Bool := t.lanes.any fun x => x.keep.any fun r => overlaps va n r.1 r.2

/-! Results (R190, R268). -/

/-- Registers of a result of `n` bytes: one, a pair or four. -/
def wordsOf (n : Nat) : Nat := if n ≤ 4 then 1 else n / 4

/-- A loaded value extended by its access type (R268). -/
def extendAcc (code v : Nat) : Nat :=
  match code with
  | 3 => ((BitVec.ofNat 8 v).signExtend 32).toNat
  | 5 => ((BitVec.ofNat 16 v).signExtend 32).toNat
  | _ => v

def wordAt (v i : Nat) : W32 := BitVec.ofNat 32 (v / 2 ^ (32 * i))

/-- A variable-latency result of `w` registers in one lane, or in the scalar registers. -/
def landResult (tid : Nat) (d : Dst) (lane w v : Nat) (s : State) : State :=
  match d with
  | .none => s
  | .s r => s.onThread tid fun t => (List.range w).foldl (fun t i => t.varS (BitVec.ofNat 6 (r + i)) (wordAt v i)) t
  | .v r => s.onThread tid fun t =>
      (List.range w).foldl (fun t i => t.varV (r + i) (1#64 <<< lane) (rowOf fun _ => wordAt v i)) t

/-- The access leaves the list. -/
def retireAcc (tid i : Nat) (s : State) : State :=
  clean tid (s.onThread tid fun t => { t with flight := t.flight.eraseIdx i })

/-- The lanes of an access: its lane, or for a uniform instruction the lanes of its `exec`, kept in `data2`. -/
def accLanes (a : Acc) : List Nat :=
  if a.kind == .ldx then [a.lane]
  else match a.dst, a.blk with
    | .s _, _ => lanesOf (BitVec.ofNat 64 a.data2)
    | _, 1 => lanesOf (BitVec.ofNat 64 a.data2)
    | _, _ => [a.lane]

/-- A lane and an access are of one instruction: of one entry into the thread's accesses, at one PC; a uniform instruction has one
access for all its lanes (R417). -/
def sameInst (x : Lane) (a : Acc) : Bool := a.blk != 1 && x.inst == a.seq && x.frec.fpc == a.fpc

/-- An access fails after issue: its lanes park with its instruction's PC, in the sub-warp of the lanes of that instruction that have
faulted before; an instruction that faults with FABRIC_LOST in several lanes is one operation (R270, R410, R412, R414, R417). -/
def failAcc (tid : Nat) (a : Acc) (cause : W8) (s : State) : State :=
  let lanes := (s.thread tid).lanes
  let live := (accLanes a).filter fun l => ((lanes.getD l {}).st != .exited)
  let first := lanes.find? fun x => x.st == .parked && sameInst x a
  let r := park tid (live.map fun l => ⟨l, cause, BitVec.ofNat 64 a.va, false⟩) a.fpc a.ilen s
  let r := if lanes.any fun x => x.st == .parked && sameInst x a && x.frec.cause == Cause.fabricLost then { r with timeouts := s.timeouts } else r
  r.onThread tid fun t =>
    { t with lanes := mapMask (maskBy live) (fun _ x => { x with inst := a.seq, sub := (first.map Lane.sub).getD x.sub }) t.lanes }

/-! Loads (R273, R278, R385). -/

/-- What a load reads: from the L1 while a lease is valid, filling it otherwise, or at the home, where a line that the L2 does not
hold comes from its stack (R273, R357, R383). -/
def loadValue (core tid : Nat) (a : Acc) (s : State) : State × Nat :=
  let tag := viewTag s (taskOf tid)
  if a.strong || landsAt s a.pa then (fillL2 (lineOf a.pa) s, viewRead s tag a.pa a.n)
  else
    match l1Find (s.core core) (lineOf a.pa) tag s.time with
    | some l => (s.onCore core (l1Use l), bytesOfLine l a.pa a.n)
    | none => (l1Fill core (lineOf a.pa) tag s, viewRead s tag a.pa a.n)

/-- The bytes of an element, loaded as a weak load loads them: at most two, the last at the address in `data2` (R278, R383). -/
def ldxRaw (core tid : Nat) (a : Acc) (s : State) : State × Nat :=
  let r := loadValue core tid { a with n := 1 } s
  if a.n = 1 then r
  else
    let q := loadValue core tid { a with pa := a.data2, n := 1 } r.1
    (q.1, r.2 + 256 * q.2)

/-- The exponent of an element's block as a task sees it: its tag's, the sideband's, or a landing window's own byte (R126,
R265, R278). -/
def ldxExp (s : State) (tag : Option Nat) (a : Acc) : Nat :=
  match fwinAt s a.pa with
  | some w => expOf s tag w a.blk a.pa
  | none => 0

/-- An element of a format window in `.f32` (R61, R64, R278): its bits from the first byte, and its block's exponent. -/
def decodeElem (s : State) (tag : Option Nat) (a : Acc) (raw : Nat) : W32 :=
  if isBfp a.fmt then
    let b := bfpBits a.fmt
    let e := ldxExp s tag a
    rne32 (bfpVal b e (bfpMant b (raw / 2 ^ a.data) 0))
  else rne32 (unpack (fmtOf (match a.fmt with
    | 8 => Ty.bf16
    | 9 => Ty.e4m3
    | _ => Ty.e5m2)) raw)

/-- The flags that a decoded load raises: rounding a BFP value to `.f32` (R64). -/
def decodeFlags (s : State) (tag : Option Nat) (a : Acc) (raw : Nat) : W32 :=
  if isBfp a.fmt then
    let b := bfpBits a.fmt
    (rnd fmtF32 .rne false (bfpVal b (ldxExp s tag a) (bfpMant b (raw / 2 ^ a.data) 0))).2
  else 0

/-- The exponent of an element's block has an uncorrectable error (R278). -/
def expPoisoned (s : State) (a : Acc) : Bool :=
  isBfp a.fmt && (fwinAt s a.pa).any fun w => poisoned s (w.scale + a.blk) 1

/-- A load performs and its result arrives (R190, R273, R278). What its L1 serves needs no home: a lost slice, or an error that stands
there, is met by a miss only (R383, R412, R466). -/
def performLoad (core tid i : Nat) (a : Acc) (s : State) : State :=
  let home := fromHome s core tid a
  if home.any fun p => sliceLost s p.1 then retireAcc tid i (failAcc tid a Cause.fabricLost s)
  else if a.bad || (home.any fun p => poisonedTo s tid p.1 p.2) || (a.kind == .ldx && expPoisoned s a) then
    retireAcc tid i (failAcc tid a Cause.ecc s)
  else if a.kind == .ldx then
    let tag := viewTag s (taskOf tid)
    let r := ldxRaw core tid a (if isBfp a.fmt then fillL2 (lineOf a.pa) s else s)
    let s := landResult tid a.dst a.lane 1 (decodeElem r.1 tag a r.2).toNat r.1
    retireAcc tid i (s.onThread tid fun t => { t with fpflags := t.fpflags ||| decodeFlags s tag a r.2 })
  else
    let r := loadValue core tid a s
    retireAcc tid i (landResult tid a.dst a.lane (wordsOf a.n) (extendAcc a.code r.2) r.1)

/-! Stores and atomics (R273, R282, R384, R385). -/

/-- The value that an atomic writes (R82, R281, R282). -/
def atomNew (aop n ty old v cmp : Nat) : Nat :=
  let m : Nat := 2 ^ (8 * n)
  let sg := fun x => if ty = 1 ∧ m / 2 ≤ x then (x : Int) - m else (x : Int)
  match aop with
  | 0 => (old + v) % m
  | 1 => if sg v < sg old then v else old
  | 2 => if sg old < sg v then v else old
  | 3 => old &&& v
  | 4 => old ||| v
  | 5 => old ^^^ v
  | 6 => v
  | 7 => if old = cmp then v else old
  | 8 => (fadd .rne (BitVec.ofNat 32 old) (BitVec.ofNat 32 v)).1.toNat
  | _ => (famax (BitVec.ofNat 32 old) (BitVec.ofNat 32 v)).toNat

/-- The host must give up a line before the home writes it (R446). -/
def hostHolds (s : State) (k pa n : Nat) : Bool := !isSpec s k && (linesOf pa n).any fun l => (s.l2line l).host
def askHost (pa n : Nat) (s : State) : State :=
  (linesOf pa n).foldl (fun s l => if (s.l2line l).host then s.onL2 l fun x => { x with biWait := true } else s) s

/-- A stalled speculative store is counted once (R125). -/
def countStall (tid i : Nat) (a : Acc) (s : State) : State :=
  if a.counted then s
  else
    noteStall (taskOf tid) a.pa a.n
      (s.onThread tid fun t => { t with flight := t.flight.modify i fun a => { a with counted := true } })

/-- The thread's largest completion time (R385). -/
def noteGwct (tid g : Nat) (s : State) : State := s.onThread tid fun t => { t with maxw := max t.maxw g }

/-- Stored data that arrives with an uncorrectable flit stands poisoned at its home, or in its tag's lines, and only a consumer faults
(R409, R466). -/
def badFlit (a : Acc) (k : Nat) (s : State) : State :=
  let bytes := (List.range a.n).map (a.pa + ·)
  if !a.bad then s
  else if isSpec s k then
    { s with spec := s.spec.map fun x => if (s.task k).tag == some x.tag then { x with bad := bytes.filter (fun b => b / 32 == x.sector) ++ x.bad } else x }
  else { s with poison := bytes ++ s.poison }

/-- A store, an atomic or a write-back performs at its home. An atomic of a task of the launch that is not speculative returns the
bytes that its tag's lines hold, as a load of it does, and writes its result at the home: R126 names loads, monitors and L1 fills, and
that an atomic reads as a load is the model's choice (R122, R126, log 31). -/
def performStore (core tid i : Nat) (a : Acc) (s : State) : State :=
  let k := taskOf tid
  if sliceLost s a.pa then retireAcc tid i (failAcc tid a Cause.fabricLost s)
  else
    match a.kind with
    | .copWb => retireAcc tid i (if landsAt s a.pa then s else pushL2 (lineOf a.pa) s)
    | .copWbinv => retireAcc tid i (if landsAt s a.pa then s else dropL2 (lineOf a.pa) (pushL2 (lineOf a.pa) s))
    | _ =>
      if taskWriteBlocked s k a.pa a.n then countStall tid i a s
      else if hostHolds s k a.pa a.n then askHost a.pa a.n s
      else if a.kind == .atm && (poisonedTo s tid a.pa a.n || a.bad) then retireAcc tid i (failAcc tid a Cause.ecc s)
      else
        let old := viewRead s (viewTag s k) a.pa a.n
        let new := if a.kind == .atm then atomNew a.aop a.n a.code old a.data a.data2 else a.data % 256 ^ a.n
        let g := taskGwct s k a.pa a.sent
        let s := badFlit a k (taskWrite k a.pa a.n new s)
        let s := l1Store core a.pa a.n new (if isSpec s k then (s.task k).tag else none) s
        let s := noteGwct tid g s
        retireAcc tid i (landResult tid a.dst a.lane (wordsOf a.n) old s)

/-! The two events (R190, R384). -/

/-- The thread of an issue unit. -/
def unitTid (s : State) (core unit : Nat) : Option Nat := tfind (s.core core).slots unit

/-- An event that takes place only when it is enabled (log 1). -/
def onlyIf (c : Bool) (f : State → State) (s : State) : Host.Outcome State Fault Refusal := .next (if c then f s else s)

/-- The access of a unit that an event names, when it may perform. -/
def readyAcc (s : State) (core unit i : Nat) (p : Acc → Bool) : Option (Nat × Acc) :=
  match unitTid s core unit with
  | none => none
  | some tid =>
    match (s.thread tid).flight[i]? with
    | none => none
    | some a => if p a && accReady s core tid i a && !overdue s a then some (tid, a) else none

def execLoadResultArrives (core unit i : Nat) (s : State) : Host.Outcome State Fault Refusal :=
  .next (match readyAcc s core unit i Acc.isLoad with
    | some (tid, a) => performLoad core tid i a s
    | none => s)

def execStorePerformed (core unit i : Nat) (s : State) : Host.Outcome State Fault Refusal :=
  .next (match readyAcc s core unit i (fun a => !a.isLoad) with
    | some (tid, a) => performStore core tid i a s
    | none => s)

/-- Pending fixed-latency results of a thread land when they are due (R188, R189). -/
def execFixedLatencyWriteback (core unit : Nat) (s : State) : Host.Outcome State Fault Refusal :=
  .next (match unitTid s core unit with
    | some tid => s.onThread tid fun t => t.land s.time
    | none => s)

/-- An L1 copy is no longer served once its lease has expired (R385). -/
def execLeaseExpiry (core line : Nat) (s : State) : Host.Outcome State Fault Refusal :=
  .next (s.onCore core fun c => { c with l1 := c.l1.filter fun x => x.line != line || s.time < x.expiry })

/-- A walk for a core's miss (R288, R289). -/
def execTlbWalk (core cid va : Nat) (s : State) : Host.Outcome State Fault Refusal :=
  .next (if va < 2 ^ 52 then (lookup core cid va s).1 else s)

end Sys2Proof.Machine
end

