-- ==== Sys2Proof/Machine/MemInstr.lean ====
section
/-!
DEFINITION. The memory instructions, OP 0x50 to 0x5E, at issue (R79, R80, R267 to R282), and the completions of the
gather class (R274, R276, R277, R393).
-/
namespace Sys2Proof.Machine

/-! Addresses (R80, R269). -/

/-- The address of a lane before UNI and the lane's offset; a scratchpad sum wraps modulo 2^32. -/
def formAddr (t : Thread) (o : MemF) (glb : Bool) (l : Nat) : W64 :=
  if glb then
    (if o.bk then t.vlane2 o.base.toNat l else t.sget2 (o.base.setWidth 6)) + o.off.signExtend 64
  else
    ((if o.bk then t.vlane o.base.toNat l else t.sget (o.base.setWidth 6)) + o.off.signExtend 32).setWidth 64

/-- x_L: a scalar base without UNI steps by n per lane (R269). -/
def laneAddr (t : Thread) (o : MemF) (glb uni : Bool) (n l : Nat) : W64 :=
  let a := formAddr t o glb l
  if o.bk || uni then a
  else if glb then a + BitVec.ofNat 64 (n * l) else (a.setWidth 32 + BitVec.ofNat 32 (n * l)).setWidth 64

def accCode (o : MemF) : Nat := o.var.toNat % 8
def accUni (o : MemF) : Bool := 8 ≤ o.var.toNat

/-- The stored data of a lane: `w` registers, the lowest first (R268). -/
def vdata (t : Thread) (r w l : Nat) : Nat :=
  (List.range w).foldl (fun v i => v + (t.vlane (r + i) l).toNat * 2 ^ (32 * i)) 0
def sdata (t : Thread) (r : SReg) (w : Nat) : Nat :=
  if w = 2 then (t.sget2 r).toNat else (t.sget r).toNat

/-! Checks (R270). -/

/-- Checks 1, 2 and 4 of a global address. -/
def checkGlobal (core cid n : Nat) (need : Need) (x : W64) (s : State) : State × (Nat ⊕ (W8 × Bool)) :=
  if !canonical x then (s, .inr (Cause.noncanonical, false))
  else if x.toNat % n ≠ 0 then (s, .inr (Cause.misaligned, false))
  else match translate core cid x.toNat need s with
    | (s, .inl pa) => (s, .inl pa)
    | (s, .inr c) => (s, .inr (c, true))

/-- Checks 2 and 3 of a scratchpad address. -/
def checkSpad (s : State) (k n : Nat) (x : Nat) : (Nat × Nat) ⊕ W8 :=
  if x % n ≠ 0 then .inr Cause.misaligned
  else match spLoc s k x n with
    | some p => .inl p
    | none => .inr Cause.bounds

/-- Lanes that pass the global checks, with address and physical address, and the faults of the others. -/
structure Checked where
  ok : List (Nat × Nat × Nat) := []
  bad : List LFault := []
  deriving DecidableEq, Repr

def checkLanes (n : Nat) (need : Need) (addr : Nat → W64) : List Nat → State → State × Checked
  | [], s => (s, {})
  | l :: ls, s =>
    match checkGlobal s.issue.core (s.curTask).cid n need (addr l) s with
    | (s, .inl pa) =>
      let r := checkLanes n need addr ls s
      (r.1, { r.2 with ok := (l, (addr l).toNat, pa) :: r.2.ok })
    | (s, .inr (c, tr)) =>
      let r := checkLanes n need addr ls s
      (r.1, { r.2 with bad := ⟨l, c, addr l, tr⟩ :: r.2.bad })

/-- Something before the instruction keeps it from issuing: an earlier acquire, a store fence, or a store held for a
migration (R292, R388, R391). -/
def issueHeld (t : Thread) (rel : Bool) (addr : Nat → W64) (lanes : List Nat) (n : Nat) : Bool :=
  acqPending t || (rel && relPending t) || lanes.any fun l => wpmBlocks t (addr l).toNat n

/-! Global loads and stores (R273). -/

def strongOf (o : MemF) : Bool := o.ord != 0

/-- The accesses of the lanes that pass enter the list, and the others park. -/
def loadLanes (h : Head) (o : MemF) (s : State) : State :=
  let n := accBytes (accCode o)
  let addr := laneAddr s.cur o true (accUni o) n
  let lanes := lanesOf (execMask h s)
  if lanes.any fun l => wpmBlocks s.cur (addr l).toNat n then stall s
  else
    let r := checkLanes n .read addr lanes s
    let accs := r.2.ok.map fun (l, va, pa) =>
      { seq := 0, lane := l, kind := .load, va := va, pa := pa, n := n, code := accCode o, dst := .v o.data.toNat,
        strong := strongOf o, acq := o.ord == 2, scope := o.scope.toNat : Acc }
    parkCur h r.2.bad (enqueue accs (advance h r.1))

def execVld (h : Head) (o : MemF) (s : State) : Host.Outcome State Fault Refusal := uniform h (loadLanes h o) s

def storeLanes (h : Head) (o : MemF) (s : State) : State :=
  let n := accBytes (accCode o)
  let t := s.cur
  let addr := laneAddr t o true (accUni o) n
  let lanes := lanesOf (execMask h s)
  if lanes.any fun l => wpmBlocks t (addr l).toNat n then stall s
  else
    let r := checkLanes n .write addr lanes s
    let accs := r.2.ok.map fun (l, va, pa) =>
      { seq := 0, lane := l, kind := .store, va := va, pa := pa, n := n, data := vdata t o.data.toNat (wordsOf n) l,
        strong := strongOf o, rel := o.ord == 3, scope := o.scope.toNat : Acc }
    parkCur h r.2.bad (enqueue accs (advance h r.1))

def execVst (h : Head) (o : MemF) (s : State) : Host.Outcome State Fault Refusal := uniform h (storeLanes h o) s

/-- A scalar load or store: one access, whose fault parks every lane of `exec` (R270, R273). -/
def scalarAccess (h : Head) (o : MemF) (store : Bool) (s : State) : State :=
  let n := accBytes (accCode o)
  let t := s.cur
  let x := formAddr t o true 0
  let m := execMask h s
  if wpmBlocks t x.toNat n then stall s
  else
    match checkGlobal s.issue.core (s.curTask).cid n (if store then .write else .read) x s with
    | (s, .inr (c, tr)) => faultAll h c x tr s
    | (s, .inl pa) =>
      let a : Acc := { seq := 0, lane := lowLane m, kind := if store then .store else .load, va := x.toNat, pa := pa, n := n
                       code := accCode o, dst := if store then .none else .s o.data.toNat, blk := 1, data2 := m.toNat
                       data := if store then sdata t (o.data.setWidth 6) (wordsOf n) else 0
                       strong := strongOf o, acq := !store && o.ord == 2, rel := store && o.ord == 3
                       scope := o.scope.toNat }
      enqueue [a] (advance h s)

def execSld (h : Head) (o : MemF) (s : State) : Host.Outcome State Fault Refusal := uniform h (scalarAccess h o false) s
def execSst (h : Head) (o : MemF) (s : State) : Host.Outcome State Fault Refusal := uniform h (scalarAccess h o true) s

/-! Scratchpad (R257, R275). -/

/-- An outstanding engine operation writes scratchpad bytes that the instruction reaches (R271). -/
def spadHeld (t : Thread) (x n : Nat) : Bool := t.ops.any fun o => !o.done && o.wsp.any fun r => overlaps x n r.1 r.2

/-- An outstanding engine operation other than a scatter or a copy reads scratchpad bytes that a store reaches (R271). -/
def spadRead (t : Thread) (x n : Nat) : Bool := t.ops.any fun o => !o.done && o.rsp.any fun r => overlaps x n r.1 r.2

/-- A thread's scratchpad access may be made now. -/
def spadMay (t : Thread) (store : Bool) (addr : Nat → W64) (lanes : List Nat) (n : Nat) : Bool :=
  !acqPending t && !(store && relPending t) &&
    !(lanes.any fun l => spadHeld t (addr l).toNat n || (store && spadRead t (addr l).toNat n))

/-- The lanes' checks against a task's scratchpad. -/
def spadLanes (s : State) (k n : Nat) (addr : Nat → W64) (lanes : List Nat) : List (Nat × Nat × Nat) × List LFault :=
  lanes.foldr (fun l r => match checkSpad s k n (addr l).toNat with
    | .inl p => ((l, p.1, p.2) :: r.1, r.2)
    | .inr c => (r.1, ⟨l, c, addr l, false⟩ :: r.2)) ([], [])

/-- Check 5 for scratchpad loads: lanes whose bytes have an uncorrectable error fault (R270, R466). -/
def spadSound (s : State) (n : Nat) (addr : Nat → W64) (r : List (Nat × Nat × Nat) × List LFault) :
    List (Nat × Nat × Nat) × List LFault :=
  (r.1.filter fun e => !spPoisoned s (e.2.1, e.2.2) n,
   r.2 ++ (r.1.filter fun e => spPoisoned s (e.2.1, e.2.2) n).map fun e => ⟨e.1, Cause.ecc, addr e.1, false⟩)

def ldsLanes (h : Head) (o : MemF) (s : State) : State :=
  let n := accBytes (accCode o)
  let addr := laneAddr s.cur o false (accUni o) n
  let lanes := lanesOf (execMask h s)
  if !spadMay s.cur false addr lanes n then stall s
  else
    let r := spadSound s n addr (spadLanes s (taskOf s.issue.tid) n addr lanes)
    let read := r.1.map fun (l, k, a) => (l, extendAcc (accCode o) (spRead s (k, a) n))
    parkCur h r.2 (read.foldl (fun s (l, v) => landResult s.issue.tid (.v o.data.toNat) l (wordsOf n) v s) (advance h s))

def execLds (h : Head) (o : MemF) (s : State) : Host.Outcome State Fault Refusal := uniform h (ldsLanes h o) s

def stsLanes (h : Head) (o : MemF) (s : State) : State :=
  let n := accBytes (accCode o)
  let t := s.cur
  let addr := laneAddr t o false (accUni o) n
  let lanes := lanesOf (execMask h s)
  if !spadMay t true addr lanes n then stall s
  else
    let r := spadLanes s (taskOf s.issue.tid) n addr lanes
    parkCur h r.2 (r.1.foldl (fun s (l, k, a) => spWrite (k, a) n (vdata t o.data.toNat (wordsOf n) l % 256 ^ n) s) (advance h s))

def execSts (h : Head) (o : MemF) (s : State) : Host.Outcome State Fault Refusal := uniform h (stsLanes h o) s

/-! Engine operations of a thread (R393). -/

def classCount (t : Thread) (c : Nat) : Nat := (t.ops.filter fun o => o.cls == c).length

/-- An engine operation may not issue: an earlier acquire or store fence, or a full counter (R388, R391, R393). -/
def opHeld (t : Thread) (c : Nat) : Bool := acqPending t || relPending t || 63 ≤ classCount t c

/-- An operation enters the thread's list, in its place among the thread's accesses (R271, R393). -/
def pushOp (o : EngOp) (s : State) : State :=
  let r := s.fresh
  r.2.onCur fun t => { t with ops := t.ops ++ [{ o with id := r.1, seq := t.nextSeq, pc := r.2.issue.pc, ilen := r.2.issue.ilen, at' := s.time }], nextSeq := t.nextSeq + 1 }

/-- Completions are reported in issue order within a class (R393). -/
def reportOps : List EngOp → List Nat → List EngOp
  | [], _ => []
  | o :: l, blocked =>
    if o.done && !blocked.contains o.cls then reportOps l blocked else o :: reportOps l (o.cls :: blocked)

def completeOp (tid id : Nat) (s : State) : State :=
  s.onThread tid fun t =>
    { t with ops := reportOps (t.ops.map fun o => if o.id == id then { o with done := true } else o) [] }

/-- An engine fault stays pending with the issuer; the first of a class is kept (R305, R396). -/
def pendFaultOf (tid c : Nat) (cause : W8) (addr : W64) (s : State) : State :=
  (countLost cause s).onThread tid fun t => if thas t.pendFault c then t else { t with pendFault := tput t.pendFault c (cause, addr), pendAt := tput t.pendAt c s.time }

/-! Gathers and scatters (R274). -/

def gatherLanes (h : Head) (o : MemF) (scatter : Bool) (s : State) : State :=
  let n := accBytes (accCode o)
  let t := s.cur
  let d := (t.sget (o.data.setWidth 6)).toNat
  let addr := laneAddr t o true false n
  let lanes := lanesOf (execMask h s)
  if opHeld t 2 || (lanes.any fun l => wpmBlocks t (addr l).toNat n) then stall s
  else
    let r := checkLanes n (if scatter then .write else .read) addr lanes s
    let sp := spadLanes s (taskOf s.issue.tid) n (fun l => BitVec.ofNat 64 (d + n * l)) (r.2.ok.map fun e => e.1)
    let good : List GLane := r.2.ok.filterMap fun (l, va, pa) =>
      if sp.2.any fun f => f.lane == l then none else some ⟨l, va, pa, d + n * l, 0⟩
    let spr := good.map fun g => (g.off, n)
    let glr := good.map fun g => (g.va, n)
    let s := advance h r.1
    let s := if good.isEmpty then s
      else pushOp { id := 0, cls := 2, kind := if scatter then .vsct good n else .vgth good n
                    rd := if scatter then [] else glr, wr := if scatter then glr else []
                    wsp := if scatter then [] else spr } s
    parkCur h (r.2.bad ++ sp.2) s

def execVgth (h : Head) (o : MemF) (s : State) : Host.Outcome State Fault Refusal := uniform h (gatherLanes h o false) s
def execVsct (h : Head) (o : MemF) (s : State) : Host.Outcome State Fault Refusal := uniform h (gatherLanes h o true) s

/-! Gang members (R276, R277). -/

/-- Member `m` of a gang, when it exists. -/
def memberTask (s : State) (g m : Nat) : Option Nat := (s.gang g).members[m]?
def hasExited (s : State) (k : Nat) : Bool := (s.task k).st == .done || (s.task k).st == .dead

/-- A gang access: the checks of the member in their order, then the lanes (R276). -/
def gangLanes (h : Head) (o : MemF) (store : Bool) (s : State) : State :=
  let m := o.var.toNat
  let t := s.cur
  let lanes := lanesOf (execMask h s)
  let addr := fun l => formAddr t o false l
  let each := if o.bk then addr else fun l => ((addr l).setWidth 32 + BitVec.ofNat 32 (4 * l)).setWidth 64
  match (s.curTask).gang with
  | none => faultAll h Cause.permission 0 false s
  | some (g, _) =>
    if (s.launch (s.gang g).launch).gsize ≤ m then faultAll h Cause.bounds 0 false s
    else
      match memberTask s g m with
      | none => stall (s.onCur fun t => { t with wait := .member m })
      | some k =>
        if hasExited s k then faultAll h Cause.gangMemberExited 0 false s
        else if (s.task k).st == .staged then stall (s.onCur fun t => { t with wait := .member m })
        else if opHeld t 2 then stall s
        else
          let r := spadLanes s k 4 each lanes
          let gl : List GLane := r.1.map fun (l, _, a) => ⟨l, 0, 0, a, (t.vlane o.data.toNat l).toNat⟩
          let s := advance h s
          let own := if k = taskOf s.issue.tid then gl.map fun g => (g.off, 4) else []
          let s := pushOp { id := 0, cls := 2, kind := if store then .gst k gl else .gld k o.data.toNat gl
                            wsp := if store then own else [], rsp := if store then [] else own } s
          parkCur h r.2 s

def execGld (h : Head) (o : MemF) (s : State) : Host.Outcome State Fault Refusal := uniform h (gangLanes h o false) s
def execGst (h : Head) (o : MemF) (s : State) : Host.Outcome State Fault Refusal := uniform h (gangLanes h o true) s

/-- `mst`: a delivery to every member's mirrored window (R277). -/
def mirrorLanes (h : Head) (o : MemF) (s : State) : State :=
  let n := accBytes (accCode o)
  let t := s.cur
  let k := taskOf s.issue.tid
  let size := (s.task k).size
  let addr := laneAddr t o false (accUni o) n
  let lanes := lanesOf (execMask h s)
  match (s.task k).gang with
  | none => faultAll h Cause.permission 0 false s
  | some (g, _) =>
    if opHeld t 2 then stall s
    else
      let check := fun l => let x := (addr l).toNat
        if x % n ≠ 0 || x < size / 2 || size < x + n then some Cause.bounds else none
      let good : List GLane := (lanes.filter fun l => (check l).isNone).map fun l =>
        ⟨l, 0, 0, (addr l).toNat, vdata t o.data.toNat (wordsOf n) l % 256 ^ n⟩
      let bad := lanes.filterMap fun l => (check l).map fun c => (⟨l, c, addr l, false⟩ : LFault)
      let s := advance h s
      let s := pushOp { id := 0, cls := 2, kind := .mst good n (s.gang g).members
                        wsp := good.map fun x => (x.off, n) } s
      parkCur h bad s

def execMst (h : Head) (o : MemF) (s : State) : Host.Outcome State Fault Refusal := uniform h (mirrorLanes h o) s

/-! Decoded loads (R278). -/

/-- Bytes and bits of an element, and the byte unit that must be aligned (R278). -/
def elemUnit (f : Nat) : Nat := if isBfp f then 4 * bfpBits f else if f = 8 then 2 else 1
def elemBits (f : Nat) : Nat := if isBfp f then bfpBits f else if f = 8 then 16 else 8

/-- Bit offset of element `l` from the first. -/
def elemBit (f l : Nat) : Nat := elemBits f * l

/-- The access of one lane of `ldx`, or its fault. -/
def ldxLane (w : FWin) (x pa0 : Nat) (d l : Nat) (s : State) : State × (Acc ⊕ LFault) :=
  let bitOff := elemBit w.fmt l
  let first := bitOff / 8
  let n := (bitOff % 8 + elemBits w.fmt + 7) / 8
  if w.limit < pa0 + first + n then (s, .inr ⟨l, Cause.bounds, BitVec.ofNat 64 (x + first), false⟩)
  else
    match translate s.issue.core (s.curTask).cid (x + first) .read s with
    | (s, .inr c) => (s, .inr ⟨l, c, BitVec.ofNat 64 (x + first), true⟩)
    | (s, .inl pa) =>
      match translate s.issue.core (s.curTask).cid (x + first + n - 1) .read s with
      | (s, .inr c) => (s, .inr ⟨l, c, BitVec.ofNat 64 (x + first + n - 1), true⟩)
      | (s, .inl pb) =>
        (s, .inl { seq := 0, lane := l, kind := .ldx, va := x + first, pa := pa, n := n, data := bitOff % 8, data2 := pb, dst := .v d
                   fmt := w.fmt, blk := (pa0 - w.base) / elemUnit w.fmt + (if isBfp w.fmt then l / 32 else l) })

def ldxLanes (h : Head) (o : MemF) (s : State) : State :=
  let x := formAddr s.cur o true 0
  let lanes := lanesOf (execMask h s)
  if wpmBlocks s.cur x.toNat 256 then stall s
  else
    match checkGlobal s.issue.core (s.curTask).cid 1 .read x s with
    | (s, .inr (c, tr)) => faultAll h c x tr s
    | (s, .inl pa) =>
      match fwinAt s pa with
      | none => faultAll h Cause.formatMismatch x false s
      | some w =>
        if (pa - w.base) % elemUnit w.fmt ≠ 0 then faultAll h Cause.misaligned x false s
        else
          let r := lanes.foldl (fun (z : State × List Acc × List LFault) l =>
            match ldxLane w x.toNat pa o.data.toNat l z.1 with
            | (s, .inl a) => (s, z.2.1 ++ [a], z.2.2)
            | (s, .inr f) => (s, z.2.1, z.2.2 ++ [f])) (s, [], [])
          parkCur h r.2.2 (enqueue r.2.1 (advance h r.1))

def execLdx (h : Head) (o : MemF) (s : State) : Host.Outcome State Fault Refusal := uniform h (ldxLanes h o) s

/-! Prefetch and cache operations (R279, R280). -/

/-- The addresses of a line instruction: one with BK 0, otherwise one per lane. -/
def lineAddrs (h : Head) (o : MemF) (s : State) : List (Nat × W64) :=
  let lanes := lanesOf (execMask h s)
  if o.bk then lanes.map fun l => (l, formAddr s.cur o true l)
  else [(lanes.headD 0, formAddr s.cur o true 0)]

/-- Addresses that translate for a read, as physical addresses; the others are dropped. -/
def lineTranslate : List (Nat × W64) → State → State × List Nat
  | [], s => (s, [])
  | x :: l, s =>
    match checkGlobal s.issue.core (s.curTask).cid 1 .read x.2 s with
    | (s, .inl pa) => let r := lineTranslate l s
      (r.1, pa :: r.2)
    | (s, .inr _) => lineTranslate l s

def execCpf (h : Head) (o : MemF) (s : State) : Host.Outcome State Fault Refusal :=
  plain h (fun s =>
    let r := lineTranslate (lineAddrs h o s) s
    r.2.foldl (fun s pa => if landsAt s pa || homeGone s pa || poisonedTo s s.issue.tid pa 1 then s
      else if o.var = 0 then l1Fill s.issue.core (lineOf pa) (viewTag s (taskOf s.issue.tid)) s else fillL2 (lineOf pa) s) r.1) s

def execCopInv (h : Head) (o : MemF) (s : State) : Host.Outcome State Fault Refusal :=
  plain h (fun s =>
    let r := lineTranslate (lineAddrs h o s) s
    r.2.foldl (fun s pa => l1Drop s.issue.core (some (lineOf pa)) s) r.1) s

def execCopInvall (h : Head) (_ : MemF) (s : State) : Host.Outcome State Fault Refusal :=
  plain h (fun s => l1Drop s.issue.core none s) s

/-- `cop.wb` and `cop.wbinv`: strong operations that a speculative task stalls on (R272, R280). -/
def copLanes (h : Head) (o : MemF) (kind : AccKind) (s : State) : State :=
  if isSpec s (taskOf s.issue.tid) then stall s
  else
    let xs := lineAddrs h o s
    let m := execMask h s
    if o.bk then
      let r := checkLanes 1 .read (fun l => formAddr s.cur o true l) (lanesOf m) s
      let accs := r.2.ok.map fun (l, va, pa) =>
        { seq := 0, lane := l, kind := kind, va := va / 128 * 128, pa := pa / 128 * 128, n := 128, strong := true : Acc }
      parkCur h r.2.bad (enqueue accs (advance h r.1))
    else
      let x := (xs.headD (0, 0)).2
      match checkGlobal s.issue.core (s.curTask).cid 1 .read x s with
      | (s, .inr (c, tr)) => faultAll h c x tr s
      | (s, .inl pa) =>
        enqueue [{ seq := 0, lane := lowLane m, kind := kind, va := x.toNat / 128 * 128, pa := pa / 128 * 128, n := 128
                   strong := true, blk := 1, data2 := m.toNat : Acc }] (advance h s)

def execCopWb (h : Head) (o : MemF) (s : State) : Host.Outcome State Fault Refusal := uniform h (copLanes h o .copWb) s
def execCopWbinv (h : Head) (o : MemF) (s : State) : Host.Outcome State Fault Refusal := uniform h (copLanes h o .copWbinv) s

/-! Atomics (R281, R282). -/

def atomBytes (o : MemF) : Nat := if o.var.toNat % 4 = 2 then 8 else 4

/-- The operands of a lane: the value, and for `cas` the compare value before it. -/
def atomArgs (t : Thread) (f : AtmFn) (o : MemF) (l : Nat) : Nat × Nat :=
  let w := wordsOf (atomBytes o)
  if f.aop = 7 then (vdata t (o.data.toNat + w) w l, vdata t o.data.toNat w l) else (vdata t o.data.toNat w l, 0)

/-- A scratchpad atomic is performed at once in the core's order (R257, R282). -/
def atomSpad (h : Head) (f : AtmFn) (o : MemF) (s : State) : State :=
  let n := atomBytes o
  let t := s.cur
  let addr := fun l => formAddr t o false l
  let lanes := lanesOf (execMask h s)
  if !spadMay t true addr lanes n then stall s
  else
    let r := spadSound s n addr (spadLanes s (taskOf s.issue.tid) n addr lanes)
    let one := fun (s : State) (e : Nat × Nat × Nat) =>
      let old := spRead s (e.2.1, e.2.2) n
      let a := atomArgs t f o e.1
      let s := spWrite (e.2.1, e.2.2) n (atomNew f.aop.toNat n (o.var.toNat % 4) old a.1 a.2) s
      if f.ret then landResult s.issue.tid (.v o.data.toNat) e.1 (wordsOf n) old s else s
    parkCur h r.2 (r.1.foldl one (advance h s))

/-- A global atomic; one of a speculative task outside its root's arena slot stalls (R124, R127). -/
def atomGlobal (h : Head) (f : AtmFn) (o : MemF) (s : State) : State :=
  let n := atomBytes o
  let t := s.cur
  let k := taskOf s.issue.tid
  let addr := fun l => formAddr t o true l
  let lanes := lanesOf (execMask h s)
  if lanes.any fun l => wpmBlocks t (addr l).toNat n then stall s
  else if isSpec s k && (lanes.any fun l => canonical (addr l) && !inArena s k (addr l).toNat n) then stall s
  else
    let r := checkLanes n .write addr lanes s
    let accs := r.2.ok.map fun (l, va, pa) =>
      { seq := 0, lane := l, kind := .atm, va := va, pa := pa, n := n, data := (atomArgs t f o l).1
        data2 := (atomArgs t f o l).2, aop := f.aop.toNat, code := o.var.toNat % 4
        dst := if f.ret then .v o.data.toNat else .none, strong := true, acq := o.ord == 0 || o.ord == 2
        rel := o.ord == 0 || o.ord == 3, scope := o.scope.toNat : Acc }
    parkCur h r.2.bad (enqueue accs (advance h r.1))

def execAtm (h : Head) (f : AtmFn) (o : MemF) (s : State) : Host.Outcome State Fault Refusal :=
  uniform h (fun s => if f.glb then atomGlobal h f o s else atomSpad h f o s) s

/-! Completions of the gather class. -/

/-- The operation at a place of a thread's list, while its task goes on (R431). -/
def opAt (s : State) (tid idx : Nat) : Option EngOp := if halted s (taskOf tid) then none else (s.thread tid).ops[idx]?

/-- An operation none of whose packets was lost acts (R410); its bytes wait for the thread's earlier accesses to them, and for its
earlier operations that write them (R271), and its lines of landing windows for all of these that reach them (R362). -/
def opReady (s : State) (tid : Nat) (o : EngOp) : Bool :=
  let t := s.thread tid
  let cid := (s.taskT tid).cid
  let meets := fun (a : Acc) (r : Nat × Nat) => overlaps a.va a.n r.1 r.2 || a.pieces.any fun p => reaches s cid p.1 p.2 r
  let both := fun (x y : Nat × Nat) => overlaps x.1 x.2 y.1 y.2 || rangesMeet s cid x y
  let lands := fun (ps : List (Nat × Nat)) => landsWith s cid (o.rd ++ o.wr) ps
  o.lost.isNone &&
  (t.flight.all fun a => a.marker || o.seq < a.seq ||
    ((o.rd.all fun r => !meets a r || a.isLoad) && (o.wr.all fun r => !meets a r) && !lands a.pieces)) &&
  t.ops.all fun b => b.done || o.seq ≤ b.seq ||
    ((b.wr.all fun x => (o.rd ++ o.wr).all fun y => !both x y) && !lands ((b.rd ++ b.wr).flatMap (runsOf s cid)) &&
     (b.rd.all fun x => o.wr.all fun y => !both x y) &&
     (b.wsp.all fun x => (o.rsp ++ o.wsp).all fun y => !overlaps x.1 x.2 y.1 y.2) &&
     (b.rsp.all fun x => o.wsp.all fun y => !overlaps x.1 x.2 y.1 y.2))

/-- Accesses of one warp to one member are performed in issue order: no earlier gang operation of the thread that
reaches the same task is outstanding (R276, R277). -/
def memberOf : EngKind → Option Nat
  | .gld k _ _ => some k
  | .gst k _ => some k
  | _ => none

def gangOrder (t : Thread) (o : EngOp) (k : Nat) : Bool :=
  t.ops.all fun b => b.done || o.seq ≤ b.seq ||
    (memberOf b.kind != some k && (match b.kind with
      | .mst _ _ todo => !todo.contains k
      | _ => true))

/-- An operation whose stall has been counted, or whose fault is held. -/
def markOp (tid id : Nat) (s : State) : State :=
  s.onThread tid fun t => { t with ops := t.ops.map fun o => if o.id == id then { o with counted := true } else o }

/-- An uncorrectable error in data in flight or in the scratchpad that an operation reads, at `a`, is fatal, and a speculative task's is held,
unreported, with the operation outstanding (R128, R274, R430). -/
def fatalEcc (tid : Nat) (o : EngOp) (a : Nat) (s : State) : State :=
  let c : DumpCause := ⟨Cause.ecc, 0, 0xFF, warpOf tid, s.time, BitVec.ofNat 64 a⟩
  if isSpec s (taskOf tid) then
    if o.counted then s
    else markOp tid o.id (s.onTask (taskOf tid) fun k => { k with heldFatal := k.heldFatal ++ [c] })
  else completeOp tid o.id (addCauses (taskOf tid) [c] s)

/-- The bytes of a gather are read at their homes and enter the scratchpad (R274, R357). -/
def doGather (tid : Nat) (o : EngOp) (lanes : List GLane) (n : Nat) (s : State) : State :=
  match lanes.find? fun g => poisonedTo s tid g.pa n with
  | some g => fatalEcc tid o g.va s
  | none =>
    completeOp tid o.id (lanes.foldl (fun s g => match spLoc s (taskOf tid) g.off n with
      | some p => spWrite p n (viewRead s (viewTag s (taskOf tid)) g.pa n) (fillL2 (lineOf g.pa) s)
      | none => s) s)

/-- The lanes of a scatter written in order, each as the ones before it leave the lines, with the largest completion time;
none while one of them must wait (R125, R274). -/
def scatterFrom (core k n issued : Nat) : List GLane → State → Nat → Option (State × Nat)
  | [], s, g => some (s, g)
  | x :: l, s, g =>
    if taskWriteBlocked s k x.pa n then none
    else match spLoc s k x.off n with
      | some p =>
        let v := spRead s p n
        scatterFrom core k n issued l
          (l1Store core x.pa n v (if isSpec s k then (s.task k).tag else none) (taskWrite k x.pa n v s))
          (max g (taskGwct s k x.pa issued))
      | none => scatterFrom core k n issued l s g

/-- The bytes of a scatter are performed at their homes; the last lane's GWCT ends the wait, and a stall of a speculative
one is counted once (R125, R274, R393). -/
def doScatter (core tid : Nat) (o : EngOp) (lanes : List GLane) (n : Nat) (s : State) : State :=
  let k := taskOf tid
  match scatterFrom core k n o.at' lanes s 0 with
  | none =>
    (match o.counted, lanes.find? fun g => taskWriteBlocked s k g.pa n with
     | false, some g => markOp tid o.id (noteStall k g.pa n s)
     | false, none => markOp tid o.id { s with waystall := s.waystall + 1 }
     | _, _ => s)
  | some (s, g) =>
    s.onThread tid fun t =>
      { t with maxw := max t.maxw g
               ops := t.ops.map fun q => if q.id == o.id then { q with gwct := g, kind := .vsct [] n, wr := [], rd := [] } else q }

/-- A gather-class operation takes effect, or a scatter whose bytes have performed completes once device time has
passed its completion time (R274, R276, R393). -/
def gthStep (core tid : Nat) (o : EngOp) (s : State) : State :=
  let t := s.thread tid
  let k := taskOf tid
  if o.done || !opReady s tid o then s
  else
    match o.kind with
    | .vgth lanes n => if lanes.any fun g => homeGone s g.pa then
        completeOp tid o.id (pendFaultOf tid 2 Cause.fabricLost (BitVec.ofNat 64 ((lanes.map GLane.va).headD 0)) s)
      else doGather tid o lanes n s
    | .vsct [] _ => if o.gwct < s.time then completeOp tid o.id s else s
    | .vsct lanes n =>
      if lanes.any fun g => homeGone s g.pa then
        completeOp tid o.id (pendFaultOf tid 2 Cause.fabricLost (BitVec.ofNat 64 ((lanes.map GLane.va).headD 0)) s)
      else if lanes.any fun g => hostHolds s k g.pa n then lanes.foldl (fun s g => askHost g.pa n s) s
      else match lanes.find? fun g => (spLoc s k g.off n).any fun p => spPoisoned s p n with
        | some g => fatalEcc tid o g.va s
        | none => doScatter core tid o lanes n s
    | .gld m d lanes =>
      if !gangOrder t o m then s
      else if hasExited s m then
        completeOp tid o.id (park tid (lanes.map fun g => ⟨g.lane, Cause.gangMemberExited, 0, false⟩) o.pc o.ilen s)
      else match lanes.find? fun g => spPoisoned s (m, g.off) 4 with
        | some g => fatalEcc tid o g.off s
        | none => completeOp tid o.id (lanes.foldl (fun s g =>
          landResult tid (.v d) g.lane 1 (bytesAt (s.task m).spad g.off 4) s) s)
    | .gst m lanes =>
      if !gangOrder t o m then s
      else if hasExited s m then
        completeOp tid o.id (park tid (lanes.map fun g => ⟨g.lane, Cause.gangMemberExited, 0, false⟩) o.pc o.ilen s)
      else completeOp tid o.id (lanes.foldl (fun s g => spWrite (m, g.off) 4 g.data s) s)
    | .mst _ _ [] => completeOp tid o.id s
    | _ => s

def execGthComplete (core unit idx : Nat) (s : State) : Host.Outcome State Fault Refusal :=
  .next (match unitTid s core unit with
    | none => s
    | some tid => match opAt s tid idx with
      | some o => gthStep core tid o s
      | none => s)

/-- One member takes its delivery of a mirrored store, or drops it (R277). -/
def mirrorStep (tid : Nat) (o : EngOp) (member : Nat) (s : State) : State :=
  match o.kind with
  | .mst lanes n todo =>
    if o.done || !todo.contains member || !opReady s tid o || !gangOrder (s.thread tid) o member then s
    else
      let s := s.onThread tid fun t => { t with ops := t.ops.map fun q =>
        if q.id == o.id then { q with kind := .mst lanes n (todo.erase member) } else q }
      if hasExited s member then
        (match (s.taskT tid).gang with
         | some (g, _) => s.setGang g { s.gang g with errs := (s.gang g).errs + 1 }
         | none => s)
      else lanes.foldl (fun s g => spWrite (member, g.off) n g.data s) s
  | _ => s

def execMstDelivery (core unit idx member : Nat) (s : State) : Host.Outcome State Fault Refusal :=
  .next (match unitTid s core unit with
    | none => s
    | some tid => match opAt s tid idx with
      | some o => mirrorStep tid o member s
      | none => s)

end Sys2Proof.Machine
end

