-- ==== Sys2Proof/Machine/Sync.lean ====
section
/-!
DEFINITION. Order and synchronisation: `fence`, `wcnt`, `bar`, `gbar`, `mon`, `mwait` and the events that end their
waits (R391 to R401).
-/
namespace Sys2Proof.Machine

/-! Fences (R391). -/

def marker (kind : AccKind) (sc : BitVec 3) : Acc := { seq := 0, kind := kind, scope := sc.toNat }

/-- A release fence stands among the accesses until its condition holds; an acquire fence until the loads before it have
returned (R391). -/
def execFenceRel (h : Head) (sc : BitVec 3) (s : State) : Host.Outcome State Fault Refusal :=
  plain h (fun s => clean s.issue.tid (enqueue [marker .relFence sc] s)) s
def execFenceAcq (h : Head) (sc : BitVec 3) (s : State) : Host.Outcome State Fault Refusal :=
  plain h (fun s => clean s.issue.tid (enqueue [marker .acqFence sc] s)) s
/-- `fence.sc` issues when both conditions hold (R391). -/
def execFenceSc (h : Head) (sc : BitVec 3) (s : State) : Host.Outcome State Fault Refusal :=
  uniform h (fun s =>
    let f := s.cur.flight
    if fenceHolds s s.issue.tid f sc.toNat && acqHolds s s.issue.tid f then advance h s else stall s) s

/-! `wcnt` (R395, R396). -/

/-- The lowest selected class with a pending fault. -/
def firstPending (t : Thread) (m : BitVec 6) : Option (Nat × W8 × W64) :=
  (t.pendFault.find? fun e => m.getLsbD e.1).map fun e => (e.1, e.2.1, e.2.2)

/-- The classes are looked at once, before the wait: a fault that comes while the `wcnt` waits belongs to a later one (R396, log
46). -/
def execWcnt (h : Head) (m n : BitVec 6) (s : State) : Host.Outcome State Fault Refusal :=
  uniform h (fun s =>
    match if s.cur.wait == .counters s.issue.pc then none else firstPending s.cur m with
    | some (c, cause, addr) => faultAll h cause addr false (s.onCur fun t => { t with pendFault := tdel t.pendFault c })
    | none =>
      if (List.range 6).all fun c => !m.getLsbD c || classCount s.cur c ≤ n.toNat then advance h s
      else stall (s.onCur fun t => { t with wait := .counters s.issue.pc })) s

/-! Barriers (R397, R398). -/

/-- The participants of a team's barrier: its warps that have not retired, and its context while it has not ended (R397). -/
def participants (s : State) (k : Nat) : List Nat :=
  (s.tids k).filter fun i =>
    let t := s.thread i
    !t.retired && !(isSeq i && !t.lanes.isEmpty && t.lanes.all fun x => x.st == .exited)

def unwait (t : Thread) : Thread := { t with wait := .none }

/-- The phase completes when every participant has arrived, and every waiting one is released (R397). -/
def barCheck (k : Nat) (s : State) : State :=
  let here := (s.task k).barHere
  if here.isEmpty || !((participants s k).all here.contains) then s
  else
    let s := here.foldl (fun s i => s.onThread i fun t => match t.wait with
      | .bar _ => unwait t
      | _ => t) s
    s.onTask k fun t => { t with barHere := [], barPhase := t.barPhase + 1 }

def execBar (h : Head) (s : State) : Host.Outcome State Fault Refusal :=
  uniform h (fun s =>
    let tid := s.issue.tid
    let k := taskOf tid
    if !relHolds s tid s.cur.flight 0 || relPending s.cur then stall s
    else
      let s := advance h s
      let s := s.onCur fun t => { t with wait := .bar (s.task k).barPhase, since := s.time }
      barCheck k (s.onTask k fun t => { t with barHere := t.barHere ++ [tid] })) s

/-- A member's warps that have not retired. -/
def liveWarps (s : State) (k : Nat) : List Nat := (participants s k).filter fun i => !isSeq i

/-- A gang's phase completes when every member has arrived or exited; its warps receive the error count (R398). -/
def gbarCheck (g : Nat) (s : State) : State :=
  let x := s.gang g
  if x.here.isEmpty ||
     !(x.members.all fun k => hasExited s k || ((s.task k).st != .staged && (liveWarps s k).all x.here.contains)) then s
  else
    let s := x.here.foldl (fun s i => s.onThread i fun t => match t.wait with
      | .gbar d _ => unwait (t.varS d (BitVec.ofNat 32 x.errs))
      | _ => t) s
    s.setGang g { x with here := [], errs := 0, phase := x.phase + 1 }

def execGbar (h : Head) (d : SReg) (s : State) : Host.Outcome State Fault Refusal :=
  uniform h (fun s =>
    let tid := s.issue.tid
    match (s.taskT tid).gang with
    | none => faultAll h Cause.permission 0 false s
    | some (g, _) =>
      if !relHolds s tid s.cur.flight 2 || relPending s.cur || classCount s.cur 2 != 0 then stall s
      else
        let s := advance h s
        let s := s.onCur fun t => { t with wait := .gbar d (s.gang g).phase, since := s.time }
        gbarCheck g (s.setGang g { s.gang g with here := (s.gang g).here ++ [tid] })) s

/-! Monitors (R399 to R401). -/

/-- A monitor is taken away, with its watch on a header (R399). -/
def disarm (tid : Nat) (s : State) : State :=
  match (s.thread tid).mon with
  | none => s
  | some m =>
    let s := s.onThread tid fun t => { t with mon := none }
    if !m.sp then s
    else
      match spLoc s (taskOf tid) m.addr 8 with
      | none => s
      | some (k, o) =>
        let s := s.onTask k fun t => { t with spwatch := t.spwatch.filter fun w => w.1 != tid }
        if headerOf (s.task k) o = some o then
          s.onTask k fun t =>
            { t with spad := bytesSet t.spad (o + 8) 4 (bytesAt t.spad (o + 8) 4 &&& (2 ^ 32 - 1 - 2 ^ slotOf s tid)) }
        else s

/-- Entries in the watch table of a home slice (R401). -/
def watchCount (s : State) (pa : Nat) : Nat :=
  (s.threads.filter fun e => match e.2.mon with
    | some m => !m.sp && !m.full && sliceOf m.addr == sliceOf pa
    | none => false).length

/-- The strong acquire read of `mon`, `mwait` and the task instructions, as an access after those issued before. -/
def strongRead (va pa n : Nat) (seq : Nat) : Acc :=
  { seq := seq, kind := .load, va := va, pa := pa, n := n, strong := true, acq := true }
def mayRead (s : State) (core tid va pa n : Nat) : Bool :=
  let t := s.thread tid
  accReady s core tid t.flight.length (strongRead va pa n t.nextSeq) && !wpmBlocks t va n

/-- A global word read at its home as the task sees it. -/
def readWord (s : State) (tid pa n : Nat) : Nat := viewRead s (viewTag s (taskOf tid)) pa n

def execMon (h : Head) (d a : SReg) (s : State) : Host.Outcome State Fault Refusal :=
  uniform h (fun s =>
    let tid := s.issue.tid
    let w := s.cur.sget2 a
    if w.toNat % 8 ≠ 0 then faultAll h Cause.misaligned w false s
    else
      match checkGlobal s.issue.core (s.curTask).cid 8 .read w s with
      | (s, .inr (c, tr)) => faultAll h c w tr s
      | (s, .inl pa) =>
        if homeGone s pa then faultAll h Cause.fabricLost w false s
        else if !mayRead s s.issue.core tid w.toNat pa 8 then stall s
        else if poisonedTo s tid pa 8 then faultAll h Cause.ecc w false s
        else
          let v : W64 := BitVec.ofNat 64 (readWord s tid pa 8)
          let s := disarm tid (advance h s)
          let full := 128 ≤ watchCount s pa
          giveS2 d v (s.onCur fun t =>
            { t with mon := some ⟨false, w.toNat, pa, v, false, full, s.time + 1024⟩ })) s

/-- A watch on a scratchpad word: on word 0 of a header it stands in WAITMASK, otherwise with the core (R399). -/
def armSpad (k o : Nat) (s : State) : State :=
  let tid := s.issue.tid
  let s := s.onTask k fun t => { t with spwatch := (tid, o) :: t.spwatch.filter fun w => w.1 != tid }
  if headerOf (s.task k) o = some o then
    s.onTask k fun t => { t with spad := bytesSet t.spad (o + 8) 4 (bytesAt t.spad (o + 8) 4 ||| 2 ^ s.issue.unit) }
  else s

def execMonSp (h : Head) (d a : SReg) (s : State) : Host.Outcome State Fault Refusal :=
  uniform h (fun s =>
    let tid := s.issue.tid
    let w := s.cur.sget a
    match checkSpad s (taskOf tid) 8 w.toNat with
    | .inr c => faultAll h c (w.setWidth 64) false s
    | .inl (k, o) =>
      if acqPending s.cur || spadHeld s.cur w.toNat 8 then stall s
      else if spPoisoned s (k, o) 8 then faultAll h Cause.ecc (w.setWidth 64) false s
      else
        let v : W64 := BitVec.ofNat 64 (spRead s (k, o) 8)
        let s := disarm tid (advance h s)
        giveS2 d v ((armSpad k o s).onCur fun t => { t with mon := some ⟨true, w.toNat, w.toNat, v, false, false, 0⟩ })) s

/-- The watched word as it stands. -/
def watchedNow (s : State) (tid : Nat) (m : Mon) : W64 :=
  BitVec.ofNat 64 (if m.sp then
    (match spLoc s (taskOf tid) m.addr 8 with
     | some p => spRead s p 8
     | none => 0)
  else readWord s tid m.addr 8)

/-- The reread may be made now. -/
def mayReread (s : State) (core tid : Nat) (m : Mon) : Bool :=
  if m.sp then !acqPending (s.thread tid) else mayRead s core tid m.va m.addr 8

/-- `mwait` completes with a value (R400). -/
def mwaitDone (tid : Nat) (d : SReg) (v : W64) (s : State) : State :=
  (disarm tid s).onThread tid fun t => unwait (t.varS2 d v)

/-- The fault of the reread, which checks what `mon` checks of the word's bytes (R400). -/
def rereadFault (s : State) (tid : Nat) (m : Mon) : Option W8 :=
  if m.sp then (spLoc s (taskOf tid) m.addr 8).bind fun p => if spPoisoned s p 8 then some Cause.ecc else none
  else if homeGone s m.addr then some Cause.fabricLost
  else if poisonedTo s tid m.addr 8 then some Cause.ecc
  else none

/-- The lanes of an `mwait` whose reread faults park at it, and TRIGGERED stays for the replay (R400, R417). -/
def mwaitFault (tid : Nat) (m : Mon) (c : W8) (s : State) : State :=
  match (s.thread tid).mwaitAt with
  | some j => park tid ((lanesOf j.m).map fun l => ⟨l, c, BitVec.ofNat 64 m.va, false⟩) j.pc j.ilen (s.onThread tid unwait)
  | none => s

/-- The deadline has passed: its own tick belongs to the writes, which are served first (R400). -/
def deadlinePassed (dl : Option Nat) (s : State) : Bool := dl.any fun x => x < s.time

/-- One turn of the loop of R400 for a thread that waits. -/
def mwaitTry (tid : Nat) (d : SReg) (dl : Option Nat) (s : State) : State :=
  match (s.thread tid).mon with
  | none => s
  | some m =>
    match if m.trig then rereadFault s tid m else none with
    | some c => mwaitFault tid m c s
    | none =>
      let v := watchedNow s tid m
      let s := if m.trig then s.onThread tid fun t => { t with mon := some { m with trig := false } } else s
      if m.trig && v != m.saved then mwaitDone tid d v s
      else if deadlinePassed dl s then mwaitDone tid d m.saved s
      else s

def execMwait (h : Head) (d b : SReg) (s : State) : Host.Outcome State Fault Refusal :=
  uniform h (fun s =>
    let tid := s.issue.tid
    match s.cur.mon with
    | none => giveS2 d 0 (advance h s)
    | some m =>
      if m.trig && !mayReread s s.issue.core tid m then stall s
      else
        let n := (s.cur.sget b).toNat
        let dl := if n = 0 then none else some (s.time + 1024 * n)
        let j : JoinAt := { pa := m.addr, pc := s.issue.pc, ilen := h.bytes, m := execMask h s }
        mwaitTry tid d dl ((advance h s).onCur fun t => { t with wait := .mwait d dl, mwaitAt := some j, since := s.time })) s

/-- A thread of a unit that waits in `mwait`. -/
def waitingMwait (s : State) (core unit : Nat) : Option (Nat × SReg × Option Nat × Mon) :=
  match unitTid s core unit with
  | none => none
  | some tid =>
    match (s.thread tid).wait, (s.thread tid).mon with
    | .mwait d dl, some m => some (tid, d, dl, m)
    | _, _ => none

def execMwaitWake (core unit : Nat) (s : State) : Host.Outcome State Fault Refusal :=
  .next (match waitingMwait s core unit with
    | some (tid, d, dl, m) => if m.trig && mayReread s core tid m then mwaitTry tid d dl s else s
    | none => s)

def execMwaitDeadline (core unit : Nat) (s : State) : Host.Outcome State Fault Refusal :=
  .next (match waitingMwait s core unit with
    | some (tid, d, dl, m) => if m.trig then s else mwaitTry tid d dl s
    | none => s)

/-- With a full watch table a resident monitor rereads its word every 1024 ticks as though triggered (R401). -/
def execWatchTableFullReread (core unit : Nat) (s : State) : Host.Outcome State Fault Refusal :=
  .next (match unitTid s core unit with
    | none => s
    | some tid => match (s.thread tid).mon with
      | some m => if m.full && m.due ≤ s.time
          then s.onThread tid fun t => { t with mon := some { m with trig := true, due := s.time + 1024 } } else s
      | none => s)

/-- With a full watch table a parked watch makes its wake condition hold every 65,536 ticks (R401). -/
def execParkedWatchSpuriousWake (task unit : Nat) (s : State) : Host.Outcome State Fault Refusal :=
  .next (let tid := tidOf task unit
    match (s.thread tid).mon with
    | some m => if (s.task task).st == .swapped && m.full && m.due ≤ s.time
        then s.onThread tid fun t => { t with wake := true, mon := some { m with due := s.time + 65536 } } else s
    | none => s)

end Sys2Proof.Machine
end

