-- ==== Sys2Proof/Machine/Blocks.lean ====
section
/-!
DEFINITION. Register blocks and regions: `xacq`, `xrel`, `rgn` and `rgnend` (R192 to R201).
-/
namespace Sys2Proof.Machine

/-! The outstanding results of a thread (R189, R190). -/

/-- Registers that a result of an access or an engine operation will write. -/
def Acc.targets (a : Acc) : List RegName :=
  match a.dst with
  | .none => []
  | .s r => (List.range (wordsOf a.n)).map fun i => .s (r + i)
  | .v r => (List.range (if a.kind == .ldx then 1 else wordsOf a.n)).map fun i => .v (r + i)

def EngOp.targets (o : EngOp) : List RegName :=
  match o.kind with
  | .gld _ d _ => [.v d]
  | .ardv d _ _ raw _ _ _ => if raw then [.v d, .v (d + 1)] else [.v d]
  | _ => []

/-- Registers with an outstanding variable-latency write (R190). -/
def Thread.outstanding (t : Thread) : List RegName :=
  t.flight.flatMap Acc.targets ++ (t.ops.filter fun o => !o.done).flatMap EngOp.targets

/-- Registers with a pending fixed-latency write (R189). -/
def Thread.pendingNames (t : Thread) : List RegName := t.pending.filterMap fun x => x.w.name

/-- A write to a vector register of the set is pending or outstanding. -/
def Thread.busyIn (t : Thread) (p : Nat → Bool) : Bool :=
  (t.outstanding ++ t.pendingNames).any fun n => match n with
    | .v r => p r
    | _ => false

/-! The pool (R193 to R196). -/

def heldBlocks (t : Thread) : Nat := popc t.xblk.toNat 32 - 1
/-- Free blocks of a core's pool (R193, R463, R464). -/
def freePool (s : State) (core : Nat) : Nat :=
  let c := s.core core
  poolBlocks s core - c.retiredBlks - (c.slots.foldl (fun n e => n + (if isSeq e.2 then 0 else heldBlocks (s.thread e.2))) 0)

/-- Warps of a core blocked in `xacq`, with the block wanted and their order. -/
def blockedXacq (s : State) (core : Nat) : List (Nat × Nat × Nat) :=
  (s.core core).slots.filterMap fun e => match (s.thread e.2).wait with
    | .xacq k o => some (e.2, k, o)
    | _ => none

/-- A block given to a warp reads 0 in every lane (R193). -/
def giveBlock (k : Nat) (t : Thread) : Thread :=
  { t with xblk := t.xblk ||| (1#32 <<< k), v := t.v.filter fun e => e.1 / 128 != k }

/-- Freed blocks go to blocked warps in the order they blocked (R193). -/
def grantPool (core : Nat) : Nat → State → State
  | 0, s => s
  | n + 1, s =>
    if freePool s core = 0 then s
    else
      match (blockedXacq s core).foldl (fun (a : Option (Nat × Nat × Nat)) b => match a with
          | some x => if b.2.2 < x.2.2 then some b else a
          | none => some b) none with
      | none => s
      | some (tid, k, _) => grantPool core n (s.onThread tid fun t => unwait (giveBlock k t))

def grantAll (core : Nat) (s : State) : State := grantPool core 32 s

/-- Block `k` of the issuing warp is free to take (R193). -/
def poolFree (s : State) : Bool := (blockedXacq s s.issue.core).length < freePool s s.issue.core

def execXacq (h : Head) (k : BitVec 4) (s : State) : Host.Outcome State Fault Refusal :=
  plain h (fun s =>
    if s.cur.xblk.getLsbD k.toNat then s
    else if poolFree s then s.onCur (giveBlock k.toNat)
    else
      let r := s.fresh
      r.2.onCur fun t => { t with wait := .xacq k.toNat r.1, since := s.time }) s

def execXacqTry (h : Head) (d : SReg) (k : BitVec 4) (s : State) : Host.Outcome State Fault Refusal :=
  plain h (fun s =>
    if s.cur.xblk.getLsbD k.toNat then giveS d 1 s
    else if poolFree s then giveS d 0 (s.onCur (giveBlock k.toNat))
    else giveS d 0xFFFFFFFF s) s

/-- The ranges of a working-set word: start and length (R197). -/
def rangesOf (w : W64) : List (Nat × Nat) :=
  (List.range 4).map fun i => (w.toNat / 2 ^ (16 * i) % 2 ^ 11, w.toNat / 2 ^ (16 * i + 11) % 2 ^ 5)

/-- A working-set word without the registers of a block: a range reaches over at most two blocks (R194, R197). -/
def trimWord (k : Nat) (w : W64) : W64 :=
  BitVec.ofNat 64 ((rangesOf w).zipIdx.foldl (fun n r =>
    let keep := (List.range r.1.2).filter fun i => (r.1.1 + i) / 128 != k
    n + 2 ^ (16 * r.2) * (match keep with
      | [] => 0
      | i :: _ => r.1.1 + i + 2 ^ 11 * keep.length)) 0)

/-- A block returned: its registers leave an open working set without write-back, and its contents are lost (R194). -/
def dropBlock (k : Nat) (t : Thread) : Thread :=
  { t with xblk := t.xblk &&& ~~~(1#32 <<< k)
           region := t.region.map (trimWord k)
           v := t.v.filter fun e => e.1 / 128 != k
           stage := t.stage.filter fun e => e.1 / 128 != k
           written := t.written.filter fun r => r / 128 != k }

def execXrel (h : Head) (k : BitVec 4) (s : State) : Host.Outcome State Fault Refusal :=
  uniform h (fun s =>
    if !s.cur.xblk.getLsbD k.toNat then advance h s
    else if s.cur.busyIn (fun r => r / 128 == k.toNat) then stall s
    else grantAll s.issue.core ((advance h s).onCur (dropBlock k.toNat))) s

/-! Regions (R197 to R201). -/

def setOf (w : W64) : List Nat := (rangesOf w).flatMap fun r => (List.range r.2).map (r.1 + ·)
def setOk (w : W64) : Bool :=
  (rangesOf w).all (fun r => if r.2 = 0 then r.1 == 0 else r.1 + r.2 ≤ 2048) && (setOf w).length ≤ 64 &&
  decide (setOf w).Nodup

/-- The written registers return to the main file and the region closes (R199, R201). -/
def closeRegion (t : Thread) : Thread :=
  match t.region with
  | none => t
  | some _ =>
    { t with v := t.written.foldl (fun v r => tputD zeroRow v r (tget zeroRow t.stage r)) t.v
             region := none, stage := [], written := [] }

/-- The set is copied to the staging buffer, each register clean (R198); unheld registers are left out. -/
def openRegion (w : W64) (t : Thread) : Thread :=
  { t with region := some w, written := []
           stage := ((setOf w).filter t.held).foldl (fun m r => tput m r (t.vmain r)) [] }

def ceil8 (n : Nat) : Nat := (n + 7) / 8

/-- A close may not be made while a write to a working-set register is pending (R199). -/
def closeBusy (t : Thread) : Bool := t.region.isSome && t.busyIn fun r => thas t.stage r
def closeCost (t : Thread) : Nat := if t.region.isSome then 2 + ceil8 t.written.length else 0

/-- The lowest unheld register of a list (R192). -/
def lowestUnheld (t : Thread) (rs : List Nat) : Option Nat :=
  (rs.filter fun r => !t.held r).foldl (fun a r => some (match a with
    | some x => min x r
    | none => r)) none

def execRgn (h : Head) (w : W64) (s : State) : Host.Outcome State Fault Refusal :=
  uniform h (fun s =>
    let t := s.cur
    if !setOk w then faultAll h Cause.reservedField 0 false s
    else match lowestUnheld t (setOf w) with
      | some r => faultAll h Cause.regUnheld (BitVec.ofNat 64 r) false s
      | none =>
        if closeBusy t || t.busyIn (setOf w).contains then stall s
        else holdIssue (2 + ceil8 (setOf w).length + closeCost t) ((advance h s).onCur fun t => openRegion w (closeRegion t))) s

def execRgnend (h : Head) (s : State) : Host.Outcome State Fault Refusal :=
  uniform h (fun s =>
    let t := s.cur
    if t.region.isNone then advance h s
    else if closeBusy t then stall s
    else holdIssue (closeCost t) ((advance h s).onCur closeRegion)) s

end Sys2Proof.Machine
end

