-- ==== Sys2Proof/Machine/Futures.lean ====
section
/-!
DEFINITION. Futures and their completion (R41 to R44, R171, R175, R483), closure lines and their checks (R20 to R22,
R30, R32, R36), and a core's deque and spill ring (R143 to R147).
-/
namespace Sys2Proof.Machine

/-! Faults of agents. -/

/-- What becomes of an agent's access that faults: Umber is asked first when the context sets UPF, and its answer is a
free value, so the agent waits or the fault is forwarded; a page under migration is waited for (R290, R292, R483). -/
inductive AgentFault where
  | wait
  | fault (cause : W8)
  deriving DecidableEq, Repr

def agentFault (cid : Nat) (c : W8) (s : State) : State × AgentFault :=
  if c == Cause.wpMigration then (s, .wait)
  else if (c == Cause.notPresent || c == Cause.permission) && upfOf s cid then
    let r := s.drawFree
    (r.2, if r.1.getLsbD 0 then .fault c else .wait)
  else (s, .fault c)

/-! Futures (R41 to R44). -/

def futState (s : State) (pa : Nat) : Nat := homeRead s pa 1
/-- STATE 4 to 255 count as FAULTED (R41, R164). -/
def normState (st : Nat) : Nat := if 4 ≤ st then 2 else st

/-- The bytes of a completion are written, and STATE with them as a release (R43); WAITERS keeps its value (R44). `own` is the
launch whose task completes the future: its writes do not start its resolution (R129, log 38). -/
def writeFuture (own : Option Nat) (pa : Nat) (st : Nat) (cause : W8) (value aux pwid : W64) (s : State) : State :=
  homeWriteOf own pa 2 (st + 256 * cause.toNat)
    (homeWriteOf own (pa + 4) 28 (2 ^ 32 * value.toNat + 2 ^ 96 * aux.toNat + 2 ^ 160 * pwid.toNat) s)

/-- The release of a completion may be made: no lease on the future's line is outstanding (R43, R385). -/
def futureQuiet (s : State) (pa : Nat) : Bool :=
  !dieLost s pa && (landsAt s pa || (s.l2line (lineOf pa)).lease < s.time) && !(s.l2line (lineOf pa)).host

/-- The outcome of an attempt to complete a future. -/
inductive Completed where
  | applied
  | found (state : Nat)
  | wait
  | abandoned (cause : W8)
  deriving DecidableEq, Repr

/-- Completing a future under a context (R42, R43, R483). -/
def completeAt (own : Option Nat) (cid va : Nat) (st : Nat) (cause : W8) (value aux pwid : W64) (s : State) : State × Completed :=
  match walkAddr s cid va .write with
  | .inr c =>
    match agentFault cid c (countBad cid va s) with
    | (s, .wait) => (s, .wait)
    | (s, .fault c) => (s, .abandoned c)
  | .inl pa =>
    if homeGone s pa then (s, .abandoned Cause.fabricLost)
    else if poisoned s pa 1 then (s, .abandoned Cause.ecc)
    else if futState s pa ≠ 0 then (s, .found (normState (futState s pa)))
    else if !futureQuiet s pa then (askHost pa 32 s, .wait)
    else (writeFuture own pa st cause value aux pwid s, .applied)

/-- A completion with no report of its own: an abandoned one is counted in FUTFAIL (R483). The flag says that it is over. -/
def completeQuiet (own : Option Nat) (cid va : Nat) (st : Nat) (cause : W8) (value aux pwid : W64) (s : State) : State × Bool :=
  if va = 0 then (s, true)
  else
    match completeAt own cid va st cause value aux pwid s with
    | (s, .wait) => (s, false)
    | (s, .abandoned c) => (countLost c { s with futFail := s.futFail + 1 }, true)
    | (s, _) => (s, true)

/-- The committed STATE, or the task's own tag's completion while it is speculative (R171). -/
def stateSeen (s : State) (k pa : Nat) : Nat :=
  match isSpec s k, (s.task k).tag with
  | true, some t => (viewByte s (some t) pa).toNat
  | _, _ => futState s pa

/-- A field of a future as the task sees it. -/
def futureField (s : State) (k pa off n : Nat) : Nat :=
  match isSpec s k, (s.task k).tag with
  | true, some t => viewRead s (some t) (pa + off) n
  | _, _ => homeRead s (pa + off) n

/-- The status word (R164). -/
def statusWord (st cause : Nat) : W32 := BitVec.ofNat 32 (normState st + 256 * cause)

/-- WAITERS counts one joiner more or less (R44). -/
def bumpWaiters (own : Option Nat) (pa : Nat) (up : Bool) (s : State) : State :=
  let n := homeRead s (pa + 2) 2
  homeWriteOf own (pa + 2) 2 (if up then (n + 1) % 65536 else (n + 65535) % 65536) s

/-- A thread that no longer waits in a `join`, because it woke or because it has ended, leaves the count where one stands (R44, R170, R291). -/
def leaveJoin (tid : Nat) (s : State) : State :=
  match (s.thread tid).joined with
  | some j =>
    (if j.lapsed || homeGone s j.pa then s else bumpWaiters (s.taskT tid).launch j.pa false s).onThread tid fun t => { t with joined := none }
  | none => s

/-! Closure lines (R20 to R22, R30, R32, R36). -/

def clEntry (img : List W8) : W64 := BitVec.ofNat 64 (fieldAt img 0 8)
def clFuture (img : List W8) : W64 := BitVec.ofNat 64 (fieldAt img 8 8)
def clWid (img : List W8) : W64 := BitVec.ofNat 64 (fieldAt img 0x10 8)
def clFlags (img : List W8) : W16 := BitVec.ofNat 16 (fieldAt img 0x18 2)
def clNtile (img : List W8) : Nat := fieldAt img 0x1A 1
def clTeam (img : List W8) : W8 := BitVec.ofNat 8 (fieldAt img 0x1B 1)
def clSpkib (img : List W8) : Nat := fieldAt img 0x1C 2
def clNacc (img : List W8) : Nat := fieldAt img 0x1E 2
def clUser2 (img : List W8) : W64 := BitVec.ofNat 64 (fieldAt img 0x78 8)

/-- Descriptor `i` (R30). -/
def clDesc (img : List W8) (i : Nat) : Desc :=
  let o := 0x20 + 12 * i
  let w := fieldAt img (o + 2) 2
  { handle := fieldAt img o 2, dir := w % 4, loc := w / 4 % 2 == 1, lidx := w / 8 % 8
    coord := (List.range 4).map fun j => fieldAt img (o + 4 + 2 * j) 2 }

/-- The reserved bits of a descriptor are 0 (R30). -/
def descReserved (img : List W8) (i : Nat) : Bool := fieldAt img (0x22 + 12 * i) 2 / 64 != 0

def clDescs (img : List W8) : List Desc := (List.range (min 6 (clNtile img))).map (clDesc img)

/-- The team descriptor's rules (R36). -/
def teamOk (t : W8) : Bool :=
  if t.toNat % 8 = 0 then t.toNat / 8 == 0 else !t.getLsbD 7 && teamCopy t ≤ teamWarps t

/-- The rules of one descriptor; LOCAL ones name a descriptor of the spawner that is not itself LOCAL (R30, R32). -/
def descOk (spawner : Option Task) (img : List W8) (i : Nat) : Bool :=
  let d := clDesc img i
  d.dir != 0 && !descReserved img i &&
  (if d.loc then
    match spawner with
    | none => false
    | some t => match t.descs[d.lidx]? with
      | some e => d.lidx < 6 && !e.loc
      | none => false
   else d.lidx == 0)

/-- The checks of a closure at creation, in order (R22). -/
def closureFault (spawner : Option Task) (img : List W8) : Option W8 :=
  let team := clTeam img
  let seqOn := teamSeq team
  let loc : List Nat := (clDescs img).filterMap fun d => if d.loc then some d.lidx else none
  if !canonical (clEntry img) || !canonical (clFuture img) || (seqOn && !canonical (clUser2 img)) then some Cause.noncanonical
  else if (clEntry img).toNat % 4 ≠ 0 || (seqOn && (clUser2 img).toNat % 4 ≠ 0) || (clFuture img).toNat % 32 ≠ 0 then
    some Cause.misaligned
  else if (clFlags img).toNat / 4 ≠ 0 then some Cause.reservedField
  else if 6 < clNtile img then some Cause.reservedField
  else if !teamOk team then some Cause.reservedField
  else if 1792 < (clSpkib img + 3) / 4 * 4 then some Cause.reservedField
  else if 1024 < clNacc img || (clNacc img ≠ 0 && !seqOn) then some Cause.reservedField
  else if !((List.range (clNtile img)).all (descOk spawner img)) || !decide loc.Nodup then some Cause.reservedField
  else none

/-! The deque (R143 to R147). -/

/-- The bounds of a range entry, changed. -/
def entBounds : EntKind → Nat × Nat
  | .closure .. => (0, 1)
  | .range _ lo hi => (lo, hi)
  | .tail _ lo hi _ _ => (lo, hi)
def entWith (e : EntKind) (lo hi : Nat) : EntKind :=
  match e with
  | .closure a f c n p q => .closure a f c n p q
  | .range l _ _ => .range l lo hi
  | .tail l _ _ o x => .tail l lo hi o x

/-- Entries that a list holds: an offered part shares the place of the range entry that it is split from, until it is given (R149,
R411). -/
def entCount (l : List Ent) : Nat := (l.filter fun e => !e.split).length

/-- The end of a reversed list that holds `n` entries, and what is left; a shared part goes with its entry. -/
def coldRun : Nat → List Ent → List Ent × List Ent
  | _, [] => ([], [])
  | 0, l => ([], l)
  | n + 1, e :: l => let r := coldRun (if e.split then n + 1 else n) l
    (e :: r.1, r.2)

/-- The first `n` entries of a list, each with its shared parts, and what is left. -/
def hotRun : Nat → List Ent → List Ent × List Ent
  | _, [] => ([], [])
  | n, e :: l =>
    if e.split then let r := hotRun n l
      (e :: r.1, r.2)
    else match n with
      | 0 => ([], e :: l)
      | n + 1 => let r := hotRun n l
        (e :: r.1, r.2)

/-- An entry continues the one before it: they are parts of one range. -/
def continues (prev : Option Ent) (y : Ent) : Bool :=
  prev.any fun x => entWith x.kind 0 0 == entWith y.kind 0 0 && (entBounds x.kind).2 == (entBounds y.kind).1

/-- A shared part whose entry has left the list before it takes the place over. -/
def fixSplit : Option Ent → List Ent → List Ent
  | _, [] => []
  | prev, y :: l => let y := { y with split := y.split && continues prev y }
    y :: fixSplit (some y) l

/-- The coldest entries go to the spill ring; none when the ring has no room (R145, R146). A lent entry may be among them. -/
def spillCold (c : Core) : Option Core :=
  let n := min 128 (c.spillCap - entCount c.spill)
  if n = 0 then none
  else
    let r := coldRun n c.deque.reverse
    some { c with deque := r.2.reverse, spill := r.1.reverse ++ c.spill }

/-- The spill ring gives back its hottest entries (R145). -/
def refill (core : Nat) (s : State) : State :=
  let c := s.core core
  if entCount c.deque < 64 && !c.spill.isEmpty then
    { s with xsSpill := s.xsSpill + 1 }.onCore core fun c =>
      let r := hotRun 128 c.spill
      { c with deque := c.deque ++ r.1, spill := r.2 }
  else s

/-- A push makes room first (R145); none when it stalls (R146). -/
def roomFor (core : Nat) (s : State) : Option State :=
  let c := s.core core
  if entCount c.deque < 512 then some s
  else (spillCold c).map fun c => { s with xsSpill := s.xsSpill + 1 }.setCore core c

/-- The hot end, below the raised entries, which stand there in the order of their raises (R172). -/
def hotInsert (e : Ent) (l : List Ent) : List Ent := l.takeWhile Ent.raised ++ e :: l.dropWhile Ent.raised

def pushHot (core : Nat) (e : Ent) (s : State) : Option State :=
  (roomFor core s).map fun s => s.onCore core fun c => { c with deque := hotInsert e c.deque, firstFail := none }

/-- The cold end takes an entry: in the spill ring, if that has room, while it is not empty. -/
def coldEnd (core : Nat) (e : Ent) (s : State) : Option State :=
  let c := s.core core
  if c.spill.isEmpty then some (s.onCore core fun c => { c with deque := c.deque ++ [e], firstFail := none })
  else if entCount c.spill < c.spillCap then some (s.onCore core fun c => { c with spill := c.spill ++ [e], firstFail := none })
  else none

/-- Tail ranges enter at the cold end, which lies in the spill ring while that is not empty (R144, R145). Where the ring is
full and the SRAM deque has room, no order of R145 leaves the entry coldest in SRAM, so the push waits: the model's choice (log
50). -/
def pushCold (core : Nat) (e : Ent) (s : State) : Option State :=
  if (s.core core).spill.isEmpty then (roomFor core s).bind (coldEnd core e) else coldEnd core e s

/-- A raise has split an entry: the coldest go to the spill ring as for a push; none when deque and ring cannot hold the parts
(R13, R145, R172, log 50). -/
def fitDeque (core : Nat) (s : State) : Option State :=
  let c := s.core core
  if entCount c.deque ≤ 512 && (entCount c.spill ≤ c.spillCap || c.spill.isEmpty) then some s
  else (spillCold c).bind fun c =>
    if entCount c.deque ≤ 512 then some ({ s with xsSpill := s.xsSpill + 1 }.setCore core c) else none

/-! Identifiers (R25 to R27). -/

/-- The fields of an identifier, level 0 lowest. -/
def idFields : List Nat → Nat → List Nat
  | [], _ => []
  | w :: ws, n => n % 2 ^ w :: idFields ws (n / 2 ^ w)

def idJoin : List Nat → List Nat → Nat
  | w :: ws, f :: fs => f % 2 ^ w + 2 ^ w * idJoin ws fs
  | _, _ => 0

/-- Fields of linear index `n` in a box, level 0 first (R27). -/
def linFields : List Nat → Nat → List Nat
  | [], _ => []
  | e :: es, n => n % e :: linFields es (n / e)

def linIndex : List Nat → List Nat → Nat
  | e :: es, f :: fs => f + e * linIndex es fs
  | _, _ => 0

def boxSize (ext : List Nat) : Nat := ext.foldl (· * ·) 1
def inBox (ext fs : List Nat) : Bool := (ext.zip fs).all fun p => p.2 < p.1

/-- The identifier of a linear index in a launch's box. -/
def wordOfIndex (l : Launch) (n : Nat) : Nat := idJoin l.widths (linFields l.box n)

/-- The same in a tail's sub-box, whose fields count from the origin word's (R476). -/
def tailExt (l : Launch) (extent : W64) : List Nat := (idFields l.widths extent.toNat).map (· + 1)
def tailWord (l : Launch) (origin extent : W64) (n : Nat) : Nat :=
  idJoin l.widths (((idFields l.widths origin.toNat).zip (linFields (tailExt l extent) n)).map fun p => p.1 + p.2)

/-! The raise of `join` (R172). -/

/-- The launch's template FUTURE field. -/
def launchFuture (l : Launch) : Nat := (clFuture l.image).toNat

/-- The linear index, or gang unit, of the identifier whose future is at `f` in an entry. -/
def rangeIndex (l : Launch) (e : EntKind) (f : Nat) : Option Nat :=
  let t := launchFuture l
  if t = 0 || f < t || (f - t) % 32 ≠ 0 then none
  else
    let fs := idFields l.widths ((f - t) / 32)
    match e with
    | .closure .. => none
    | .range _ lo hi =>
      let i := linIndex l.box fs / max 1 l.gsize
      if idJoin l.widths fs = (f - t) / 32 && inBox l.box fs && lo ≤ i && i < hi then some i else none
    | .tail _ lo hi origin extent =>
      let og := idFields l.widths origin.toNat
      let rel := (fs.zip og).map fun p => p.1 - p.2
      let i := linIndex (tailExt l extent) rel
      if idJoin l.widths fs = (f - t) / 32 && (fs.zip og).all (fun p => p.2 ≤ p.1) && inBox (tailExt l extent) rel &&
          lo ≤ i && i < hi then some i else none

/-- The index in an entry of the producer of a future (R172). -/
def producerAt (s : State) (f cid : Nat) (e : Ent) : Option Nat :=
  match e.kind with
  | .closure _ fu c _ _ _ => if fu = f && c = cid then some 0 else none
  | k => e.launch.bind fun n => rangeIndex (s.launch n) k f

/-- Where the producer of a future stands in a deque: the entry and its index. An entry that was lent in an earlier cycle is passed
over: R411 names pops and steals only, and that a raise leaves the entry to its thief is the model's choice (R172, log 50). -/
def findProducer (s : State) (f cid : Nat) (l : List Ent) : Option (Ent × Nat) :=
  l.findSome? fun e => if e.lent.isSome then none else (producerAt s f cid e).map fun i => (e, i)

/-- A lent part stands again as though it had never been offered: it joins the rest of its range (R411). -/
def unlend (id : Nat) : List Ent → List Ent
  | x :: y :: l =>
    if y.id == id then
      let bx := entBounds x.kind
      let b := entBounds y.kind
      if x.launch == y.launch && x.lent.isNone && bx.2 = b.1 && entWith x.kind 0 0 == entWith y.kind 0 0 && b.1 < b.2 && bx.1 < bx.2
      then { x with kind := entWith x.kind bx.1 b.2 } :: l
      else x :: { y with lent := none } :: l
    else if x.id == id then { x with lent := none } :: y :: l
    else x :: unlend id (y :: l)
  | [x] => if x.id == id then [{ x with lent := none }] else [x]
  | [] => []

/-- The offer of this tick that holds the producer of a future: the raise applies before a steal of the same cycle (R180, R411). -/
def lentNow (core f cid : Nat) (s : State) : Option (Nat × Lend × Nat) :=
  (s.core core).lends.findSome? fun p =>
    match p.2.ent with
    | some id =>
      if p.2.given.isNone && !p.2.kept && p.2.due = s.time + 4096 &&
          (s.core core).deque.any (fun e => e.id == id && (producerAt s f cid e).isSome)
      then some (p.1, p.2, id) else none
    | none => none

/-- Such an offer is taken back, and the attempt stands again at its place, to be served after the raise with the next entry that
may be given (R180). -/
def recallLend (core f cid : Nat) (s : State) : State :=
  match lentNow core f cid s with
  | some (thief, l, id) =>
    { s with msgs := s.msgs.map fun (m : Msg) => if m.kind = 1 && m.thief = thief && m.tag = l.tag then { m with kind := 0, ent := none } else m }.onCore
      core fun c => { c with lends := tdel c.lends thief, deque := unlend id c.deque, spill := unlend id c.spill }
  | none => s

/-- The producer moves to the hot end, a range split around it (R172, R180); the split may spill, and without room for its parts there
is no raise (log 50). One that is staged already is not moved, and has no precedence of a raised task: R172 says no move, and the
rest is the model's choice (log 50). -/
def raiseProducer (core f cid : Nat) (s0 : State) : State :=
  let s := recallLend core f cid s0
  match findProducer s f cid (s.core core).deque with
  | none => s
  | some (e, i) =>
    let (lo, hi) := entBounds e.kind
    if e.raised then s
    else match e.kind with
    | .closure .. =>
      s.onCore core fun c => { c with deque := hotInsert { e with raised := true } (c.deque.filter fun x => x.id != e.id) }
    | _ =>
      let part : Nat → Nat → Nat → List Ent := fun a b id => if a < b then [{ e with id := id, kind := entWith e.kind a b }] else []
      let r1 := s.fresh
      let r2 := r1.2.fresh
      let parts : List Ent → List Ent := fun l => l.flatMap fun x => if x.id == e.id then part lo i e.id ++ part (i + 1) hi r2.1 else [x]
      let e' : Ent := { e with id := r1.1, kind := entWith e.kind i (i + 1), raised := true, split := false }
      (fitDeque core (r2.2.onCore core fun c => { c with deque := hotInsert e' (fixSplit none (parts c.deque)) })).getD s

end Sys2Proof.Machine
end

