-- ==== Sys2Proof/Machine/Tasks.lean ====
section
/-!
DEFINITION. The task instructions (R162 to R179) and the wake of a joiner (R44, R170).
-/
namespace Sys2Proof.Machine

/-- A task instruction waits for earlier acquires and store fences (R388, R391). -/
def taskHeld (t : Thread) : Bool := acqPending t || relPending t

/-- The wait of R165: every earlier store has performed and device time has passed its completion time. A speculative task's
stores perform in its lines, so it waits for those, and for its strong loads (R124). -/
def storesDone (s : State) : Bool :=
  fenceHolds s s.issue.tid s.cur.flight 4 &&
    (!isSpec s (taskOf s.issue.tid) || s.cur.flight.all fun a => a.marker || a.isLoad)

/-- The checks of an address: canonical, then aligned (R165, R170). -/
def addrFault (a : W64) (align : Nat) : Option W8 :=
  if !canonical a then some Cause.noncanonical else if a.toNat % align ≠ 0 then some Cause.misaligned else none

/-- An instruction that stalls at issue on a sector or a line of its tag is counted once (R125, R142). -/
def noteIssueStall (k pa n : Nat) (s : State) : State :=
  if s.cur.noted then s else (noteStall k pa n s).onCur fun t => { t with noted := true }

/-! `spawn` and `spawnr` (R165 to R168). -/

/-- The closure entry of an image at an address (R122, R143, R165). -/
def closureEnt (c : Nat) (img : List W8) (s : State) : Nat × Ent × State :=
  let k := s.curTask
  let r := s.fresh
  let locals := (clDescs img).filterMap fun d => if d.loc then some d.lidx else none
  (r.1,
   { id := r.1
     kind := .closure c (clFuture img).toNat k.cid ((clFlags img).getLsbD 1 || !locals.isEmpty)
       (some (taskOf s.issue.tid)) locals
     launch := k.launch, root := k.root, tag := if isSpec s (taskOf s.issue.tid) then k.tag else none },
   r.2)

/-- An image read as the issuing task sees it. -/
def readImage (s : State) (tid pa n : Nat) : List W8 := (List.range n).map fun i => viewByte s (viewTag s (taskOf tid)) (pa + i)

/-- The image is checked and its entry pushed (R165). -/
def pushClosure (h : Head) (c : W64) (img : List W8) (s : State) : State :=
  match closureFault (some s.curTask) img with
  | some cause => faultAll h cause c false s
  | none =>
    let e := closureEnt c.toNat img s
    match pushHot s.issue.core e.2.1 e.2.2 with
    | none => stall s
    | some s => advance h s

def execSpawn (h : Head) (a : SReg) (s : State) : Host.Outcome State Fault Refusal :=
  uniform h (fun s =>
    let c := s.cur.sget2 a
    match addrFault c 128 with
    | some cause => faultAll h cause c false s
    | none =>
      if taskHeld s.cur || !storesDone s then stall s
      else
        match translate s.issue.core (s.curTask).cid c.toNat .read s with
        | (s, .inr cause) => faultAll h cause c true s
        | (s, .inl pa) =>
          if homeGone s pa then faultAll h Cause.fabricLost c false s
          else if !mayRead s s.issue.core s.issue.tid c.toNat pa 128 then stall s
          else if poisonedTo s s.issue.tid pa 128 then faultAll h Cause.ecc c false s
          else pushClosure h c (readImage s s.issue.tid pa 128) s) s

/-- The image of `spawnr`: lanes 0 to 31 of the register (R166). -/
def imageOf (t : Thread) (a : VReg) : List W8 :=
  (List.range 128).map fun i => ((t.vlane a.toNat (i / 4)) >>> (8 * (i % 4))).setWidth 8

/-- A push that waits leaves the line written, and only the push is tried again (R146, R166). -/
def keepLine (c : Nat) (s : State) : State :=
  if s.issue.stalled then { s.onCur fun t => { t with wait := .push c } with issue := { s.issue with kept := true } } else s

/-- The line is written when no lease on it is left, so the push need not wait for its store (R166, R385). -/
def execSpawnr (h : Head) (a : VReg) (b : SReg) (s : State) : Host.Outcome State Fault Refusal :=
  uniform h (fun s =>
    let c := s.cur.sget2 b
    let k := taskOf s.issue.tid
    match addrFault c 128 with
    | some cause => faultAll h cause c false s
    | none =>
      if s.cur.wait == .push c.toNat then keepLine c.toNat (pushClosure h c (imageOf s.cur a) s)
      else if taskHeld s.cur || !storesDone s then stall s
      else
        match translate s.issue.core (s.curTask).cid c.toNat .write s with
        | (s, .inr cause) => faultAll h cause c true s
        | (s, .inl pa) =>
          if homeGone s pa then faultAll h Cause.fabricLost c false s
          else if taskWriteBlocked s k pa 128 then stall (noteIssueStall k pa 128 s)
          else if wpmBlocks s.cur c.toNat 128 || !futureQuiet s pa ||
             !mayRead s s.issue.core s.issue.tid c.toNat pa 128 then stall (askHost pa 128 s)
          else
            let img := imageOf s.cur a
            let g := taskGwct s k pa s.time
            let w := noteGwct s.issue.tid g (l1Store s.issue.core pa 128 (leNat img)
              (if isSpec s k then (s.task k).tag else none) (taskWrite k pa 128 (leNat img) s))
            keepLine c.toNat (pushClosure h c img w)) s

/-! `join` and `fpoll` (R170 to R173). -/

/-- The outcome of a future goes to its registers, the status last (R164). -/
def giveFuture (tid : Nat) (d b : SReg) (pa : Nat) (s : State) : State :=
  let k := taskOf tid
  let st := stateSeen s k pa
  let v : W64 := if st = 0 then 0 else BitVec.ofNat 64 (futureField s k pa 8 8)
  let w := statusWord st (futureField s k pa 1 1)
  s.onThread tid fun t => (t.varS2 d v).varS b w

/-- The checks and the read that `join` and `fpoll` share; `f` acts on the physical address (R170, R173). -/
def futureRead (h : Head) (a : SReg) (f : Nat → State → State) (s : State) : State :=
  let x := s.cur.sget2 a
  match addrFault x 32 with
  | some cause => faultAll h cause x false s
  | none =>
    if taskHeld s.cur then stall s
    else
      match translate s.issue.core (s.curTask).cid x.toNat .read s with
      | (s, .inr cause) => faultAll h cause x true s
      | (s, .inl pa) =>
        if homeGone s pa then faultAll h Cause.fabricLost x false s
        else if !mayRead s s.issue.core s.issue.tid x.toNat pa 32 then stall s
        else if poisonedTo s s.issue.tid pa 32 then faultAll h Cause.ecc x false s
        else f pa s

def execJoin (h : Head) (d a b : SReg) (s : State) : Host.Outcome State Fault Refusal :=
  uniform h (futureRead h a fun pa s =>
    let tid := s.issue.tid
    let x := (s.cur.sget2 a).toNat
    if stateSeen s (taskOf tid) pa ≠ 0 then giveFuture tid d b pa (advance h s)
    else
      let j : JoinAt := { pa := pa, pc := s.issue.pc, ilen := h.bytes, m := execMask h s }
      let s := raiseProducer s.issue.core x (s.curTask).cid (advance h s)
      bumpWaiters (s.curTask).launch pa true (s.onCur fun t => { t with wait := .join x d b, joined := some j, since := s.time })) s

def execFpoll (h : Head) (d a b : SReg) (s : State) : Host.Outcome State Fault Refusal :=
  uniform h (futureRead h a fun pa s => giveFuture s.issue.tid d b pa (advance h s)) s

/-- The lanes of a joiner whose read faults when it wakes park at their `join`, to replay it (R170, R417). -/
def joinFault (tid : Nat) (j : JoinAt) (cause : W8) (f : Nat) (tr : Bool) (s : State) : State :=
  park tid ((lanesOf j.m).map fun l => ⟨l, cause, BitVec.ofNat 64 f, tr⟩) j.pc j.ilen (s.onThread tid unwait)

/-- The loop of `join` reads the future again; one that is EMPTY after all, where another page has taken its place, blocks and is
counted again (R170). -/
def joinRead (core tid : Nat) (j : JoinAt) (f : Nat) (d b : SReg) (s : State) : State :=
  match translate core (s.taskT tid).cid f .read s with
  | (s, .inr c) => joinFault tid j c f true s
  | (s, .inl pa) =>
    if homeGone s pa then joinFault tid j Cause.fabricLost f false s
    else if poisonedTo s tid pa 32 then joinFault tid j Cause.ecc f false s
    else if stateSeen s (taskOf tid) pa = 0 then
      bumpWaiters (s.taskT tid).launch pa true (s.onThread tid fun t => { t with joined := some { j with pa := pa, lapsed := false } })
    else (giveFuture tid d b pa s).onThread tid unwait

/-- A blocked joiner wakes when its future has left EMPTY, leaves the count, and reads again (R44, R170); one that has ended
meanwhile leaves the count, and one whose page was taken away reads again once another is there (R291). -/
def joinerTry (core tid : Nat) (s : State) : State :=
  match (s.thread tid).joined, (s.thread tid).wait with
  | some j, .join f d b =>
    if j.lapsed then (match walkAddr s (s.taskT tid).cid f .read with
      | .inl _ => joinRead core tid j f d b s
      | .inr _ => s)
    else if stateSeen s (taskOf tid) j.pa = 0 then s else joinRead core tid j f d b (leaveJoin tid s)
  | some _, _ => leaveJoin tid s
  | none, _ => s

def execJoinerWake (core unit : Nat) (s : State) : Host.Outcome State Fault Refusal :=
  .next (match unitTid s core unit with
    | some tid => joinerTry core tid s
    | none => s)

/-! Setting the outcome (R174, R175). -/

def setOut (o : TOut) (s : State) : State := s.onTask (taskOf s.issue.tid) fun t => { t with out := o }

def execFset (h : Head) (a : SReg) (s : State) : Host.Outcome State Fault Refusal :=
  uniform h (fun s => if taskHeld s.cur then stall s else advance h (setOut (.full (s.cur.sget2 a)) s)) s

/-- A software cause is 0x80 to 0xFF, with the upper bits 0 (R174). -/
def causeOk (v : W32) : Bool := 0x80 ≤ v.toNat && v.toNat ≤ 0xFF

def execFflt (h : Head) (a b : SReg) (s : State) : Host.Outcome State Fault Refusal :=
  uniform h (fun s =>
    let c := s.cur.sget a
    if !causeOk c then faultAll h Cause.reservedField 0 false s
    else if taskHeld s.cur then stall s
    else advance h (setOut (.faulted (c.setWidth 8) (s.cur.sget2 b)) s)) s

/-- Completing another future at once, with the status returned (R175). -/
def completeOther (h : Head) (d : SReg) (x : W64) (st : Nat) (cause : W8) (v aux : W64) (s : State) : State :=
  let tid := s.issue.tid
  let k := taskOf tid
  if taskHeld s.cur || !storesDone s then stall s
  else
    match translate s.issue.core (s.curTask).cid x.toNat .write s with
    | (s, .inr c) => faultAll h c x true s
    | (s, .inl pa) =>
      if homeGone s pa then faultAll h Cause.fabricLost x false s
      else if wpmBlocks s.cur x.toNat 32 || !mayRead s s.issue.core tid x.toNat pa 32 then stall s
      else if poisonedTo s tid pa 32 then faultAll h Cause.ecc x false s
      else
        let seen := stateSeen s k pa
        if seen ≠ 0 then giveS d (statusWord seen 0) (advance h s)
        else if taskWriteBlocked s k pa 32 then stall (noteIssueStall k pa 32 s)
        else
          match isSpec s k, (s.task k).tag with
          | true, some t =>
            let f : SpecFut := ⟨t, (s.task k).root, (s.task k).cid, x.toNat, pa, st, cause, v, aux, (s.task k).wid⟩
            giveS d 0 (advance h (triggerGlobal pa 32 (some t) (dropCopies none t pa 32 { s with specFut := s.specFut ++ [f] })))
          | _, _ =>
            if !futureQuiet s pa then stall (askHost pa 32 s)
            else
              let s := noteGwct tid (gwctOf s pa) (writeFuture (s.task k).launch pa st cause v aux (s.task k).wid s)
              giveS d 0 (advance h s)

def execFsetAt (h : Head) (d a b : SReg) (s : State) : Host.Outcome State Fault Refusal :=
  uniform h (fun s =>
    let x := s.cur.sget2 b
    match addrFault x 32 with
    | some cause => faultAll h cause x false s
    | none => completeOther h d x 1 0 (s.cur.sget2 a) 0 s) s

def execFfltAt (h : Head) (d a b c : SReg) (s : State) : Host.Outcome State Fault Refusal :=
  uniform h (fun s =>
    let x := s.cur.sget2 c
    match addrFault x 32 with
    | some cause => faultAll h cause x false s
    | none =>
      if !causeOk (s.cur.sget a) then faultAll h Cause.reservedField 0 false s
      else completeOther h d x 2 ((s.cur.sget a).setWidth 8) 0 (s.cur.sget2 b) s) s

/-! `texit` and `tmark` (R176, R179). -/

def exitLanes (m : Mask) (t : Thread) : Thread := Thread.release { t with lanes := mapMask m (fun _ x => exitLane x) t.lanes }

/-- Its lanes exit; a sequencer context that has ended counts as arrived at its team's barrier (R176, R397). -/
def execTexit (h : Head) (s : State) : Host.Outcome State Fault Refusal :=
  uniform h (fun s => if taskHeld s.cur then stall s
    else
      let u := (advance h s).onCur (exitLanes (execMask h s))
      if isSeq s.issue.tid then barCheck (taskOf s.issue.tid) u else u) s

def execTmark (h : Head) (a : SReg) (s : State) : Host.Outcome State Fault Refusal :=
  uniform h (fun s => if taskHeld s.cur then stall s
    else advance h (s.onCur fun t => { t with mark := some (t.sget a, s.time) })) s

end Sys2Proof.Machine
end

