-- ==== Sys2Proof/Machine/Tiles.lean ====
section
/-!
DEFINITION. Layout records and the record cache (R34, R294 to R300), element addresses, padding and tiles (R297 to R299),
and the reads and writes that engines make at the homes (R265, R303, R305).
-/
namespace Sys2Proof.Machine

/-! What an engine's access comes to. -/

/-- An engine's access is made, waits, or stops with a fault at an address (R305). -/
inductive Stop where
  | none
  | wait
  | fault (cause : W8) (addr : Nat)
  deriving DecidableEq, Repr

/-- The first of two that is not `none`. -/
def Stop.orElse : Stop → Stop → Stop
  | .none, b => b
  | a, _ => a

/-- A translation fault of an engine: Umber first under UPF, and a page under migration is waited for (R305). -/
def engineFault (cid : Nat) (c : W8) (addr : Nat) (s : State) : State × Stop :=
  match agentFault cid c s with
  | (s, .wait) => (s, .wait)
  | (s, .fault c) => (s, .fault c addr)

/-- Where an engine's access at a virtual address goes. -/
def engineTo (core cid va : Nat) (need : Need) (s : State) : State × (Nat ⊕ Stop) :=
  match translate core cid va need s with
  | (s, .inr c) => let r := engineFault cid c va s
    (r.1, .inr r.2)
  | (s, .inl pa) => (s, .inl pa)

/-- The same, at a home that answers. -/
def engineAt (core cid va : Nat) (need : Need) (s : State) : State × (Nat ⊕ Stop) :=
  match engineTo core cid va need s with
  | (s, .inl pa) => if homeGone s pa then (s, .inr (.fault Cause.fabricLost va)) else (s, .inl pa)
  | r => r

/-- The addresses of an engine wrap modulo 2^64 (R297). -/
def wrap64 (n : Nat) : Nat := n % 2 ^ 64

/-- Bytes up to the end of the line of an address. -/
def lineRest (va n : Nat) : Nat := min n (128 - va % 128)

/-- Bytes read at the homes, line by line, up to the first that is not answered; a line that the L2 does not hold comes from its stack
(R303, R357). -/
def engineRead (core cid : Nat) (tag : Option Nat) : Nat → Nat → Nat → State → State × List W8 × Stop
  | 0, _, _, s => (s, [], .none)
  | fuel + 1, va, n, s =>
    if n = 0 then (s, [], .none)
    else
      let k := lineRest va n
      match engineAt core cid va .read s with
      | (s, .inr e) => (s, [], e)
      | (s, .inl pa) =>
        if poisonedFor s tag pa k then (s, [], .fault Cause.ecc va)
        else
          let r := engineRead core cid tag fuel (wrap64 (va + k)) (n - k) (fillL2 (lineOf pa) s)
          (r.1, ((List.range k).map fun i => viewByte s tag (pa + i)) ++ r.2.1, r.2.2)

def readBytes (core cid : Nat) (tag : Option Nat) (va n : Nat) (s : State) : State × List W8 × Stop :=
  engineRead core cid tag (n + 1) va n s

/-- One write of an engine: to a scratchpad place, or to memory; `exp` is a block's exponent with the place of the block
(R265). -/
inductive Put where
  | spad (k off : Nat) (bytes : List W8)
  | mem (pa : Nat) (bytes : List W8)
  | exp (pa e : Nat)
  deriving DecidableEq, Repr

/-- Where bytes for a virtual address go, line by line, up to the first that faults. -/
def enginePlace (core cid : Nat) : Nat → Nat → List W8 → State → State × List Put × Stop
  | 0, _, _, s => (s, [], .none)
  | fuel + 1, va, b, s =>
    if b.isEmpty then (s, [], .none)
    else
      let k := lineRest va b.length
      match engineAt core cid va .write s with
      | (s, .inr e) => (s, [], e)
      | (s, .inl pa) =>
        let r := enginePlace core cid fuel (wrap64 (va + k)) (b.drop k) s
        (r.1, .mem pa (b.take k) :: r.2.1, r.2.2)

def placeBytes (core cid va : Nat) (b : List W8) (s : State) : State × List Put × Stop :=
  enginePlace core cid (b.length + 1) va b s

/-! Block exponents (R265). -/

/-- The block of a BFP window at an address: its window and its number (R265). -/
def blockAt (s : State) (fmt pa : Nat) : Option (FWin × Nat) :=
  match fwinAt s pa with
  | some w => if w.fmt = fmt && (pa - w.base) % (4 * bfpBits fmt) = 0 then some (w, (pa - w.base) / (4 * bfpBits fmt)) else none
  | none => none

/-- An exponent written with its data: it enters the sideband of every line of the block (R265). -/
def setExp (pa e : Nat) (s : State) : State :=
  match fwinAt s pa with
  | some w =>
    let sz := 4 * bfpBits w.fmt
    let j := (pa - w.base) / sz
    let s := { s with poison := s.poison.filter (· != w.scale + j) }
    if landsAt s pa then { s with mem := byteSet s.mem (w.scale + j) (BitVec.ofNat 8 e) }
    else (linesOf pa sz).foldl (fun s l => (fillL2 l s).onL2 l fun x => { x with dirty := true, side := tput x.side j e }) s
  | none => s

/-! Writing as a task or as no task (R124, R303). -/

def Put.span : Put → Nat × Nat
  | .spad _ o b => (o, b.length)
  | .mem pa b => (pa, b.length)
  | .exp pa _ => (expKey pa, 1)

def speculative (s : State) (who : Option Nat) : Bool := who.any (isSpec s)

/-- A write to memory waits for resolution, or for the host's copy of a line (R124, R125, R446). -/
def putBlocked (s : State) (who : Option Nat) : Put → Bool
  | .spad .. => false
  | .mem pa b => (who.any fun k => taskWriteBlocked s k pa b.length) ||
      (!speculative s who && (linesOf pa b.length).any fun l => (s.l2line l).host)
  | .exp pa _ => who.any fun k => isSpec s k && (landsAt s pa || sectorTaken s ((s.task k).tag.getD 0) (s.task k).root (expKey pa) 1)

def putAsk (who : Option Nat) (s : State) : Put → State
  | .mem pa b => if speculative s who then s else askHost pa b.length s
  | _ => s

/-- The completion time of a write (R385), a speculative one's being the time at which it was issued (R124). -/
def putGwct (s : State) (who : Option Nat) (issued : Nat) : Put → Nat
  | .mem pa _ => if speculative s who then issued else gwctOf s pa
  | _ => 0

/-- An engine writes past the L1s, so no copy under its task's tag stays (R126, log 31). -/
def dropTagged (k pa n : Nat) (s : State) : State :=
  match isSpec s k, (s.task k).tag with
  | true, some t => dropCopies none t pa n s
  | _, _ => s

def putOne (who : Option Nat) (s : State) : Put → State
  | .spad k o b => spPut (k, o) b s
  | .mem pa b => match who with
    | some k => dropTagged k pa b.length (taskWrite k pa b.length (leNat b) s)
    | none => homeWrite pa b.length (leNat b) s
  | .exp pa e => match who, speculative s who with
    | some k, true => specWrite ((s.task k).tag.getD 0) (s.task k).root (expKey pa) 1 e s
    | _, _ => setExp pa e s

/-- Every write in order, each as the ones before it leave the lines, with the largest completion time; none while one of
them must wait (R125). -/
def putFrom (who : Option Nat) (issued : Nat) : List Put → State → Nat → Option (State × Nat)
  | [], s, g => some (s, g)
  | p :: l, s, g => if putBlocked s who p then none else putFrom who issued l (putOne who s p) (max g (putGwct s who issued p))

def putAll (who : Option Nat) (issued : Nat) (ps : List Put) (s : State) : Option (State × Nat) := putFrom who issued ps s 0

/-- A stall of a speculative task's engine write, counted by its reason (R125, R142). -/
def putStall (who : Option Nat) (s : State) (ps : List Put) : State :=
  match who, ps.find? (putBlocked s who) with
  | some k, some (.mem pa b) => if isSpec s k then noteStall k pa b.length s else s
  | some k, some (.exp pa _) => if isSpec s k then noteStall k (expKey pa) 1 s else s
  | _, _ => s

/-! Records (R34, R296). -/

def recOf (addr : Nat) (b : List W8) : Rec :=
  { addr := addr, base := fieldAt b 0 8, fmt := fieldAt b 8 1, rank := fieldAt b 9 1, pad := fieldAt b 10 1
    rsv := fieldAt b 11 1, padval := fieldAt b 12 4, dim := (List.range 4).map fun j => fieldAt b (0x10 + 4 * j) 4
    stride := (List.range 4).map fun j => fieldAt b (0x20 + 6 * j) 6
    tshape := (List.range 4).map fun j => fieldAt b (0x38 + 2 * j) 2 }

def Rec.bfp (r : Rec) : Bool := isBfp r.fmt
def Rec.bits (r : Rec) : Nat := bfpBits r.fmt
def fmtKnown (f : Nat) : Bool := (1 ≤ f && f ≤ 10) || isBfp f

/-- Bytes of an element that is not of a BFP format (R297). -/
def sizeOf (fmt : Nat) : Nat :=
  match fmt with
  | 1 | 4 | 9 | 10 => 1
  | 2 | 5 | 8 => 2
  | _ => 4

def Rec.dimAt (r : Rec) (j : Nat) : Nat := r.dim.getD j 1
def Rec.strideAt (r : Rec) (j : Nat) : Nat := r.stride.getD j 0
def Rec.tileAt (r : Rec) (j : Nat) : Nat := r.tshape.getD j 1

/-- The rules of a record (R34, R296). -/
def Rec.ok (r : Rec) : Bool :=
  fmtKnown r.fmt && 1 ≤ r.rank && r.rank ≤ 4 && r.pad ≤ 2 && r.rsv == 0 &&
  ((List.range 4).all fun j =>
    1 ≤ r.tileAt j && (if j < r.rank then 1 ≤ r.dimAt j else r.dimAt j == 1 && r.tileAt j == 1 && r.strideAt j == 0)) &&
  (if r.bfp then
    r.strideAt 0 == 1 && ((List.range 3).all fun j => r.strideAt (j + 1) % 32 == 0) && r.tileAt 0 % 32 == 0 &&
      r.base % (4 * r.bits) == 0
   else r.base % sizeOf r.fmt == 0)

/-- The linear index of an element, modulo 2^64, and its address or its block's (R297). -/
def Rec.index (r : Rec) (e : List Nat) : Nat := wrap64 (((e.zip r.stride).map fun p => p.1 * p.2).foldl (· + ·) 0)
def Rec.addrOf (r : Rec) (e : List Nat) : Nat :=
  wrap64 (if r.bfp then r.base + 4 * r.bits * (r.index e / 32) else r.base + r.index e * sizeOf r.fmt)

/-- An element is in bounds (R298). -/
def Rec.inside (r : Rec) (e : List Nat) : Bool := (List.range r.rank).all fun j => e.getD j 0 < r.dimAt j
/-- A coordinate at or above RANK is not 0 (R298). -/
def Rec.extra (r : Rec) (e : List Nat) : Bool := (List.range 4).any fun j => r.rank ≤ j && e.getD j 0 != 0
/-- CLAMP (R298). -/
def Rec.clamp (r : Rec) (e : List Nat) : List Nat := (List.range 4).map fun j => min (e.getD j 0) (r.dimAt j - 1)

/-- Elements and bytes of a tile (R299). -/
def Rec.count (r : Rec) : Nat := boxSize r.tshape
def Rec.tileSize (r : Rec) : Nat := if r.bfp then r.count / 32 * (4 * r.bits + 1) else r.count * sizeOf r.fmt

/-- The record element of dense tile element `i` of the tile at coordinates `c` (R31, R299). -/
def Rec.elem (r : Rec) (c : List Nat) (i : Nat) : List Nat :=
  ((linFields r.tshape i).zip (c.zip r.tshape)).map fun p => p.2.1 * p.2.2 + p.1

/-- The tile lies within DIM. -/
def Rec.holds (r : Rec) (c : List Nat) : Bool :=
  (List.range r.rank).all fun j => (c.getD j 0 + 1) * r.tileAt j ≤ r.dimAt j

/-! The record cache (R294, R300). -/

/-- What a use of a handle comes to. -/
inductive Use where
  | ok (r : Rec)
  | wait
  | bad (cause : W8) (addr : Nat) (tr : Bool)
  deriving DecidableEq, Repr

/-- A strong read of a record or a table entry; a use under a context, with the view of a tag (R126). -/
def tableRead (core cid : Nat) (tag : Option Nat) (va n : Nat) (s : State) : State × (List W8 ⊕ Use) :=
  match translate core cid va .read s with
  | (s, .inr c) => (s, .inr (.bad c va true))
  | (s, .inl pa) =>
    if homeGone s pa then (s, .inr (.bad Cause.fabricLost va false))
    else if poisonedFor s tag pa n then (s, .inr (.bad Cause.ecc va false))
    else (fillL2 (lineOf pa) s, .inl ((List.range n).map fun i => viewByte s tag (pa + i)))

/-- The same by an instruction: the read is a load of its task (R126, R295), after the thread's earlier accesses that hold it back
(R271, R387). -/
def issueRead (va n : Nat) (s : State) : State × (List W8 ⊕ Use) :=
  match translate s.issue.core (s.curTask).cid va .read s with
  | (s, .inr c) => (s, .inr (.bad c va true))
  | (s, .inl pa) =>
    if !homeGone s pa && !mayRead s s.issue.core s.issue.tid va pa n then (s, .inr .wait)
    else tableRead s.issue.core (s.curTask).cid (viewTag s (taskOf s.issue.tid)) va n s

/-- The virtual address of a handle's table entry (R294). -/
def entryVa (s : State) (cid h : Nat) : Nat := wrap64 ((s.ctx cid).ltbase + 8 * h)

def touchRec (core h : Nat) (r : Rec) (s : State) : State :=
  s.onCore core fun c => { c with layout := ((h, r) :: c.layout.filter fun e => e.1 != h).take 64 }

/-- The record of a handle, valid (R296), from the cache or by two reads; an unbound handle names its table entry. -/
def useRec (core cid h : Nat) (s : State) : State × Use :=
  match (s.core core).layout.find? fun e => e.1 == h with
  | some e => (touchRec core h e.2 s, if e.2.ok then .ok e.2 else .bad Cause.reservedField e.2.addr false)
  | none =>
    match tableRead core cid none (entryVa s cid h) 8 s with
    | (s, .inr u) => (s, u)
    | (s, .inl b) =>
      let a := leNat b
      if a = 0 then (s, .bad Cause.reservedField (entryVa s cid h) false)
      else if 2 ^ 52 ≤ a then (s, .bad Cause.noncanonical a false)
      else if a % 64 ≠ 0 then (s, .bad Cause.reservedField a false)
      else
        match tableRead core cid none a 64 s with
        | (s, .inr u) => (s, u)
        | (s, .inl b) =>
          let r := recOf a b
          (touchRec core h r s, if r.ok then .ok r else .bad Cause.reservedField a false)

/-! Reading a tile (R298, R299). -/

/-- The bits of the mantissas of a block in memory that hold element `x mod 32`: first byte, byte count, bit offset. -/
def mantAt (b i : Nat) : Nat × Nat × Nat := (b * i / 8, (b * i % 8 + b + 7) / 8, b * i % 8)

/-- One element's code, as stored; a BFP element's mantissa bits. -/
def readElem (core cid : Nat) (tag : Option Nat) (r : Rec) (e : List Nat) (s : State) : State × Nat × Stop :=
  if r.bfp then
    let m := mantAt r.bits (r.index e % 32)
    let x := readBytes core cid tag (wrap64 (r.addrOf e + m.1)) m.2.1 s
    (x.1, leNat x.2.1 / 2 ^ m.2.2 % 2 ^ r.bits, x.2.2)
  else
    let x := readBytes core cid tag (r.addrOf e) (sizeOf r.fmt) s
    (x.1, leNat x.2.1, x.2.2)

/-- The exponent of a block of a record (R265); its data lie in a valid window of the record's format. -/
def readExp (core cid : Nat) (tag : Option Nat) (r : Rec) (e : List Nat) (s : State) : State × Nat × Stop :=
  match engineAt core cid (r.addrOf e) .read s with
  | (s, .inr x) => (s, 0, x)
  | (s, .inl pa) =>
    match blockAt s r.fmt pa with
    | none => (s, 0, .fault Cause.formatMismatch (r.addrOf e))
    | some (w, j) =>
      if (tag.bind fun t => specByte s t (expKey pa)).isNone && poisoned s (w.scale + j) 1 then (s, 0, .fault Cause.ecc (r.addrOf e))
      else
        let s := fillL2 (lineOf pa) s
        (s, expOf s tag w j pa, .none)

/-- The pad value of a record's elements (R298). -/
def Rec.padCode (r : Rec) : Nat := r.padval % 2 ^ (if r.bfp then r.bits else 8 * sizeOf r.fmt)

/-- An element with its padding (R298). -/
def paddedElem (core cid : Nat) (tag : Option Nat) (r : Rec) (e : List Nat) (s : State) : State × Nat × Stop :=
  if r.inside e then readElem core cid tag r e s
  else if r.pad = 0 then (s, r.padCode, .none)
  else if r.pad = 1 then readElem core cid tag r (r.clamp e) s
  else (s, 0, .fault Cause.bounds (r.addrOf e))

/-- A list of elements, up to the first that is not read. -/
def readMany (f : Nat → State → State × Nat × Stop) : List Nat → State → State × List Nat × Stop
  | [], s => (s, [], .none)
  | i :: l, s =>
    match f i s with
    | (s, v, .none) => let r := readMany f l s
      (r.1, v :: r.2.1, r.2.2)
    | (s, _, e) => (s, [], e)

/-- The low `n` bytes of a number. -/
def toBytes (n v : Nat) : List W8 := (List.range n).map fun i => BitVec.ofNat 8 (v / 256 ^ i)

/-- Mantissa codes of a block, packed (R54). -/
def packCodes (b : Nat) : List Nat → Nat
  | [] => 0
  | m :: l => m % 2 ^ b + 2 ^ b * packCodes b l

/-- Codes in groups of 32. -/
def packBlocks (b : Nat) : Nat → List Nat → List W8
  | 0, _ => []
  | n + 1, l => toBytes (4 * b) (packCodes b (l.take 32)) ++ packBlocks b n (l.drop 32)

/-- The tile's bytes in dense order, the exponents after the mantissas (R299); a block wholly out of bounds has exponent
0 (R298). What was read before a stop stands in front of it. -/
def readTile (core cid : Nat) (tag : Option Nat) (r : Rec) (c : List Nat) (s : State) : State × List W8 × Stop :=
  let x := readMany (fun i => paddedElem core cid tag r (r.elem c i)) (List.range r.count) s
  if r.bfp then
    match x.2.2 with
    | .none =>
      let y := readMany (fun j s => let e := r.elem c (32 * j)
        if r.inside e then readExp core cid tag r e s else (s, 0, .none)) (List.range (r.count / 32)) x.1
      (y.1, packBlocks r.bits (r.count / 32) x.2.1 ++ y.2.1.map fun e => BitVec.ofNat 8 e, y.2.2)
    | e => (x.1, packBlocks r.bits (x.2.1.length / 32) x.2.1, e)
  else (x.1, x.2.1.flatMap (toBytes (sizeOf r.fmt)), x.2.2)

/-! Writing a tile (R31, R303). -/

/-- The writes of one in-bounds element whose bytes are given. -/
def placeElem (core cid : Nat) (r : Rec) (e : List Nat) (b : List W8) (s : State) : State × List Put × Stop :=
  placeBytes core cid (r.addrOf e) b s

/-- The writes of one block: its first `n` mantissas, the bits above them kept, and its exponent (R265, R303). -/
def placeBlock (core cid : Nat) (tag : Option Nat) (r : Rec) (e : List Nat) (n code ex : Nat) (s : State) :
    State × List Put × Stop :=
  let bits := r.bits * n
  let len := (bits + 7) / 8
  let a := r.addrOf e
  match readBytes core cid tag a len s with
  | (s, old, .none) =>
    let v := code % 2 ^ bits + leNat old / 2 ^ bits * 2 ^ bits
    (match engineAt core cid a .write s with
     | (s, .inr x) => (s, [], x)
     | (s, .inl pa) =>
       if (blockAt s r.fmt pa).isNone then (s, [], .fault Cause.formatMismatch a)
       else
         let p := placeBytes core cid a (toBytes len v) s
         (p.1, (match p.2.2 with
           | .none => p.2.1 ++ [.exp pa ex]
           | _ => p.2.1), p.2.2))
  | (s, _, x) => (s, [], x)

/-- Placing in order, up to the first stop. -/
def placeMany (f : Nat → State → State × List Put × Stop) : List Nat → State → State × List Put × Stop
  | [], s => (s, [], .none)
  | i :: l, s =>
    match f i s with
    | (s, ps, .none) => let r := placeMany f l s
      (r.1, ps ++ r.2.1, r.2.2)
    | (s, ps, e) => (s, ps, e)

/-- The writes of a tile whose bytes stand in a buffer (R303): only elements in bounds, FAULT padding a fault. -/
def placeTile (core cid : Nat) (tag : Option Nat) (r : Rec) (c : List Nat) (b : List W8) (s : State) :
    State × List Put × Stop :=
  if r.bfp then
    placeMany (fun j s =>
      let e := r.elem c (32 * j)
      let n := if r.inside e then min 32 (r.dimAt 0 - e.getD 0 0) else 0
      if n < 32 && r.pad = 2 then
        (s, [], .fault Cause.bounds (r.addrOf (e.set 0 (e.getD 0 0 + n))))
      else if n = 0 then (s, [], .none)
      else placeBlock core cid tag r e n (fieldAt b (4 * r.bits * j) (4 * r.bits)) (fieldAt b (r.count / 32 * (4 * r.bits) + j) 1) s)
      (List.range (r.count / 32)) s
  else
    let z := sizeOf r.fmt
    placeMany (fun i s =>
      let e := r.elem c i
      if r.inside e then placeElem core cid r e ((b.drop (z * i)).take z) s
      else if r.pad = 2 then (s, [], .fault Cause.bounds (r.addrOf e)) else (s, [], .none)) (List.range r.count) s

/-- The global bytes of a tile, for the order of R271. -/
def tileSpan (r : Rec) (c : List Nat) : List (Nat × Nat) :=
  ((List.range r.count).map fun i => let e := r.elem c i
    (r.addrOf (if r.inside e then e else r.clamp e), if r.bfp then 4 * r.bits else sizeOf r.fmt)).eraseDups

/-! Arrivals (R259). -/

/-- Bytes delivered after a header, counted as one arrival; none when it is refused. -/
def arrive (k hdr off : Nat) (b : List W8) (s : State) : Option State :=
  match arriveHdr (readHdr s k hdr) b.length with
  | none => none
  | some w => some (setHdr k hdr w (spPut (k, off) b s))

end Sys2Proof.Machine
end

