-- ==== Sys2Proof/Machine/Copy.lean ====
section
/-!
DEFINITION. The copy engine and the streams: `lbind`, `laddr`, `cpy`, `strm`, `strmend`, the transfers and the slices
(R295, R301 to R311).
-/
namespace Sys2Proof.Machine

/-! `lbind` and `laddr` (R295, R311). -/

/-- A handle leaves the record cache of every core of a context (R295). -/
def dropHandle (cid h : Nat) (s : State) : State :=
  (s.ctx cid).cores.foldl (fun s c => s.onCore c fun x => { x with layout := x.layout.filter fun e => e.1 != h }) s

/-- The table entry is written (R295). -/
def bindEntry (h : Head) (hd : Nat) (r : W64) (s : State) : State :=
  let cid := (s.curTask).cid
  let va := entryVa s cid hd
  if isSpec s (taskOf s.issue.tid) then stall s
  else
    match translate s.issue.core cid va .write s with
    | (s, .inr c) => faultAll h c (BitVec.ofNat 64 va) true s
    | (s, .inl pa) =>
      if homeGone s pa then faultAll h Cause.fabricLost (BitVec.ofNat 64 va) false s
      else if !futureQuiet s pa || wpmBlocks s.cur va 8 || !mayRead s s.issue.core s.issue.tid va pa 8 then
        stall (askHost pa 8 s)
      else advance h (dropHandle cid hd (noteGwct s.issue.tid (gwctOf s pa) (homeWriteOf (s.curTask).launch pa 8 r.toNat s)))

def execLbind (h : Head) (a b : SReg) (s : State) : Host.Outcome State Fault Refusal :=
  uniform h (fun s =>
    let r := s.cur.sget2 b
    let hd := (s.cur.sget a).toNat % 65536
    if acqPending s.cur || relPending s.cur then stall s
    else if r = 0 then bindEntry h hd r s
    else
      match addrFault r 64 with
      | some c => faultAll h c r false s
      | none =>
        match issueRead r.toNat 64 s with
        | (s, .inr .wait) => stall s
        | (s, .inr (.bad c va tr)) => faultAll h c (BitVec.ofNat 64 va) tr s
        | (s, .inr (.ok _)) => stall s
        | (s, .inl b) =>
          if !(recOf r.toNat b).ok then faultAll h Cause.reservedField r false s else bindEntry h hd r s) s

/-- The coordinates of a lane of `laddr`: a vector quad's lane, or a scalar quad. -/
def quadAt (t : Thread) (l : Nat) : Quad → List Nat
  | .vec q => (List.range 4).map fun j => (t.vlane (4 * q.toNat + j) l).toNat
  | .sca q => (List.range 4).map fun j => (t.sget (BitVec.ofNat 6 (4 * q.toNat + j))).toNat

/-- The record of the handle is used at issue, after every earlier acquire: the issue waits, or every lane of `exec` parks (R296,
R300, R388). -/
def withRec (h : Head) (handle : Nat) (f : Rec → State → State) (s : State) : State :=
  if acqPending s.cur then stall s
  else match useRec s.issue.core (s.curTask).cid handle s with
  | (s, .ok r) => f r s
  | (s, .wait) => stall s
  | (s, .bad c va tr) => faultAll h c (BitVec.ofNat 64 va) tr s

/-- A lane of `laddr` parks. -/
def laddrBad (r : Rec) (e : List Nat) : Bool := r.extra e || (!r.inside e && r.pad == 2)

def laddrLanes (h : Head) (d : VReg) (c : Pred) (b : Quad) (r : Rec) (s : State) : State :=
  let t := s.cur
  let lanes := lanesOf (execMask h s)
  let good := lanes.filter fun l => !laddrBad r (quadAt t l b)
  let bad := lanes.filter fun l => laddrBad r (quadAt t l b)
  let value : Nat → Nat := fun l =>
    let e := quadAt t l b
    if r.inside e then r.addrOf e else if r.pad = 0 then 0 else r.addrOf (r.clamp e)
  let put := fun (t : Thread) =>
    let m := maskBy good
    let t := t.varV d.toNat m (rowOf fun l => BitVec.ofNat 32 (value l))
    let t := t.varV (d.toNat + 1) m (rowOf fun l => BitVec.ofNat 32 (value l / 2 ^ 32))
    t.varP c m (maskBy (good.filter fun l => r.inside (quadAt t l b)))
  parkCur h (bad.map fun l => ⟨l, Cause.bounds, BitVec.ofNat 64 (r.addrOf (quadAt t l b)), false⟩)
    ((advance h s).onCur put)

def execLaddr (h : Head) (d : VReg) (c : Pred) (a : SReg) (b : Quad) (s : State) : Host.Outcome State Fault Refusal :=
  uniform h (fun s => withRec h ((s.cur.sget a).toNat % 65536) (laddrLanes h d c b) s) s

/-! `cpy` (R301, R302). -/

def cmdKind (w : Nat) : Nat := w % 8
def cmdCvt (w : Nat) : Bool := w.testBit 3
/-- The format code of a field of the command word. -/
def cmdFmt (f : Nat) : Nat := 8 + f
def cmdSrc (w : Nat) : Nat := cmdFmt (w / 2 ^ 4 % 4)
def cmdDst (w : Nat) : Nat := cmdFmt (w / 2 ^ 6 % 4)
def cmdRm (w : Nat) : Rm := match w / 2 ^ 8 % 4 with
  | 0 => .rne
  | 1 => .rtz
  | 2 => .rdn
  | _ => .rup
def cmdSat (w : Nat) : Bool := w.testBit 10
def cmdSpf (w : Nat) : Bool := w.testBit 11
def cmdSpt (w : Nat) : Bool := w.testBit 12
def cmdHandle (w : Nat) : Nat := w / 2 ^ 16 % 2 ^ 16

/-- The command word's own rules (R301). -/
def cmdOk (w : Nat) : Bool :=
  cmdKind w ≤ 2 && w / 2 ^ 13 % 8 == 0 && w / 2 ^ 32 == 0 &&
  (if cmdKind w = 0 then cmdHandle w == 0 else !cmdCvt w && !cmdSpf w && !cmdSpt w) &&
  (if cmdCvt w then [(0, 1), (0, 2), (1, 0), (2, 0)].contains (w / 2 ^ 4 % 4, w / 2 ^ 6 % 4) else w / 2 ^ 4 % 2 ^ 7 == 0)

/-- Bytes of a source and of a destination element of a LINEAR command. -/
def cmdSizes (w : Nat) : Nat × Nat := if cmdCvt w then (sizeOf (cmdSrc w), sizeOf (cmdDst w)) else (1, 1)
/-- The destination extent (R303). -/
def cmdExtent (w count : Nat) : Nat := count / (cmdSizes w).1 * (cmdSizes w).2

/-- Check 1 of R302. -/
def cpyOk (w src dst count : Nat) : Bool :=
  cmdOk w &&
  (match cmdKind w with
   | 0 => !(cmdSpf w && src / 2 ^ 32 != 0) && !(cmdSpt w && dst / 2 ^ 32 != 0)
   | 1 => dst / 2 ^ 32 == 0 && count == 0
   | _ => src / 2 ^ 32 == 0 && count == 0)

/-- A range of global addresses is canonical at both ends. -/
def rangeCanonical (a n : Nat) : Bool := a < 2 ^ 52 && (n == 0 || a + n - 1 < 2 ^ 52)

/-- Checks 1 to 4 of a LINEAR command. -/
def linearFault (s : State) (k w src dst count : Nat) : Option W8 :=
  let e := cmdExtent w count
  if !cpyOk w src dst count then some Cause.reservedField
  else if !(cmdSpf w || rangeCanonical src count) || !(cmdSpt w || rangeCanonical dst e) then some Cause.noncanonical
  else if cmdCvt w && (src % (cmdSizes w).1 != 0 || count % (cmdSizes w).1 != 0 || dst % (cmdSizes w).2 != 0) then
    some Cause.misaligned
  else if (cmdSpf w && (spLoc s k src count).isNone) || (cmdSpt w && (spLoc s k dst e).isNone) then some Cause.bounds
  else none

/-- The four coordinates of a pair of registers. -/
def coords (v : Nat) : List Nat := (List.range 4).map fun j => v / 2 ^ (16 * j) % 2 ^ 16

/-- The header and the coordinates of a TLOAD or a TSTORE. -/
def cmdHdr (w src dst : Nat) : Nat := if cmdKind w = 1 then dst else src
def cmdCoords (w src dst : Nat) : List Nat := coords (if cmdKind w = 1 then src else dst)

/-- Check 6 of R302, on the header where it lies. -/
def tileFault (s : State) (w hk hoff : Nat) (r : Rec) (c : List Nat) : Bool :=
  let x := readHdr s hk hoff
  (if cmdKind w = 1 then hdrState x != 0 || hdrTarget x != r.tileSize else hdrState x != 2) || (r.pad == 2 && !r.holds c)

/-- A command takes a slot of the engine and counts in CPY (R302). -/
def pushCpy (h : Head) (w src dst count : Nat) (r : Rec) (rd wr wsp : List (Nat × Nat)) (s : State) : State :=
  let id := s.nextId
  let s := pushOp { id := 0, cls := 0, kind := .cpy, rd := rd, wr := wr, wsp := wsp } (advance h s)
  s.onCore s.issue.core fun c =>
    { c with cpy := c.cpy ++ [{ id := id, at' := s.time, tid := some s.issue.tid, cid := (s.curTask).cid, kind := cmdKind w
                                cmd := BitVec.ofNat 64 w, src := src, dst := dst, count := count, lrec := r }] }

/-- The command may not take its slot yet (R302). -/
def cpyHeld (s : State) : Bool := opHeld s.cur 0 || 64 ≤ (s.core s.issue.core).cpy.length

def issueLinear (h : Head) (w src dst count : Nat) (s : State) : State :=
  match linearFault s (taskOf s.issue.tid) w src dst count with
  | some c => faultAll h c 0 false s
  | none =>
    if cpyHeld s then stall s
    else
      let e := cmdExtent w count
      pushCpy h w src dst count {} (if cmdSpf w then [] else [(src, count)]) (if cmdSpt w then [] else [(dst, e)])
        (if cmdSpt w then [(dst, e)] else []) s

/-- Checks 3 to 6 of TLOAD and TSTORE; check 4 needs the tile's size, which is that of a valid record. -/
def issueTile (h : Head) (w src dst : Nat) (s : State) : State :=
  let k := taskOf s.issue.tid
  let hdr := cmdHdr w src dst
  let c := cmdCoords w src dst
  let u := useRec s.issue.core (s.curTask).cid (cmdHandle w) s
  let size := match u.2 with
    | .ok r => r.tileSize
    | _ => 0
  if hdr % 128 ≠ 0 then faultAll h Cause.misaligned 0 false s
  else if acqPending s.cur then stall s
  else
    match spLoc s k hdr (128 + size) with
    | none => faultAll h Cause.bounds 0 false u.1
    | some p => withRec h (cmdHandle w) (fun r s =>
        if r.extra c then faultAll h Cause.reservedField (BitVec.ofNat 64 r.addr) false s
        else if tileFault s w p.1 p.2 r c then faultAll h Cause.bounds 0 false s
        else if cpyHeld s then stall s
        else if cmdKind w = 1 then pushCpy h w src dst 0 r (tileSpan r c) [] [(hdr, 128 + size)] s
        else
          let x := readHdr s p.1 p.2
          setHdr p.1 p.2 (hdrWord 3 (hdrGen x) (hdrTarget x) (hdrArrived x))
            (pushCpy h w src dst 0 r [] (tileSpan r c) [(hdr, 8)] s)) s

/-- The octet at a register whose index is a multiple of 8. -/
def octet (a : BitVec 3) (i : Nat) : SReg := BitVec.ofNat 6 (8 * a.toNat + i)

def execCpy (h : Head) (a : BitVec 3) (s : State) : Host.Outcome State Fault Refusal :=
  uniform h (fun s =>
    let t := s.cur
    let w := (t.sget2 (octet a 0)).toNat
    let src := (t.sget2 (octet a 2)).toNat
    let dst := (t.sget2 (octet a 4)).toNat
    let n := (t.sget2 (octet a 6)).toNat
    if cmdKind w = 0 then issueLinear h w src dst n s
    else if !cpyOk w src dst n then faultAll h Cause.reservedField 0 false s
    else issueTile h w src dst s) s

/-! Transfers (R303 to R305). -/

/-- The formats of the command word, as types. -/
def fmtTy (f : Nat) : Ty := match f with
  | 8 => .bf16
  | 9 => .e4m3
  | _ => .e5m2

/-- Converted elements of a run of bytes, and how many SATFINITE replaced (R61). -/
def convertRun (w : Nat) : Nat → List W8 → List W8 × Nat
  | 0, _ => ([], 0)
  | n + 1, b =>
    let z := cmdSizes w
    let r := convert (fmtTy (cmdSrc w)) (fmtTy (cmdDst w)) (cmdRm w) (cmdSat w) (leNat (b.take z.1))
    let q := convertRun w n (b.drop z.1)
    (toBytes z.2 r.1 ++ q.1, q.2 + if r.2 &&& fSAT = 0 then 0 else 1)

/-- The task as which a command writes, and the tag whose bytes a write into part of a block keeps (R124, R303, log 31). What
a command reads is committed: R126 gives an engine no other view. -/
def cmdTask (x : CpyCmd) : Option Nat := x.tid.map taskOf
def cmdTag (s : State) (x : CpyCmd) : Option Nat := (cmdTask x).bind (viewTag s)

/-- The runs of bytes for a task's scratchpad that lie in no header's slot: a LINEAR copy changes no header (R258, R303). -/
def bodyRuns (t : Task) : Nat → List W8 → List (Nat × List W8)
  | _, [] => []
  | o, b :: l =>
    let r := bodyRuns t (o + 1) l
    if (headerOf t o).isSome then r
    else match r with
      | (o', bs) :: q => if o' = o + 1 then (o, b :: bs) :: q else (o, [b]) :: r
      | [] => [(o, [b])]

/-- The writes of a LINEAR command, where they stop, and its replacements. -/
def planLinear (core : Nat) (x : CpyCmd) (s : State) : State × List Put × Stop × Nat :=
  let w := x.cmd.toNat
  let k := (cmdTask x).getD 0
  let src := if cmdSpf w then
      (s, (match spLoc s k x.src x.count with
        | some p => toBytes x.count (spRead s p x.count)
        | none => []), Stop.none)
    else readBytes core x.cid none x.src x.count s
  let out := if cmdCvt w then convertRun w (src.2.1.length / (cmdSizes w).1) src.2.1 else (src.2.1, 0)
  if cmdSpt w then
    (src.1, (match spLoc src.1 k x.dst out.1.length with
      | some p => (bodyRuns (src.1.task p.1) p.2 out.1).map fun r => .spad p.1 r.1 r.2
      | none => []), src.2.2, out.2)
  else
    let p := placeBytes core x.cid x.dst out.1 src.1
    (p.1, p.2.1, p.2.2.orElse src.2.2, out.2)

/-- The command has moved its bytes (R304). -/
def cmdMoved (core id g : Nat) (f : Option (W8 × W64)) (s : State) : State :=
  s.onCore core fun c =>
    { c with cpy := c.cpy.map fun x => if x.id == id then { x with state := 1, gwct := g, fault := f } else x }

/-- A command ends its transfer, with its fault left pending with a warp (R305). -/
def endTransfer (core : Nat) (x : CpyCmd) (g : Nat) (e : Stop) (s : State) : State :=
  match e with
  | .fault c a =>
    let s := match x.tid with
      | some i => pendFaultOf i 0 c (BitVec.ofNat 64 a) s
      | none => countLost c s
    cmdMoved core x.id g (some (c, BitVec.ofNat 64 a)) s
  | _ => cmdMoved core x.id g none s

/-- The writes are made as the command's task, and the transfer ends; or it waits. -/
def finishPuts (core : Nat) (x : CpyCmd) (ps : List Put) (e : Stop) (f : State → State) (s : State) : State :=
  if e = .wait then s
  else
    match putAll (cmdTask x) x.at' ps s with
    | none =>
      let s := ps.foldl (putAsk (cmdTask x)) s
      if x.counted || !(speculative s (cmdTask x)) then s
      else (putStall (cmdTask x) s ps).onCore core fun c =>
        { c with cpy := c.cpy.map fun y => if y.id == x.id then { y with counted := true } else y }
    | some (s, g) => f (endTransfer core x g e s)

def moveLinear (core : Nat) (x : CpyCmd) (s : State) : State :=
  let r := planLinear core x s
  finishPuts core x r.2.1 r.2.2.1 (fun s => s.onCore core fun c => { c with cpysat := (c.cpysat + r.2.2.2) % 2 ^ 32 }) r.1

/-- TLOAD: the tile arrives at its header (R259, R303). -/
def moveTload (core : Nat) (x : CpyCmd) (s : State) : State :=
  match spLoc s ((cmdTask x).getD 0) x.dst (128 + x.lrec.tileSize) with
  | none => endTransfer core x 0 .none s
  | some p =>
    let r := readTile core x.cid none x.lrec (coords x.src) s
    if r.2.2 = .wait then r.1
    else if r.2.1.isEmpty then endTransfer core x 0 r.2.2 r.1
    else
      match arrive p.1 p.2 (p.2 + 128) r.2.1 r.1 with
      | none => endTransfer core x 0 (.fault Cause.bounds 0) r.1
      | some s => endTransfer core x 0 r.2.2 s

/-- TSTORE: the buffer empties once it has been read; a fault returns it to FULL (R259, R303, R305). -/
def moveTstore (core : Nat) (x : CpyCmd) (s : State) : State :=
  match spLoc s ((cmdTask x).getD 0) x.src (128 + x.lrec.tileSize) with
  | none => endTransfer core x 0 .none s
  | some p =>
    let b := toBytes x.lrec.tileSize (spRead s (p.1, p.2 + 128) x.lrec.tileSize)
    let r := placeTile core x.cid (cmdTag s x) x.lrec (coords x.dst) b s
    let e := r.2.2
    let hdr : State → State := fun s =>
      let w := readHdr s p.1 p.2
      setHdr p.1 p.2 (match e with
        | .fault .. => hdrWord 2 (hdrGen w) (hdrTarget w) (hdrArrived w)
        | _ => hdrWord 0 (hdrGen w + 1) (hdrTarget w) 0) s
    finishPuts core x r.2.1 e hdr r.1

/-- The issuing thread's earlier accesses to the command's bytes have taken effect (R271), and its task goes on (R431); a COPY packet's
command has lost no packet (R410). -/
def cmdReady (s : State) (x : CpyCmd) : Bool :=
  match x.tid with
  | none => x.lost.isNone
  | some t => !halted s (taskOf t) && (match (s.thread t).ops.find? fun o => o.id == x.id with
    | some o => opReady s t o
    | none => true)

/-- The scratchpad bytes that a command moves hold an uncorrectable error, which is fatal to its task (R430, R466). -/
def cmdPoisoned (s : State) (x : CpyCmd) : Bool :=
  let k := (cmdTask x).getD 0
  match x.kind with
  | 0 => cmdSpf x.cmd.toNat && (spLoc s k x.src x.count).any fun p => spPoisoned s p x.count
  | 1 => false
  | _ => (spLoc s k x.src (128 + x.lrec.tileSize)).any fun p => spPoisoned s (p.1, p.2 + 128) x.lrec.tileSize
def opFatal (tid id a : Nat) (s : State) : State := match (s.thread tid).ops.find? fun o => o.id == id with
  | some o => fatalEcc tid o a s
  | none => s

def execCpyTransfer (core idx : Nat) (s : State) : Host.Outcome State Fault Refusal :=
  .next (match (s.core core).cpy[idx]? with
    | none => s
    | some x =>
      if x.state ≠ 0 || !cmdReady s x then s
      else if cmdPoisoned s x then opFatal (x.tid.getD 0) x.id x.src s
      else match x.kind with
        | 0 => moveLinear core x s
        | 1 => moveTload core x s
        | _ => moveTstore core x s)

/-- A command of a warp completes once device time has passed its largest completion time; a COPY packet's stays for the
packet (R304). -/
def execCpyComplete (core idx : Nat) (s : State) : Host.Outcome State Fault Refusal :=
  .next (match (s.core core).cpy[idx]? with
    | none => s
    | some x =>
      if x.state = 1 && x.gwct < s.time then
        match x.tid with
        | some t => completeOp t x.id (s.onCore core fun c => { c with cpy := c.cpy.filter fun y => y.id != x.id })
        | none => s.onCore core fun c => { c with cpy := c.cpy.map fun y => if y.id == x.id then { y with state := 2 } else y }
      else s)

/-! Streams (R306 to R310). -/

def fifoOf (c : Core) (f : Nat) : List Slice :=
  match f with
  | 0 => c.fifo0
  | 1 => c.fifo1
  | 2 => c.fifo2
  | _ => c.fifo3

def setFifo (f : Nat) (l : List Slice) (c : Core) : Core :=
  match f with
  | 0 => { c with fifo0 := l }
  | 1 => { c with fifo1 := l }
  | 2 => { c with fifo2 := l }
  | _ => { c with fifo3 := l }

/-- Tasks of a core with a sequencer context, which a team holds until it retires (R306, R314). -/
def matrixTasks (s : State) (core : Nat) : List Nat :=
  (s.core core).slots.filterMap fun e => if isSeq e.2 then some (taskOf e.2) else none

/-- The entries of a FIFO that the other resident matrix teams still need to hold four each (R306). -/
def othersNeed (s : State) (core k f : Nat) : Nat :=
  (((matrixTasks s core).filter fun u => u != k).map fun u => 4 - ((fifoOf (s.core core) f).filter fun x => x.task == u).length).foldl (· + ·) 0

/-- A slice of task `k`, which goes on, may take a free entry (R306, R431). -/
def fifoRoom (s : State) (core k f : Nat) : Bool :=
  !halted s k && (fifoOf (s.core core) f).length + othersNeed s core k f < 16

/-- The bound of a dimension for a stream: the record's, or the tile's for a buffer (R307). -/
def strmDim (r : Rec) (spb : Bool) (j : Nat) : Nat := if spb then r.tileAt j else r.dimAt j

/-- The element of a slice position (R307). -/
def sliceElem (x : Strm) (sl row k : Nat) : List Nat := [x.k0 + 32 * sl + k, x.row0 + row, x.d2, x.d3]

def strmFmt (f : Nat) : Bool := f == 8 || f == 9 || f == 10 || isBfp f

/-- Dimensions 1 to 3 of some row lie out of bounds. -/
def rowsOut (r : Rec) (spb : Bool) (row0 d2 d3 : Nat) : Bool :=
  (List.range r.rank).any fun j => match j with
    | 0 => false
    | 1 => strmDim r spb 1 ≤ row0 + 31
    | 2 => strmDim r spb 2 ≤ d2
    | _ => strmDim r spb 3 ≤ d3

/-- The checks of `strm` on a valid record, in order (R307, R308). -/
def strmFault (s : State) (k : Nat) (r : Rec) (spb : Bool) (hdr k0 row0 d2 d3 nsl : Nat) : Option (W8 × Nat) :=
  if r.rank < 2 || r.extra [k0, row0, d2, d3] then some (Cause.reservedField, r.addr)
  else if !strmFmt r.fmt then some (Cause.formatMismatch, 0)
  else if r.bfp && k0 % 32 ≠ 0 then some (Cause.misaligned, 0)
  else if (strmDim r spb 0 < k0 + 32 * nsl && r.pad != 0) || (rowsOut r spb row0 d2 d3 && r.pad == 2) then some (Cause.bounds, 0)
  else if spb && hdr % 128 ≠ 0 then some (Cause.misaligned, 0)
  else if spb && (spLoc s k hdr (128 + r.tileSize)).isNone then some (Cause.bounds, 0)
  else none

/-- Every slice position of a stream reads nothing or one of these ranges (R271). -/
def strmSpan (x : Strm) : List (Nat × Nat) :=
  if x.spb.isSome then []
  else ((List.range x.nsl).flatMap fun sl => (List.range 32).flatMap fun row => (List.range 32).map fun k =>
    let e := sliceElem x sl row k
    (x.lrec.addrOf (if x.lrec.inside e then e else x.lrec.clamp e), if x.lrec.bfp then 4 * x.lrec.bits else sizeOf x.lrec.fmt)).eraseDups

/-- The buffer that a stream reads, its exponents included (R271, R299, R308). -/
def strmRsp (x : Strm) : List (Nat × Nat) := match x.spb with
  | some o => [(o + 128, x.lrec.tileSize)]
  | none => []

def execStrm (h : Head) (f : BitVec 2) (a : BitVec 3) (s : State) : Host.Outcome State Fault Refusal :=
  uniform h (fun s =>
    let t := s.cur
    let g : Nat → Nat := fun i => (t.sget (octet a i)).toNat
    let k := taskOf s.issue.tid
    let spb := (g 0).testBit 16
    if g 0 / 2 ^ 17 ≠ 0 || g 4 = 0 then faultAll h Cause.reservedField 0 false s
    else withRec h (g 0 % 65536) (fun r s =>
      match strmFault s k r spb (g 5) (g 1) (g 2) (g 3 % 65536) (g 3 / 65536) (g 4) with
      | some (c, va) => faultAll h c (BitVec.ofNat 64 va) false s
      | none =>
        if opHeld t 0 || (s.core s.issue.core).streams.any (fun x => taskOf x.tid == k && x.fifo == f.toNat) then stall s
        else
          let x : Strm := { id := s.nextId, tid := s.issue.tid, fifo := f.toNat, lrec := r
                            spb := if spb then some (g 5) else none, k0 := g 1, row0 := g 2, d2 := g 3 % 65536
                            d3 := g 3 / 65536, nsl := g 4 }
          let s := pushOp { id := 0, cls := 0, kind := .strm, rd := strmSpan x, rsp := strmRsp x } (advance h s)
          s.onCore s.issue.core fun c => { c with streams := c.streams ++ [x] }) s) s

/-- A stream that has delivered its last slice completes (R309). -/
def strmCheck (core id : Nat) (s : State) : State :=
  match (s.core core).streams.find? fun x => x.id == id with
  | some x =>
    if x.nsl ≤ x.next then completeOp x.tid x.id (s.onCore core fun c => { c with streams := c.streams.filter fun y => y.id != id })
    else s
  | none => s

/-- `strmend`: how many slices have been requested and not yet delivered is a free value (R310, log 8). -/
def execStrmend (h : Head) (f : BitVec 2) (s : State) : Host.Outcome State Fault Refusal :=
  uniform h (fun s =>
    let s := advance h s
    let core := s.issue.core
    match (s.core core).streams.find? fun x => taskOf x.tid == taskOf s.issue.tid && x.fifo == f.toNat with
    | none => s
    | some x =>
      let r := s.drawFree
      let left := r.1.toNat % (x.nsl - x.next + 1)
      strmCheck core x.id (r.2.onCore core fun c =>
        { c with streams := c.streams.map fun y => if y.id == x.id then { y with stop := true, nsl := y.next + left } else y })) s

/-- A plain load by the stream's thread of `n` bytes, byte by byte, through its core's L1 (R273, R308). A byte of the BFP block at
address `b` must lie in a valid window of the record's format. -/
def strmLoad (core : Nat) (x : Strm) (b : Nat) : Nat → Nat → State → State × Nat × Stop
  | 0, _, s => (s, 0, .none)
  | n + 1, va, s =>
    match engineTo core (s.taskT x.tid).cid va .read s with
    | (s, .inr e) => (s, 0, e)
    | (s, .inl pa) =>
      let a : Acc := { seq := 0, kind := .load, va := va, pa := pa, n := 1 }
      let home := !l1Serves s core x.tid a pa
      if x.lrec.bfp && !(fwinAt s pa).any (fun w => w.fmt == x.lrec.fmt) then (s, 0, .fault Cause.formatMismatch b)
      else if home && homeGone s pa then (s, 0, .fault Cause.fabricLost va)
      else if home && poisonedTo s x.tid pa 1 then (s, 0, .fault Cause.ecc va)
      else
        let r := loadValue core x.tid a s
        match strmLoad core x b n (wrap64 (va + 1)) r.1 with
        | (s, v, e) => (s, r.2 + 256 * v, e)

/-- The code of an in-bounds element of a global stream. -/
def strmElem (core : Nat) (x : Strm) (e : List Nat) (s : State) : State × Nat × Stop :=
  let r := x.lrec
  if r.bfp then
    let m := mantAt r.bits (r.index e % 32)
    match strmLoad core x (r.addrOf e) m.2.1 (wrap64 (r.addrOf e + m.1)) s with
    | (s, v, p) => (s, v / 2 ^ m.2.2 % 2 ^ r.bits, p)
  else strmLoad core x (r.addrOf e) (sizeOf r.fmt) (r.addrOf e) s

/-- The code of an element of a tile buffer at a place (R299), unless its bytes hold an uncorrectable error (R430, R466). -/
def bufRead (s : State) (p : Nat × Nat) (n : Nat) (f : Nat → Nat) : State × Nat × Stop :=
  if spPoisoned s p n then (s, 0, .fault Cause.ecc p.2) else (s, f (spRead s p n), .none)
def bufElem (s : State) (r : Rec) (p : Nat × Nat) (e : List Nat) : State × Nat × Stop :=
  let i := linIndex r.tshape e
  if r.bfp then
    let m := mantAt r.bits (i % 32)
    bufRead s (p.1, p.2 + 128 + 4 * r.bits * (i / 32) + m.1) m.2.1 fun v => v / 2 ^ m.2.2 % 2 ^ r.bits
  else bufRead s (p.1, p.2 + 128 + sizeOf r.fmt * i) (sizeOf r.fmt) id
def bufExp (s : State) (r : Rec) (p : Nat × Nat) (e : List Nat) : State × Nat × Stop :=
  bufRead s (p.1, p.2 + 128 + 4 * r.bits * (r.count / 32) + linIndex r.tshape e / 32) 1 id

/-- CLAMP within a buffer's tile. -/
def tileClamp (r : Rec) (e : List Nat) : List Nat := (List.range 4).map fun j => min (e.getD j 0) (r.tileAt j - 1)

/-- One position of a slice, padded (R298, R308). -/
def sliceCode (core : Nat) (x : Strm) (p : Option (Nat × Nat)) (e : List Nat) (s : State) : State × Nat × Stop :=
  let r := x.lrec
  if strmDim r p.isSome 0 ≤ e.getD 0 0 then (s, 0, .none)
  else
    match p with
    | some p =>
      let ok := (List.range r.rank).all fun j => e.getD j 0 < r.tileAt j
      if ok then bufElem s r p e
      else if r.pad = 0 then (s, r.padCode, .none) else bufElem s r p (tileClamp r e)
    | none =>
      if r.inside e then strmElem core x e s
      else if r.pad = 0 then (s, r.padCode, .none) else strmElem core x (r.clamp e) s

/-- The exponent of a row of a BFP slice (R265, R298, R308). -/
def sliceExp (core : Nat) (x : Strm) (p : Option (Nat × Nat)) (e : List Nat) (s : State) : State × Nat × Stop :=
  let r := x.lrec
  match p with
  | some p => if (List.range r.rank).all fun j => e.getD j 0 < r.tileAt j then bufExp s r p e else (s, 0, .none)
  | none => if r.inside e then readExp core (s.taskT x.tid).cid (viewTag s (taskOf x.tid)) r e s else (s, 0, .none)

/-- The NaN of a poison slice (R309). -/
def poisonCode (fmt : Nat) : Nat := match fmt with
  | 8 => 0x7FC0
  | 9 => 0x7F
  | 10 => 0x7E
  | _ => 0

def poisonSlice (x : Strm) : Slice :=
  { task := taskOf x.tid, strm := x.id, idx := x.next, fmt := x.lrec.fmt, data := List.replicate 1024 (poisonCode x.lrec.fmt)
    exps := if x.lrec.bfp then List.replicate 32 0xFF else [] }

/-- The next slice of a stream as fetched. -/
def fetchSlice (core : Nat) (x : Strm) (p : Option (Nat × Nat)) (s : State) : State × Slice × Stop :=
  let d := readMany (fun i => sliceCode core x p (sliceElem x x.next (i / 32) (i % 32))) (List.range 1024) s
  let e := if x.lrec.bfp then readMany (fun i => sliceExp core x p (sliceElem x x.next i 0)) (List.range 32) d.1 else (d.1, [], .none)
  (e.1, { task := taskOf x.tid, strm := x.id, idx := x.next, fmt := x.lrec.fmt, data := d.2.1, exps := e.2.1 },
   d.2.2.orElse e.2.2)

/-- A slice enters the FIFO, and the stream may complete (R309). -/
def enterSlice (core : Nat) (x : Strm) (sl : Slice) (poison : Bool) (s : State) : State :=
  strmCheck core x.id (s.onCore core fun c =>
    setFifo x.fifo (fifoOf c x.fifo ++ [sl])
      { c with streams := c.streams.map fun y => if y.id == x.id then { y with next := y.next + 1, poison := poison, bad := if y.poison then y.bad else y.next } else y })

/-- The buffer of a stream with SPB, and whether its first read may be made, behind its thread's earlier accesses to the bytes (R271,
R308). -/
def strmBuf (s : State) (x : Strm) : Option (Nat × Nat) :=
  x.spb.bind fun o => spLoc s (taskOf x.tid) o (128 + x.lrec.tileSize)
def strmMay (s : State) (x : Strm) : Bool :=
  (match x.spb, strmBuf s x with
   | some _, some p => x.next != 0 || hdrState (readHdr s p.1 p.2) == 2
   | some _, none => false
   | none, _ => true) &&
  (match (s.thread x.tid).ops.find? fun o => o.id == x.id with
   | some o => opReady s x.tid o
   | none => true)

def execStreamSliceEnter (core idx : Nat) (s : State) : Host.Outcome State Fault Refusal :=
  .next (match (s.core core).streams[idx]? with
    | none => s
    | some x =>
      if !fifoRoom s core (taskOf x.tid) x.fifo then s
      else if x.poison then enterSlice core x (poisonSlice x) true s
      else if !strmMay s x then s
      else
        let r := fetchSlice core x (strmBuf s x) s
        match r.2.2 with
        | .none => enterSlice core x r.2.1 false r.1
        | .wait => r.1
        | .fault c a =>
          if x.spb.isSome && c == Cause.ecc then opFatal x.tid x.id a r.1
          else enterSlice core x (poisonSlice x) true (pendFaultOf x.tid 0 c (BitVec.ofNat 64 a) r.1))

end Sys2Proof.Machine
end

