-- ==== Sys2Proof/Machine/Matrix.lean ====
section
/-!
DEFINITION. The matrix sequencer: `mma`, `acc`, `fskip`, `ardv`, `adrn`, the operations of the matrix unit, and the stage
rings (R316 to R331, R140, R141).
-/
namespace Sys2Proof.Machine

/-! Tiles and cells (R317). -/

def tileNum (t : Thread) : Tile → Nat
  | .imm n => n.toNat
  | .ind r => (t.sget r).toNat

def cellKey (tile i j : Nat) : Nat := 1024 * tile + 32 * i + j
def cell (k : Task) (tile i j : Nat) : F36 := tget 0 k.cells (cellKey tile i j)
def putCell (tile i j : Nat) (v : F36) (k : Task) : Task := { k with cells := tputD 0 k.cells (cellKey tile i j) v }
def cellV (x : F36) : XV := unpack fmtF36 x.toNat

/-- The cells of a tile, in rising order. -/
def tileIdx : List (Nat × Nat) := (List.range 1024).map fun n => (n / 32, n % 32)
/-- Every cell of a tile, by its new value. -/
def setTile (tile : Nat) (f : Nat → Nat → F36) (k : Task) : Task :=
  tileIdx.foldl (fun k p => putCell tile p.1 p.2 (f p.1 p.2) k) k

/-! Issue (R316, R319 to R324). -/

/-- A context's matrix queue holds 8 operations, and MTX counts to 63 (R316). -/
def mtxHeld (t : Thread) (seq : Bool) : Bool :=
  opHeld t 1 || (seq && 8 ≤ (t.ops.filter fun o => o.cls == 1 && !o.done).length)

/-- An operation enters the matrix queue (R316). -/
def issueMtx (h : Head) (k : EngKind) (s : State) : State :=
  if mtxHeld s.cur (isSeq s.issue.tid) then stall s else pushOp { id := 0, cls := 1, kind := k } (advance h s)

def tileBounds (h : Head) (t : Nat) (s : State) : State := faultAll h Cause.bounds (BitVec.ofNat 64 t) false s

def fifoCode (b second : Bool) : Nat := (if second then 2 else 0) + (if b then 1 else 0)

def execMma (h : Head) (d : Tile) (fa fb : Bool) (n : BitVec 11) (s : State) : Host.Outcome State Fault Refusal :=
  uniform h (fun s =>
    let t := tileNum s.cur d
    if (s.curTask).nacc ≤ t then tileBounds h t s else issueMtx h (.mma t fa fb n.toNat false) s) s

/-- `mma.sh` names the even tile of a pair that lies in the allocation (R140, R319). -/
def execMmaSh (h : Head) (d : Tile) (fa fb : Bool) (n : BitVec 11) (s : State) : Host.Outcome State Fault Refusal :=
  uniform h (fun s =>
    let t := tileNum s.cur d
    let nacc := (s.curTask).nacc
    if nacc ≤ t || t % 2 = 1 || nacc ≤ t + 1 then tileBounds h t s else issueMtx h (.mma t fa fb n.toNat true) s) s

/-- The first tile of a run that lies outside the allocation (R321). -/
def firstOut (nacc t n : Nat) : Option Nat := if nacc < t + n then some (max t nacc) else none

/-- `acc.commit` and `acc.discard` name pairs (R321). -/
def pairOut (nacc t m : Nat) : Option Nat := if t % 2 = 1 then some t else firstOut nacc t (2 * m)

def issueAcc (h : Head) (out : Option Nat) (k : EngKind) (s : State) : State :=
  match out with
  | some x => tileBounds h x s
  | none => issueMtx h k s

def execAccZero (h : Head) (d : Tile) (m : BitVec 11) (s : State) : Host.Outcome State Fault Refusal :=
  uniform h (fun s => let t := tileNum s.cur d
    issueAcc h (firstOut (s.curTask).nacc t m.toNat) (.acc 0 t 0 m.toNat) s) s
def execAccCommit (h : Head) (d : Tile) (m : BitVec 11) (s : State) : Host.Outcome State Fault Refusal :=
  uniform h (fun s => let t := tileNum s.cur d
    issueAcc h (pairOut (s.curTask).nacc t m.toNat) (.acc 1 t 0 m.toNat) s) s
def execAccDiscard (h : Head) (d : Tile) (m : BitVec 11) (s : State) : Host.Outcome State Fault Refusal :=
  uniform h (fun s => let t := tileNum s.cur d
    issueAcc h (pairOut (s.curTask).nacc t m.toNat) (.acc 2 t 0 m.toNat) s) s
def execAccMove (h : Head) (d a : Tile) (m : BitVec 11) (s : State) : Host.Outcome State Fault Refusal :=
  uniform h (fun s => let t := tileNum s.cur d
    let u := tileNum s.cur a
    let nacc := (s.curTask).nacc
    issueAcc h (match firstOut nacc t m.toNat with
      | some x => some x
      | none => firstOut nacc u m.toNat) (.acc 3 t u m.toNat) s) s

def execFskip (h : Head) (f : BitVec 2) (n : BitVec 11) (s : State) : Host.Outcome State Fault Refusal :=
  uniform h (fun s => issueMtx h (.fskip f.toNat n.toNat) s) s

/-- `ardv`: the lanes of `exec` are kept for the read (R323). -/
def issueArdv (h : Head) (o : Ardv) (raw : Bool) (s : State) : State :=
  let t := tileNum s.cur o.tile
  if (s.curTask).nacc ≤ t then tileBounds h t s
  else issueMtx h (.ardv o.d.toNat t o.q.toNat raw o.rm o.sat (execMask h s)) s

def execArdv (h : Head) (o : Ardv) (s : State) : Host.Outcome State Fault Refusal :=
  uniform h (fun s => issueArdv h o false s) s
def execArdvRaw (h : Head) (o : Ardv) (s : State) : Host.Outcome State Fault Refusal :=
  uniform h (fun s => issueArdv h o true s) s

/-! `adrn` (R324). -/

/-- Bits of a BFP type, 0 for the others. -/
def tyBfp : Ty → Nat
  | .bfp k => k.toNat + 2
  | _ => 0
def tyBytes (t : Ty) : Nat := match t with
  | .bf16 => 2
  | .e4m3 | .e5m2 => 1
  | _ => 4

/-- Bytes of a row, and the unit of alignment (R324). -/
def drainRow (t : Ty) : Nat := if tyBfp t = 0 then 32 * tyBytes t else 4 * tyBfp t
def drainUnit (t : Ty) : Nat := if tyBfp t = 0 then tyBytes t else 4 * tyBfp t

def Drain.spd (d : Drain) : Bool := d.flags.getLsbD 0
def Drain.sc (d : Drain) : Bool := d.flags.getLsbD 1
def Drain.am (d : Drain) : Bool := d.flags.getLsbD 2
def Drain.arv (d : Drain) : Bool := d.flags.getLsbD 3

/-- A range of a task's scratchpad, or of a buffer of its LOCAL window (R256). -/
def spHas (s : State) (k o n : Nat) : Bool := (spLoc s k o n).isSome

/-- The scratchpad ranges that a drain writes (R325). -/
def drainSpans (d : Drain) : List (Nat × Nat) :=
  (List.range 32).map (fun i => (d.dst + d.rowb * i, drainRow d.ty)) ++
    (if tyBfp d.ty = 0 then [] else [(d.dst + 32 * d.rowb, 32)])

/-- The checks of `adrn` in order (R324). -/
def drainFault (s : State) (k : Nat) (d : Drain) : Option (W8 × Nat) :=
  let u := drainUnit d.ty
  if d.flags.toNat / 2 ^ 7 ≠ 0 || 5 < d.flags.toNat / 2 ^ 4 % 8 || d.rowb < drainRow d.ty || (d.arv && !d.spd) then
    some (Cause.reservedField, 0)
  else if (s.task k).nacc ≤ d.tile then some (Cause.bounds, d.tile)
  else if (!d.spd && (2 ^ 52 ≤ d.dst || 2 ^ 52 ≤ d.dst + 31 * d.rowb + drainRow d.ty - 1)) || (d.am && 2 ^ 52 ≤ d.amx) then
    some (Cause.noncanonical, 0)
  else if d.dst % u ≠ 0 || d.rowb % u ≠ 0 || (d.am && d.amx % 4 ≠ 0) || (d.arv && d.hdr % 128 ≠ 0) then
    some (Cause.misaligned, 0)
  else if d.spd && (!((drainSpans d).all fun r => spHas s k r.1 r.2) || (d.arv && !spHas s k d.hdr 16)) then
    some (Cause.bounds, 0)
  else none

/-- The octet's contents (R324). -/
def drainOf (t : Thread) (o : Adrn) : Drain :=
  let w : Nat → W32 := fun i => t.sget (octet o.a i)
  let spd := (w 6).getLsbD 0
  { tile := tileNum t o.tile, ty := o.ty, rm := o.rm, sat := o.sat
    dst := if spd then (w 0).toNat else (t.sget2 (octet o.a 0)).toNat
    rowb := (w 2).toNat, scale := w 3, amx := (t.sget2 (octet o.a 4)).toNat, flags := w 6, hdr := (w 7).toNat }

def execAdrn (h : Head) (o : Adrn) (s : State) : Host.Outcome State Fault Refusal :=
  uniform h (fun s =>
    let d := drainOf s.cur o
    match drainFault s (taskOf s.issue.tid) d with
    | some (c, a) => faultAll h c (BitVec.ofNat 64 a) false s
    | none =>
      if mtxHeld s.cur (isSeq s.issue.tid) then stall s
      else
        let sp := drainSpans d
        pushOp { id := 0, cls := 1, kind := .adrn d none
                 wr := (if d.spd then [] else sp.take 32) ++ (if d.am then [(d.amx, 4)] else [])
                 wsp := if d.spd then sp ++ (if d.arv then [(d.hdr, 8)] else []) else [] } (advance h s)) s

/-! The matrix unit (R318 to R322). -/

/-- A drain that has been read holds nothing behind it back. -/
def drained : EngKind → Bool
  | .adrn _ (some _) => true
  | _ => false

/-- The oldest operation of a thread's matrix class that has not taken effect (R318). -/
def mtxHead (t : Thread) : Option EngOp := t.ops.find? fun o => o.cls == 1 && !o.done && !drained o.kind
/-- The head of the queue of a thread whose task goes on (R431). -/
def headOp (s : State) (tid : Nat) : Option EngOp := if halted s (taskOf tid) then none else mtxHead (s.thread tid)

def setKind (tid id : Nat) (k : EngKind) (s : State) : State :=
  s.onThread tid fun t => { t with ops := t.ops.map fun o => if o.id == id then { o with kind := k } else o }

/-- The oldest entry of a task in a FIFO, and the FIFO without it (R306). -/
def takeSlice (k : Nat) (l : List Slice) : Option (Slice × List Slice) :=
  match l.find? fun x => x.task == k with
  | some x => some (x, l.eraseP fun y => y.task == k)
  | none => none

/-- The class of a pair of tags (R65): 0 floating point, 1 BFP. -/
def pairClass (a b : Nat) : Option Nat :=
  if a = 8 && b = 8 then some 0
  else if (a == 9 || a == 10) && (b == 9 || b == 10) then some 0
  else if isBfp a && isBfp b then some 1
  else none

def sliceVal (x : Slice) (i : Nat) : XV := unpack (fmtOf (fmtTy x.fmt)) (x.data.getD i 0)
/-- A mantissa's value as a signed number. -/
def mantVal (b v : Nat) : Int := bfpMant b v 0

/-- One cell after a slice, and how many of its results were flushed (R66, R68). -/
def macFp (a b : Slice) (i j : Nat) (acc : F36) : F36 × Nat :=
  (List.range 4).foldl (fun (z : F36 × Nat) g =>
    let ps := (List.range 8).map fun n => (sliceVal a (32 * i + 8 * g + n)).mul (sliceVal b (32 * j + 8 * g + n))
    let p := f36 .rne (xsum .rne ps)
    let r := f36 .rne (xsum .rne [cellV z.1, cellV p.1])
    (r.1, z.2 + (if p.2 then 1 else 0) + (if r.2 then 1 else 0))) (acc, 0)

def macBfp (a b : Slice) (i j : Nat) (acc : F36) : F36 × Nat :=
  let ba := bfpBits a.fmt
  let bb := bfpBits b.fmt
  let ea := a.exps.getD i 0
  let eb := b.exps.getD j 0
  let d := (List.range 32).foldl (fun (n : Int) k =>
    n + mantVal ba (a.data.getD (32 * i + k) 0) * mantVal bb (b.data.getD (32 * j + k) 0)) 0
  let p := if ea = 0xFF || eb = 0xFF then f36 .rne .nan
    else f36 .rne (.fin (d < 0) d.natAbs ((ea : Int) + eb - 254 - (ba - 2 : Nat) - (bb - 2 : Nat)))
  let r := f36 .rne (xsum .rne [cellV acc, cellV p.1])
  (r.1, (if p.2 then 1 else 0) + (if r.2 then 1 else 0))

/-- A slice pair accumulated into a tile (R66, R68). -/
def applySlice (k tile cls : Nat) (a b : Slice) (s : State) : State :=
  let t := s.task k
  let mac := if cls = 0 then macFp a b else macBfp a b
  let rs := tileIdx.map fun p => (p, mac p.1 p.2 (cell t tile p.1 p.2))
  let fl := rs.foldl (fun n r => n + r.2.2) 0
  let s := s.onTask k fun t => rs.foldl (fun t r => putCell tile r.1.1 r.1.2 r.2.1 t) t
  s.onCore (s.task k).core fun c => { c with flush := (c.flush + fl) % 2 ^ 32, slices := (c.slices + 1) % 2 ^ 64 }

/-- The tile that an `mma.sh` accumulates into, copied when SHADOW is clear (R140). -/
def shadowTile (k t : Nat) (s : State) : State :=
  if (s.task k).shadow.contains (t / 2) then s
  else s.onTask k fun x => { setTile (t + 1) (fun i j => cell x t i j) x with shadow := (t / 2) :: x.shadow }

/-- One slice pair of the `mma` at the head of a context's queue (R319). -/
def mmaStep (core tid : Nat) (o : EngOp) (t : Nat) (fa fb : Bool) (n : Nat) (sh : Bool) (s : State) : State :=
  let k := taskOf tid
  let ca := fifoCode fa false
  let cb := fifoCode fb true
  match takeSlice k (fifoOf (s.core core) ca), takeSlice k (fifoOf (s.core core) cb) with
  | some (a, la), some (b, lb) =>
    (match pairClass a.fmt b.fmt with
     | none =>
       let addr := t % 2 ^ 10 + ca * 2 ^ 16 + cb * 2 ^ 18
       completeOp tid o.id (pendFaultOf tid 1 Cause.formatMismatch (BitVec.ofNat 64 addr)
         (s.onCore core fun c => { c with fmtmis := (c.fmtmis + 1) % 2 ^ 32 }))
     | some cls =>
       let s := s.onCore core fun c => setFifo cb lb (setFifo ca la c)
       let s := if sh then shadowTile k t s else s
       let s := applySlice k (if sh then t + 1 else t) cls a b s
       let s := setKind tid o.id (.mma t fa fb (n - 1) sh) s
       if n ≤ 1 then completeOp tid o.id s else s)
  | _, _ => s

def execMmaSliceApply (core unit : Nat) (s : State) : Host.Outcome State Fault Refusal :=
  .next (match unitTid s core unit with
    | none => s
    | some tid => match headOp s tid with
      | some o => (match o.kind with
        | .mma t fa fb n sh => mmaStep core tid o t fa fb n sh s
        | _ => s)
      | none => s)

/-- The effect of `acc` on a task's tiles (R141, R321). -/
def accApply (fn t u m : Nat) (k : Task) : Task :=
  match fn with
  | 0 => (List.range m).foldl (fun k i => setTile (t + i) (fun _ _ => 0) k) k
  | 1 => (List.range m).foldl (fun k i =>
      let e := t + 2 * i
      if k.shadow.contains (e / 2) then { setTile e (fun a b => cell k (e + 1) a b) k with shadow := k.shadow.erase (e / 2) } else k) k
  | 2 => { k with shadow := k.shadow.filter fun p => !(t / 2 ≤ p && p < t / 2 + m) }
  | _ => (List.range m).foldl (fun r i => setTile (t + i) (fun a b => cell k (u + i) a b) r) k

/-- The rows that an `ardv` reads enter its registers (R323). -/
def ardvApply (core tid d tile q : Nat) (raw : Bool) (rm : Rm) (sat : Bool) (m : Mask) (s : State) : State :=
  let k := s.taskT tid
  let x : Nat → F36 := fun l => cell k tile (2 * q + l / 32) (l % 32)
  if raw then
    s.onThread tid fun t =>
      (t.varV d m (rowOf fun l => (x l).setWidth 32)).varV (d + 1) m (rowOf fun l => ((x l).extractLsb' 32 4).setWidth 32)
  else
    let r := fun l => rnd fmtF32 rm sat (cellV (x l))
    let cnt := ((lanesOf m).filter fun l => (r l).2 &&& fSAT != 0).length
    (s.onThread tid fun t => t.varV d m (rowOf fun l => BitVec.ofNat 32 (r l).1)).onCore core
      fun c => { c with drsat := (c.drsat + cnt) % 2 ^ 32 }

/-- `fskip` drops an entry (R322). -/
def skipStep (core tid : Nat) (o : EngOp) (f n : Nat) (s : State) : State :=
  match takeSlice (taskOf tid) (fifoOf (s.core core) f) with
  | none => s
  | some (_, l) =>
    let s := s.onCore core fun c => { setFifo f l c with fskips := (c.fskips + 1) % 2 ^ 32 }
    if n ≤ 1 then completeOp tid o.id s else setKind tid o.id (.fskip f (n - 1)) s

def execMtxOpComplete (core unit : Nat) (s : State) : Host.Outcome State Fault Refusal :=
  .next (match unitTid s core unit with
    | none => s
    | some tid => match headOp s tid with
      | some o => (match o.kind with
        | .acc fn t u m => completeOp tid o.id (s.onTask (taskOf tid) (accApply fn t u m))
        | .fskip f n => skipStep core tid o f n s
        | .ardv d tile q raw rm sat m => completeOp tid o.id (ardvApply core tid d tile q raw rm sat m s)
        | _ => s)
      | none => s)

/-! Drains (R325, R326). -/

/-- What the conversion of a row counts (R333): the elements that SATFINITE replaced or whose mantissas were clamped, with the bits of
an element, and whether the row is a NaN block. -/
structure DrainCnt where
  bits : Nat := 8
  sat : List Bool := []
  clamp : List Bool := []
  nan : Bool := false
  deriving DecidableEq, Repr

/-- y(i, j) (R325). -/
def drainVal (k : Task) (d : Drain) (i j : Nat) : XV :=
  let x := cellV (cell k d.tile i j)
  if d.sc then x.mul (f32v d.scale) else x

/-- The bytes of row `i`, its exponent for BFP, and what it counts (R61, R63). -/
def drainBytes (k : Task) (d : Drain) (i : Nat) : List W8 × Option Nat × DrainCnt :=
  let ys := (List.range 32).map (drainVal k d i)
  let b := tyBfp d.ty
  if b = 0 then
    let rs := ys.map (rnd (fmtOf d.ty) d.rm d.sat)
    (rs.flatMap fun r => toBytes (tyBytes d.ty) r.1, none, { bits := 8 * tyBytes d.ty, sat := rs.map fun r => r.2 &&& fSAT != 0 })
  else
    let r := bfpBlock b d.rm ys
    (toBytes (4 * b) (bfpPack b r.2.1), some r.1, { bits := b, clamp := r.2.2.1, nan := r.2.2.2 })

/-- The absmax of the tile (R325). -/
def drainMax (k : Task) (d : Drain) : W32 :=
  (tileIdx.map fun p => rne32 (drainVal k d p.1 p.2)).foldl famax 0

/-- Bytes of a row into scratchpad, as an arrival under ARV; none when the arrival is refused (R325). -/
def drainBlock (k : Nat) (d : Drain) (o : Nat) (x : List W8) (s : State) : Option State :=
  match spLoc s k o x.length with
  | none => none
  | some p =>
    if d.arv then
      (match spLoc s k d.hdr 16 with
       | some q => (match arriveHdr (readHdr s q.1 q.2) x.length with
         | some w => some (setHdr q.1 q.2 w (spPut p x s))
         | none => none)
       | none => none)
    else some (spPut p x s)

/-- A row, and its exponent as an arrival of its own: a refused exponent leaves the row's elements written (R325, R331). Beside the
state stands, for a row that is not written whole, how many of its bytes are. -/
def drainSpad (k : Nat) (d : Drain) (i : Nat) (b : List W8) (e : Option Nat) (s : State) : State × Option Nat :=
  match drainBlock k d (d.dst + d.rowb * i) b s with
  | none => (s, some 0)
  | some s => match e with
    | none => (s, none)
    | some v => match drainBlock k d (d.dst + 32 * d.rowb + i) [BitVec.ofNat 8 v] s with
      | some s => (s, none)
      | none => (s, some b.length)

/-- The rows in order, up to the first arrival that is refused, with how many were written whole and how many bytes of the next. -/
def drainAllSpad (k : Nat) (d : Drain) (rows : List (List W8 × Option Nat × DrainCnt)) : Nat → State → State × Stop × Nat × Nat
  | 0, s => (s, .none, 32, 0)
  | n + 1, s =>
    let i := 32 - (n + 1)
    let r := rows.getD i ([], none, {})
    match drainSpad k d i r.1 r.2.1 s with
    | (s, none) => drainAllSpad k d rows n s
    | (s, some m) => (s, .fault Cause.bounds 0, i, m)

/-- Where one row of a global drain goes (R325). -/
def placeRow (core cid : Nat) (d : Drain) (r : List W8 × Option Nat × DrainCnt) (i : Nat) (s : State) : State × List Put × Stop :=
  let a := d.dst + d.rowb * i
  match r.2.1 with
  | none => placeBytes core cid a r.1 s
  | some e =>
    match engineAt core cid a .write s with
    | (s, .inr x) => (s, [], x)
    | (s, .inl pa) =>
      if (blockAt s (0x10 + tyBfp d.ty) pa).isNone then (s, [], .fault Cause.formatMismatch d.dst)
      else
        let p := placeBytes core cid a r.1 s
        (p.1, (match p.2.2 with
          | .none => p.2.1 ++ [.exp pa e]
          | _ => p.2.1), p.2.2)

/-- The bytes that writes to memory bring. -/
def putBytes (ps : List Put) : Nat := (ps.map fun p => match p with
  | .mem _ b => b.length
  | _ => 0).foldl (· + ·) 0

/-- Where the rows of a global drain go, up to the first that stops, with how many go whole and how many bytes of the next (R325). -/
def drainPlace (core cid : Nat) (d : Drain) (rows : List (List W8 × Option Nat × DrainCnt)) :
    Nat → State → State × List Put × Stop × Nat × Nat
  | 0, s => (s, [], .none, 32, 0)
  | n + 1, s =>
    let i := 32 - (n + 1)
    let p := placeRow core cid d (rows.getD i ([], none, {})) i s
    if p.2.2 == .none then
      let r := drainPlace core cid d rows n p.1
      (r.1, p.2.1 ++ r.2.1, r.2.2.1, r.2.2.2)
    else (p.1, p.2.1, p.2.2, i, putBytes p.2.1)

/-- The absmax atomic, after the drain's rows: its place, what it writes, or where it stops (R282, R325). -/
def drainAtomic (core tid : Nat) (d : Drain) (a : W32) (s : State) : State × List Put × Stop :=
  let k := taskOf tid
  match engineAt core (s.taskT tid).cid d.amx .write s with
  | (s, .inr x) => (s, [], x)
  | (s, .inl pa) =>
    if isSpec s k && !inArena s k d.amx 4 then (s, [], .wait)
    else if poisonedTo s tid pa 4 then (s, [], .fault Cause.ecc d.amx)
    else (s, [.mem pa (toBytes 4 (famax (BitVec.ofNat 32 (viewRead s (viewTag s k) pa 4)) a).toNat)], .none)

/-- What a row counts of which some bytes were written: the elements within them; a NaN block counts once its exponent is written
(R333). -/
def rowCount (bytes : Nat) (whole : Bool) (x : DrainCnt) : Nat × Nat × Nat :=
  let n := 8 * bytes / x.bits
  (((x.sat.take n).filter id).length, ((x.clamp.take n).filter id).length, if whole && x.nan then 1 else 0)

/-- The drain's counters, over the rows and the bytes of the next row that it wrote (R333). -/
def drainCount (core : Nat) (rows : List (List W8 × Option Nat × DrainCnt)) (w : Nat × Nat) (s : State) : State :=
  let cs := ((rows.take w.1).map fun r => rowCount r.1.length true r.2.2) ++ ((rows.drop w.1).take 1).map fun r => rowCount w.2 false r.2.2
  let f : (Nat × Nat × Nat → Nat) → Nat := fun g => (cs.map g).foldl (· + ·) 0
  s.onCore core fun c =>
    { c with drsat := (c.drsat + f Prod.fst) % 2 ^ 32, bfpclamp := (c.bfpclamp + f fun x => x.2.1) % 2 ^ 32
             nanblk := (c.nanblk + f fun x => x.2.2) % 2 ^ 32 }

/-- A drain ends with the completion time that it waits for, and its fault pending (R331, R393). -/
def drainEnd (tid : Nat) (o : EngOp) (d : Drain) (g : Nat) (e : Stop) (s : State) : State :=
  setKind tid o.id (.adrn d (some g)) (match e with
    | .fault c a => pendFaultOf tid 1 c (BitVec.ofNat 64 a) s
    | _ => s)

/-- A drain whose writes must wait: the host is asked for its lines, and a speculative stall is counted once (R125, R446). -/
def drainWaits (tid : Nat) (o : EngOp) (ps : List Put) (s : State) : State :=
  let k := taskOf tid
  let s := ps.foldl (putAsk (some k)) s
  if o.counted || !(ps.any (putBlocked s (some k))) then s else markOp tid o.id (putStall (some k) s ps)

/-- The rows written, to scratchpad or to memory, with the completion time, where they stop, and how many are whole, with the bytes of
the next; none while a write must wait. -/
def drainRows (core tid : Nat) (o : EngOp) (d : Drain) (rows : List (List W8 × Option Nat × DrainCnt)) (s : State) :
    State × Option (State × Nat × Stop × Nat × Nat) :=
  let k := taskOf tid
  if d.spd then
    let z := drainAllSpad k d rows 32 s
    (s, some (z.1, 0, z.2.1, z.2.2))
  else
    let x := drainPlace core (s.task k).cid d rows 32 s
    if x.2.2.1 == .wait then (x.1, none)
    else match putAll (some k) o.at' x.2.1 x.1 with
      | none => (drainWaits tid o x.2.1 x.1, none)
      | some (s, g) => (s, some (s, g, x.2.2.1, x.2.2.2))

/-- The tile is read at one slice boundary and written, the absmax after its rows (R318, R325). A drain whose atomic waits is made
again, with Umber asked anew (R331). -/
def drainStep (core tid : Nat) (o : EngOp) (d : Drain) (s : State) : State :=
  let k := taskOf tid
  let rows := (List.range 32).map (drainBytes (s.task k) d)
  let a := drainMax (s.task k) d
  match drainRows core tid o d rows s with
  | (s', none) => s'
  | (_, some (s1, g, e, n)) =>
    let s1 := drainCount core rows n s1
    if !d.am || e != .none then drainEnd tid o d g e s1
    else
      let y := drainAtomic core tid d a s1
      if y.2.2 == .wait then { s with free := y.1.free }
      else match putAll (some k) o.at' y.2.1 y.1 with
        | none => drainWaits tid o y.2.1 s
        | some (s2, g2) => drainEnd tid o d (max g g2) y.2.2 s2

/-- The oldest drain whose writes are made and whose completion time has passed. -/
def drainedDue (t : Thread) (now : Nat) : Option EngOp :=
  t.ops.find? fun o => !o.done && (match o.kind with
    | .adrn _ (some g) => g < now
    | _ => false)

def execAdrnComplete (core unit : Nat) (s : State) : Host.Outcome State Fault Refusal :=
  .next (match unitTid s core unit with
    | none => s
    | some tid =>
      let t := s.thread tid
      match headOp s tid, drainedDue t s.time with
      | _, some o => completeOp tid o.id s
      | some o, none => (match o.kind with
        | .adrn d none => if opReady s tid o then drainStep core tid o d s else s
        | _ => s)
      | none, none => s)

/-! Stage rings (R327 to R329). -/

def ringOf (k : Task) (r : Nat) : Ring := tget {} k.rings r
def setRing (k r : Nat) (x : Ring) (s : State) : State := s.onTask k fun t => { t with rings := tputD {} t.rings r x }

/-- Threads that wait on one side of a ring, with their order. -/
def ringWaiters (s : State) (k r : Nat) (full : Bool) : List (Nat × SReg × Nat) :=
  (s.tids k).filterMap fun i => match (s.thread i).wait with
    | .sgacq q f d o => if q = r && f = full then some (i, d, o) else none
    | _ => none

def earliest (l : List (Nat × SReg × Nat)) : Option (Nat × SReg × Nat) :=
  l.foldl (fun a x => match a with
    | some y => if x.2.2 < y.2.2 then some x else a
    | none => some x) none

/-- The slot that the next waiter of a side takes, if it may be taken (R328). -/
def ringSlot (x : Ring) (full : Bool) : Option Nat :=
  let c := if full then x.f else x.e
  if x.phase.getLsbD c == full && !x.held.getLsbD c then some c else none

def ringTake (x : Ring) (full : Bool) (c : Nat) : Ring :=
  let x := { x with held := x.held ||| (1#16 <<< c) }
  if full then { x with f := (c + 1) % x.ns } else { x with e := (c + 1) % x.ns }

/-- The waiters of one side are served in the order they began to wait (R328). -/
def ringServe (k r : Nat) (full : Bool) : Nat → State → State
  | 0, s => s
  | n + 1, s =>
    match earliest (ringWaiters s k r full), ringSlot (ringOf (s.task k) r) full with
    | some (i, d, _), some c =>
      ringServe k r full n
        ((setRing k r (ringTake (ringOf (s.task k) r) full c) s).onThread i fun t => unwait (t.varS d (BitVec.ofNat 32 c)))
    | _, _ => s

def serveRing (k r : Nat) (s : State) : State := ringServe k r true 16 (ringServe k r false 16 s)

def sgacq (h : Head) (d : SReg) (r : BitVec 3) (full : Bool) (s : State) : State :=
  let x := (advance h s).fresh
  serveRing (taskOf s.issue.tid) r.toNat
    (x.2.onCur fun t => { t with wait := .sgacq r.toNat full d x.1, since := s.time })

def execSgacqE (h : Head) (d : SReg) (r : BitVec 3) (s : State) : Host.Outcome State Fault Refusal :=
  uniform h (sgacq h d r false) s
def execSgacqF (h : Head) (d : SReg) (r : BitVec 3) (s : State) : Host.Outcome State Fault Refusal :=
  uniform h (sgacq h d r true) s

/-- The wait of `sgrel`: the issuer's earlier accesses have performed, its CPY, MTX and GTH counters read 0, and device
time has passed its largest completion time (R329). -/
def sgrelMay (s : State) : Bool :=
  s.cur.flight.all Acc.marker && (List.range 3).all (fun c => classCount s.cur c == 0) && s.cur.maxw < s.time

/-- `sgrel` raises a pending fault of its classes, or waits as `w` says, or changes the ring (R329). -/
def sgrelDo (h : Head) (w : Wait) (r : Nat) (f : Ring → Ring) (s : State) : State :=
  match firstPending s.cur 0b111 with
  | some (c, cause, addr) => faultAll h cause addr false (s.onCur fun t => { t with pendFault := tdel t.pendFault c })
  | none =>
    if !sgrelMay s then stall (s.onCur fun t => { t with wait := w })
    else
      let k := taskOf s.issue.tid
      serveRing k r (setRing k r (f (ringOf (s.task k) r)) (advance h s))

/-- Slot `n` of a ring changes its phase and is held no more. -/
def ringFlip (n : Nat) (x : Ring) : Ring := { x with phase := x.phase ^^^ (1#16 <<< n), held := x.held &&& ~~~(1#16 <<< n) }

/-- The slot that an `sgrel` which waits has found held. -/
def slotFound (s : State) : Option Nat :=
  match s.cur.wait with
  | .slot pc k => if pc = s.issue.pc then some k else none
  | _ => none

/-- The slot is looked at once, before the wait (R329). -/
def execSgrel (h : Head) (r : BitVec 3) (b : SReg) (s : State) : Host.Outcome State Fault Refusal :=
  uniform h (fun s =>
    let n := (slotFound s).getD (s.cur.sget b).toNat
    let x := ringOf (s.curTask) r.toNat
    if (slotFound s).isNone && (x.ns ≤ n || !x.held.getLsbD n) then tileBounds h n s
    else sgrelDo h (.slot s.issue.pc n) r.toNat (ringFlip n) s) s

def execSgrelInit (h : Head) (r : BitVec 3) (n : BitVec 5) (s : State) : Host.Outcome State Fault Refusal :=
  uniform h (sgrelDo h .none r.toNat fun _ => { ns := n.toNat }) s

end Sys2Proof.Machine
end

