-- ==== Sys2Proof/Machine/NearBank.lean ====
section
/-!
DEFINITION. The stacks: near-bank programs, their units and arbitration (R349 to R360, R479 to R481), and the HBM
controllers (R345 to R348).
-/
namespace Sys2Proof.Machine

/-! Time (R4, R469). -/

/-- The core clock at an operating point, in MHz (R469). -/
def mhzOf (op : Nat) : Nat := 940 - 90 * op
/-- A span given in nanoseconds or microseconds, in ticks at the running point (log 13). -/
def ticksNs (s : State) (n : Nat) : Nat := (n * mhzOf s.op + 999) / 1000
def ticksUs (s : State) (n : Nat) : Nat := n * mhzOf s.op

/-! Rows (R345, R351). -/

/-- The address of byte `k` of bank `b`'s row, from chunk 0 of bank 0. -/
def rowByte (pa b k : Nat) : Nat := pa + b * 2 ^ 14 + k / 256 * 2 ^ 18 + k % 256
/-- The lines of a row. -/
def rowLines (pa b : Nat) : List Nat := (List.range 8).map fun i => lineOf (rowByte pa b (128 * i))

/-- The bits that a micro-op uses. -/
def uMask (k : Nat) : Nat :=
  match k with
  | 1 | 2 | 3 => 0x7F
  | 4 => 0x1FF
  | 5 => 0x18F
  | 6 => 0xFFFF001F000F
  | _ => 0xF

/-- Micro-op `i` meets the field rules (R351). -/
def uOk (w : W64) (i : Nat) : Bool :=
  uopOf w ≤ 7 && w.toNat &&& (2 ^ 64 - 1 - uMask (uopOf w)) == 0 &&
  (uopOf w != 6 || (uCount w != 0 && uTarget w ≤ i))

/-- The micro-ops before the first END; none without an END. -/
def beforeEnd : List W64 → Option (List W64)
  | [] => none
  | w :: l => if uopOf w = 0 then some [] else (beforeEnd l).map (w :: ·)

/-- A program is valid (R351). -/
def progOk (u : List W64) : Bool :=
  match beforeEnd u with
  | none => false
  | some l => l.zipIdx.all (fun p => uOk p.1 p.2) && (l.filter fun w => uopOf w == 6).length ≤ 1

/-- Streams that data micro-ops before the first END name, each with whether a WR names it (R350). -/
def usedStreams (u : List W64) : List (Nat × Bool) :=
  let l := ((beforeEnd u).getD []).filter isData
  (List.range 4).filterMap fun k =>
    if l.any fun w => uRs w == k then some (k, l.any fun w => uRs w == k && uopOf w == 2) else none

/-! `nbrun` (R353). -/

/-- Check 4: the used streams translate and share a unit, which the first names (R350, R353). -/
def checkStreams (core cid : Nat) (rva : List Nat) : List (Nat × Bool) → Option Nat → State → State × (Option Nat ⊕ (W8 × Nat × Bool))
  | [], u, s => (s, .inl u)
  | (k, wr) :: l, u, s =>
    let va := rva.getD k 0
    match translate core cid va .read s with
    | (s, .inr c) => (s, .inr (c, va, true))
    | (s, .inl pa) =>
      match (if wr then translate core cid va .write s else (s, .inl pa)) with
      | (s, .inr c) => (s, .inr (c, va, true))
      | (s, .inl _) =>
        if !isHbm s pa || pa / 2 ^ 14 % 64 ≠ 0 || pa % 256 ≠ 0 || u.any (fun x => x != unitOf pa) then
          (s, .inr (Cause.misaligned, 0, false))
        else checkStreams core cid rva l (some (unitOf pa)) s

/-- The unit has a free queue position (R349, R353). -/
def unitRoom (s : State) (u : Nat) : Bool := ((s.unit u).queue.length + if (s.unit u).run.isSome then 1 else 0) < 4

/-- The descriptor's reserved fields (R350). -/
def nbReserved (d : List W8) : Bool := fieldAt d 0x0A 6 != 0 || fieldAt d 0x50 48 != 0

def nbProgOf (a : Nat) (d u : List W8) : NbProg :=
  { tid := 0, op := 0, cid := 0, uops := (List.range 32).map fun i => BitVec.ofNat 64 (fieldAt u (8 * i) 8)
    bmask := BitVec.ofNat 16 (fieldAt d 8 2), rva := (List.range 4).map fun k => fieldAt d (0x10 + 8 * k) 8
    str := (List.range 4).map fun k => (BitVec.ofNat 16 (fieldAt d (0x30 + 2 * k) 2)).toInt
    progress := a + 0x38, sc := (List.range 4).map fun k => BitVec.ofNat 32 (fieldAt d (0x40 + 4 * k) 4) }

/-- The program joins its unit's queue; one without a stream runs where the hardware chooses (R350, log 8). -/
def submitNb (h : Head) (p : NbProg) (u : Option Nat) (s : State) : State :=
  let f := s.drawFree
  let r := match u with
    | some u => (u, s)
    | none => (f.1.toNat % 1024, f.2)
  if !relHolds r.2 s.issue.tid s.cur.flight 4 || opHeld s.cur 5 || !unitRoom r.2 r.1 || !stackPresent s (r.1 / 64) then stall r.2
  else
    let id := r.2.nextId
    let s := pushOp { id := 0, cls := 5, kind := .nbrun } (advance h r.2)
    s.onUnit r.1 fun x => { x with queue := x.queue ++ [{ p with tid := s.issue.tid, op := id, cid := (s.curTask).cid }] }

/-- Checks 2 to 4 of R353. -/
def nbRead (h : Head) (a : W64) (s : State) : State :=
  let cid := (s.curTask).cid
  let core := s.issue.core
  let bad := fun (c : W8) (va : Nat) (tr : Bool) (s : State) => faultAll h c (BitVec.ofNat 64 va) tr s
  match issueRead a.toNat 128 s with
  | (s, .inr (.bad c va tr)) => bad c va tr s
  | (s, .inr _) => stall s
  | (s, .inl d) =>
    let up := BitVec.ofNat 64 (fieldAt d 0 8)
    match addrFault up 256 with
    | some c => bad c 0 false s
    | none =>
      match issueRead up.toNat 256 s with
      | (s, .inr (.bad c va tr)) => bad c va tr s
      | (s, .inr _) => stall s
      | (s, .inl u) =>
        let p := nbProgOf a.toNat d u
        if nbReserved d || p.bmask = 0 || !progOk p.uops then bad Cause.reservedField 0 false s
        else
          match checkStreams core cid p.rva (usedStreams p.uops) none s with
          | (s, .inr (c, va, tr)) => bad c va tr s
          | (s, .inl u) => submitNb h p u s

/-- NEAR: until it is set, `qsub`, `nbrun` and `cland` wait at issue (R471, R472). -/
def nearReady (s : State) : Bool := s.ready.getLsbD 6

def execNbrun (h : Head) (a : SReg) (s : State) : Host.Outcome State Fault Refusal :=
  uniform h (fun s =>
    let x := s.cur.sget2 a
    if !nearReady s then stall s
    else match addrFault x 128 with
    | some c => faultAll h c 0 false s
    | none =>
      if isSpec s (taskOf s.issue.tid) || acqPending s.cur || relPending s.cur then stall s
      else nbRead h x s) s

/-! A running program (R352, R354 to R358). -/

/-- The banks of a mask, rising. -/
def banksOf (m : W16) : List Nat := (List.range 16).filter fun b => m.getLsbD b

def setProg (u : Nat) (p : NbProg) (s : State) : State := s.onUnit u fun x => { x with run := some p }

/-- The program stops with a fault (R358). -/
def faultProg (u : Nat) (p : NbProg) (c : W8) (a : Nat) (s : State) : State :=
  setProg u { p with ended := true, acc := [], fault := some (c, BitVec.ofNat 64 a) } s

/-- The region of row I of a stream: its physical address, or what stops it (R354). -/
def rowAt (u : Nat) (p : NbProg) (k : Nat) (need : Need) (s : State) : State × (Nat ⊕ Stop) :=
  let va := ((p.rva.getD k 0 : Int) + p.i * p.str.getD k 0 * 2 ^ 20) % 2 ^ 64 |>.toNat
  if 2 ^ 52 ≤ va then (s, .inr (.fault Cause.noncanonical va))
  else
    match walk s p.cid va with
    | .bad c _ => let r := engineFault p.cid c va (countBad p.cid va s)
      (r.1, .inr r.2)
    | .leaf e =>
      match permitted need e with
      | some c => let r := engineFault p.cid c va s
        (r.1, .inr r.2)
      | none =>
        let pa := e.pa + (va - e.va)
        if e.bits < 25 || !isHbm s pa || stackOf pa ≠ u / 64 then (s, .inr (.fault Cause.misaligned va))
        else (s, .inl pa)

/-- Element `i` of a row as FP32 (R61, R352): a BF16 element is widened bit by bit, a NaN too (R49, log 53). -/
def rowElem (s : State) (pa b : Nat) (bf : Bool) (i : Nat) : W32 :=
  if bf then BitVec.ofNat 32 (homeRead s (rowByte pa b (2 * i)) 2 * 2 ^ 16)
  else BitVec.ofNat 32 (homeRead s (rowByte pa b (4 * i)) 4)

def accRow (p : NbProg) (b : Nat) : SMap W32 := tget [] p.acc b

/-- A data micro-op's effect on a bank's accumulator (R352). -/
def nbAccumulate (p : NbProg) (w : W64) (b : Nat) (x : Nat → W32) : NbProg :=
  let n := if uFmt w then 512 else 256
  let sc := p.sc.getD (uSi w) 0
  let new := fun (old v : W32) => match uopOf w with
    | 1 => v
    | 3 => (fadd .rne old v).1
    | _ => (ffma .rne sc v old).1
  let row := (List.range n).foldl (fun m i => tputD 0 m i (new (tget 0 m i) (x i))) (accRow p b)
  { p with acc := tputD [] p.acc b row }

/-- The bytes that WR stores for a bank (R352). -/
def nbRowBytes (p : NbProg) (w : W64) (b k : Nat) : W8 :=
  if uFmt w then
    BitVec.ofNat 8 ((rnd fmtBf16 .rne false (f32v (tget 0 (accRow p b) (k / 2)))).1 / 256 ^ (k % 2))
  else BitVec.ofNat 8 ((tget 0 (accRow p b) (k / 4)).toNat / 256 ^ (k % 4))

/-- A bank's row operation of a read: dirty copies are written back and kept (R355). -/
def nbReadRow (u : Nat) (p : NbProg) (w : W64) (b pa va : Nat) (s : State) : State :=
  let s := (rowLines pa b).foldl (fun s l => writeBackL2 l s) s
  if (rowLines pa b).any fun l => poisoned s (128 * l) 128 then faultProg u p Cause.ecc (va + b * 2 ^ 14) s
  else setProg u (nbAccumulate p w b (rowElem s pa b (uFmt w))) s

/-- A bank's row operation of a WR: every copy is dropped, and the row is written (R355, R356). -/
def nbWriteRow (u : Nat) (p : NbProg) (w : W64) (b pa : Nat) (s : State) : State :=
  let ls := rowLines pa b
  let dirty := (ls.filter fun l => (s.l2line l).dirty).length
  let lease := ls.foldl (fun m l => max m (s.l2line l).lease) (max p.lease s.time)
  let s := countBy 32 (u / 64) 3 dirty (ls.foldl (fun s l => dropL2 l s) s)
  let s := (List.range 8).foldl (fun s i =>
    let a := rowByte pa b (128 * i)
    let bytes := (List.range 128).map fun k => nbRowBytes p w b (128 * i + k)
    performed (s.taskT p.tid).launch a 128 { s with mem := listSet s.mem a bytes, poison := s.poison.filter fun x => !(a ≤ x && x < a + 128) }) s
  setProg u { p with lease := lease } s

/-- The next bank, or the next micro-op once every bank has had its row operation (R352). -/
def nextBank (u : Nat) (s : State) : State :=
  match (s.unit u).run with
  | some p =>
    if p.ended then s
    else
      let later := (banksOf p.bmask).filter fun b => p.bank < b
      (match later with
       | b :: _ => setProg u { p with bank := b } s
       | [] => setProg u { p with mpc := p.mpc + 1, bank := (banksOf p.bmask).headD 0 } s)
  | none => s

/-- The permission that a row of a stream needs: a write where any WR names the stream (R353 check 4, R354). -/
def rowNeed (p : NbProg) (k : Nat) : Need := if (usedStreams p.uops).contains (k, true) then .write else .read


/-- SYNC: PROGRESS is stored at its home (R352, R358). -/
def syncNb (u : Nat) (p : NbProg) (s : State) : State :=
  let v := p.mpc % 32 + p.i * 2 ^ 16 + 2 ^ 63
  match walkAddr s p.cid p.progress .write with
  | .inr c => (match engineFault p.cid c p.progress (countBad p.cid p.progress s) with
    | (s, .fault c a) => faultProg u p c a s
    | (s, _) => s)
  | .inl pa =>
    if homeGone s pa then faultProg u p Cause.fabricLost p.progress s
    else if hostHolds s 0 pa 8 then askHost pa 8 s
    else
      let g := gwctOf s pa
      setProg u { p with mpc := p.mpc + 1, lease := max p.lease g } (homeWriteOf (s.taskT p.tid).launch pa 8 v s)

/-- A micro-op that takes no row operation (R352, R480). -/
def plainNb (u : Nat) (p : NbProg) (s : State) : State :=
  let w := nbOp p
  match uopOf w with
  | 5 =>
    let sc := p.sc.getD (uSi w) 0
    let row := fun (m : SMap W32) => (List.range 512).foldl (fun m i => tputD 0 m i (fmul .rne (tget 0 m i) sc).1) m
    let acc := (banksOf p.bmask).foldl (fun a b => tputD [] a b (row (tget [] a b))) p.acc
    setProg u { p with mpc := p.mpc + 1, acc := acc } s
  | 6 =>
    if p.i + 1 < uCount w then setProg u { p with i := p.i + 1, mpc := uTarget w } s
    else setProg u { p with i := 0, mpc := p.mpc + 1 } s
  | 7 => syncNb u p s
  | _ => setProg u { p with ended := true } s

/-- The most micro-ops that stand between two row operations: a LOOP runs its body at most 65,535 times (R351). -/
def plainMost : Nat := 32 * 2 ^ 16

/-- SCALE, LOOP, SYNC and END are performed as soon as the micro-op before them is complete, up to a data micro-op, the end, or a SYNC whose
store waits (R480). -/
def settleNb (u : Nat) : Nat → State → State
  | 0, s => s
  | fuel + 1, s =>
    match (s.unit u).run with
    | none => s
    | some p =>
      if p.ended || isData (nbOp p) then s
      else
        let z := plainNb u p s
        match (z.unit u).run with
        | none => z
        | some q => if q.mpc == p.mpc && q.i == p.i && !q.ended then z else settleNb u fuel z

/-- Where the unit stands after a micro-op, or at a program's start (R357, R480). -/
def goOnNb (u : Nat) (s : State) : State := arbitrate u (settleNb u plainMost s)

/-- One row operation, and whether it took place (R354, R355); a row with a line of a lost slice cannot be reached (R413). -/
def rowOperation (u : Nat) (p : NbProg) (s : State) : State × Bool :=
  let w := nbOp p
  let wr := uopOf w == 2
  match rowAt u p (uRs w) (rowNeed p (uRs w)) s with
  | (s, .inr (.fault c a)) => (faultProg u p c a s, false)
  | (s, .inr _) => (s, false)
  | (s, .inl pa) =>
    let va := ((p.rva.getD (uRs w) 0 : Int) + p.i * p.str.getD (uRs w) 0 * 2 ^ 20) % 2 ^ 64 |>.toNat
    if (rowLines pa p.bank).any fun l => homeGone s (128 * l) then (faultProg u p Cause.fabricLost (va + p.bank * 2 ^ 14) s, false)
    else
      let z := if wr then nbWriteRow u p w p.bank pa s else nbReadRow u p w p.bank pa va s
      if (z.unit u).run.any NbProg.ended then (z, false) else (goOnNb u (nextBank u (z.onUnit u fun x => { x with susp := none })), true)

/-- The die of a unit still runs (R412). -/
def unitAlive (s : State) (u : Nat) : Bool := !s.lostDies.contains (u / 64 / 2)

/-- The work of a task that has ended by a fatal fault, or of a context that ends, stops (R359, R380, R431). -/
def issuerDead (s : State) (tid cid : Nat) : Bool := (s.taskT tid).st == .dead || halted s (taskOf tid) || (s.ctx cid).dying
def progDead (s : State) (p : NbProg) : Bool := issuerDead s p.tid p.cid

def execNbProgramStart (u : Nat) (s : State) : Host.Outcome State Fault Refusal :=
  .next (let x := s.unit u
    match x.run, x.queue with
    | none, p :: l =>
      if progDead s p then s.onUnit u fun x => { x with queue := l }
      else if p.lost.isSome then s
      else goOnNb u (s.onUnit u fun x =>
        { x with queue := l, susp := none, arrived := false
                 run := some { p with mpc := 0, i := 0, acc := [], bank := (banksOf p.bmask).headD 0 } })
    | _, _ => s)

/-- A program makes no progress: it has ended, its issuer or its die has, or a packet of it was lost (R359, R410, R412). -/
def progHeld (s : State) (u : Nat) (p : NbProg) : Bool := p.ended || progDead s p || !unitAlive s u || p.lost.isSome

def execNbRowOperation (u : Nat) (s : State) : Host.Outcome State Fault Refusal :=
  .next (let x := s.unit u
    match x.run with
    | none => s
    | some p =>
      if progHeld s u p then s
      else if !isData (nbOp p) then goOnNb u s
      else if x.susp.isSome then s
      else (rowOperation u p s).1)

/-- The unit resumes once no request has been queued for WINDOW: a request of the tick in which it would elapse comes first (R357, R479). -/
def execNbWindowResume (u : Nat) (s : State) : Host.Outcome State Fault Refusal :=
  .next (let x := s.unit u
    match x.susp with
    | none => s
    | some _ =>
      if !requested x && x.quiet + ticksNs s s.nbWindow < s.time then s.onUnit u fun x => { x with susp := none } else s)

/-- After MAXSUSP one row operation is made even with requests queued, and the unit arbitrates again; one that waits or faults is
none (R357, R358, R481). -/
def execNbForcedRowOperation (u : Nat) (s : State) : Host.Outcome State Fault Refusal :=
  .next (let x := s.unit u
    match x.run, x.susp with
    | some p, some t =>
      if progHeld s u p || s.time < t + ticksUs s s.nbMaxsusp then s
      else
        let r := rowOperation u p s
        if r.2 then count32 (u / 64) 2 r.1 else r.1
    | _, _ => s)

/-- A program completes, one that a fault stopped too, and a fault becomes pending with its issuer (R356, R358, R360). -/
def execNbProgramComplete (u : Nat) (s : State) : Host.Outcome State Fault Refusal :=
  .next (match (s.unit u).run with
    | none => s
    | some p =>
      if progDead s p then s.onUnit u fun x => { x with run := none, susp := none }
      else if !p.ended || p.lost.isSome || s.time ≤ p.lease then s
      else
        let s := count64 (u / 64) 0 (s.onUnit u fun x => { x with run := none, susp := none })
        match p.fault with
        | some (c, a) => completeOp p.tid p.op (pendFaultOf p.tid 5 c a (count32 (u / 64) 4 s))
        | none => completeOp p.tid p.op s)

/-! Controllers (R346, R347). -/

/-- A request of a controller for bytes `len` (a mask) of line `off` (R346, log 59): kind 0 a read arrives, 1 a write is accepted, 2 the oldest queued write is written
to the array, 3 the oldest waiting read is served, both at the end of a row operation that is under way, 4 and 5 a burst opens and closes a row of a bank. -/
def execHbmControllerRequest (u kind off len : Nat) (s : State) : Host.Outcome State Fault Refusal :=
  .next (let x := s.unit u
    let st := u / 64
    match kind with
    | 0 =>
      if forwards x.wq (off, len) then count64 st 8 s
      else
        let s := if x.wq.any fun w => meets w (off, len) then count64 st 9 s else s
        s.onUnit u fun x => comeNow s.time { x with reqs := x.reqs ++ [(off, len)] }
    | 1 => s.onUnit u fun x => comeNow s.time { x with wq := x.wq ++ [(off, len)] }
    | 2 => s.onUnit u (serveWrite s.time)
    | 3 => s.onUnit u (serveRead s.time)
    | 4 => s.onUnit u fun x => { x with burst := x.burst ++ [off % 16] }
    | _ => s.onUnit u fun x => { x with burst := x.burst.erase (off % 16) })

/-- A refresh falls due: it is postponed while a burst holds the bank's row open, to the limit of 8 intervals, at which
the row is closed; how long that takes is a free value (R347, R348, log 8). -/
def execHbmRefreshDue (u bank : Nat) (s : State) : Host.Outcome State Fault Refusal :=
  .next (let x := s.unit u
    let st := u / 64
    let b := bank % 16
    if !x.burst.contains b then s.onUnit u fun x => { x with postponed := tputD 0 x.postponed b 0 }
    else if tget 0 x.postponed b + 1 < 8 then
      s.onUnit u fun x => { x with postponed := tputD 0 x.postponed b (tget 0 x.postponed b + 1) }
    else
      let r := s.drawFree
      countBy 64 st 11 r.1.toNat (countBy 32 st 10 1 (r.2.onUnit u fun x => { x with postponed := tputD 0 x.postponed b 0 })))

end Sys2Proof.Machine
end

