-- ==== Sys2Proof/Machine/Landing.lean ====
section
/-!
DEFINITION. Collective landing: `cland` and the landing unit's packets (R362 to R364).
-/
namespace Sys2Proof.Machine

/-- Both lines of a packet lie in enabled valid windows of a context (R363, R364). -/
def landsFor (s : State) (cid pa n : Nat) : Bool :=
  (linesOf pa n).all fun l => s.lwin.any fun w => lwinCovers s w.2 (128 * l) && w.2.cid == cid

/-- The landing operation code of `cland` (R363, R364). -/
def landOpc (op : BitVec 2) (ty : Ty) : Nat :=
  match ty with
  | .bf16 => 3
  | .i32 => 4
  | _ => op.toNat

/-- The packet of the issuing warp: bytes 4L to 4L + 3 are lane L's (R364). -/
def landPacket (d : VReg) (op : BitVec 2) (ty : Ty) (m : Mask) (va pa : Nat) (s : State) : Landing :=
  { tid := some s.issue.tid, op := s.nextId, opc := landOpc op ty, cid := (s.curTask).cid, line := pa / 128
    mask := (List.range 256).map fun i => bit m (i / 4)
    data := (List.range 256).map fun i => ((s.cur.vlane d.toNat (i / 4)) >>> (8 * (i % 4))).setWidth 8, va := va }

def execCland (h : Head) (d : VReg) (a : SReg) (op : BitVec 2) (ty : Ty) (s : State) : Host.Outcome State Fault Refusal :=
  uniform h (fun s =>
    let x := s.cur.sget2 a
    if !nearReady s then stall s
    else match addrFault x 256 with
    | some c => faultAll h c x false s
    | none =>
      if isSpec s (taskOf s.issue.tid) || opHeld s.cur 3 || wpmBlocks s.cur x.toNat 256 then stall s
      else
        match translate s.issue.core (s.curTask).cid x.toNat .write s with
        | (s, .inr c) => faultAll h c x true s
        | (s, .inl pa) =>
          if !landsFor s (s.curTask).cid pa 256 then faultAll h Cause.permission x false s
          else
            let p := landPacket d op ty (execMask h s) x.toNat pa s
            let s := pushOp { id := 0, cls := 3, kind := .cland, wr := [(x.toNat, 256)] } (advance h s)
            { s with landing := s.landing ++ [p] }) s

/-- The element that a packet stores (R363). -/
def landNew (opc : Nat) (old v : Nat) : Nat :=
  let a : W32 := BitVec.ofNat 32 old
  let b : W32 := BitVec.ofNat 32 v
  match opc with
  | 0 => (fadd .rne a b).1.toNat
  | 1 => (fmax false a b).toNat
  | 2 => (fmin false a b).toNat
  | 3 => (rnd fmtBf16 .rne false (f32v (fadd .rne (a <<< 16) (b <<< 16)).1)).1
  | _ => (old + v) % 2 ^ 32

/-- Bytes written in a landing window's order; what is poisoned stays so (R466). -/
def landWrite (own : Option Nat) (pa n v : Nat) (s : State) : State :=
  performed own pa n { s with mem := bytesSet s.mem pa n v }

/-- Element `i` of a line: applied, skipped, or dropped and counted (R363). -/
def landElem (p : Landing) (z : Nat) (s : State) (i : Nat) : State :=
  let ms := (p.mask.drop (z * i)).take z
  if ms.all id then
    let pa := 128 * p.line + z * i
    landWrite (p.tid.bind fun t => (s.taskT t).launch) pa z (landNew p.opc (homeRead s pa z) (fieldAt p.data (z * i) z)) s
  else if ms.any id then { s with lwinDrop := s.lwinDrop + 1 } else s

/-- A read fault of the receiver, or its answer, which goes out once what it answers for has performed. -/
def answer (dev kind raddr : Nat) (c : W8) (data : List W8) (g : Nat) (s : State) : State :=
  { s with sent := s.sent ++ [{ dev := dev, kind := 16 + kind, raddr := raddr, cause := c, data := data, src := Config.devNum s.routeGen
                                count := data.length, due := if g = 0 then s.time else max s.time (g + 1) }] }

/-- A packet ends with a fault: its issuer keeps it pending, or the peer is answered (R363, R364, R454). -/
def landFail (p : Landing) (c : W8) (s : State) : State :=
  match p.tid, p.peer with
  | some t, _ => completeOp t p.op (pendFaultOf t 3 c (BitVec.ofNat 64 p.va) s)
  | none, some (dev, raddr) => answer dev 4 raddr c [] 0 s
  | none, none => s

/-- The packet is dropped and counted; its issuer keeps a pending fault (R363, R364). -/
def landDrop (p : Landing) (s : State) : State :=
  landFail p Cause.permission { s with lwinDrop := s.lwinDrop + 1 }

/-- The first line of a packet is applied as one step; the packet goes on with its second, which is not checked again, or is complete
(R363), and stays in the unit until device time has passed its writes (R393). It reaches the line's unit (R357, R365). -/
def landLine (idx : Nat) (p : Landing) (s : State) : State :=
  let z := if p.opc = 3 then 2 else 4
  let s := writeUnit p.line lineMask ((List.range (128 / z)).foldl (landElem p z) (readUnit p.line lineMask s))
  if 128 < p.data.length then
    { s with landing := s.landing.set idx { p with seen := true, line := p.line + 1, data := p.data.drop 128, mask := p.mask.drop 128 } }
  else
    { s with landing := s.landing.set idx { p with applied := some s.time } }

/-- A packet that has been applied is complete once device time has passed its writes (R393); the peer's is answered (R454). -/
def landDone (idx g : Nat) (p : Landing) (s : State) : State :=
  if s.time ≤ g then s
  else
    let s := { s with landing := s.landing.eraseIdx idx }
    match p.tid, p.peer with
    | some t, _ => completeOp t p.op s
    | none, some (dev, raddr) => answer dev 4 raddr 0 [] g s
    | none, none => s

/-- The packet has a line to write. -/
def Landing.open' (p : Landing) : Bool := p.applied.isNone

/-- The packet's place among its warp's accesses to the line has come (R271, R362). -/
def landReady (s : State) (p : Landing) : Bool :=
  match p.tid with
  | none => true
  | some t => match (s.thread t).ops.find? fun o => o.id == p.op with
    | some o => opReady s t o
    | none => true

def execLandingPacketApply (idx : Nat) (s : State) : Host.Outcome State Fault Refusal :=
  .next (match s.landing[idx]? with
    | none => s
    | some p =>
      match p.applied with
      | some g => landDone idx g p s
      | none =>
      if !landReady s p || dieLost s (128 * p.line) then s
      else if sliceLost s (128 * p.line) then landFail p Cause.fabricLost (countLost Cause.fabricLost { s with landing := s.landing.eraseIdx idx })
      else if !p.seen && (4 < p.opc || !landsFor s p.cid (128 * p.line) p.data.length) then
        landDrop p { s with landing := s.landing.eraseIdx idx }
      else landLine idx p s)

end Sys2Proof.Machine
end

