-- ==== Sys2Proof/Machine/Cerulean.lean ====
section
/-!
DEFINITION. Cerulean graph search: `qsub`, distances, rounds and completion (R366 to R381, R482).
-/
namespace Sys2Proof.Machine

/-! Packet and header (R366, R369). -/

def qGraph (p : List W8) : Nat := fieldAt p 0 8
def qVec (p : List W8) : Nat := fieldAt p 8 8
def qEntry (p : List W8) (i : Nat) : Nat := fieldAt p (0x10 + 4 * i) 4
def qResult (p : List W8) : Nat := fieldAt p 0x20 8
def qFuture (p : List W8) : Nat := fieldAt p 0x28 8
def qK (p : List W8) : Nat := fieldAt p 0x30 1
def qW (p : List W8) : Nat := fieldAt p 0x31 1
def qEf (p : List W8) : Nat := fieldAt p 0x32 2
def qHops (p : List W8) : Nat := fieldAt p 0x34 2
def qMetric (p : List W8) : Nat := fieldAt p 0x36 1
def qFlags (p : List W8) : Nat := fieldAt p 0x37 1
def gNodes (g : List W8) : Nat := fieldAt g 8 8
def gNnode (g : List W8) : Nat := fieldAt g 4 4
def gPmap (g : List W8) : Nat := fieldAt g 0x10 8
def gEfmt (g : List W8) : Nat := fieldAt g 0x18 1
def gDim (g : List W8) : Nat := fieldAt g 0x1A 2

def noNode : Nat := 0xFFFFFFFF

/-- The checks of a packet at issue (R379), orders 1 to 3, with FADDR. -/
def packetFault (q : Nat) (p : List W8) : Option (W8 × Nat) :=
  let fields : List (Nat × Nat) := [(qGraph p, 64), (qVec p, 128), (qResult p, 64), (qFuture p, 32)]
  match fields.find? fun f => 2 ^ 52 ≤ f.1 with
  | some f => some (Cause.noncanonical, f.1)
  | none =>
    match fields.find? fun f => f.1 % f.2 != 0 with
    | some f => some (Cause.misaligned, f.1)
    | none =>
      let ok := 1 ≤ qK p && qK p ≤ 64 && 1 ≤ qW p && qW p ≤ 8 && qK p ≤ qEf p && qEf p ≤ 256 && 1 ≤ qHops p &&
        qMetric p ≤ 1 && qEntry p 0 != noNode && qFlags p ≤ 1 && fieldAt p 0x38 8 == 0
      if ok then none else some (Cause.reservedField, q)

/-- Order 4 of R379. -/
def headerOk (g : List W8) : Bool := fieldAt g 0 4 == 1 && 1 ≤ gNnode g && gNnode g != noNode
/-- The header's rules that the home stack checks (R366, R377). -/
def headerFull (g : List W8) : Bool :=
  (gEfmt g == 7 || gEfmt g == 8 || gEfmt g == 9 || gEfmt g == 10) && fieldAt g 0x19 1 == 0 && fieldAt g 0x1C 36 == 0 &&
  32 ≤ gDim g && gDim g ≤ 4096 && gDim g % 32 == 0

/-! `qsub` (R378). -/

/-- Queries that a stack holds (R380). -/
def stackQueries (s : State) (h : Nat) : Nat := (s.queries.filter fun q => q.2.home == h).length

/-- Warps that wait for room on a stack, with their order. -/
def roomWaiters (s : State) (h : Nat) : List (Nat × Nat) :=
  s.threads.filterMap fun t => match t.2.wait with
    | .qroom k o => if k = h then some (o, t.1) else none
    | _ => none

/-- The issuing warp is the next to be admitted to a stack (R378). -/
def admitted (s : State) (h : Nat) : Bool :=
  stackQueries s h < 64 && (match s.cur.wait with
    | .qroom _ o => (roomWaiters s h).all fun w => o < w.1 || (o == w.1 && s.issue.tid ≤ w.2)
    | _ => (roomWaiters s h).isEmpty)

/-- A query enters the table with its place in SRC (R378). -/
def submitQuery (h : Head) (q : Query) (s : State) : State :=
  let id := s.nextId
  let s := pushOp { id := 0, cls := 4, kind := .qsub, wr := [(qResult q.pkt, 576)] } (advance h s)
  { s with queries := tput s.queries id { q with tid := s.issue.tid, op := id, cid := (s.curTask).cid, wid := (s.curTask).wid } }

/-- The placement byte of ENTRY0, or none where the node does not exist or its stack is absent. -/
def placeQuery (h : Head) (p g : List W8) (b : Option Nat) (s : State) : State :=
  let q : Query := { tid := 0, op := 0, cid := 0, home := 16, wid := 0, pkt := p, hdr := g }
  if opHeld s.cur 4 then stall s
  else
    match b with
    | none =>
      submitQuery h { q with stopped := true, fault := some (Cause.searchBadNode, BitVec.ofNat 64 (qEntry p 0 + noNode * 2 ^ 32)) } s
    | some st =>
      if admitted s st then submitQuery h { q with home := st } (s.onCur unwait)
      else
        stall (s.onCur fun t => { t with wait := match t.wait with
          | .qroom k o => .qroom k o
          | _ => .qroom st s.time })

/-- The reads of `qsub` after the packet: the header and the placement byte (R378, R379). -/
def readGraph (h : Head) (p : List W8) (s : State) : State :=
  match issueRead (qGraph p) 64 s with
  | (s, .inr (.bad c va tr)) => faultAll h c (BitVec.ofNat 64 va) tr s
  | (s, .inr _) => stall s
  | (s, .inl g) =>
    if !headerOk g then faultAll h Cause.reservedField (BitVec.ofNat 64 (qGraph p)) false s
    else if gNnode g ≤ qEntry p 0 then placeQuery h p g none s
    else
      match issueRead (wrap64 (gPmap g + qEntry p 0)) 1 s with
      | (s, .inr (.bad c va tr)) => faultAll h c (BitVec.ofNat 64 va) tr s
      | (s, .inr _) => stall s
      | (s, .inl b) =>
        let st := leNat b
        placeQuery h p g (if st ≤ 15 && stackPresent s st then some st else none) s

def execQsub (h : Head) (a : SReg) (s : State) : Host.Outcome State Fault Refusal :=
  uniform h (fun s =>
    let q := s.cur.sget2 a
    if !nearReady s then stall s
    else match addrFault q 64 with
    | some c => faultAll h c q false s
    | none =>
      if isSpec s (taskOf s.issue.tid) || acqPending s.cur || relPending s.cur || !relHolds s s.issue.tid s.cur.flight 4 then stall s
      else
        match issueRead q.toNat 64 s with
        | (s, .inr (.bad c va tr)) => faultAll h c (BitVec.ofNat 64 va) tr s
        | (s, .inr _) => stall s
        | (s, .inl p) =>
          match packetFault q.toNat p with
          | some (c, va) => faultAll h c (BitVec.ofNat 64 va) false s
          | none => readGraph h p s) s

/-! Reads of the engines (R367, R368). -/

/-- A read stops where a stack is lost, with the stack's number (R377). -/
def cerAt (s : State) (cid va : Nat) (need : Need) : State × (Nat ⊕ Stop) :=
  match walkAddr s cid va need with
  | .inr c => let r := engineFault cid c va (countBad cid va s)
    (r.1, .inr r.2)
  | .inl pa => if homeGone s pa then (s, .inr (.fault Cause.fabricLost (stackOf pa))) else (s, .inl pa)

/-- Physical runs of a range, line by line. -/
def cerRuns (cid : Nat) : Nat → Nat → Nat → State → State × List (Nat × Nat) × Stop
  | 0, _, _, s => (s, [], .none)
  | fuel + 1, va, n, s =>
    if n = 0 then (s, [], .none)
    else
      let k := lineRest va n
      match cerAt s cid va .read with
      | (s, .inr e) => (s, [], e)
      | (s, .inl pa) =>
        let r := cerRuns cid fuel (wrap64 (va + k)) (n - k) s
        (r.1, (pa, k) :: r.2.1, r.2.2)

/-- The bytes of a range, and whether all of them lie in stack `home`. -/
def cerRead (cid va n home : Nat) (s : State) : State × List W8 × Bool × Stop :=
  let r := cerRuns cid (n + 1) va n s
  match r.2.2 with
  | .none =>
    (match r.2.1.find? fun x => poisoned r.1 x.1 x.2 with
     | some _ => (r.1, [], true, .fault Cause.ecc va)
     | none =>
       (r.1, r.2.1.flatMap fun x => (List.range x.2).map fun i => byteAt r.1.mem (x.1 + i),
        r.2.1.all fun x => isHbm r.1 x.1 && stackOf x.1 == home, .none))
  | e => (r.1, [], true, e)

/-- What a node comes to when its record is first needed (R367). -/
inductive Node where
  | good (record : List W8) (home : Nat)
  | bad
  | stop (e : Stop)
  deriving DecidableEq, Repr

def recDeg (r : List W8) : Nat := fieldAt r 8 1
def recEmb (r : List W8) : Nat := fieldAt r 0 8
def recNbr (r : List W8) (n : Nat) : Nat := fieldAt r (0x10 + 4 * n) 4

/-- Bytes of an embedding element. -/
def embSize (g : List W8) : Nat := sizeOf (gEfmt g)

/-- The record of a node, with the conditions of R367. -/
def readNode (cid : Nat) (g : List W8) (x : Nat) (s : State) : State × Node :=
  if gNnode g ≤ x then (s, .bad)
  else
    match cerRead cid (wrap64 (gPmap g + x)) 1 0 s with
    | (s, b, _, .none) =>
      let home := leNat b
      if 15 < home || !stackPresent s home then (s, .bad)
      else if s.lostDies.contains (home / 2) then (s, .stop (.fault Cause.fabricLost home))
      else
        match cerRead cid (wrap64 (gNodes g + 384 * x)) 384 home s with
        | (s, r, inside, .none) =>
          if 64 < recDeg r || fieldAt r 9 1 ≠ home || 2 ^ 52 ≤ recEmb r || recEmb r % 4 ≠ 0 || !inside then (s, .bad)
          else
            (match cerRuns cid (gDim g * embSize g + 1) (recEmb r) (gDim g * embSize g) s with
             | (s, l, .none) => (s, if l.all fun y => isHbm s y.1 && stackOf y.1 == home then .good r home else .bad)
             | (s, _, e) => (s, .stop e))
        | (s, _, _, e) => (s, .stop e)
    | (s, _, _, e) => (s, .stop e)

/-! Distances (R370). -/

def embElem (g b : List W8) (i : Nat) : W32 :=
  match gEfmt g with
  | 7 => BitVec.ofNat 32 (fieldAt b (4 * i) 4)
  | 8 => BitVec.ofNat 32 (fieldAt b (2 * i) 2 * 2 ^ 16)
  | f => rne32 (unpack (fmtOf (fmtTy f)) (fieldAt b i 1))

/-- One level of the pairwise tree with every position present (R234). -/
def pairs : List W32 → List W32
  | a :: b :: l => (fadd .rne a b).1 :: pairs l
  | l => l

def chunkSum (p : Nat → W32) : W32 := ((List.range 5).foldl (fun l _ => pairs l) ((List.range 32).map p)).headD 0

/-- d(x) from the query's and the node's elements. -/
def distance (metric dim : Nat) (q e : Nat → W32) : W32 :=
  let term := fun i =>
    if metric = 0 then let t := (fsub .rne (q i) (e i)).1
      (fmul .rne t t).1
    else (fmul .rne (q i) (e i)).1
  let chunk := fun c => chunkSum fun l => term (32 * c + l)
  let acc := (List.range (dim / 32 - 1)).foldl (fun a c => (fadd .rne a (chunk (c + 1))).1) (chunk 0)
  if metric = 0 then acc else if isNan32 acc then cNan32 else fneg acc

def setDist (q idx : Nat) (f : QDist → QDist) (s : State) : State :=
  match tfind s.queries q with
  | some x => { s with queries := tput s.queries q { x with list := x.list.modify idx f } }
  | none => s

/-- A bad neighbour is skipped: it leaves the list and V, and is counted (R377). -/
def skipBad (q idx : Nat) (x : Query) (id : Nat) (s : State) : State :=
  match tfind s.queries q with
  | some y =>
    let y' : Query := { y with list := y.list.eraseIdx idx, v := y.v.erase id, status := y.status ||| 4 }
    countBy 32 x.home 20 1 { s with queries := tput s.queries q y' }
  | none => s

/-- The distance of an entry of the list arrives, or the fault that ends its read; a node may have turned bad since it was listed
(R370, R377). -/
def queryDist (q idx : Nat) (x : Query) (e : QDist) (s : State) : State :=
  let g := x.hdr
  let stop := fun (p : Stop) (s : State) => match p with
    | .fault c a => setDist q idx (fun e => { e with fault := some (c, BitVec.ofNat 64 a) }) s
    | _ => s
  match readNode x.cid g e.id s with
  | (s, .bad) =>
    if qFlags x.pkt != 0 && e.parent != noNode then skipBad q idx x e.id s
    else stop (.fault Cause.searchBadNode (e.id + e.parent * 2 ^ 32)) s
  | (s, .stop p) => stop p s
  | (s, .good r home) =>
    match cerRead x.cid (recEmb r) (gDim g * embSize g) home s with
    | (s, b, _, .none) =>
      (match cerRead x.cid (qVec x.pkt) (4 * gDim g) 0 s with
       | (s, v, _, .none) =>
         let d := distance (qMetric x.pkt) (gDim g) (fun i => BitVec.ofNat 32 (fieldAt v (4 * i) 4)) (embElem g b)
         let s := setDist q idx (fun e => { e with d := some d }) (count64 home 18 s)
         (match tfind s.queries q with
          | some y => { s with queries := tput s.queries q { y with visited := y.visited + 1 } }
          | none => s)
       | (s, _, _, p) => stop p s)
    | (s, _, _, p) => stop p s

def execQueryDistance (q idx : Nat) (s : State) : Host.Outcome State Fault Refusal :=
  .next (match tfind s.queries q with
    | none => s
    | some x => if x.stopped || x.lost.isSome || !headerFull x.hdr then s else
      match x.list[idx]? with
      | some e => if e.d.isSome || e.fault.isSome then s else queryDist q idx x e s
      | none => s)

/-! Rounds (R371 to R373). -/

/-- The order of candidates (R371). -/
def candLess (a b : W32 × Nat) : Bool :=
  match isNan32 a.1, isNan32 b.1 with
  | true, true => a.2 < b.2
  | true, false => false
  | false, true => true
  | false, false => fkey a.1 < fkey b.1 || (fkey a.1 == fkey b.1 && a.2 < b.2)

def candInsert (c : Cand) : List Cand → List Cand
  | [] => [c]
  | x :: l => if candLess (c.d, c.id) (x.d, x.id) then c :: x :: l else x :: candInsert c l

/-- Offering to C (R372). -/
def offer (ef : Nat) (l : List Cand) (d : W32) (x parent : Nat) : List Cand :=
  if l.any fun c => c.id == x then l
  else if l.length < ef then candInsert ⟨d, x, false, parent⟩ l
  else match l.getLast? with
    | some z => if candLess (d, x) (z.d, z.id) then candInsert ⟨d, x, false, parent⟩ l.dropLast else l
    | none => l

/-- Inserting into V (R372). -/
def visit (x : Nat) (q : Query) : Query :=
  if q.v.length < 4096 then { q with v := q.v ++ [x] } else { q with status := q.status ||| 1 }

/-- The used entries, each once, in V (R373). -/
def entryList (q : Query) : Query :=
  (List.range 4).foldl (fun q i =>
    let e := qEntry q.pkt i
    if e = noNode || q.v.contains e then q else { visit e q with list := q.list ++ [⟨e, noNode, none, none⟩] }) q

/-- One neighbour of an expanded node: it may join L, be skipped, or end the query (R373, R377). -/
def addNeighbour (parent x : Nat) (z : State × Query × Stop) : State × Query × Stop :=
  let q := z.2.1
  if z.2.2 != .none || q.v.contains x || (q.list.any fun e => e.id == x) || (q.c.any fun c => c.id == x) then z
  else
    match readNode q.cid q.hdr x z.1 with
    | (s, .bad) =>
      if qFlags q.pkt = 0 then (s, q, .fault Cause.searchBadNode (x + parent * 2 ^ 32))
      else (countBy 32 q.home 20 1 s, { q with status := q.status ||| 4 }, .none)
    | (s, .stop e) => (s, q, e)
    | (s, .good _ _) => (s, { visit x q with list := q.list ++ [⟨x, parent, none, none⟩] }, .none)

/-- The list of a round from the nodes expanded (R373). A node may have turned bad since its distance was computed: one that was met
as a neighbour is then skipped with SKIPBAD set, and left out of V and C (R377). -/
def expandNode (z : State × Query × Stop) (b : Cand) : State × Query × Stop :=
  let q := z.2.1
  if z.2.2 != .none then z
  else
    match readNode q.cid q.hdr b.id z.1 with
    | (s, .bad) =>
      if qFlags q.pkt = 0 || b.parent = noNode then (s, q, .fault Cause.searchBadNode (b.id + b.parent * 2 ^ 32))
      else (countBy 32 q.home 20 1 s,
        { q with status := q.status ||| 4, v := q.v.erase b.id, c := q.c.filter fun c => c.id != b.id }, .none)
    | (s, .stop e) => (s, q, e)
    | (s, .good r _) => (List.range (recDeg r)).foldl (fun z n => addNeighbour b.id (recNbr r n) z) (s, q, .none)

/-- The next round begins, or the search stops (R373). -/
def startRound (id : Nat) (q : Query) (s : State) : State :=
  let put := fun (q : Query) (s : State) => { s with queries := tput s.queries id q }
  let open' := q.c.filter fun c => !c.exp
  let kth := q.c[qK q.pkt - 1]?
  match open'.head? with
  | none => put { q with stopped := true } s
  | some u =>
    if kth.any fun k => !candLess (u.d, u.id) (k.d, k.id) then put { q with stopped := true } s
    else if q.rounds = qHops q.pkt then put { q with stopped := true, status := q.status ||| 2 } s
    else
      let b := open'.take (qW q.pkt)
      let q' := { q with c := q.c.map fun c => if b.any fun x => x.id == c.id then { c with exp := true } else c
                         expanded := q.expanded + b.length }
      let counts := s.nbCnt
      match b.foldl expandNode (s, q', Stop.none) with
      | (s, q', .none) => put q' s
      | (s, _, .wait) => { s with nbCnt := counts }
      | (s, q', .fault c a) => put { q' with stopped := true, fault := some (c, BitVec.ofNat 64 a) } s

/-- The round boundary (R373, R482): entries are offered once, before the first round. -/
def mergeRound (q : Query) : Query :=
  let c := q.list.foldl (fun c e => offer (qEf q.pkt) c (e.d.getD 0) e.id e.parent) q.c
  if q.entryDone then { q with c := c, list := [], rounds := q.rounds + 1 } else { q with c := c, list := [], entryDone := true }

def queryStep (id : Nat) (q : Query) (s : State) : State :=
  let put := fun (q : Query) (s : State) => { s with queries := tput s.queries id q }
  if !headerFull q.hdr then
    put { q with stopped := true, fault := some (Cause.reservedField, BitVec.ofNat 64 (qGraph q.pkt)) } s
  else if !q.entryDone && q.v.isEmpty then put (entryList q) s
  else
    match q.list.find? fun e => e.fault.isSome || e.d.isNone with
    | some e =>
      (match e.fault with
       | some f => put { q with stopped := true, fault := some f } s
       | none => s)
    | none => startRound id (mergeRound q) s

/-- The query's place is freed, and SRC is reported (R376). -/
def queryEnd (id : Nat) (q : Query) (s : State) : State := completeOp q.tid q.op { s with queries := tdel s.queries id }

/-- What a query that ends has set, and the fault that ended it, are counted (R381). -/
def countSet (q : Query) (s : State) : State :=
  if 15 < q.home then s
  else
    let s := countBy 32 q.home 22 (q.status / 2 % 2) (countBy 32 q.home 19 (q.status % 2) s)
    if q.fault.isSome then countBy 32 q.home 21 1 s else s

/-- A query of a context that has ended stops: no result is written, and its future stays as it is (R380). -/
def queryDrop (id : Nat) (q : Query) (s : State) : State := queryEnd id q (countSet q s)

/-- The round boundary: every distance that has been asked for has arrived (R373). -/
def atBoundary (q : Query) : Bool := q.list.all fun e => e.d.isSome

def execQueryRound (q : Nat) (s : State) : Host.Outcome State Fault Refusal :=
  .next (match tfind s.queries q with
    | none => s
    | some x =>
      if x.stopped || x.lost.isSome then s
      else if issuerDead s x.tid x.cid && atBoundary x then queryDrop q x s
      else queryStep q x s)

/-! Completion (R375 to R377). -/

def resultBytes (q : Query) : List W8 :=
  let n := min (qK q.pkt) q.c.length
  toBytes 4 q.status ++ toBytes 4 n ++ toBytes 4 q.rounds ++ toBytes 4 q.expanded ++ toBytes 4 q.visited ++ toBytes 44 0 ++
  ((List.range 64).flatMap fun i => toBytes 4 (if i < n then (q.c[i]?.map fun c => c.d.toNat).getD 0 else 0x7FC00000)) ++
  ((List.range 64).flatMap fun i => toBytes 4 (if i < n then (q.c[i]?.map Cand.id).getD 0 else noNode))

/-- Where the result block goes, line by line. -/
def resultPlace (cid : Nat) : Nat → Nat → List W8 → State → State × List Put × Stop
  | 0, _, _, s => (s, [], .none)
  | fuel + 1, va, b, s =>
    if b.isEmpty then (s, [], .none)
    else
      let k := lineRest va b.length
      match cerAt s cid va .write with
      | (s, .inr e) => (s, [], e)
      | (s, .inl pa) =>
        let r := resultPlace cid fuel (wrap64 (va + k)) (b.drop k) s
        (r.1, .mem pa (b.take k) :: r.2.1, r.2.2)

/-- The counters of a query that completes: QUERIES and ROUNDS too, where no fault has ended it (R381). -/
def queryCount (q : Query) (s : State) : State :=
  if 15 < q.home || q.fault.isSome then countSet q s else countBy 64 q.home 17 q.rounds (count64 q.home 16 (countSet q s))

/-- The future is completed, an abandoned one left pending with the issuer (R376, R377). -/
def queryFuture (id : Nat) (q : Query) (st : Nat) (cause : W8) (value aux : W64) (s : State) : State :=
  let f := qFuture q.pkt
  match completeAt (s.taskT q.tid).launch q.cid f st cause value aux q.wid s with
  | (s, .wait) => s
  | (s, .abandoned c) => queryEnd id q (queryCount q (pendFaultOf q.tid 4 c (BitVec.ofNat 64 f) (countLost cause s)))
  | (s, _) => queryEnd id q (queryCount q (countLost cause s))

/-- A query that has stopped: its result block, which its issuer's launch writes (R129), then its future, then its place (R376, R377). -/
def queryFinish (id : Nat) (q : Query) (s : State) : State :=
  match q.fault with
  | some (c, a) =>
    if qFuture q.pkt = 0 then queryEnd id q (queryCount q (pendFaultOf q.tid 4 c a s))
    else queryFuture id q 2 c 0 a s
  | none =>
    match q.gw with
    | none =>
      (match resultPlace q.cid 577 (qResult q.pkt) (resultBytes q) s with
       | (s, ps, .none) => (match putAll (some (taskOf q.tid)) s.time ps s with
         | none => ps.foldl (putAsk (some (taskOf q.tid))) s
         | some (s, g) => { s with queries := tput s.queries id { q with gw := some g } })
       | (s, _, .wait) => s
       | (s, _, .fault c a) => { s with queries := tput s.queries id { q with fault := some (c, BitVec.ofNat 64 a) } })
    | some g =>
      if s.time ≤ g then s
      else if qFuture q.pkt = 0 then queryEnd id q (queryCount q s)
      else queryFuture id q 1 0 (BitVec.ofNat 64 (min (qK q.pkt) q.c.length + q.status * 2 ^ 32)) 0 s

def execQueryComplete (q : Nat) (s : State) : Host.Outcome State Fault Refusal :=
  .next (match tfind s.queries q with
    | none => s
    | some x =>
      if !x.stopped || x.lost.isSome then s
      else if issuerDead s x.tid x.cid then queryDrop q x s
      else queryFinish q x s)

end Sys2Proof.Machine
end

