-- ==== Sys2Proof/Machine/Queues.lean ====
section
/-!
DEFINITION. Queues in memory, notifies and packet errors (R98 to R103, R108), the reads and writes of agents that hold no
core, and `qput` (R114).
-/
namespace Sys2Proof.Machine

/-! Reads and writes of the front end and of Umber under a context (R290, R292, R483). -/

/-- Where an agent's access reaches memory; a home that is lost answers FABRIC_LOST (R412). -/
def hubAt (s : State) (cid va : Nat) (need : Need) : State × (Nat ⊕ Stop) :=
  match walkAddr s cid va need with
  | .inr c => let r := engineFault cid c va (countBad cid va s)
    (countLost c r.1, .inr r.2)
  | .inl pa => if homeGone s pa then (countLost Cause.fabricLost s, .inr (.fault Cause.fabricLost va)) else (s, .inl pa)

/-- The bytes of a range under a tag's view, line by line, up to the first that is not read. -/
def hubBytes (cid : Nat) (tag : Option Nat) : Nat → Nat → Nat → State → State × List W8 × Stop
  | 0, _, _, s => (s, [], .none)
  | fuel + 1, va, n, s =>
    if n = 0 then (s, [], .none)
    else
      let k := lineRest va n
      match hubAt s cid va .read with
      | (s, .inr e) => (s, [], e)
      | (s, .inl pa) =>
        if poisoned s pa k then (s, [], .fault Cause.ecc va)
        else
          let r := hubBytes cid tag fuel (wrap64 (va + k)) (n - k) s
          (r.1, ((List.range k).map fun i => viewByte s tag (pa + i)) ++ r.2.1, r.2.2)

def hubRead (cid va n : Nat) (s : State) : State × List W8 × Stop := hubBytes cid none (n + 1) va n s

/-- Where the bytes of a write go, line by line, up to the first that faults. -/
def hubPlace (cid : Nat) : Nat → Nat → List W8 → State → State × List Put × Stop
  | 0, _, _, s => (s, [], .none)
  | fuel + 1, va, b, s =>
    if b.isEmpty then (s, [], .none)
    else
      let k := lineRest va b.length
      match hubAt s cid va .write with
      | (s, .inr e) => (s, [], e)
      | (s, .inl pa) =>
        let r := hubPlace cid fuel (wrap64 (va + k)) (b.drop k) s
        (r.1, .mem pa (b.take k) :: r.2.1, r.2.2)

/-- An agent's write: what came before a fault is written; the completion time of what was written (R385). While it waits no fault of it
is counted (R414). -/
def hubWrite (cid va : Nat) (b : List W8) (s : State) : State × Nat × Stop :=
  let r := hubPlace cid (b.length + 1) va b s
  if r.2.2 == .wait then (r.1, 0, .wait)
  else match putAll none r.1.time r.2.1 r.1 with
    | none => ({ r.2.1.foldl (putAsk none) r.1 with timeouts := s.timeouts }, 0, .wait)
    | some (s, g) => (s, g, r.2.2)

/-! The queue control block (R98). -/

def qcbField (s : State) (q : Queue) (off n : Nat) : Nat :=
  match walkAddr s q.cid (q.qcb + off) .read with
  | .inl pa => homeRead s pa n
  | .inr _ => 0

def qRbase (s : State) (q : Queue) : Nat := qcbField s q 0 8
def qLog2n (s : State) (q : Queue) : Nat := qcbField s q 8 1
def qPrio (s : State) (q : Queue) : Nat := qcbField s q 9 1
def qMsix (s : State) (q : Queue) : Nat := qcbField s q 0x0E 2
def qWridx (s : State) (q : Queue) : Nat := qcbField s q 0x10 8
def qRdidx (s : State) (q : Queue) : Nat := qcbField s q 0x18 8
def qErr (s : State) (q : Queue) : Nat := qcbField s q 0x20 8

/-- The front end writes a field of the block. -/
def setQcb (q : Queue) (off n v : Nat) (s : State) : State :=
  match walkAddr s q.cid (q.qcb + off) .write with
  | .inl pa => homeWrite pa n v s
  | .inr _ => countBad q.cid (q.qcb + off) s

def State.queue (s : State) (qid : Nat) : Queue := tget { cid := 0, qcb := 0, send := false } s.queues qid
def State.onQueue (s : State) (qid : Nat) (f : Queue → Queue) : State :=
  match tfind s.queues qid with
  | some q => { s with queues := tput s.queues qid (f q) }
  | none => s

/-- The slot of an index (R98). -/
def slotVa (rbase log2n i : Nat) : Nat := wrap64 (rbase + 64 * (i % 2 ^ log2n))

/-- Effective priority (R109). -/
def effPrio (s : State) (qid : Nat) : Nat :=
  let q := s.queue qid
  min 3 (qPrio s q + (s.time - q.w) / ticksUs s s.ageq.toNat)

/-- A slot's place after the one that won last (R109). -/
def slotTurn (s : State) (k : Nat) : Nat := (k + 31 - s.lastSlot) % 32

/-! Notifies and errors (R103, R108). -/

/-- The doorbell catcher's bit of a queue (R108). -/
def ringBell (qid : Nat) (s : State) : State :=
  if s.doorbell.contains qid then s else { s with doorbell := qid :: s.doorbell }

/-- A notify: a mapped queue reads its ring; otherwise its bit is set in the doorbell catcher (R108). -/
def notify (qid : Nat) (s : State) : State :=
  match tfind s.queues qid with
  | some q => if q.slot.isSome then s.onQueue qid fun q => { q with idle := false } else ringBell qid s
  | none => ringBell qid s

/-- The host receives an MSI-X vector (R101). -/
def msix (vector what : Nat) (s : State) : State := tellHost 0 vector what s

/-- The pages that the front end is about to write accept its stores: the first that does not is waited for while it migrates, or
faults (R290, R292); a line that the host holds is asked back first (R446). -/
def writable (cid : Nat) : List Nat → State → State × Stop
  | [], s => (s, .none)
  | va :: l, s =>
    match hubAt s cid va .write with
    | (s, .inr e) => (s, e)
    | (s, .inl pa) => if (s.l2line (lineOf pa)).host then (askHost pa 8 s, .wait) else writable cid l s

/-- The slots of a claim or of a consumption are free of leases, so that what follows them as a release store is behind them (R43,
R100, R385, log 21). -/
def slotsReady (cid : Nat) : List Nat → State → State × Stop
  | [], s => (s, .none)
  | va :: l, s =>
    match hubAt s cid va .write with
    | (s, .inr e) => (s, e)
    | (s, .inl pa) => if futureQuiet s pa then slotsReady cid l s else (askHost pa 64 s, .wait)

/-- ERR is written; while its page migrates, or the host holds its line, the write stands owed, and the queue consumes nothing (R103,
R292, R446). -/
def writeErr (qid v : Nat) (s : State) : State :=
  let q := s.queue qid
  let owe := fun (s : State) => s.onQueue qid fun q => { q with errOwed := some v }
  let put := fun (s : State) => (setQcb q 0x20 8 v s).onQueue qid fun q => { q with errOwed := none }
  match walkAddr s q.cid (q.qcb + 0x20) .write with
  | .inr c => if c = Cause.wpMigration then owe s else put s
  | .inl pa => if (s.l2line (lineOf pa)).host then owe (askHost pa 8 s) else put s

/-- Owed writes of ERR that wait for a migration or for the host are made again (R292, R446). -/
def settleErrs (s : State) : State :=
  s.queues.foldl (fun s e => match e.2.errOwed with
    | some v => writeErr e.1 v s
    | none => s) s

/-- A packet error stops the queue (R103): ERR names the code and the index, the slot's ERRSLOT bit is set, and the host
is told; Umber's control thread is told by the stopped mark. -/
def packetError (qid code index : Nat) (s : State) : State :=
  let q := s.queue qid
  let s := writeErr qid (code + 256 * (index % 2 ^ 56)) s
  let s := match q.slot with
    | some k => { s with errslot := s.errslot ||| (1#32 <<< k) }
    | none => s
  msix (qMsix s q) qid (s.onQueue qid fun q => { q with stopped := true, idle := true })

/-! Packet headers (R101). -/

/-- HCHK of a header's low six bytes (R101). -/
def hchk (w : Nat) : Nat := (List.range 6).foldl (fun x i => x ^^^ (w / 256 ^ i % 256)) 0x5A

/-- The header that `qput` makes of an image (R114). -/
def packetHeader (b : List W8) (cid i : Nat) : Nat :=
  let w := fieldAt b 0 2 + cid % 2 ^ 16 * 2 ^ 16 + i % 2 ^ 16 * 2 ^ 32
  w + hchk w * 2 ^ 48 + 0xA5 * 2 ^ 56

/-! `qput` (R114). -/

/-- The slots of a claim are ready for release stores: every one that translates is free of leases. -/
def slotsQuiet (core cid : Nat) : List Nat → State → State × Bool
  | [], s => (s, true)
  | va :: l, s =>
    match translate core cid va .write s with
    | (s, .inr _) => (s, true)
    | (s, .inl pa) =>
      if homeGone s pa then (s, true)
      else if futureQuiet s pa then slotsQuiet core cid l s else (askHost pa 64 s, false)

/-- The slots in the order given: 56 bytes, then the header; the first fault ends it. -/
def writeSlots (core cid qcid : Nat) : List (Nat × Nat × List W8) → State → State × Option (Nat × W8 × Nat × Bool)
  | [], s => (s, none)
  | (i, va, b) :: l, s =>
    match translate core cid va .write s with
    | (s, .inr c) => (s, some (i, c, va, true))
    | (s, .inl pa) =>
      if homeGone s pa then (s, some (i, Cause.fabricLost, va, false))
      else
        let g := gwctOf s pa
        let own := (s.curTask).launch
        let s := homeWriteOf own pa 8 (packetHeader b qcid i) (homeWriteOf own (pa + 8) 56 (fieldAt b 8 56) s)
        writeSlots core cid qcid l (noteGwct s.issue.tid g s)

/-- The claim and the writes, from the QCB at physical address `pa` (R114). -/
def qputClaim (h : Head) (d : SReg) (k : Nat) (p : Nat × Nat) (pa : Nat) (s : State) : State :=
  let core := s.issue.core
  let cid := (s.curTask).cid
  let n := homeRead s (pa + 8) 1
  let w := homeRead s (pa + 0x10) 8
  let r := homeRead s (pa + 0x18) 8
  if (2 ^ n : Int) - k < (w : Int) - r then giveS2 d (BitVec.allOnes 64) (advance h s)
  else
    let slots := (List.range k).reverse.map fun j =>
      (w + j, slotVa (homeRead s pa 8) n (w + j), (List.range 64).map fun i => byteAt (s.task p.1).spad (p.2 + 64 * j + i))
    let q := slotsQuiet core cid (slots.map fun x => x.2.1) s
    if !q.2 then stall q.1
    else
      let qid := homeRead q.1 (pa + 0x0A) 2 % 2 ^ 12
      let s := noteGwct q.1.issue.tid (gwctOf q.1 pa) (homeWrite (pa + 0x10) 8 ((w + k) % 2 ^ 64) q.1)
      match writeSlots core cid (homeRead s (pa + 0x0C) 2) slots s with
      | (s, some (i, c, va, tr)) => faultAll h c (BitVec.ofNat 64 va) tr (packetError qid 7 i s)
      | (s, none) => giveS2 d (BitVec.ofNat 64 w) (advance h (notify qid s))

def qput (h : Head) (d a b : SReg) (k : Nat) (s : State) : State :=
  let t := s.cur
  let x := t.sget2 a
  let o := (t.sget b).toNat
  if !canonical x then faultAll h Cause.noncanonical x false s
  else if x.toNat % 256 ≠ 0 || o % 64 ≠ 0 then faultAll h Cause.misaligned 0 false s
  else
    match spLoc s (taskOf s.issue.tid) o (64 * k) with
    | none => faultAll h Cause.bounds 0 false s
    | some p =>
      if isSpec s (taskOf s.issue.tid) || taskHeld t || !storesDone s || spadHeld t o (64 * k) then stall s
      else
        match translate s.issue.core (s.curTask).cid x.toNat .write s with
        | (s, .inr c) => faultAll h c x true s
        | (s, .inl pa) =>
          if homeGone s pa then faultAll h Cause.fabricLost x false s
          else if !mayRead s s.issue.core s.issue.tid x.toNat pa 64 || !futureQuiet s pa then stall (askHost pa 64 s)
          else if poisonedTo s s.issue.tid pa 64 then faultAll h Cause.ecc x false s
          else if spPoisoned s p (64 * k) then
            addCauses (taskOf s.issue.tid) [⟨Cause.ecc, 0, 0xFF, warpOf s.issue.tid, s.time, BitVec.ofNat 64 p.2⟩] (advance h s)
          else qputClaim h d k p pa s

def execQput (h : Head) (d a b : SReg) (s : State) : Host.Outcome State Fault Refusal := uniform h (qput h d a b 1) s
def execQputX2 (h : Head) (d a b : SReg) (s : State) : Host.Outcome State Fault Refusal := uniform h (qput h d a b 2) s

end Sys2Proof.Machine
end

