-- ==== Sys2Proof/Machine/Staging.lean ====
section
/-!
DEFINITION. Staging: scratchpad units, buffers and their records, staging faults, popping the deque, tile arrivals (R31 to
R33, R130, R147, R151 to R154, R156, R168, R169, R172, R255, R475).
-/
namespace Sys2Proof.Machine

/-! Scratchpad units and accumulator tiles (R151, R255). -/

/-- The group with the fewest pinned ways, the lowest of equals. -/
def leastGroup (c : Core) : Nat :=
  (List.range 32).foldl (fun g x => if tget 0 c.units x < tget 0 c.units g then x else g) 0

def pinUnits : Nat → Core → Core × List Nat
  | 0, c => (c, [])
  | n + 1, c =>
    let g := leastGroup c
    let r := pinUnits n { c with units := tputD 0 c.units g (tget 0 c.units g + 1) }
    (r.1, g :: r.2)

def unpinUnits (gs : List Nat) (c : Core) : Core :=
  gs.foldl (fun c g => { c with units := tputD 0 c.units g (tget 0 c.units g - 1) }) c

def freeUnits (c : Core) : Nat := 448 - c.units.foldl (fun n e => n + e.2) 0

/-- Lines that pinned ways leave no room for are dropped, the least recently used first (R254, R255). -/
def trimL1 (c : Core) : Core :=
  { c with l1 := c.l1.foldl (fun l x =>
      if (l.filter fun y => y.line % 1024 == x.line % 1024).length < 16 - pinnedWays c x.line then l ++ [x] else l) [] }

/-- The core can allocate a task's scratchpad and tiles at once (R151). -/
def canHold (c : Core) (size nacc : Nat) : Bool := size / 4096 ≤ freeUnits c && c.accUsed + nacc ≤ 1024

def ceilTo (n m : Nat) : Nat := (n + m - 1) / m * m

/-! The plan of a task's buffers (R33). -/

/-- What staging makes of the descriptors: buffers, their total, and what stops it. -/
structure Plan where
  bufs : List Buf := []
  total : Nat := 0
  bad : Option Nat := none
  wait : Bool := false
  deriving DecidableEq, Repr

/-- The offset of a descriptor in a closure line (R20). -/
def descOff (i : Nat) : Nat := 0x20 + 12 * i

/-- One descriptor: a LOCAL one names its spawner's buffer (R32), another takes a slot through its record (R33, R296). -/
def planDesc (core : Nat) (t : Task) (z : State × Plan) (x : Desc × Nat) : State × Plan :=
  let p := z.2
  if p.wait || p.bad.isSome then z
  else if x.1.loc then
    let k := t.spawner.getD 0
    let b := (z.1.task k).bufs.getD x.1.lidx { off := 0 }
    (z.1, { p with bufs := p.bufs ++ [{ b with owner := some k, filled := true }] })
  else
    match useRec core t.cid x.1.handle z.1 with
    | (s, .wait) => (s, { p with wait := true })
    | (s, .bad c va tr) =>
      (match (if tr then engineFault t.cid c va s else (s, .fault c va)) with
       | (s, .wait) => (s, { p with wait := true })
       | (s, _) => (countLost c s, { p with bad := some va }))
    | (s, .ok r) =>
      if r.extra x.1.coord then (s, { p with bad := some r.addr })
      else
        let size := 128 + ceilTo r.tileSize 128
        if 1792 * 1024 < p.total + size then (s, { p with bad := some (t.closure + descOff x.2) })
        else
          let b : Buf := { off := p.total, size := size, lrec := r, filled := x.1.dir == 2 }
          (s, { p with bufs := p.bufs ++ [b], total := p.total + size })

def planTask (core : Nat) (t : Task) (s : State) : State × Plan := t.descs.zipIdx.foldl (planDesc core t) (s, {})

/-- The task's scratchpad size (R33). -/
def taskSize (t : Task) (p : Plan) : Nat := max (ceilTo t.spkib 4 * 1024) (ceilTo p.total 4096)

/-! The outcome of an identifier, and the end of a task that never started (R153, R441). -/

/-- The outcome of a launch's identifier is counted (R441); those that stand are remembered for the range list (R443). -/
def countIdent (n w : Nat) (fault : Option W8) (s : State) : State :=
  let l := s.launch n
  let stays := match fault with
    | some c => c != Cause.linkDown && c != Cause.aborted
    | none => true
  s.setLaunch n
    { l with retired := l.retired + (if fault.isNone then 1 else 0), faulted := l.faulted + (if fault.isSome then 1 else 0)
             stands := if stays then w :: l.stands else l.stands
             linkDown := l.linkDown || fault == some Cause.linkDown
             aborted := l.aborted || fault == some Cause.aborted }

/-- The same for a task that is an identifier's. -/
def countOutcome (k : Nat) (fault : Option W8) (s : State) : State :=
  match (s.task k).ident, (s.task k).launch with
  | true, some n => countIdent n (s.task k).wid.toNat fault s
  | _, _ => s

/-- The task leaves its core's staging positions. -/
def unstage (k : Nat) (s : State) : State :=
  s.onCore (s.task k).core fun c =>
    { c with staged := c.staged.filter (· != k), joinPos := if c.joinPos = some k then none else c.joinPos }

/-- Scratchpad and accumulator tiles return to the core (R255, R436). -/
def freeSpad (k : Nat) (s : State) : State :=
  let t := s.task k
  (s.onCore t.core (unpinUnits t.units)).onTask k fun t => { t with units := [] }
def freeAcc (k : Nat) (s : State) : State :=
  s.onCore (s.task k).core fun c => { c with accUsed := c.accUsed - (s.task k).nacc }

/-- A task completes its own future; the flag says that it is over (R42, R483). -/
def completeOwn (k st : Nat) (cause : W8) (value aux : W64) (s : State) : State × Bool :=
  let t := s.task k
  completeQuiet t.launch t.cid t.future st cause value aux t.wid s

/-- A staging fault takes effect: buffers are freed without write-back, and the future becomes FAULTED (R153); it is
held while the task is speculative (R128), and waits where the future's write waits. -/
def finishStageFault (k : Nat) (s : State) : State :=
  match (s.task k).stageFault with
  | none => s
  | some aux =>
    if isSpec s k then s
    else
      match completeOwn k 2 Cause.stageFault 0 aux s with
      | (s, false) => s
      | (s, true) =>
        let s := countOutcome k (some Cause.stageFault) s
        (freeSpad k (unstage k s)).onTask k fun t => { t with st := .done }

def stageFail (k aux : Nat) (s : State) : State :=
  let s := s.onCore (s.task k).core fun c => { c with accUsed := c.accUsed - (s.task k).nacc }
  finishStageFault k ((freeSpad k s).onTask k fun t => { t with stageFault := some (BitVec.ofNat 64 aux), nacc := 0 })

/-! Entering staging (R151). -/

/-- A staging position for an entry: the join position for a raised one, two positions for the others (R151, R172). -/
def roomToStage (c : Core) (raised : Bool) : Bool :=
  if raised then c.joinPos.isNone else c.staged.length < 2

def takePosition (core k : Nat) (raised : Bool) (s : State) : State :=
  s.onCore core fun c => if raised then { c with joinPos := some k } else { c with staged := c.staged ++ [k] }

/-- The header of each of the task's own buffers: EMPTY with its target (R151, R258). -/
def writeHeaders (k : Nat) (s : State) : State :=
  ((s.task k).bufs.filter fun b => b.owner.isNone).foldl
    (fun s b => s.onTask k fun t => { t with spad := bytesSet t.spad b.off 8 (hdrWord 0 0 b.lrec.tileSize 0) }) s

/-- Resources are taken and the headers written (R151, R255, R317). -/
def allocTask (core k : Nat) (p : Plan) (s : State) : State :=
  let size := taskSize (s.task k) p
  let r := pinUnits (size / 4096) (s.core core)
  let s := s.setCore core (trimL1 { r.1 with accUsed := r.1.accUsed + (s.task k).nacc })
  writeHeaders k (s.onTask k fun t => { t with bufs := p.bufs, size := size, units := r.2 })

/-- A launch whose teams have had nothing to wait for begins to wait for team resources (R109). -/
def noteTeam (t : Task) (s : State) : State :=
  match t.launch with
  | some n =>
    if (s.tasks.filter fun e => e.2.launch == some n && e.2.st == .staged).length ≤ 1 then s.setLaunch n { s.launch n with teamW := s.time } else s
  | none => s

/-- A task enters staging on a core: none when it waits for a record or for resources (R151). -/
def stageTask (core : Nat) (t : Task) (s : State) : Option State :=
  let r := planTask core t s
  if r.2.wait then none
  else
    let n := r.1.fresh
    let s := takePosition core n.1 t.raised (noteTeam t (n.2.setTask n.1 { t with core := core, stagedAt := s.time }))
    match t.stageFault, r.2.bad with
    | some aux, _ => some (stageFail n.1 aux.toNat (s.onTask n.1 fun t => { t with nacc := 0 }))
    | none, some aux => some (stageFail n.1 aux (s.onTask n.1 fun t => { t with nacc := 0 }))
    | none, none => if canHold (s.core core) (taskSize t r.2) t.nacc then some (allocTask core n.1 r.2 s) else none

/-! What an entry becomes (R24, R122, R130, R147). -/

/-- The task of a closure line or a template (R20, R22). -/
def imageTask (img : List W8) (cid closure : Nat) : Task :=
  { cid := cid, closure := closure, entry := clEntry img, entry2 := clUser2 img, future := (clFuture img).toNat
    wid := clWid img, flags := clFlags img, team := clTeam img, descs := clDescs img, spkib := clSpkib img
    nacc := clNacc img }

/-- The spawner whose buffers a line's LOCAL descriptors name: for an entry whose line had none when it was pushed, only a
spawner that still holds its buffers on this core (R32, R168). -/
def localSpawner (s : State) (core : Nat) (e : Ent) (sp : Option Nat) : Option Nat :=
  match e.kind with
  | .closure _ _ _ _ _ [] => sp.filter fun k =>
    let t := s.task k
    t.core == core && (t.st == .running || t.st == .swapped || !t.units.isEmpty)
  | _ => sp

/-- A closure entry's task, from the line as staging reads it; a line that cannot be read or fails a check is a staging
fault (R168). None while a read waits. -/
def closureTask (core : Nat) (e : Ent) (addr future cid : Nat) (spawner : Option Nat) (s : State) : State × Option Task :=
  let tag := match e.tag with
    | some t => some t
    | none => e.launch.bind fun n => (s.launch n).tag
  let spawner := localSpawner s core e spawner
  let mark := fun (t : Task) => { t with launch := e.launch, root := e.root, tag := e.tag, raised := e.raised, spawner := spawner, ent := some e }
  match readBytes core cid tag addr 128 s with
  | (s, _, .wait) => (s, none)
  | (s, img, .none) =>
    let t := imageTask img cid addr
    (match closureFault (spawner.map s.task) img with
     | none => (s, some (mark t))
     | some _ =>
       let bad : Task := { cid := cid, closure := addr, future := future, wid := t.wid, stageFault := some (BitVec.ofNat 64 addr) }
       (s, some (mark bad)))
  | (s, _, .fault c _) =>
    let f := (countLost c s).drawFree
    let bad : Task := { cid := cid, closure := addr, future := future, wid := f.1, stageFault := some (BitVec.ofNat 64 addr) }
    (f.2, some (mark bad))

/-- TEAM, SPK4 and NACC of a launch's team configuration (R104). -/
def cfgTeam (w : W32) : W8 := w.setWidth 8
def cfgSpk4 (w : W32) : Nat := w.toNat / 2 ^ 8 % 2 ^ 9
def cfgNacc (w : W32) : Nat := w.toNat / 2 ^ 17 % 2 ^ 11

/-- What resolution makes of an identifier of a launch (R122, R130). -/
inductive RootClass where
  | real
  | spec
  | committed
  | surplus
  deriving DecidableEq, Repr

/-- Every field of an identifier lies below a bound. -/
def belowAll (l : Launch) (w : Nat) (b : List Nat) : Bool := ((idFields l.widths w).zip b).all fun p => p.1 < p.2

def classOf (l : Launch) (w : Nat) : RootClass :=
  if l.shape = 0 || belowAll l w l.lb then .real
  else match l.st with
    | .waiting | .speculating => .spec
    | .resolving => if l.truth.isEmpty then .spec else if belowAll l w l.truth then .committed else .surplus
    | _ => if !l.truth.isEmpty && belowAll l w l.truth then .committed else .surplus

/-- The future of an identifier (R24). -/
def identFuture (l : Launch) (w : Nat) : Nat := if launchFuture l = 0 then 0 else launchFuture l + 32 * w

/-- An identifier's own task (R24). -/
def identTask (n w : Nat) (e : Ent) (tag : Option Nat) (s : State) : Task :=
  let l := s.launch n
  let t := imageTask l.image l.cid l.template
  { t with future := identFuture l w, wid := BitVec.ofNat 64 w
           team := cfgTeam l.teamcfg, spkib := 4 * cfgSpk4 l.teamcfg, nacc := cfgNacc l.teamcfg, launch := some n
           ident := true, tag := tag, root := BitVec.ofNat 64 w, raised := e.raised, ent := some e }

/-- The identifier at an index of an entry. -/
def entIdent (l : Launch) (k : EntKind) (i : Nat) : Nat :=
  match k with
  | .tail _ _ _ o x => tailWord l o x i
  | _ => wordOfIndex l i

/-- A committed or a squashed root is counted (R139, R142). -/
def countCommit (n : Nat) (s : State) : State :=
  { s with scommit := s.scommit + 1 }.setLaunch n { s.launch n with commit := (s.launch n).commit + 1 }
def countSquash (n : Nat) (s : State) : State :=
  { s with ssquash := s.ssquash + 1 }.setLaunch n { s.launch n with squash := (s.launch n).squash + 1 }

/-- A SQUASHED future (R42, R132). -/
def squashFuture (cid va : Nat) (root : W64) (s : State) : State × Bool :=
  completeQuiet none cid va 3 Cause.squashed 0 0 root s

/-- A committed identifier is counted once, though it may be stolen from staging and staged again (R142, R154). -/
def countOnce (n k : Nat) (e : Ent) (s : State) : State :=
  if e.counted then s else (countCommit n s).onTask k fun t => { t with ent := t.ent.map fun e => { e with counted := true } }

/-- What an attempt to stage leaves, with whether it went through. -/
def tried (s : State) (r : Option State) : State × Bool :=
  match r with
  | some s => (s, true)
  | none => (s, false)

/-- A popped identifier is staged; one that resolution found surplus is squashed in its place (R130). -/
def stageIdent (core n w : Nat) (e : Ent) (s : State) : State × Bool :=
  let l := s.launch n
  let tail := match e.kind with
    | .tail .. => true
    | _ => false
  match if tail then RootClass.real else classOf l w with
  | .real => tried s (stageTask core (identTask n w e none s) s)
  | .spec => tried s (stageTask core (identTask n w e l.tag s) s)
  | .committed => tried s ((stageTask core (identTask n w e none s) s).map (countOnce n s.nextId e))
  | .surplus =>
    match squashFuture l.cid (identFuture l w) (BitVec.ofNat 64 w) s with
    | (s, true) => (countSquash n s, true)
    | r => r

/-! Gang units (R156). -/

/-- The cores of a launch's partition on a die, other than the popping one, that can stage a member: idle ones first. -/
def gangCores (s : State) (l : Launch) (core size nacc : Nat) : List Nat :=
  let can := l.partition.filter fun c =>
    c != core && dieOfCore c == dieOfCore core && !(s.core c).lost && roomToStage (s.core c) false && canHold (s.core c) size nacc
  let idle := can.filter fun c => (s.core c).deque.isEmpty
  idle ++ can.filter fun c => !idle.contains c

/-- Members are staged on their cores in member order; none when one of them waits. A raised unit's member 0 takes the join
position of its core (R172). -/
def stageMembers (n g u : Nat) (e : Ent) : List (Nat × Nat) → State → Option State
  | [], s => some s
  | (m, core) :: l, s =>
    let lc := s.launch n
    let t := { identTask n (wordOfIndex lc (u * lc.gsize + m)) e none s with gang := some (g, m), ent := none, raised := e.raised && m = 0 }
    let id := s.nextId
    match stageTask core t s with
    | none => none
    | some s =>
      stageMembers n g u e l (s.setGang g { s.gang g with members := (s.gang g).members ++ [id] })

def stageGang (core n u : Nat) (e : Ent) (s : State) : Option State :=
  let l := s.launch n
  let t := identTask n (wordOfIndex l (u * l.gsize)) e none s
  let r := planTask core t s
  if r.2.wait then none
  else
    let others := gangCores r.1 l core (taskSize t r.2) t.nacc
    if others.length + 1 < l.gsize then none
    else
      let g := r.1.fresh
      let s := g.2.setGang g.1 { launch := n, core := core, unit := u }
      stageMembers n g.1 u e ((core :: others.take (l.gsize - 1)).zipIdx.map fun p => (p.2, p.1)) s

/-! The pop (R147). -/

/-- The hot entry; a lent one is passed over (R411). -/
def hotEntry (c : Core) : Option Ent := c.deque.find? fun e => e.lent.isNone

/-- The entry gives up its lowest index, or leaves the deque (R147). -/
def takeLowest (core : Nat) (e : Ent) (s : State) : State :=
  let b := entBounds e.kind
  let rest : List Ent → List Ent := fun l => l.flatMap fun x =>
    if x.id != e.id then [x] else if b.1 + 1 < b.2 then [{ x with kind := entWith x.kind (b.1 + 1) b.2 }] else []
  s.onCore core fun c => { c with deque := fixSplit none (rest c.deque) }

/-- One popped index as an entry of its own: what a thief of the staged task receives (R154). -/
def oneOf (e : Ent) (id i : Nat) : Ent := { e with id := id, kind := entWith e.kind i (i + 1) }

/-- What has become of a closure entry's root: an entry in flight to a thief is classified when it is popped (R130, R160). -/
def entClass (s : State) (e : Ent) : RootClass :=
  match e.tag, e.launch with
  | some _, some n => classOf (s.launch n) e.root.toNat
  | _, _ => .real

/-- A popped closure is staged, its descent now ordinary where its root is committed; one of a surplus root is squashed. -/
def stageClosure (core : Nat) (e : Ent) (a f c : Nat) (sp : Option Nat) (s : State) : State × Bool :=
  let c' := entClass s e
  if c' == .surplus then squashFuture c f e.root s
  else
    match closureTask core (if c' == .spec then e else { e with tag := none }) a f c sp s with
    | (s, none) => (s, false)
    | (s, some t) => tried s (stageTask core t s)

/-- The hot entry is taken and staged; the flag says that it need not wait (R147, R151, R156). -/
def popEntry (core : Nat) (e : Ent) (s : State) : State × Bool :=
  match e.kind with
  | .closure a f c _ sp _ => stageClosure core e a f c sp (takeLowest core e s)
  | .range n lo _ =>
    if (s.launch n).gsize ≠ 0 then tried s (stageGang core n lo e (takeLowest core e s))
    else stageIdent core n (entIdent (s.launch n) e.kind lo) (oneOf e s.nextId lo) (takeLowest core e s.fresh.2)
  | .tail n lo _ _ _ => stageIdent core n (entIdent (s.launch n) e.kind lo) (oneOf e s.nextId lo) (takeLowest core e s.fresh.2)

/-- Tail ranges that found a core's deque and ring full enter as soon as there is room (R134, R146). -/
def pushTails (core n : Nat) (s : State) : State :=
  (s.launch n).pendingTails.foldl (fun s p =>
    if p.1 != core then s
    else match pushCold core p.2 s with
      | some s => s.setLaunch n { s.launch n with pendingTails := (s.launch n).pendingTails.filter fun q => q.2.id != p.2.id }
      | none => s) s

/-- TAIL_LAUNCH: what waits for a core's deque (R134). -/
def pushWaiting (core : Nat) (s : State) : State :=
  (s.launches.filter fun e => !e.2.pendingTails.isEmpty).foldl (fun s e => pushTails core e.1 s) s

/-- Entries have left a core's deque: the spill ring gives back, and a push that waits goes on (R145, R146). -/
def dequeLeft (core : Nat) (s : State) : State := pushWaiting core (refill core s)

/-- A pop that waits leaves its entry in place; what it has asked of the host, drawn and counted stands (R42, R446, R483). -/
def waitingPop (s u : State) : State := { s with l2 := u.l2, free := u.free, badPte := u.badPte }

/-- The pop takes the hot entry only: while a raised entry waits there for the join position, or for resources, nothing below it
is popped, which the rules do not say otherwise (R147, R172, log 51). -/
def dequePop (core : Nat) (s : State) : State :=
  match hotEntry (s.core core) with
  | none => s
  | some e =>
    if (s.core core).lost || !roomToStage (s.core core) e.raised then s
    else match popEntry core e s with
      | (s, true) => dequeLeft core s
      | (u, false) => waitingPop s u

/-- The core pops in this tick, if it gets to act (R147, R160). -/
def popDue (s : State) (core : Nat) : Bool :=
  (hotEntry (s.core core)).any fun e =>
    !(s.core core).lost && roomToStage (s.core core) e.raised && (popEntry core e s).2

/-! Tile arrivals (R31, R151, R259). -/

/-- The staging engine reads through the record, as loads by the task (R169), and delivers the next `n` bytes, or all that remain
when `n` is 0. -/
def fillBuffer (k i n : Nat) (s : State) : State :=
  let t := s.task k
  let b := t.bufs.getD i { off := 0 }
  let d := t.descs.getD i ⟨0, 0, false, 0, []⟩
  match readTile t.core t.cid (viewTag s k) b.lrec d.coord s with
  | (s, bytes, .none) =>
    let w := readHdr s k b.off
    let a := if hdrState w = 0 then 0 else hdrArrived w
    let part := (bytes.drop a).take (if n = 0 then bytes.length else n)
    (match arrive k b.off (b.off + 128 + a) part s with
     | some s => s
     | none => s)
  | (s, _, .wait) => s
  | (s, _, .fault c a) => stageFail k a (countLost c s)

/-- A buffer still to be filled; a staging engine that has lost a packet waits for its timer (R410). -/
def needsFill (s : State) (k i : Nat) : Bool :=
  match (s.task k).bufs[i]? with
  | some b => (s.task k).lost.isNone && b.owner.isNone && !b.filled && hdrState (readHdr s k b.off) < 2
  | none => false

def execTileArrival (task desc n : Nat) (s : State) : Host.Outcome State Fault Refusal :=
  .next (let t := s.task task
    if !thas s.tasks task || t.st != .staged then s
    else if t.stageFault.isSome then finishStageFault task s
    else if needsFill s task desc then fillBuffer task desc n s else s)

end Sys2Proof.Machine
end

