-- ==== Sys2Proof/Machine/Save.lean ====
section
/-!
DEFINITION. The sections of a task's state, as a dump and a save record hold them, and the memory that Umber allocates and maps
in a context for save records and range lists (R310, R426, R434, R443, R448).
-/
namespace Sys2Proof.Machine

/-! Sections (R434). -/

/-- A section: its kind, index and body, the body padded to a multiple of 128 bytes (R434). -/
def sectBytes (kind idx : Nat) (body : List W8) : List W8 :=
  toBytes 8 (kind + 256 * idx) ++ toBytes 8 body.length ++ body ++ List.replicate (ceilTo body.length 128 - body.length) 0

def laneByte (x : Lane) : Nat :=
  (match x.st with
   | .active => 0
   | .waiting => 1
   | .parked => 2
   | .exited => 3) + (if x.deferred then 4 else 0) + (if x.inHandler then 8 else 0) + (if x.hold == .spec then 16 else 0)

def recBytes (r : FaultRec) : List W8 := r.cause :: toBytes 1 r.ilen ++ toBytes 6 0 ++ toBytes 8 r.faddr.toNat ++ toBytes 8 r.fpc.toNat

/-- WKIND, WOPND and the deadline of a wait (R427). -/
def wakeEntry (t : Thread) : Nat × Nat × Nat :=
  if t.retired then (0, 0, 0)
  else match t.wait with
    | .none | .qroom .. | .push _ | .counters _ | .slot .. => (0, 0, 0)
    | .bar p => (1, p, 0)
    | .gbar _ p => (2, p, 0)
    | .join f _ _ => (3, f, 0)
    | .mwait _ d => (4, ((t.mon.map fun m => m.va).getD 0), d.getD 0)
    | .xacq _ _ => (5, heldBlocks t + 1, 0)
    | .member m => (6, m, 0)
    | .sgacq r f _ _ => (7, r + (if f then 256 else 0), 0)

/-- The flag word of a warp section. -/
def warpFlags (t : Thread) : Nat :=
  (if t.timehi.isSome then 1 else 0) + (if t.region.isSome then 2 else 0) + (match t.mon with
    | some m => 4 + (if m.trig then 8 else 0) + (if m.sp then 16 else 0)
    | none => 0)

/-- The body of a WARP section (R434). -/
def warpBody (t : Thread) : List W8 :=
  let w := wakeEntry t
  let lane := fun i => t.lanes.getD i {}
  (laneIds.flatMap fun i => toBytes 8 (lane i).pc.toNat) ++ (laneIds.flatMap fun i => toBytes 1 (laneByte (lane i))) ++
  ((List.range 64).flatMap fun r => toBytes 4 (t.sget (BitVec.ofNat 6 r)).toNat) ++
  ((List.range 8).flatMap fun p => toBytes 8 (t.pget (BitVec.ofNat 3 p)).toNat) ++
  toBytes 4 t.wctl.toNat ++ toBytes 4 t.fpflags.toNat ++ toBytes 4 t.h ++ toBytes 4 t.q ++ toBytes 8 t.p0c.toNat ++
  toBytes 8 t.maxw ++ toBytes 4 t.xblk.toNat ++ toBytes 4 (t.timehi.getD 0).toNat ++ toBytes 4 (warpFlags t) ++
  toBytes 4 ((t.mark.map fun m => m.1.toNat).getD 0) ++ toBytes 8 ((t.mark.map Prod.snd).getD 0) ++
  toBytes 8 (t.region.getD 0).toNat ++ toBytes 8 ((t.mon.map Mon.va).getD 0) ++ toBytes 8 ((t.mon.map fun m => m.saved.toNat).getD 0) ++
  ((List.range 6).flatMap fun c => toBytes 1 (classCount t c)) ++ toBytes 2 0 ++
  (match t.pendFault with
   | (c, f, a) :: _ => f :: toBytes 1 (2 ^ c) ++ toBytes 6 0 ++ toBytes 8 a.toNat
   | [] => toBytes 16 0) ++
  toBytes 1 w.1 ++ toBytes 7 0 ++ toBytes 8 w.2.1 ++ toBytes 8 w.2.2 ++
  (laneIds.flatMap fun i => recBytes (lane i).frec)

/-- A register block's body: register `j`, lane `L` at 256 j + 4 L (R434). -/
def blockBody (t : Thread) (k : Nat) : List W8 :=
  (List.range 128).flatMap fun j => (List.range 64).flatMap fun l => toBytes 4 ((t.vmain (128 * k + j)).getD l 0).toNat

def accBody (t : Task) : List W8 :=
  (List.range t.nacc).flatMap fun a => (List.range 1024).flatMap fun c => toBytes 8 (cell t a (c / 32) (c % 32)).toNat

/-- What remains of a matrix operation. -/
def opRest (o : EngOp) : Nat := match o.kind with
  | .mma _ _ _ n _ | .fskip _ n => n
  | _ => 1

/-- What a SEQ section holds: PC, scalars, predicates, counters, the matrix queue with remaining counts, the fault record and the
mark (R179, R434). -/
def seqContents (t : Thread) : List Nat :=
  let l := t.lanes.getD 0 {}
  l.pc.toNat :: ((List.range 64).map fun r => (t.sget (BitVec.ofNat 6 r)).toNat) ++
  ((List.range 8).map fun p => (t.pget (BitVec.ofNat 3 p)).toNat) ++ (List.range 6).map (classCount t) ++
  ((t.ops.filter fun o => o.cls == 1).flatMap fun o => [o.pc.toNat, opRest o]) ++ (recBytes l.frec).map (·.toNat) ++
  (match t.mark with
   | some m => [1, m.1.toNat, m.2]
   | none => [0])

/-- What a RINGS section holds: the state of g0 to g7, and SHADOW bits (R327, R434). -/
def ringContents (t : Task) : List Nat :=
  ((List.range 8).flatMap fun r =>
    let g := tget {} t.rings r
    [g.ns, g.phase.toNat, g.held.toNat, g.e, g.f]) ++ t.shadow

/-- A stream of a saved team resumes from its oldest slice that has not been consumed; one that has faulted fetches again up to
where it faulted (R310). -/
def rewind (c : Core) (x : Strm) : Strm :=
  let n := x.next - ((fifoOf c x.fifo).filter fun y => y.strm == x.id).length
  { x with next := n, poison := x.poison && x.bad ≤ n }

/-- A task's open streams, each at its oldest slice that has not been consumed: those of its core, or those saved with it. -/
def streamsAt (s : State) (k : Nat) : List Strm :=
  let t := s.task k
  if t.st == .swapped then t.streams
  else ((s.core t.core).streams.filter fun x => taskOf x.tid == k).map (rewind (s.core t.core))

/-- What a STREAMS section holds: per FIFO the open stream and the index of its oldest unconsumed slice (R310, R434). -/
def strmContents (l : List Strm) : List Nat :=
  (List.range 4).flatMap fun f => (l.filter fun x => x.fifo == f).flatMap fun x =>
    [f, x.lrec.addr, x.spb.getD 0, x.k0, x.row0, x.d2, x.d3, x.nsl, x.next]

/-- The sections of a task in the order of R434; the layout of the bodies of SEQ, RINGS and STREAMS is a free function of what they
hold (log 28). -/
def sectionsOf (s : State) (k : Nat) : List (List W8) :=
  let t := s.task k
  let warps := List.range (teamWarps t.team)
  let th := fun w => s.thread (tidOf k w)
  (warps.map fun w => sectBytes 1 w (warpBody (th w))) ++
  (warps.flatMap fun w => ((List.range 16).filter fun b => (th w).xblk.getLsbD b).map fun b => sectBytes 2 (16 * w + b) (blockBody (th w) b)) ++
  (if teamSeq t.team then [sectBytes 3 0 (Config.sectionBody 3 (seqContents (th 8)))] else []) ++
  [sectBytes 4 0 (toBytes t.size (bytesAt t.spad 0 t.size))] ++
  (if t.nacc = 0 then [] else [sectBytes 5 0 (accBody t)]) ++
  [sectBytes 6 0 (Config.sectionBody 6 (ringContents t)), sectBytes 7 0 (Config.sectionBody 7 (strmContents (streamsAt s k)))]

/-! Umber's memory in a context (R426, R443, R448). Which frames and addresses it chooses the spec does not give (log 18). -/

/-- A write of Umber's own to memory that no program has reached yet: nothing watches it. -/
def ownWrite (pa n v : Nat) (s : State) : State :=
  let t := homeWrite pa n v s
  { s with mem := t.mem, poison := t.poison, l2 := t.l2, nb := t.nb, nbCnt := t.nbCnt }

/-- A 64 KiB frame of HBM4E that Umber takes. -/
def umberFrame (n : Nat) : Nat := Config.umberFrame n % 2 ^ 24 * 2 ^ 16

/-- A frame without bytes: what a new table is. -/
def clearFrame (f : Nat) (s : State) : State :=
  { s with mem := s.mem.filter fun c => !(f ≤ c.1 && c.1 < f + 2 ^ 16), poison := s.poison.filter fun a => !(f ≤ a && a < f + 2 ^ 16) }

/-- The entry for an address in a table of a level (R286). -/
def entryAt (va level table : Nat) : Nat := table + 8 * (va / 2 ^ pageBits level % 512)

/-- A page is mapped writable: tables that are missing are added on the way to its leaf (R286, R287). An entry that is taken, or that
cannot be read, ends it. -/
def mapPage (va : Nat) : Nat → Nat → State → State × Bool
  | 0, table, s =>
    let a := entryAt va 0 table
    if homeGone s a || pteV (BitVec.ofNat 64 (homeRead s a 8)) then (s, false)
    else
      let r := s.fresh
      (ownWrite a 8 (7 + umberFrame r.1) (clearFrame (umberFrame r.1) r.2), true)
  | l + 1, table, s =>
    let a := entryAt va (l + 1) table
    let e : W64 := BitVec.ofNat 64 (homeRead s a 8)
    if homeGone s a then (s, false)
    else if pteV e then (if pteLeaf e || pteBad s (l + 1) e then (s, false) else mapPage va l (pteAddr e) s)
    else
      let r := s.fresh
      mapPage va l (umberFrame r.1) (ownWrite a 8 (1 + umberFrame r.1) (clearFrame (umberFrame r.1) r.2))

/-- The pages of a size. -/
def pagesOf (n : Nat) : Nat := max 1 ((n + 65535) / 65536)

def mapPages (cid va : Nat) : Nat → State → State × Bool
  | 0, s => (s, true)
  | n + 1, s =>
    match mapPage va 3 (pteAddr (ctxEntry s cid)) s with
    | (s, true) => mapPages cid (va + 2 ^ 16) n s
    | r => r

/-- Memory of a size for Umber in a context, at an address of its choosing; none when it cannot be mapped. -/
def umberAlloc (cid n : Nat) (s : State) : State × Option Nat :=
  let r := s.fresh
  let va := Config.umberAddr r.1 % 2 ^ 35 * 2 ^ 16
  let z := mapPages cid va (pagesOf n) r.2
  if (ctxEntry s cid).getLsbD 0 && z.2 then (z.1, some va) else (r.2, none)

/-- The leaf of an address, when there is one: where it stands, and its level. -/
def leafAt (s : State) (va : Nat) : Nat → Nat → Option (Nat × Nat)
  | level, table =>
    let a := entryAt va level table
    let e : W64 := BitVec.ofNat 64 (homeRead s a 8)
    if homeGone s a || !pteV e || pteBad s level e then none
    else if pteLeaf e then some (a, level)
    else match level with
      | 0 => none
      | l + 1 => leafAt s va l (pteAddr e)
  termination_by structural level => level

def leafOf (s : State) (cid va : Nat) : Option (Nat × Nat) :=
  if (ctxEntry s cid).getLsbD 0 then leafAt s va 3 (pteAddr (ctxEntry s cid)) else none

/-- A shootdown of the page; its number. -/
def shootPage (cid va level : Nat) (s : State) : State × Nat :=
  let n := (s.shootReq + 1).toNat
  ({ s with shootReq := s.shootReq + 1, shoots := s.shoots ++ [⟨n, cid, va, level⟩] }, n)

/-- Umber takes its memory back: the leaves go, each with a shootdown (R291, R443). -/
def umberFree (cid va n : Nat) (s : State) : State :=
  ((List.range (pagesOf n)).map fun i => va + 2 ^ 16 * i).foldl (fun s a => match leafOf s cid a with
    | some (e, l) => (shootPage cid a l (ownWrite e 8 0 s)).1
    | none => s) s

/-! Save records (R426, R428, R434). -/

/-- The save record of a team: its sections (R426, log 18). -/
def recordOf (s : State) (k : Nat) : List W8 := (sectionsOf s k).flatten

/-- What a write of Umber's to its own memory leaves of the old state, but for the memory. -/
def memoryOf (t s : State) : State :=
  { s with mem := t.mem, poison := t.poison, l2 := t.l2, nb := t.nb, nbCnt := t.nbCnt, badPte := t.badPte, timeouts := t.timeouts, nextId := t.nextId }

/-- Step 4 of R426: the record is written into memory that Umber allocates in the context. -/
def writeSaveRecord (k : Nat) (s : State) : State :=
  let cid := (s.task k).cid
  let z := umberAlloc cid (recordOf s k).length s
  let a := z.2.getD 0
  let w := (hubWrite cid a (recordOf s k) z.1).1
  (memoryOf (if z.2.isSome then w else z.1) s).onTask k fun t => { t with record := z.2.map fun a => (a, (recordOf s k).length) }

/-- Its memory returns to Umber with the team. -/
def freeSaveRecord (k : Nat) (s : State) : State :=
  match (s.task k).record with
  | some (a, n) => (umberFree (s.task k).cid a n s).onTask k fun t => { t with record := none }
  | none => s

end Sys2Proof.Machine
end

