-- ==== Sys2Proof/Machine/Placement.lean ====
section
/-!
DEFINITION. Starting tasks and gangs, swapping teams out and restoring them, and entering handlers (R23, R123, R152, R155 to
R159, R172, R196, R310, R332, R401, R418, R419, R426 to R429).
-/
namespace Sys2Proof.Machine

/-! Warp slots (R13, R152). -/

def slotFree (c : Core) (u : Nat) : Bool := !thas c.slots u
def freeSlotsIn (c : Core) (q : Nat) : List Nat := ((List.range 8).map (8 * q + ·)).filter (slotFree c)
def freeWarpSlots (c : Core) : Nat := ((List.range 32).filter (slotFree c)).length

/-- The quadrant with the most free slots, the lowest of equals, and its lowest free slot (R152). -/
def pickSlot (c : Core) : Option Nat :=
  let q := (List.range 4).foldl (fun q x => if (freeSlotsIn c q).length < (freeSlotsIn c x).length then x else q) 0
  (freeSlotsIn c q).head?

/-- Sequencer contexts are units 32 to 35. -/
def pickSeq (c : Core) : Option Nat := ([32, 33, 34, 35].filter (slotFree c)).head?

/-- Speculative tasks' warp slots on a core (R123). -/
def specSlots (s : State) (core : Nat) : Nat :=
  ((s.core core).slots.filter fun e => e.1 < 32 && isSpec s (taskOf e.2)).length

/-- The core has the slots and the context that a team needs (R152), and room for it among the speculative ones (R123). -/
def teamFits (s : State) (core k : Nat) : Bool :=
  let t := s.task k
  let c := s.core core
  teamWarps t.team ≤ freeWarpSlots c && (!teamSeq t.team || (pickSeq c).isSome) &&
  (!isSpec s k || specSlots s core + teamWarps t.team ≤ 24)

/-- The team's warps take their slots in warp order, and its context a sequencer place (R152, R155). -/
def placeWarps (core : Nat) : List Nat → State → State
  | [], s => s
  | i :: l, s =>
    match if isSeq i then pickSeq (s.core core) else pickSlot (s.core core) with
    | some u => placeWarps core l (s.onCore core fun c => { c with slots := tput c.slots u i })
    | none => placeWarps core l s

/-- Where a thread stands on its core. -/
def unitOfThread (s : State) (core tid : Nat) : Nat := (((s.core core).slots.find? fun e => e.2 == tid).map Prod.fst).getD 0

/-- OWNER of each of the task's own headers (R152, R258). -/
def writeOwners (core k : Nat) (s : State) : State :=
  let o := unitOfThread s core (tidOf k 0)
  s.onTask k fun t =>
    { t with spad := (t.bufs.filter fun b => b.owner.isNone).foldl (fun m b => byteSet m (b.off + 12) (BitVec.ofNat 8 (o % 32))) t.spad }

/-! Task entry (R23). -/

/-- The register of a descriptor at entry (R23, R32). -/
def descReg (t : Task) (i : Nat) : W32 :=
  match t.descs[i]?, t.bufs[i]? with
  | some d, some b => BitVec.ofNat 32 (if d.loc then 2 ^ 31 + b.off else b.off)
  | _, _ => 0xFFFFFFFF

/-- A thread as it starts (R23, R202). -/
def entryThread (t : Task) (seq : Bool) (now : Nat) : Thread :=
  let x : Thread := { lanes := if seq then [{ pc := t.entry2 }] else List.replicate 64 { pc := t.entry }, nextIssue := now }
  let x := (List.range 6).foldl (fun x i => x.sset (BitVec.ofNat 6 i) (descReg t i)) x
  x.sset2 6 t.wid

/-- The threads of a task exist from its start (R155). -/
def createThreads (k : Nat) (s : State) : State :=
  (s.tids k).foldl (fun s i => s.setThread i (entryThread (s.task k) (isSeq i) s.time)) s

/-- The acquire of a child's start: the core's copies of speculative lines that the task would read are dropped, so that it
sees the stores of a speculative spawner; other copies are behind no store, since their leases ended before the push (R167,
R385). -/
def startAcquire (core k : Nat) (s : State) : State :=
  match viewTag s k with
  | some t => s.onCore core fun c => { c with l1 := c.l1.filter fun x => x.tag != some t }
  | none => s

/-- A start wins the arbitration of team resources for its launch's slot, and its wait starts again (R109). -/
def winTeam (core k : Nat) (s : State) : State :=
  match (s.task k).launch with
  | some n => (s.setLaunch n { s.launch n with teamW := s.time }).onCore core fun c => { c with lastTeam := (s.launch n).slot }
  | none => s

/-- A task starts on its core (R109, R152, R155, R167). -/
def startTask (k : Nat) (s : State) : State :=
  let core := (s.task k).core
  let s := placeWarps core (s.tids k) (createThreads k (startAcquire core k (winTeam core k (unstage k s))))
  writeOwners core k (s.onTask k fun t => { t with st := .running })

/-! Eligibility (R152). -/

def bufState (s : State) (k : Nat) (b : Buf) : Nat := hdrState (readHdr s (b.owner.getD k) b.off)

/-- The task waits for a resolution: its launch's record was VALID when it was accepted, and no speculative task starts
before the shape is settled (R118). -/
def awaitsShape (s : State) (k : Nat) : Bool :=
  isSpec s k && (s.task k).launch.any fun n => (s.launch n).st == .resolving && (s.launch n).early

/-- IN and INOUT buffers FULL and OUT buffers EMPTY; a held staging fault keeps a task in staging (R128). -/
def runnable (s : State) (k : Nat) : Bool :=
  let t := s.task k
  t.st == .staged && t.stageFault.isNone && !(t.ent.any fun e => e.lent.isSome) && !awaitsShape s k &&
  (t.descs.zip t.bufs).all fun p => bufState s k p.2 == if p.1.dir == 2 then 0 else 2

/-- The first team of a launch waits for the regulator (R110). -/
def vfHeld (s : State) (k : Nat) : Bool := (s.task k).launch.any fun n => (s.launch n).vfWait

/-- The effective priority of a launch's pending teams: that of its queue, aged by the time since they last won (R109). -/
def teamPrio (s : State) (l : Launch) : Nat := min 3 (qPrio s (s.queue l.qid) + (s.time - l.teamW) / ticksUs s s.ageq.toNat)

/-- A slot's place on a core after the one whose launch won there last (R109). -/
def teamTurn (s : State) (core k : Nat) : Nat := (k + 31 - (s.core core).lastTeam) % 32

/-- A launch's team takes freed resources before another's, or their order is that of pops: the arbitration of their queues'
slots (R109, log 36). -/
def notAfter (s : State) (core j k : Nat) : Bool :=
  match (s.task j).launch, (s.task k).launch with
  | some m, some n =>
    let x := s.launch m
    let y := s.launch n
    let p := teamPrio s x
    let q := teamPrio s y
    m == n || q < p || (p == q && teamTurn s core x.slot ≤ teamTurn s core y.slot)
  | _, _ => true

/-- Staged tasks in the order in which they may start: the raised one, then launch by launch, each in pop order (R109, R152, R172). -/
def startOrder (s : State) (core : Nat) : List Nat :=
  let c := s.core core
  c.joinPos.toList ++ c.staged.foldr (fun k l => l.takeWhile (fun j => !notAfter s core k j) ++ k :: l.dropWhile fun j => !notAfter s core k j) []

/-- Of the tasks staged before `k` on its core, none would start first: a runnable one that is short of resources holds `k` back,
and a runnable plain task starts before it; a gang's member that fits waits for its gang alone (R152). -/
def hasTurn (s : State) (core k : Nat) : Bool :=
  ((startOrder s core).takeWhile (· != k)).all fun x =>
    !runnable s x || vfHeld s x || ((s.task x).gang.isSome && teamFits s core x)

/-- Every member that has not already ended is runnable, has its resources, and has its turn on its core (R152, R156). -/
def gangReady (s : State) (g : Nat) : Bool :=
  let live := (s.gang g).members.filter fun k => !hasExited s k
  !live.isEmpty && live.all fun k =>
    let c := (s.task k).core
    runnable s k && !vfHeld s k && teamFits s c k && !(s.core c).lost && hasTurn s c k

/-- The task to start: the first runnable one, if its resources are free; one that is short of them holds back the
others, and so does a gang that is ready to start. A gang's member starts with its gang. -/
def pickStart (s : State) (core : Nat) : List Nat → Option Nat
  | [] => none
  | k :: l =>
    if !runnable s k || vfHeld s k then pickStart s core l
    else if !teamFits s core k then none
    else match (s.task k).gang with
      | some (g, _) => if gangReady s g then none else pickStart s core l
      | none => some k

/-! Wake conditions (R427). -/

def partitionOf (s : State) (k : Nat) : List Nat :=
  (((s.task k).launch.map fun n => (s.launch n).partition).getD []).filter fun c => !(s.core c).lost

/-- Extended blocks that a team holds. -/
def teamBlocks (s : State) (k : Nat) : Nat := ((s.tids k).filter fun i => !isSeq i).foldl (fun n i => n + heldBlocks (s.thread i)) 0

/-- One thread's wake entry holds (R427). -/
def waitHolds (s : State) (k tid : Nat) : Bool :=
  let t := s.thread tid
  !t.retired && (t.wake || match t.wait with
    | .none | .qroom .. | .push _ | .counters _ | .slot .. => true
    | .bar p => (s.task k).barPhase != p
    | .gbar _ p => match (s.task k).gang with
      | some (g, _) => (s.gang g).phase != p
      | none => true
    | .join .. => t.joined.any fun j => !j.lapsed && stateSeen s k j.pa != 0
    | .mwait _ dl => (t.mon.any fun m => m.trig) || dl.any fun x => x < s.time
    | .xacq _ _ => (partitionOf s k).any fun c => teamBlocks s k + 1 ≤ freePool s c
    | .member m => match (s.task k).gang with
      | some (g, _) => match memberTask s g m with
        | some j => (s.task j).st != .staged
        | none => false
      | none => true
    | .sgacq r f _ _ => (ringSlot (ringOf (s.task k) r) f).isSome)

/-- The team's wake condition: any of its entries (R158). -/
def wakeHolds (s : State) (k : Nat) : Bool := (s.tids k).any (waitHolds s k)

/-! Restore (R428, R429). -/

/-- The team's kept slices take free entries of the core's FIFOs as a stream's would, each leaving the other matrix teams room for
four (R306, log 27). -/
def slicesFit (s : State) (k core : Nat) : Bool :=
  (List.range 4).all fun f =>
    let l := fifoOf (s.core core) f
    let n := ((s.task k).slices.filter fun p => p.1 == f).length
    n = 0 || l.length + n + othersNeed s core k f ≤ 16

/-- The team's save record holds an uncorrectable error (R430, R466). -/
def recordBad (s : State) (k : Nat) : Bool :=
  let t := s.task k
  t.record.any fun r => (runsOf s t.cid r).any fun p => poisoned s p.1 p.2

/-- The core can take the team back now; a speculative team keeps to its share of the slots (R123). -/
def canRestore (s : State) (k core : Nat) : Bool :=
  let t := s.task k
  let c := s.core core
  !c.lost && teamFits s core k && canHold c t.size t.nacc && teamBlocks s k ≤ freePool s core && slicesFit s k core && !recordBad s k

/-- An identifier of a NOSTEAL template goes on at the core that it was seeded into, while that core works and could hold it (R477,
log 64). -/
def staysHome (s : State) (k : Nat) : Bool :=
  let t := s.task k
  t.ident && (t.launch.any fun n => (clFlags (s.launch n).image).getLsbD 1) && !(s.core t.core).lost &&
    teamBlocks s k ≤ poolBlocks s t.core - (s.core t.core).retiredBlks

/-- The cores in the order in which they are tried: the one it was saved from, its die, the other dies (R428). -/
def restoreOrder (s : State) (k : Nat) : List Nat :=
  let c := (s.task k).core
  let p := if staysHome s k then [c] else partitionOf s k
  (p.filter (· == c)) ++ (p.filter fun x => x != c && dieOfCore x == dieOfCore c) ++ p.filter fun x => dieOfCore x != dieOfCore c

def restoreCore (s : State) (k : Nat) : Option Nat := (restoreOrder s k).find? (canRestore s k)

/-- No core of the partition could ever hold the team's blocks (R429). -/
def neverRestored (s : State) (k : Nat) : Bool :=
  (partitionOf s k).all fun c => poolBlocks s c - (s.core c).retiredBlks < teamBlocks s k

/-- A gang comes back whole, its members on distinct cores of one die (R39, R158). -/
def gangCoresBack (s : State) (die : Nat) : List Nat → List Nat → Option (List (Nat × Nat))
  | [], _ => some []
  | k :: l, used =>
    match (restoreOrder s k).find? fun c => dieOfCore c == die && !used.contains c && canRestore s k c with
    | some c => (gangCoresBack s die l (c :: used)).map ((k, c) :: ·)
    | none => none

/-- A monitor is reread before its warp issues: a word that differs triggers it (R401). -/
def rereadMon (tid : Nat) (s : State) : State :=
  match (s.thread tid).mon with
  | some m =>
    let full := !m.sp && 128 ≤ watchCount s m.addr
    let trig := m.trig || watchedNow s tid m != m.saved
    s.onThread tid fun t => { t with mon := some { m with trig := trig, full := m.full && full, due := s.time + 1024 } }
  | none => s

/-- WAITMASK of a header: the slots of the threads that watch it (R258, R428). -/
def maskHeader (k off : Nat) (s : State) : State :=
  let bits := ((s.task k).spwatch.filter fun w => w.2 == off).foldl (fun m w => m ||| 2 ^ slotOf s w.1) 0
  s.onTask k fun t => { t with spad := bytesSet t.spad (off + 8) 4 bits }

/-- The team comes back on a core (R428): slots, those of retired warps too (R155), scratchpad, tiles and blocks are taken, owners
and wait masks rewritten, monitors reread, streams fetch again, and a wait for a block is evaluated again (R196, R427): it keeps the
order of its first block, ahead of warps that blocked on the new core meanwhile, which the spec leaves open (log 74). -/
def restoreTeam (k core : Nat) (s : State) : State :=
  let t := s.task k
  let r := pinUnits (t.size / 4096) (s.core core)
  let back := fun (c : Core) =>
    let c := { c with accUsed := c.accUsed + t.nacc, streams := c.streams ++ t.streams }
    t.slices.foldl (fun c p => setFifo p.1 (fifoOf c p.1 ++ [p.2]) c) c
  let s := s.setCore core (trimL1 (back r.1))
  let s := freeSaveRecord k s
  let t := s.task k
  let s := s.setTask k { t with core := core, st := .running, units := r.2, streams := [], slices := [], preempt := false }
  let s := placeWarps core (s.tids k) s
  let s := writeOwners core k s
  let s := ((s.task k).bufs.filter fun b => b.owner.isNone).foldl (fun s b => maskHeader k b.off s) s
  grantAll core ((s.tids k).foldl (fun s i => (rereadMon i s).onThread i fun t => { t with wake := false, nextIssue := s.time }) s)

/-- The swapped-out members of a gang, and the cores on which they come back together: its own die first, then the others in
ascending order (R158, R428). -/
def gangOut (s : State) (g : Nat) : List Nat := (s.gang g).members.filter fun m => (s.task m).st == .swapped
def gangBack (s : State) (die g : Nat) : Option (List (Nat × Nat)) :=
  (die :: (List.range 8).filter (· != die)).findSome? fun d => gangCoresBack s d (gangOut s g) []

/-- The chain's entry of a team that no core can hold (R429, R433). -/
def capacityCause (s : State) : DumpCause := ⟨Cause.registerCapacity, 9, 0xFF, 0xFF, s.time, 0⟩

/-- The wake condition of a team, or of its gang, holds (R158). -/
def wakesNow (s : State) (k : Nat) : Bool :=
  match (s.task k).gang with
  | none => wakeHolds s k
  | some (g, _) => (gangOut s g).any (wakeHolds s)

/-- What ends a team that is to come back: no core can hold it, or its save record cannot be read (R429, R430). -/
def restoreFault (s : State) (k : Nat) : Option DumpCause :=
  if neverRestored s k then some (capacityCause s)
  else if wakesNow s k && recordBad s k then some ⟨Cause.ecc, 9, 0xFF, 0xFF, s.time, 0⟩
  else none

/-- A team whose wake condition holds comes back; one that cannot ends, at resolution if it is speculative (R128, R428 to R430). -/
def teamRestore (k : Nat) (s : State) : State :=
  let t := s.task k
  if t.st != .swapped || t.ending || !t.fatal.isEmpty then s
  else match restoreFault s k with
    | some c => if !isSpec s k then addCauses k [c] s else if t.heldFatal.isEmpty
      then s.onTask k fun t => { t with heldFatal := [c] } else s
    | none =>
      if !wakesNow s k then s
      else match t.gang with
      | none => match restoreCore s k with
        | some c => restoreTeam k c s
        | none => s
      | some (g, _) => match gangBack s (dieOfCore t.core) g with
        | some l => l.foldl (fun s p => restoreTeam p.1 p.2 s) s
        | none => s

def execTeamRestore (task : Nat) (s : State) : Host.Outcome State Fault Refusal := .next (teamRestore task s)

/-- A swapped-out team or gang would be restored on this core now: it goes ahead of every staged task (R152). -/
def restoreFirst (s : State) (core : Nat) : Bool :=
  s.tasks.any fun e => e.2.st == .swapped && !e.2.ending && e.2.fatal.isEmpty && wakeHolds s e.1 &&
    match e.2.gang with
    | none => restoreCore s e.1 == some core
    | some (g, _) => (gangBack s (dieOfCore e.2.core) g).any fun l => l.any fun p => p.2 == core

/-! Starting (R152, R156). -/

def execTaskStart (core : Nat) (s : State) : Host.Outcome State Fault Refusal :=
  .next (if (s.core core).lost || restoreFirst s core then s
    else match pickStart s core (startOrder s core) with
      | some k => startTask k s
      | none => s)

/-- Accesses that wait for a member's start go on (R156). -/
def wakeMembers (g : Nat) (s : State) : State :=
  { s with threads := s.threads.map fun e => match e.2.wait with
      | .member _ => if (s.taskT e.1).gang.any (fun p => p.1 == g) then (e.1, { e.2 with wait := .none }) else e
      | _ => e }

/-- The members that have not already ended. -/
def liveMembers (s : State) (g : Nat) : List Nat := (s.gang g).members.filter fun k => !hasExited s k

/-- The members start together, within the gang start window, unless a restored team goes ahead on a core of theirs (R39, R152,
R156). -/
def execGangStart (gang : Nat) (s : State) : Host.Outcome State Fault Refusal :=
  .next (if (s.gang gang).started || !gangReady s gang || (liveMembers s gang).any (fun k => restoreFirst s (s.task k).core) then s
    else
      let s := (liveMembers s gang).foldl (fun s k => startTask k s) s
      wakeMembers gang (s.setGang gang { s.gang gang with started := true }))

/-! Swapping out (R158, R310, R332, R426). -/

/-- Each thread that has not retired is at a blocking point (R158). -/
def allBlocked (s : State) (k : Nat) : Bool :=
  (s.tids k).all fun i => (s.thread i).retired || (s.thread i).wait.blocked

/-- An operation that a save does not have to wait for: work that keeps running (R426), open streams (R310), and an `mma`
or `fskip` that waits for slices (R332). -/
def mayBeSaved (c : Core) (k : Nat) (o : EngOp) : Bool :=
  match o.kind with
  | .strm | .cland | .qsub | .nbrun => true
  | .mma _ fa fb _ _ =>
    (takeSlice k (fifoOf c (if fa then 1 else 0))).isNone || (takeSlice k (fifoOf c (if fb then 3 else 2))).isNone
  | .fskip f _ => (takeSlice k (fifoOf c f)).isNone
  | _ => false

/-- Results have landed and the engines have drained: the head of each matrix queue stands for what waits behind it. -/
def drainedTeam (s : State) (k : Nat) : Bool :=
  let c := s.core (s.task k).core
  (s.tids k).all fun i =>
    let t := s.thread i
    t.flight.isEmpty && t.ops.all fun o => o.done || mayBeSaved c k o ||
      (o.cls == 1 && (mtxHead t).any fun h => h.id != o.id && mayBeSaved c k h && !drained o.kind)

/-- Every thread of the team is at a blocking point (R158). -/
def isSwappable (s : State) (k : Nat) : Bool := (s.task k).st == .running && (s.task k).fatal.isEmpty && allBlocked s k

/-- What is swapped out with a task: the task, or its whole gang, when all of it is swappable (R158). -/
def swapGroup (s : State) (k : Nat) : Option (List Nat) :=
  match (s.task k).gang with
  | none => if isSwappable s k then some [k] else none
  | some (g, _) =>
    let live := (s.gang g).members.filter fun m => !hasExited s m
    if live.all (isSwappable s) then some live else none

/-- The group once its results have landed and its engines have drained, so that it can be saved (R158, R426). -/
def swapSet (s : State) (k : Nat) : Option (List Nat) := (swapGroup s k).filter fun l => l.all (drainedTeam s)

/-- When the team came to be blocked. -/
def blockedSince (s : State) (k : Nat) : Nat := ((s.tids k).filter fun i => !(s.thread i).retired).foldl (fun m i => max m (s.thread i).since) 0

/-- Slices of the team's that belong to no open stream, with their FIFO (log 27). -/
def keptSlices (c : Core) (k : Nat) (mine : List Strm) : List (Nat × Slice) :=
  (List.range 4).flatMap fun f => ((fifoOf c f).filter fun y => y.task == k && !mine.any fun x => x.id == y.strm).map fun y => (f, y)

/-- A region is written back and stays open (R201, R426). -/
def settleRegion (t : Thread) : Thread :=
  match t.region with
  | some w => openRegion w (closeRegion t)
  | none => t

/-- PREEMPT_SAVE (R426): the team's sections are written to a save record, and its resources return to the core. The model brings the
team back from its own copy of what the record holds, which no program has to reach (log 18). -/
def saveTeam (s : State) (k : Nat) : State :=
  let t := s.task k
  let core := t.core
  let c := s.core core
  let mine := c.streams.filter fun x => taskOf x.tid == k
  let saved := { t with st := .swapped, streams := mine.map (rewind c), slices := keptSlices c k mine }
  let s := s.setTask k saved
  let s := (s.tids k).foldl (fun s i => s.onThread i fun t => (settleRegion (t.land (s.time + 2 ^ 64)))) s
  let s := writeSaveRecord k s
  let out := fun (c : Core) =>
    let c := { c with slots := c.slots.filter fun e => taskOf e.2 != k, streams := c.streams.filter fun x => taskOf x.tid != k }
    (List.range 4).foldl (fun c f => setFifo f ((fifoOf c f).filter fun y => y.task != k) c) c
  let s := freeAcc k (freeSpad k (s.onCore core out))
  let s := (s.tids k).foldl (fun s i => s.onThread i fun t =>
    { t with mon := t.mon.map fun m => { m with due := s.time + 65536 } }) s
  grantAll core s

/-- Work is waiting for a core of the team's partition (R158). -/
def workWaiting (s : State) (k : Nat) : Bool :=
  let p := partitionOf s k
  p.any (fun c => !(s.core c).deque.isEmpty || !(s.core c).spill.isEmpty) ||
  s.tasks.any fun e => e.2.st == .swapped && (partitionOf s e.1).any p.contains && wakeHolds s e.1

/-- Teams resident on a core. -/
def residents (s : State) (core : Nat) : List Nat := ((s.core core).slots.map fun e => taskOf e.2).eraseDups

/-- The slot of a resident team's first warp. -/
def firstSlot (s : State) (core k : Nat) : Nat := unitOfThread s core (tidOf k 0)

/-- The core's swappable team that has been blocked longest, the lowest first warp slot of equals (R158). -/
def longestBlocked (s : State) (core : Nat) (p : Nat → Bool) : Option Nat :=
  ((residents s core).filter fun k => p k && (swapGroup s k).isSome).foldl (fun a k => match a with
    | some x =>
      if blockedSince s k < blockedSince s x || (blockedSince s k == blockedSince s x && firstSlot s core k < firstSlot s core x)
      then some k else a
    | none => some k) none

/-- The team that has been blocked longest is swapped out, once what the save waits for has drained (R158, R426). -/
def swapOut (core k : Nat) (s : State) : State :=
  match swapSet s k with
  | none => s
  | some l =>
    let s := l.foldl saveTeam s
    { s with xsSwaps := s.xsSwaps + 1 }.onCore core fun c => { c with lastSwap := s.time }

/-- The forward-progress swap (R158); a team that Umber has asked for goes as soon as it can (R426). -/
def forwardProgressSwap (core : Nat) (s : State) : State :=
  match longestBlocked s core fun k => (s.task k).preempt && (swapSet s k).isSome with
  | some k => ((swapSet s k).getD []).foldl saveTeam s
  | none =>
    let c := s.core core
    if s.time < c.lastIssue + s.xsSwap || s.time < c.lastSwap + s.xsSwap then s
    else match longestBlocked s core (workWaiting s) with
      | some k => swapOut core k s
      | none => s

def execForwardProgressSwap (core : Nat) (s : State) : Host.Outcome State Fault Refusal :=
  .next (if (s.core core).lost then s else forwardProgressSwap core s)

/-- Umber asks for a team's cores, by its journal first; the request waits until the team is swappable (R426, R452). -/
def execUmberPreemptRequest (task : Nat) (s : State) : Host.Outcome State Fault Refusal :=
  .next (if (s.task task).st != .running then s
    else
      let s := jlog jPreempt 0 0 (s.task task).cid task s
      match swapSet s task with
      | some l => l.foldl saveTeam s
      | none => s.onTask task fun t => { t with preempt := true })

/-! Handlers (R418, R419). -/

/-- Parked lanes that wait for the handler. -/
def waitsForHandler (x : Lane) : Bool := x.st == .parked && x.hold == .none

/-- Another lane of the instruction at which a lane waits has an access in flight, and may fault yet (R417, log 62). -/
def mayJoin (t : Thread) (x : Lane) : Bool := t.flight.any (sameInst x)

/-- The oldest waiting sub-warp enters once no handler lane of the warp is left, and no lane can join it any more (R417, R419). -/
def enterHandler (tid : Nat) (s : State) : State :=
  let t := s.thread tid
  let k := taskOf tid
  let wait := t.lanes.filter waitsForHandler
  match wait.foldl (fun a x => some (match a with
      | some n => min n x.sub
      | none => x.sub)) (none : Option Nat) with
  | some n =>
    if isSeq tid || (t.lanes.any fun x => x.inHandler) || (wait.any fun x => x.sub == n && mayJoin t x) || !hasHandler s k || !(s.task k).fatal.isEmpty then s
    else
      let pc := (s.ctx (s.task k).cid).hpc
      s.onThread tid fun t =>
        { t with lanes := t.lanes.map fun x => if waitsForHandler x && x.sub == n
            then { x with st := .active, pc := pc, deferred := false, inHandler := true } else x }
  | none => s

def execHandlerEntry (core unit : Nat) (s : State) : Host.Outcome State Fault Refusal :=
  .next (match unitTid s core unit with
    | some tid => enterHandler tid s
    | none => s)

end Sys2Proof.Machine
end

