-- ==== Sys2Proof/Machine/Retire.lean ====
section
/-!
DEFINITION. Retirement and fatal faults: warps, tasks and their write-backs, held buffers, and dumps (R31, R32, R124, R153,
R177, R178, R305, R424, R430 to R438, R464).
-/
namespace Sys2Proof.Machine

/-! Warps and sequencer contexts (R177). -/

/-- Every lane has exited, every counter reads 0, and every store has performed (R177). -/
def mayRetire (s : State) (tid : Nat) : Bool :=
  let t := s.thread tid
  !t.retired && !t.lanes.isEmpty && (t.lanes.all fun x => x.st == .exited) && t.ops.isEmpty && t.flight.isEmpty && t.maxw < s.time

/-- A pending engine fault raised at retirement ends nothing; it fixes the outcome if none is fixed yet (R424). In a context's record FPC
is the PC at which the context stands, since no instruction raises the fault: the model's choice (R425, log 72). -/
def retireFault (tid : Nat) (s : State) : State :=
  match (s.thread tid).pendFault with
  | [] => s
  | (_, c, a) :: _ =>
    let s := s.onTask (taskOf tid) fun t => { t with fout := some (t.fout.getD (c, a)) }
    if isSeq tid then s.onThread tid fun t => { t with ctxRec := ⟨c, a, (t.lanes.getD 0 {}).pc, 0, s.time⟩ } else s

/-- The thread retires: its extended blocks return to the pool, its monitor is disarmed, and barriers count it as arrived
(R177, R193, R397, R398, R399). -/
def retireThread (core tid : Nat) (s : State) : State :=
  let k := taskOf tid
  let s := leaveJoin tid (disarm tid (retireFault tid s))
  let s := s.onThread tid fun t =>
    { t with retired := true, pendFault := [], xblk := 1, v := t.v.filter fun e => e.1 < 128, region := none, stage := [], written := [] }
  let s := barCheck k (grantAll core s)
  match (s.task k).gang with
  | some (g, _) => gbarCheck g s
  | none => s

def execWarpRetire (core unit : Nat) (s : State) : Host.Outcome State Fault Refusal :=
  .next (match unitTid s core unit with
    | some tid => if mayRetire s tid && (s.taskT tid).fatal.isEmpty then retireThread core tid s else s
    | none => s)

/-! LOCAL users (R32, R437). -/

/-- A task or an entry that names buffer `i` of task `k` and has not retired. -/
def namesBuffer (s : State) (k i : Nat) : Bool :=
  (s.tasks.any fun e => (e.2.st == .staged || e.2.st == .running || e.2.st == .swapped) && e.2.spawner == some k &&
    e.2.descs.any fun d => d.loc && d.lidx == i) ||
  s.cores.any fun c => (c.2.deque ++ c.2.spill).any fun e => match e.kind with
    | .closure _ _ _ _ sp l => sp == some k && l.contains i
    | _ => false

def bufferCount (s : State) (k : Nat) : List Nat := List.range (s.task k).bufs.length
/-- A buffer of the task's own is still named. -/
def hasUsers (s : State) (k : Nat) : Bool := (bufferCount s k).any (namesBuffer s k)

/-! Write-backs (R31). -/

/-- Buffer `i` of task `k` is to be written back: its own, OUT or INOUT, and FULL (R31). -/
def toWriteBack (s : State) (k i : Nat) : Bool :=
  match (s.task k).descs[i]?, (s.task k).bufs[i]? with
  | some d, some b => b.owner.isNone && 2 ≤ d.dir && hdrState (readHdr s k b.off) == 2
  | _, _ => false

/-- BUFFER_WRITEBACK: one buffer of `k` written back as task `who`, with its completion time (R31, R303). -/
def writeBack (core who k i : Nat) (s : State) : State × Nat × Stop :=
  let b := (s.task k).bufs.getD i { off := 0 }
  let d := (s.task k).descs.getD i ⟨0, 0, false, 0, []⟩
  let bytes := toBytes b.lrec.tileSize (bytesAt (s.task k).spad (b.off + 128) b.lrec.tileSize)
  let r := placeTile core (s.task k).cid (viewTag s who) b.lrec d.coord bytes s
  if r.2.2 == .wait then (r.1, 0, .wait)
  else match putAll (some who) r.1.time r.2.1 r.1 with
    | none => (r.2.1.foldl (putAsk (some who)) r.1, 0, .wait)
    | some (s, g) =>
      let w := readHdr s k b.off
      (match r.2.2 with
       | .fault c a => (s, g, .fault c a)
       | _ => (setHdr k b.off (hdrWord 0 (hdrGen w + 1) (hdrTarget w) 0) s, g, .none))

/-- Write-backs in order, with the largest completion time, the first fault, and whether one of them still waits; a fault
ends one buffer's. -/
structure Wb where
  gw : Nat := 0
  fault : Option (W8 × W64) := none
  waits : Bool := false
  deriving DecidableEq, Repr

def writeBacks (core who : Nat) : List (Nat × Nat) → State → Wb → State × Wb
  | [], s, z => (s, z)
  | (k, i) :: l, s, z =>
    if !toWriteBack s k i then writeBacks core who l s z
    else match writeBack core who k i s with
      | (s, _, .wait) => (s, { z with waits := true })
      | (s, g, .none) => writeBacks core who l s { z with gw := max g z.gw }
      | (s, g, .fault c a) =>
        let s := s.onTask k fun t => { t with descs := t.descs.modify i fun d => { d with dir := 1 } }
        writeBacks core who l (countLost c s) { z with gw := max g z.gw, fault := some (z.fault.getD (c, BitVec.ofNat 64 a)) }

/-- The buffers that a retiring task writes back: its own that nothing names, and held ones of which it is the last user
(R32, R178). -/
def retireBuffers (s : State) (k : Nat) : List (Nat × Nat) :=
  let own := ((bufferCount s k).filter fun i => !namesBuffer s k i).map fun i => (k, i)
  let without := { s with tasks := tput s.tasks k { s.task k with st := .done } }
  let held := match (s.task k).spawner with
    | some j =>
      if (s.task j).st == .done then
        ((s.task k).descs.filter Desc.loc).filterMap fun d => if namesBuffer without j d.lidx then none else some (j, d.lidx)
      else []
    | none => []
  own ++ held

/-! Completing the task's own future (R124, R131, R178). -/

/-- A retirement that stalls on its future's sector or line is counted once (R125, R142). -/
def stallOnce (k pa : Nat) (s : State) : State :=
  if (s.task k).counted then s else (noteStall k pa 32 s).onTask k fun t => { t with counted := true }

/-- A speculative completion: a future that is not EMPTY as the task sees it stays as it is (R178); otherwise the root is done, and the future's completion is held in speculative lines (R124, R138). -/
def completeSpec (k : Nat) (o : TOut) (s : State) : State × Bool :=
  let t := s.task k
  let tag := t.tag.getD 0
  let note := fun (s : State) => match t.launch with
    | some n => s.setLaunch n { s.launch n with doneRoots := (s.launch n).doneRoots ++ [⟨t.root, t.wid, t.future, t.ident, o⟩] }
    | none => s
  if t.future = 0 then (note s, true)
  else
    match walkAddr s t.cid t.future .write with
    | .inr c =>
      (match agentFault t.cid c (countBad t.cid t.future s) with
       | (s, .wait) => (s, false)
       | (s, .fault c) => (note (countLost c { s with futFail := s.futFail + 1 }), true))
    | .inl pa =>
      if homeGone s pa then (note (countLost Cause.fabricLost { s with futFail := s.futFail + 1 }), true)
      else if stateSeen s k pa ≠ 0 then (note s, true)
      else if taskWriteBlocked s k pa 32 then (stallOnce k pa s, false)
      else
      let f : SpecFut := match o with
        | .full v => ⟨tag, t.root, t.cid, t.future, pa, 1, 0, v, 0, t.wid⟩
        | .faulted c a => ⟨tag, t.root, t.cid, t.future, pa, 2, c, 0, a, t.wid⟩
      (triggerGlobal pa 32 (some tag) (dropCopies none tag pa 32 (note { s with specFut := s.specFut ++ [f] })), true)

/-- The task's own future is completed and its outcome counted; a future that is not EMPTY stays as it is (R178). -/
def completeTask (k : Nat) (o : TOut) (s : State) : State × Bool :=
  if isSpec s k then completeSpec k o s
  else
    let r := match o with
      | .full v => completeOwn k 1 0 v 0 s
      | .faulted c a => completeOwn k 2 c 0 a s
    if r.2 then (countOutcome k (match o with
      | .full _ => none
      | .faulted c _ => some c) r.1, true) else r

/-! Freeing the resources (R436, R437). -/

/-- Slots and the sequencer context, tiles and streams return; scratchpad stays while a LOCAL user remains (R437). -/
def freeTask (k : Nat) (st : TaskSt) (s : State) : State :=
  let t := s.task k
  let core := t.core
  let s := s.onTask k fun t => { t with st := st, ending := true }
  let out := fun (c : Core) =>
    let c := { c with slots := c.slots.filter fun e => taskOf e.2 != k, streams := c.streams.filter fun x => taskOf x.tid != k }
    (List.range 4).foldl (fun c f => setFifo f ((fifoOf c f).filter fun y => y.task != k) c) c
  let s := if t.st == .swapped then s else freeAcc k (s.onCore core out)
  let s := if hasUsers s k then s else freeSpad k s
  let s := match t.spawner with
    | some j => if (s.task j).st == .dead && !hasUsers s j then freeSpad j s else s
    | none => s
  let s := grantAll core s
  match t.gang with
  | some (g, _) => gbarCheck g s
  | none => s

/-- A swapped-out team that is ending has nothing left to run (R424). -/
def retireSwapped (k : Nat) (s : State) : State :=
  if (s.task k).st == .swapped && (s.task k).ending then
    (s.tids k).foldl (fun s i => if mayRetire s i then retireThread (s.task k).core i s else s) s
  else s

/-- Step 1 of R178 for a task whose threads have all retired: its buffers in turn, as far as none of them waits. -/
def retireStart (k : Nat) (s : State) : State :=
  let r := writeBacks (s.task k).core k (retireBuffers s k) s { gw := (s.task k).wbGw, fault := (s.task k).wbFault }
  r.1.onTask k fun t => { t with written := !r.2.waits, wbGw := r.2.gw, wbFault := r.2.fault }

/-- A buffer that the task is to write back: one that its last LOCAL user left to it after step 1 counts too (R32). -/
def owesWriteBack (s : State) (k : Nat) : Bool := (retireBuffers s k).any fun b => toWriteBack s b.1 b.2

/-- Steps 3 to 5 of R178. -/
def retireEnd (k : Nat) (s : State) : State :=
  let t := s.task k
  let o : TOut := match t.wbFault, t.fout with
    | some (c, a), _ => .faulted c a
    | none, some (c, a) => .faulted c a
    | none, none => t.out
  match completeTask k o s with
  | (s, true) => freeTask k .done s
  | (s, false) => s

/-- A buffer still held after its last LOCAL user has ended without retiring is written back and freed; no future waits for
it, and a fault of it reaches none (R437, log 48). -/
def releaseHeld (k : Nat) (s : State) : State :=
  let r := writeBacks (s.task k).core k ((bufferCount s k).map fun i => (k, i)) s {}
  if r.2.waits then r.1 else freeSpad k r.1

def taskRetire (k : Nat) (s : State) : State :=
  let t := s.task k
  if t.st == .done then (if t.units.isEmpty || hasUsers s k then s else releaseHeld k s)
  else if t.st == .dead then (if t.units.isEmpty || hasUsers s k then s else freeSpad k s)
  else if !(t.st == .running || t.st == .swapped) || !t.fatal.isEmpty then s
  else
    let s := retireSwapped k s
    if !(s.tids k).all fun i => (s.thread i).retired then s
    else if !t.written || owesWriteBack s k then retireStart k s
    else if t.wbGw < s.time || isSpec s k then retireEnd k s else s

def execTaskRetire (task : Nat) (s : State) : Host.Outcome State Fault Refusal := .next (taskRetire task s)

/-! The dump (R432 to R434). -/

def causeBytes (c : DumpCause) : List W8 :=
  c.code :: toBytes 1 c.unit ++ toBytes 1 c.lane ++ toBytes 1 c.warp ++ toBytes 4 0 ++ toBytes 8 c.time ++ toBytes 8 c.addr.toNat

/-- The unit of an engine class in a cause chain (R433): copy engine, matrix unit, lane, landing unit, Cerulean, near-bank unit. -/
def classUnit (c : Nat) : Nat := [2, 4, 0, 7, 6, 5].getD c 0

/-- Pending engine faults join the chain with the times at which they arrived (R435). -/
def engineCauses (s : State) (k : Nat) : List DumpCause :=
  (s.tids k).flatMap fun i => (s.thread i).pendFault.map fun p =>
    ⟨p.2.1, classUnit p.1, 0xFF, if isSeq i then 0xFE else warpOf i, tget 0 (s.thread i).pendAt p.1, p.2.2⟩

/-- The chain of a dump, in the order of occurrence (R433). -/
def causeChain (s : State) (k : Nat) : List DumpCause := (engineCauses s k).foldl chainCause (s.task k).fatal

/-- The header without VALID, of a dump that began at a time (R433). -/
def dumpHeader (s : State) (k start nsect size : Nat) : List W8 :=
  let t := s.task k
  let chain := causeChain s k
  let n := min 8 chain.length
  toBytes 1 n ++ toBytes 1 (min 255 (chain.length - n)) ++ toBytes 2 nsect ++ toBytes 8 size ++ toBytes 8 t.wid.toNat ++
  toBytes 8 t.closure ++ toBytes 8 t.future ++ toBytes 2 t.core ++ toBytes 1 t.team.toNat ++ toBytes 1 0 ++ toBytes 2 t.cid ++
  toBytes 2 0 ++ toBytes 8 start ++ toBytes 8 0 ++ ((chain.take 8).flatMap causeBytes) ++ toBytes (24 * (8 - n)) 0

/-- Pieces written in order, up to the first that faults or waits. -/
def writePieces (cid : Nat) : List (Nat × List W8) → State × Nat → State × Nat × Stop
  | [], z => (z.1, z.2, .none)
  | (va, b) :: l, z =>
    match hubWrite cid va b z.1 with
    | (s, g, .none) => writePieces cid l (s, max g z.2)
    | (s, g, e) => (s, max g z.2, e)

/-- Where each section goes. -/
def placePieces : Nat → List (List W8) → List (Nat × List W8)
  | _, [] => []
  | va, b :: l => (va, b) :: placePieces (va + b.length) l

def setDump (k : Nat) (d : DumpSt) (s : State) : State := s.onTask k fun t => { t with dump := d }

/-- What follows an access of a dump: it is made again, it is given up for another state, or the dump goes on. -/
def dumpNext (k : Nat) (otherwise : DumpSt) (e : Stop) (f : State → State) (s : State) : State :=
  match e with
  | .wait => s
  | .fault _ _ => setDump k otherwise s
  | .none => f s

def dumpBase (s : State) (k : Nat) : Nat := (s.ctx (s.task k).cid).dumpbase

/-- LOST advances, and the dump is over; where LOST itself faults it stays (R432). -/
def dumpLost (k : Nat) (s : State) : State :=
  let cid := (s.task k).cid
  let a := dumpBase s k + 8
  let r := hubRead cid a 4 s
  dumpNext k .over r.2.2 (fun s =>
    let w := hubWrite cid a (toBytes 4 (leNat r.2.1 + 1)) s
    dumpNext k .over w.2.2 (setDump k .over) w.1) r.1

/-- The dump takes its slot: NEXT advances, whatever becomes of the dump (R432, log 60). -/
def dumpTake (k : Nat) (s : State) : State :=
  let cid := (s.task k).cid
  let base := dumpBase s k
  let r := hubRead cid base 8 s
  dumpNext k .lost r.2.2 (fun s =>
    let nslot := fieldAt r.2.1 0 4
    let next := fieldAt r.2.1 4 4
    if nslot = 0 then setDump k .lost s
    else
      let w := hubWrite cid (base + 4) (toBytes 4 (next + 1)) s
      dumpNext k .lost w.2.2 (fun s => setDump k (.taken (wrap64 (base + 2 ^ 16 + next % nslot * 2 ^ 24)) s.time) s) w.1) r.1

/-- DUMP_WRITE: the sections, then the header but for VALID, into a slot that software has consumed (R432). -/
def dumpWrite (k slot start : Nat) (s : State) : State :=
  let cid := (s.task k).cid
  let r := hubRead cid slot 4 s
  dumpNext k .lost r.2.2 (fun s =>
    if leNat r.2.1 ≠ 0 then setDump k .lost s
    else
      let ss := sectionsOf s k
      let size := ss.foldl (fun n b => n + b.length) 256
      let w := writePieces cid (placePieces (slot + 256) ss ++ [(slot + 4, dumpHeader s k start ss.length size)]) (s, 0)
      dumpNext k .lost w.2.2 (fun s => setDump k (.written slot start w.2.1 (causeChain s k).length ss.length size) s) w.1) r.1

/-- VALID is written once every section has performed; a cause found meanwhile is written into the header first (R432, R433). -/
def dumpValid (k slot start g n nsect size : Nat) (s : State) : State :=
  let cid := (s.task k).cid
  if (causeChain s k).length ≠ n then
    let w := hubWrite cid (slot + 4) (dumpHeader s k start nsect size) s
    dumpNext k .lost w.2.2 (fun s => setDump k (.written slot start (max g w.2.1) (causeChain s k).length nsect size) s) w.1
  else if s.time ≤ g then s
  else
    let w := hubWrite cid slot (toBytes 4 1) s
    dumpNext k .lost w.2.2 (setDump k .over) w.1

/-- The next step of the dump. -/
def dumpStep (k : Nat) (s : State) : State :=
  match (s.task k).dump with
  | .idle => dumpTake k s
  | .taken slot start => dumpWrite k slot start s
  | .written slot start g n nsect size => dumpValid k slot start g n nsect size s
  | .lost => dumpLost k s
  | .over => s

/-! Fatal faults (R430, R431). -/

/-- The task's operations and what its threads hold come to an end (R431, R359, R380). -/
def dropWork (k : Nat) (s : State) : State :=
  let core := (s.task k).core
  let mine := s.tids k
  let s := mine.foldl (fun s i => leaveJoin i (disarm i s)) s
  let s := mine.foldl (fun s i => s.onThread i fun t =>
    { t with retired := true, ops := [], flight := [], pending := [], wait := .none, lanes := t.lanes.map exitLane, xblk := 1 }) s
  s.onCore core fun c => { c with cpy := c.cpy.filter fun x => !x.tid.any mine.contains }

/-- An uncorrectable error of a running task may lie in one of its extended blocks: that is a free value (R464, log 8). -/
def noteBlock (k : Nat) (s : State) : State :=
  if (s.task k).st == .running && teamBlocks s k != 0 then
    let r := s.drawFree
    r.2.onTask k fun t => { t with badBlocks := min (t.badBlocks + if r.1.getLsbD 0 then 1 else 0) (teamBlocks s k) }
  else s

/-- POOL_BLOCK_RETIRE: the blocks that returned an error are retired once their holder has ended (R464). -/
def retireBlock (k : Nat) (s : State) : State :=
  if (s.task k).badBlocks = 0 then s
  else (s.onCore (s.task k).core fun c => { c with retiredBlks := c.retiredBlks + (s.task k).badBlocks }).onTask k fun t => { t with badBlocks := 0 }

/-- A store that the task has sent has yet to perform at its home; a lost core waits for none, and a store that an earlier
access or operation holds back has not been sent (R404, R431). -/
def storesLeft (k : Nat) (s : State) : Bool :=
  let core := (s.task k).core
  !(s.core core).lost && (s.tids k).any fun i => (s.thread i).flight.zipIdx.any fun a => !a.1.isLoad && accReady s core i a.2 a.1

/-- Steps 5 and 6 of R431: the future, then the resources. -/
def fatalEnd (k : Nat) (c : DumpCause) (s : State) : State :=
  let fut := fun (s : State) => if isSpec s k then completeSpec k (.faulted c.code c.addr) s
    else match completeOwn k 2 c.code 0 c.addr s with
      | (s, true) => (countOutcome k (some c.code) s, true)
      | r => r
  match fut s with
  | (s, true) => freeTask k .dead (dropWork k (retireBlock k s))
  | (s, false) => s

/-- What Umber's end of a task, and an uncorrectable error of its registers, scratchpad, tiles or save record, put into its chain
(R430). -/
def fatalCause (ecc : Bool) (s : State) : DumpCause :=
  if ecc then ⟨Cause.ecc, 0, 0xFF, 0xFF, s.time, 0⟩ else ⟨Cause.aborted, 10, 0xFF, 0xFF, s.time, 0⟩

/-- A fatal fault: its chain is what the threads recorded; otherwise Umber ends the task, or an uncorrectable error does, which is
counted, and which joins the chain of a task whose dump is not over (R430, R433, R468); a speculative task's error is held until
resolution (R128). -/
def fatalFault (k : Nat) (ecc : Bool) (s : State) : State :=
  let t := s.task k
  if !(t.st == .running || t.st == .swapped) then s
  else
    let why := fatalCause ecc s
    let s := if ecc then noteBlock k s.countUe else s
    if ecc && isSpec s k && t.fatal.isEmpty then s.onTask k fun t => { t with heldFatal := t.heldFatal ++ [why] }
    else
    let s := if t.fatal.isEmpty || (ecc && t.dump != .over) then addCauses k [why] s else s
    if t.dump != .over then dumpStep k s
    else if storesLeft k s then s
    else fatalEnd k ((s.task k).fatal.headD why) s

def execFatalFault (task : Nat) (ecc : Bool) (s : State) : Host.Outcome State Fault Refusal := .next (fatalFault task ecc s)

end Sys2Proof.Machine
end

