-- ==== Sys2Proof/Machine/Steal.lean ====
section
/-!
DEFINITION. The steal network and its exchange (R143, R144, R148 to R150, R154, R160, R161, R407, R411, R474, R477).
-/
namespace Sys2Proof.Machine

/-! Depth and victims (R148, R150, R474). -/

/-- An entry counts 2 when it covers two identifiers or more (R143). -/
def entWeight (e : Ent) : Nat :=
  match e.kind with
  | .closure .. => 1
  | k => if 2 ≤ (entBounds k).2 - (entBounds k).1 then 2 else 1

/-- The depth that the steal tree reports: deque and spill ring, no staged task (R474). -/
def depthOf (c : Core) : Nat := (c.deque ++ c.spill).foldl (fun n e => n + entWeight e) 0

/-- The better of two victims by a key that is to be least; the first of equals. -/
def leastBy (key : Nat → List Nat) : List Nat → Option Nat
  | [] => none
  | x :: l => match leastBy key l with
    | some y => if decide (key y < key x) then some y else some x
    | none => some x

def dieCores (d : Nat) : List Nat := (List.range Config.coresPerDie).map (Config.coresPerDie * d + ·)
def maxDepth : Nat := 2 ^ 32

/-- The core of the thief's own die with the greatest depth, the lowest index of equals. The depth is the one of now: the rule
lets a tree node be up to 16 cycles out of date and fixes no lag, and none is the model's choice (R148, log 49). -/
def localVictim (s : State) (c : Nat) : Option Nat :=
  leastBy (fun v => [maxDepth - depthOf (s.core v)]) ((dieCores (dieOfCore c)).filter fun v => v != c && !(s.core v).lost)

/-- Distance of two dies on the 2 by 4 grid (R403). -/
def dieDist (a b : Nat) : Nat :=
  (max (a % 2) (b % 2) - min (a % 2) (b % 2)) + (max (a / 2) (b / 2) - min (a / 2) (b / 2))

/-- The victim on another die: the greatest depth at or above MINVICTIM, then the nearest die, the lowest die, the lowest
index (R150). -/
def remoteVictim (s : State) (c : Nat) : Option Nat :=
  let d := dieOfCore c
  leastBy (fun v => [maxDepth - depthOf (s.core v), dieDist d (dieOfCore v), v])
    ((List.range Config.cores).filter fun v => dieOfCore v != d && !(s.core v).lost && s.xsMinvictim ≤ depthOf (s.core v))

/-- A thief may look beyond its die (R150). -/
def mayGoFar (s : State) (c : Nat) : Bool :=
  s.xsEnable && (s.core c).firstFail.any fun t => t + s.xsIdle ≤ s.time

/-- An idle core: room to stage and an empty deque (R148). -/
def isIdle (c : Core) : Bool := !c.lost && roomToStage c false && c.deque.isEmpty && c.spill.isEmpty && c.thief.isNone

/-- An attempt that fails is counted, and the time of the first since the deque last held an entry is kept (R150, R161). -/
def failAttempt (c : Nat) (s : State) : State :=
  { s with xsFail := s.xsFail + 1 }.onCore c fun x =>
    { x with thief := none
             firstFail := if x.deque.isEmpty && x.spill.isEmpty then some (x.firstFail.getD s.time) else none }

def send (m : Msg) (s : State) : State := { s with msgs := s.msgs ++ [m] }

/-! The exchange (R411): 0 ATTEMPT, 1 OFFER, 2 ACK, 3 CONFIRM, 4 KEEP. An OFFER without an entry reports failure (R148). -/

def sendAttempt (c v : Nat) (s : State) : State :=
  let r := s.fresh
  send ⟨0, c, v, r.1, none⟩ (r.2.onCore c fun x => { x with thief := some ⟨v, r.1, s.time + 4096, none, 0⟩ })

/-- STEAL_ATTEMPT: an idle core sends an attempt to the deepest core of its die, or by R150 of another (R148). -/
def execStealAttempt (core : Nat) (s : State) : Host.Outcome State Fault Refusal :=
  .next (if Config.cores ≤ core || !isIdle (s.core core) then s
    else
      match if mayGoFar s core then remoteVictim s core else none with
      | some v => if s.stitching then failAttempt core s else sendAttempt core v s
      | none => match localVictim s core with
        | some v => sendAttempt core v s
        | none => s)

/-- The launch lets an entry go: not by a NOSTEAL template, and a gang's units only to a die with room for a gang (R150,
R477). -/
def launchGives (s : State) (n victim thief : Nat) : Bool :=
  let l := s.launch n
  !(clFlags l.image).getLsbD 1 &&
  (l.gsize = 0 || dieOfCore victim == dieOfCore thief ||
    l.gsize ≤ (l.partition.filter fun c => dieOfCore c == dieOfCore thief && !(s.core c).lost).length)

/-- An entry may be given to a thief (R144). -/
def mayGive (s : State) (victim thief : Nat) (e : Ent) : Bool :=
  e.lent.isNone && !e.raised && (e.launch.any fun n => (s.launch n).partition.contains thief) &&
  match e.kind with
  | .closure _ _ _ nosteal _ _ => !nosteal
  | .range n _ _ => launchGives s n victim thief
  | .tail n _ _ _ _ => launchGives s n victim thief

/-- The coldest entry that may be given (R144). -/
def coldest (s : State) (victim thief : Nat) : Option Ent :=
  let c := s.core victim
  (c.deque ++ c.spill).reverse.find? (mayGive s victim thief)

/-- The part of an entry that a thief takes: whole, or the upper half of a range (R149). -/
def stolenFrom (e : Ent) : Nat :=
  let b := entBounds e.kind
  if b.2 - b.1 ≤ 1 then b.1 else b.1 + (b.2 - b.1) / 2

/-- The entry is marked LENT, a range split first; the part offered keeps the place of its entry (R13, R149, R411, log 50). -/
def lendEntry (victim thief : Nat) (e : Ent) (s : State) : State × Ent :=
  let b := entBounds e.kind
  let m := stolenFrom e
  let r := s.fresh
  let part : Ent := if m = b.1 then { e with lent := some thief }
    else { e with id := r.1, kind := entWith e.kind m b.2, lent := some thief, split := true }
  let cut : List Ent → List Ent := fun l => l.flatMap fun x =>
    if x.id != e.id then [x] else if m = b.1 then [part] else [{ x with kind := entWith x.kind b.1 m }, part]
  (r.2.onCore victim fun c => { c with deque := cut c.deque, spill := cut c.spill }, part)

/-- The staged task to give when no older entry may be: the one popped last (R154), unless its owner popped it in this cycle (R160). -/
def stagedGift (s : State) (victim thief : Nat) : Option (Nat × Ent) :=
  (s.core victim).staged.reverse.findSome? fun k =>
    let t := s.task k
    match t.ent with
    | some e => if t.stageFault.isNone && !t.raised && t.stagedAt < s.time && mayGive s victim thief e then some (k, e) else none
    | none => none

def markStaged (k : Nat) (thief : Option Nat) (s : State) : State :=
  s.onTask k fun t => { t with ent := t.ent.map fun e => { e with lent := thief } }

def setLend (victim thief : Nat) (l : Lend) (s : State) : State :=
  s.onCore victim fun c => { c with lends := tput c.lends thief l }

/-- A steal reads a lent entry's part out of the deque for good (R411). -/
def dropEnt (core id : Nat) (s : State) : State :=
  s.onCore core fun c => { c with deque := fixSplit none (c.deque.filter fun x => x.id != id), spill := fixSplit none (c.spill.filter fun x => x.id != id) }

/-- The message at an index, if it is of a kind and its receiver works. -/
def msgAt (s : State) (i kind : Nat) : Option Msg :=
  match s.msgs[i]? with
  | some m => if m.kind = kind then some m else none
  | none => none

def takeMsg (i : Nat) (s : State) : State := { s with msgs := s.msgs.eraseIdx i }

/-- The staged task that an entry stands for on a core. -/
def stagedOf (s : State) (core id : Nat) : Option Nat :=
  (s.core core).staged.find? fun k => ((s.task k).ent.map Ent.id) == some id

def returnLent (core id : Nat) (s : State) : State :=
  let s := s.onCore core fun c => { c with deque := unlend id c.deque, spill := unlend id c.spill }
  match stagedOf s core id with
  | some k => markStaged k none s
  | none => s

/-- The victim answers an attempt (R148, R411). -/
def answerAttempt (m : Msg) (s : State) : State :=
  let offer := fun (e : Option Ent) (id : Option Nat) (s : State) =>
    send ⟨1, m.thief, m.victim, m.tag, e⟩ (setLend m.victim m.thief ⟨m.tag, id, s.time + 4096, none, e.isNone⟩ s)
  match coldest s m.victim m.thief with
  | some e =>
    let r := lendEntry m.victim m.thief e s
    offer (some r.2) (some r.2.id) r.1
  | none =>
    match stagedGift s m.victim m.thief with
    | some (k, e) => offer (some { e with lent := some m.thief }) (some e.id) (markStaged k (some m.thief) s)
    | none => offer none none s

/-- An older offer to the thief whose lend timer still runs: its entry is LENT, and the attempt waits its turn; one whose
timer has expired returns first (R148, R411). -/
def lendRuns (s : State) (m : Msg) : Bool :=
  (tfind (s.core m.victim).lends m.thief).any fun l => l.given.isNone && !l.kept && s.time < l.due

def expireLend (victim thief : Nat) (s : State) : State :=
  match tfind (s.core victim).lends thief with
  | some l =>
    if l.given.isNone && !l.kept && l.due ≤ s.time then
      let s := setLend victim thief { l with kept := true } s
      (match l.ent with
       | some id => returnLent victim id s
       | none => s)
    else s
  | none => s

/-- An attempt waits its turn behind an older offer, and behind a pop that the owner makes in this cycle (R148, R160). -/
def execStealAttemptReceived (msg : Nat) (s : State) : Host.Outcome State Fault Refusal :=
  .next (match msgAt s msg 0 with
    | some m =>
      if (s.core m.victim).lost then takeMsg msg s
      else if lendRuns s m || popDue s m.victim then s
      else answerAttempt m (expireLend m.victim m.thief (takeMsg msg s))
    | none => s)

/-- An offer made in this tick is still under way (R148). -/
def offerFresh (s : State) (m : Msg) : Bool :=
  (tfind (s.core m.victim).lends m.thief).any fun l => l.tag == m.tag && l.due == s.time + 4096

def execStealOfferReceived (msg : Nat) (s : State) : Host.Outcome State Fault Refusal :=
  .next (match msgAt s msg 1 with
    | none => s
    | some m =>
      if offerFresh s m then s
      else
      let s := takeMsg msg s
      match (s.core m.thief).thief with
      | some a =>
        if a.tag != m.tag || a.copy.isSome || a.offerDue ≤ s.time then s
        else (match m.ent with
          | none => failAttempt m.thief s
          | some e =>
            send ⟨2, m.thief, m.victim, m.tag, none⟩
              (s.onCore m.thief fun c => { c with thief := some { a with copy := some e, ackDue := s.time + 2048 } }))
      | none => s)

/-- RESTAGE_ON_STEAL: the victim discards a stolen task's staging (R154). -/
def discardStaging (k : Nat) (s : State) : State :=
  let s := freeAcc k (freeSpad k (unstage k s))
  { s with xsRestage := s.xsRestage + 1, tasks := tdel s.tasks k }

/-- The lent entry is given up: none when it has gone meanwhile, or its staging has faulted (R154, R160). -/
def giveUp (victim id : Nat) (s : State) : Option (State × Ent) :=
  match ((s.core victim).deque ++ (s.core victim).spill).find? fun e => e.id == id with
  | some e => some (dequeLeft victim (dropEnt victim id s), e)
  | none =>
    match stagedOf s victim id with
    | some k => if (s.task k).stageFault.isSome then none else (s.task k).ent.map fun e => (discardStaging k s, e)
    | none => none

/-- The victim answers an ACK from its record, or decides it now (R411); a thief that is lost is given nothing more (R413). -/
def answerAck (m : Msg) (l : Lend) (s : State) : State :=
  let back := fun (s : State) => match l.kept, l.ent with
    | false, some id => returnLent m.victim id s
    | _, _ => s
  let keep := fun (s : State) => send ⟨4, m.thief, m.victim, m.tag, none⟩ (setLend m.victim m.thief { l with kept := true } (back s))
  match l.given with
  | some e => send ⟨3, m.thief, m.victim, m.tag, some e⟩ s
  | none =>
    if (s.core m.thief).lost then setLend m.victim m.thief { l with kept := true } (back s)
    else if l.kept || l.due ≤ s.time then keep s
    else
      match l.ent.bind fun id => giveUp m.victim id s with
      | some (s, e) =>
        let e := { e with lent := none, split := false }
        send ⟨3, m.thief, m.victim, m.tag, some e⟩ (setLend m.victim m.thief { l with given := some e } s)
      | none => keep s

def execStealAckReceived (msg : Nat) (s : State) : Host.Outcome State Fault Refusal :=
  .next (match msgAt s msg 2 with
    | none => s
    | some m =>
      let s := takeMsg msg s
      if (s.core m.victim).lost then s
      else match tfind (s.core m.victim).lends m.thief with
        | some l => if l.tag = m.tag then answerAck m l s else s
        | none => s)

/-- The attempt of a thief that a message answers. -/
def attemptOf (s : State) (m : Msg) : Bool := (s.core m.thief).thief.any fun a => a.tag == m.tag && a.copy.isSome

/-- A closure entry of a launch that resolved while the entry was in flight: a committed root's loses its tag (R121, R130). -/
def settledEnt (s : State) (e : Ent) : Ent := if entClass s e == .committed then { e with tag := none } else e

/-- The entry enters the thief's hot end, a push like any other (R145, R149, R161); none while deque and ring are full (R146). -/
def placeStolen (m : Msg) (e : Ent) (s : State) : Option State :=
  let far := dieOfCore m.thief != dieOfCore m.victim
  (pushHot m.thief (settledEnt s e) s).map fun s =>
    { s with xsRemote := if far then s.xsRemote + 1 else s.xsRemote, xsLocal := if far then s.xsLocal else s.xsLocal + 1 }.onCore
      m.thief fun c => { c with thief := none }

/-- An entry of a surplus root that was in flight when its launch resolved: the thief receives it and applies R130 when it pops it
(R160). It holds its launch's tag until then. -/
def inFlight (l : Nat) (e : Ent) : Bool := e.launch == some l && e.tag.isSome

def execStealConfirmReceived (msg : Nat) (s : State) : Host.Outcome State Fault Refusal :=
  .next (match msgAt s msg 3 with
    | none => s
    | some m =>
      match attemptOf s m, m.ent with
      | true, some e => (placeStolen m e (takeMsg msg s)).getD s
      | _, _ => takeMsg msg s)

def execStealKeepReceived (msg : Nat) (s : State) : Host.Outcome State Fault Refusal :=
  .next (match msgAt s msg 4 with
    | none => s
    | some m => let s := takeMsg msg s
      if attemptOf s m then failAttempt m.thief s else s)

/-! Timers (R411). -/

def execStealOfferTimeout (core : Nat) (s : State) : Host.Outcome State Fault Refusal :=
  .next (match (s.core core).thief with
    | some a => if a.copy.isNone && a.offerDue ≤ s.time then failAttempt core s else s
    | none => s)

def execStealLendTimeout (core thief : Nat) (s : State) : Host.Outcome State Fault Refusal :=
  .next (expireLend core thief s)

def execStealAnswerTimeout (core : Nat) (s : State) : Host.Outcome State Fault Refusal :=
  .next (match (s.core core).thief with
    | some a =>
      if a.copy.isSome && a.ackDue ≤ s.time then
        send ⟨2, core, a.victim, a.tag, none⟩ (s.onCore core fun c => { c with thief := some { a with ackDue := s.time + 2048 } })
      else s
    | none => s)

end Sys2Proof.Machine
end

