-- ==== Sys2Proof/Machine/Speculate.lean ====
section
/-!
DEFINITION. Resolution, timeout and the freeing of speculation tags (R116, R117, R120, R128 to R139, R476).
-/
namespace Sys2Proof.Machine

/-! The shape record (R116, R117). -/

/-- EXT0 to EXT5 of a record, those below NLEV. -/
def shapeExt (s : State) (l : Launch) : List Nat := (List.range l.widths.length).map fun j => homeRead s (l.shapePa + 4 * j) 4

/-- A record that holds no possible shape (R117). -/
def shapeBad (l : Launch) (e : List Nat) : Bool :=
  (e.zip l.widths).any (fun p => 2 ^ p.2 < p.1) || (l.lb.all (1 ≤ ·) && (e.zip l.lb).any fun p => p.1 < p.2)

/-- A true shape enters the predictor of its slot, while the slot is still its queue's (R120). -/
def pushShape (l : Launch) (e : List Nat) (s : State) : State :=
  let k := tget {} s.slots l.slot
  if k.lastQid != some l.qid then s
  else
    let old := ((k.predict.find? fun p => p.site == l.site).map Predict.shapes).getD []
    let kept := k.predict.filter fun p => p.site != l.site
    { s with slots := tput s.slots l.slot { k with predict := (⟨l.site, (e :: old).take 4⟩ :: kept).take 16 } }

/-! Classes of what carries the tag (R130). -/

def isCommitted (l : Launch) (truth : List Nat) (root : W64) : Bool := !truth.isEmpty && belowAll l root.toNat truth

/-- The sectors that merge, and the completions that are applied. -/
def mergeSectors (s : State) (l : Launch) (tag : Nat) (truth : List Nat) : List Sector :=
  s.spec.filter fun x => x.tag == tag && isCommitted l truth x.root
def mergeFutures (s : State) (l : Launch) (tag : Nat) (truth : List Nat) : List SpecFut :=
  s.specFut.filter fun x => x.tag == tag && isCommitted l truth x.root

/-- The lines that the commit writes. -/
def mergeLines (s : State) (l : Launch) (tag : Nat) (truth : List Nat) : List Nat :=
  ((mergeSectors s l tag truth).flatMap (fun x => x.bytes.map fun b => lineOf (b.1 % 2 ^ 52)) ++
   (mergeFutures s l tag truth).map fun f => lineOf f.addr).eraseDups

/-- The commit point can be fixed: no lease on a line that merges is outstanding, and the host holds none (R131, log 21). -/
def mergeReady (s : State) (ls : List Nat) : Bool :=
  ls.all fun x => ((s.l2line x).lease < s.time || landsAt s (128 * x)) && !(s.l2line x).host

/-! Surplus roots (R132). -/

/-- A future that is to become SQUASHED waits in the launch's list. -/
def oweSquash (n va : Nat) (root : W64) (s : State) : State :=
  if va = 0 then s else s.setLaunch n { s.launch n with squashes := (s.launch n).squashes ++ [(va, root)] }

/-- A surplus task stops and gives everything back, with no write-back (R132). -/
def stopTask (n k : Nat) (s : State) : State :=
  let t := s.task k
  let s := if t.ident then countSquash n s else s
  let s := oweSquash n t.future t.root s
  if t.st == .done || t.st == .dead then s
  else freeTask k .dead (dropWork k (unstage k s))

/-- Tasks that carry a tag and have not ended. -/
def taggedTasks (s : State) (tag : Nat) : List Nat :=
  (s.tasks.filter fun e => e.2.tag == some tag && e.2.st != .done && e.2.st != .dead).map Prod.fst

/-- Entries of a deque: a surplus root's closures leave, a committed root's lose the tag (R130, R132). -/
def sortEntries (l : Launch) (tag : Nat) (truth : List Nat) (es : List Ent) : List Ent :=
  es.filterMap fun e =>
    if e.tag == some tag then (if isCommitted l truth e.root then some { e with tag := none } else none) else some e

/-- The futures of the closures that leave. -/
def lostFutures (l : Launch) (tag : Nat) (truth : List Nat) (es : List Ent) : List (Nat × W64) :=
  es.filterMap fun e => match e.kind with
    | .closure _ f _ _ _ _ => if e.tag == some tag && !isCommitted l truth e.root then some (f, e.root) else none
    | _ => none

def sortDeques (n tag : Nat) (truth : List Nat) (s : State) : State :=
  let l := s.launch n
  let owed := s.cores.flatMap fun c => lostFutures l tag truth (c.2.deque ++ c.2.spill)
  let s := owed.foldl (fun s p => oweSquash n p.1 p.2 s) s
  let s := { s with cores := s.cores.map fun (c : Nat × Core) =>
      (c.1, { c.2 with deque := fixSplit none (sortEntries l tag truth c.2.deque), spill := fixSplit none (sortEntries l tag truth c.2.spill) }) }
  (s.cores.map Prod.fst).foldl (fun s c => dequeLeft c s) s

/-- A closure entry of the launch still carries the tag: given to a thief that has not placed it yet, or placed since and not popped
(R121, R160). -/
def tagCarried (s : State) (n : Nat) : Bool :=
  s.cores.any fun (c : Nat × Core) =>
    ((c.2.deque ++ c.2.spill).any (inFlight n)) ||
    c.2.lends.any fun p => p.2.given.any (inFlight n) && (s.core p.1).thief.any fun a => a.tag == p.2.tag && a.victim == c.1

/-! Committed roots (R128, R131, R133). -/

/-- A held fault is reported as though it had just occurred: it may now wait for a migration or for Umber (R128, R290). -/
def heldNow (s : State) (k : Nat) (x : Lane) : Hold :=
  if x.frec.cause == Cause.wpMigration then .wpm
  else if x.tr && (x.frec.cause == Cause.notPresent || x.frec.cause == Cause.permission) && upfOf s (s.task k).cid then .umber
  else .none

/-- The held sub-warps of a thread, in the order in which they parked. -/
def reportHeld (tid : Nat) : Nat → State → State
  | 0, s => s
  | fuel + 1, s =>
    let t := s.thread tid
    match (t.lanes.filter fun x => x.hold == .spec).foldl (fun a x => some (match a with
        | some n => min n x.sub
        | none => x.sub)) (none : Option Nat) with
    | none => s
    | some n =>
      let mine := laneIds.filter fun i => match t.lanes[i]? with
        | some x => x.hold == .spec && x.sub == n
        | none => false
      let hold := fun i => heldNow s (taskOf tid) (t.lanes.getD i {})
      let s := s.onThread tid fun t => { t with lanes := mapMask (maskBy mine) (fun i x => { x with hold := hold i }) t.lanes }
      let s := if mine.any fun i => hold i == .umber then { s with faultq := s.faultq ++ [(tid, n)] } else s
      let now := mine.filter fun i => hold i == .none
      reportHeld tid fuel (if now.isEmpty then s else reportFault tid (maskBy now) s)

/-- A live task of a committed root goes on as an ordinary task (R133); the faults held for it, a fatal one among them, take effect
(R128). -/
def commitTask (n k : Nat) (s : State) : State :=
  let s := if (s.task k).ident then countCommit n s else s
  let held := (s.task k).heldFatal
  let s := s.onTask k fun t =>
    { t with tag := none, ent := t.ent.map fun e => { e with tag := none, counted := t.ident }
             heldFatal := [] }
  let s := if held.isEmpty then s else addCauses k (held.map fun c => { c with time := s.time }) s
  finishStageFault k ((s.tids k).foldl (fun s i => reportHeld i 64 s) s)

/-- The merge of a sector's bytes; a block exponent takes its place in the sideband, and what is poisoned stays so (R131, R265,
R466). -/
def mergeSector (n : Nat) (s : State) (x : Sector) : State :=
  let s := x.bytes.foldl (fun s b => if b.1 < 2 ^ 52 then homeWriteOf (some n) b.1 1 b.2.toNat s else setExp (b.1 - 2 ^ 52) b.2.toNat s) s
  { s with poison := x.bad ++ s.poison }

/-- The held completions in turn: each is applied to a future that is EMPTY, dropped at another, and abandoned or waited for by the
cause of its address (R42, R131, R483); those that wait remain. -/
def applyMerges (n : Nat) : List SpecFut → State → State × List SpecFut
  | [], s => (s, [])
  | f :: l, s =>
    match completeQuiet (some n) f.cid f.va f.state f.cause f.value f.aux f.pwid s with
    | (s, true) => applyMerges n l s
    | (s, false) => let r := applyMerges n l s
      (r.1, f :: r.2)

/-- A root that was done: its outcome counts as an identifier's does, or it is squashed (R132, R138, R441 to R443). -/
def settleRoot (n : Nat) (truth : List Nat) (s : State) (d : DoneRoot) : State :=
  let l := s.launch n
  if isCommitted l truth d.root then
    if d.ident then countIdent n d.wid.toNat (match d.out with
      | .full _ => none
      | .faulted c _ => some c) (countCommit n s)
    else s
  else
    let s := if d.ident then countSquash n s else s
    oweSquash n d.future d.root s

/-! Tails (R134, R476). -/

/-- The sub-box of level `j`: its first fields and its extents. -/
def tailBox (p e : List Nat) (j : Nat) : List Nat × List Nat :=
  ((List.range e.length).map fun k => if k = j then p.getD k 0 else 0,
   (List.range e.length).map fun k => if k < j then e.getD k 0 else if k = j then e.getD k 0 - p.getD k 0 else min (p.getD k 0) (e.getD k 0))

/-- The levels that have identifiers beyond the prediction. -/
def tailLevels (p e : List Nat) : List Nat :=
  (List.range e.length).filter fun j => p.getD j 0 < e.getD j 0 && boxSize (tailBox p e j).2 != 0

def tailEnt (n j id : Nat) (l : Launch) (e : List Nat) : Ent :=
  let b := tailBox l.box e j
  { id := id, launch := some n
    kind := .tail n 0 (boxSize b.2) (BitVec.ofNat 64 (idJoin l.widths b.1)) (BitVec.ofNat 64 (idJoin l.widths (b.2.map (· - 1)))) }

/-- TAIL_LAUNCH: the tail ranges in level order over the partition's cores (R134). -/
def issueTails (n : Nat) (e : List Nat) (s : State) : State :=
  let l := s.launch n
  let cores := l.partition.filter fun c => !(s.core c).lost
  (tailLevels l.box e).zipIdx.foldl (fun s x =>
    let core := cores.getD (x.2 % max 1 cores.length) 0
    let r := s.fresh
    let t := tailEnt n x.1 r.1 l e
    let size := boxSize (tailBox l.box e x.1).2
    let s := { r.2 with stail := r.2.stail + BitVec.ofNat 64 size }
    let s := s.setLaunch n { s.launch n with tail := (s.launch n).tail + size, pendingTails := (s.launch n).pendingTails ++ [(core, t)] }
    pushTails core n s) s

/-! The three events (R130, R135, R137). -/

/-- The SQUASHED futures that a launch still owes, each written or abandoned (R132, R483). -/
def writeSquashes (n cid : Nat) : List (Nat × W64) → State → State × List (Nat × W64)
  | [], s => (s, [])
  | p :: l, s =>
    match squashFuture cid p.1 p.2 s with
    | (s, true) => writeSquashes n cid l s
    | (s, false) => let r := writeSquashes n cid l s
      (r.1, p :: r.2)

/-- Step 3 of R130, as far as nothing waits: the completions of committed tasks, then the SQUASHED futures. -/
def payCompletions (n : Nat) (s : State) : State :=
  let r := applyMerges n (s.launch n).merges s
  let s := r.1.setLaunch n { r.1.launch n with merges := r.2 }
  if !r.2.isEmpty then s
  else
    let q := writeSquashes n (s.launch n).cid (s.launch n).squashes s
    q.1.setLaunch n { q.1.launch n with squashes := q.2 }

/-- Step 3 is over. -/
def paid (s : State) (n : Nat) : Bool := (s.launch n).merges.isEmpty && (s.launch n).squashes.isEmpty

/-- SPECULATIVE_SQUASH and SPECULATIVE_COMMIT, by a true shape, or with none so that every root is surplus: steps 1 to 3 of R130, as
far as no completion waits. -/
def settleLaunch (n : Nat) (truth : List Nat) (s : State) : State :=
  match (s.launch n).tag with
  | none => s
  | some tag =>
    let l := s.launch n
    let live := taggedTasks s tag
    let stays := fun k => isCommitted l truth (s.task k).root
    let s := s.setLaunch n
      { l with truth := truth, st := if truth.isEmpty then .squashing else .resolving, doneRoots := [], merges := mergeFutures s l tag truth }
    let s := sortDeques n tag truth s
    let s := (live.filter fun k => !stays k).foldl (fun s k => stopTask n k s) s
    let s := (mergeSectors s l tag truth).foldl (mergeSector n) s
    let s := { s with spec := s.spec.filter fun x => x.tag != tag, specFut := s.specFut.filter fun x => x.tag != tag }
    let s := payCompletions n (l.doneRoots.foldl (settleRoot n truth) s)
    (live.filter stays).foldl (fun s k => commitTask n k s) s

def askLines (ls : List Nat) (s : State) : State :=
  ls.foldl (fun s x => if (s.l2line x).host then s.onL2 x fun y => { y with biWait := true } else s) s

/-- Step 4 of R130, once step 3 is over; then the launch drains (R137). -/
def endResolution (n : Nat) (s : State) : State :=
  if (s.launch n).st == .resolving && paid s n then
    let s := issueTails n (s.launch n).truth s
    s.setLaunch n { s.launch n with st := .draining }
  else s

def shapeResolution (n : Nat) (s : State) : State :=
  let l := s.launch n
  if l.st != .resolving then s
  else if !l.truth.isEmpty then endResolution n (payCompletions n s)
  else
    let e := shapeExt s l
    if shapeBad l e then
      settleLaunch n [] ({ s with sinval := s.sinval + 1 }.setLaunch n { l with status := 2 })
    else
      let ls := mergeLines s l (l.tag.getD 0) e
      if !mergeReady s ls then askLines ls s
      else endResolution n (pushShape l e (settleLaunch n e s))

def execShapeResolution (l : Nat) (s : State) : Host.Outcome State Fault Refusal := .next (shapeResolution l s)

def execShapeTimeout (l : Nat) (s : State) : Host.Outcome State Fault Refusal :=
  .next (let x := s.launch l
    if x.st == .speculating && x.deadline ≤ s.time then
      settleLaunch l [] ({ s with stmo := s.stmo + 1 }.setLaunch l { x with status := 1 })
    else s)

/-- A core without the lines of a tag. -/
def dropTag (t : Nat) (c : Nat × Core) : Nat × Core :=
  (c.1, { c.2 with l1 := c.2.l1.filter fun y => y.tag != some t })

/-- A launch whose roots were all squashed drains once their futures have been written (R132, R137). -/
def endSquashing (n : Nat) (s : State) : State :=
  let s := payCompletions n s
  if paid s n then s.setLaunch n { s.launch n with st := .draining } else s

end Sys2Proof.Machine
end

