-- ==== Sys2Proof/Machine/Packets.lean ====
section
/-!
DEFINITION. The front end: notifies, reading and checking packets, arbitration, the packets of each type, launches from
their checks to their seeding, and their completion (R29, R40, R99 to R113, R115, R118 to R120, R407, R440 to R443, R485).
-/
namespace Sys2Proof.Machine

/-! Notifies and error slots (R108). -/

def execQsNotify (qid : Nat) (s : State) : Host.Outcome State Fault Refusal := .next (notify (qid % 2 ^ 12) s)

def execQsErrslotClear (m : W32) (s : State) : Host.Outcome State Fault Refusal :=
  .next { s with errslot := s.errslot &&& ~~~m }

/-! Reading and checking (R100, R101, R103, R105, R106, R113). -/

/-- The bytes of a list from an offset up to another are 0. -/
def zeroBytes (b : List W8) (lo hi : Nat) : Bool := ((b.drop lo).take (hi - lo)).all (· == 0)

/-- Errors 0x01 to 0x06 of a header, in order (R103). -/
def headerError (w index cid : Nat) (ext : Bool) : Nat :=
  let ty := w % 256
  let fl := w / 2 ^ 8 % 256
  if w / 2 ^ 48 % 256 ≠ hchk w then 1
  else if w / 2 ^ 32 % 2 ^ 16 ≠ index % 2 ^ 16 then 2
  else if w / 2 ^ 16 % 2 ^ 12 ≠ cid then 3
  else if 7 < ty then 4
  else if fl / 16 ≠ 0 || w / 2 ^ 28 % 16 ≠ 0 || (ty ≠ 1 && fl / 2 % 4 ≠ 0) then 5
  else if ty = 2 && !ext then 6
  else 0

/-- COPY's and FILL's reserved bytes and codes, which fault the packet's future (R105, R301). -/
def transferBad (b : List W8) : Bool :=
  if fieldAt b 0 1 = 3 then
    let w := fieldAt b 0x20 8
    !zeroBytes b 0x30 0x40 || !cmdOk w || cmdKind w ≠ 0 || cmdSpf w || cmdSpt w
  else !zeroBytes b 0x21 0x28 || !zeroBytes b 0x30 0x40 || !List.contains [1, 2, 4, 8] (fieldAt b 0x20 1)

/-- The FUTURE of a COPY or a FILL lies at the same offset in both (R105). -/
def transferFuture (b : List W8) : Nat := fieldAt b 0x28 8

/-- Errors 0x05, 0x09 and 0x0A of a packet's body (R105, R106, R113). A nonzero reserved byte of a FENCE raises 0x05, though R105
names other packets only (log 56). -/
def bodyError (b : List W8) : Nat :=
  match fieldAt b 0 1 with
  | 1 =>
    let d := fieldAt b 0x38 8
    if d ≠ 0 && (2 ^ 52 ≤ d || d % 128 ≠ 0) then 9 else 0
  | 3 | 4 => if transferBad b && transferFuture b = 0 then 5 else 0
  | 5 =>
    let t := fieldAt b 8 8
    let op := fieldAt b 0x18 1
    if 2 < op || !List.contains [4, 5] (fieldAt b 0x19 1) || !zeroBytes b 0x1A 0x40 then 5
    else if 2 ^ 52 ≤ t || t % (if op = 2 then 32 else 8) ≠ 0 then 0xA
    else 0
  | 6 => if 3 < fieldAt b 0x20 1 || !zeroBytes b 0x21 0x24 || !zeroBytes b 0x28 0x40 then 5 else 0
  | 7 => if zeroBytes b 8 0x40 then 0 else 5
  | _ => 0

/-- What the front end finds at a slot. -/
inductive Found where
  | idle
  | wait
  | error (code index : Nat)
  | packet (b ext : List W8)
  deriving DecidableEq, Repr

/-- The LAUNCHX of a LAUNCH with CONT (R100, R103). -/
def readExt (q : Queue) (i : Nat) (b : List W8) (s : State) : State × Found :=
  match hubRead q.cid (slotVa (qRbase s q) (qLog2n s q) (i + 1)) 64 s with
  | (s, _, .wait) => (s, .wait)
  | (s, _, .fault _ _) => (s, .error 7 (i + 1))
  | (s, x, .none) =>
    if fieldAt x 7 1 ≠ 0xA5 || fieldAt x 0 1 ≠ 2 then (s, .error 6 i)
    else
      let e := headerError (fieldAt x 0 8) (i + 1) q.cid true
      if e ≠ 0 then (s, .error e (i + 1))
      else if bodyError b ≠ 0 then (s, .error (bodyError b) i)
      else (s, .packet b x)

/-- The slot at RDIDX (R100). -/
def readSlot (q : Queue) (i : Nat) (s : State) : State × Found :=
  match hubRead q.cid (slotVa (qRbase s q) (qLog2n s q) i) 64 s with
  | (s, _, .wait) => (s, .wait)
  | (s, _, .fault _ _) => (s, .error 7 i)
  | (s, b, .none) =>
    if fieldAt b 7 1 ≠ 0xA5 then (s, .idle)
    else
      let e := headerError (fieldAt b 0 8) i q.cid false
      if e ≠ 0 then (s, .error e i)
      else if fieldAt b 0 1 = 1 && (fieldAt b 1 1).testBit 2 then readExt q i b s
      else if bodyError b ≠ 0 then (s, .error (bodyError b) i)
      else (s, .packet b [])

/-- The packets of a queue that have been read and have not completed. -/
def queuePkts (s : State) (qid : Nat) : List (Nat × Pkt) := s.packets.filter fun e => e.2.qid == qid

/-- The header word of a slot becomes 0 (R100). -/
def clearSlot (q : Queue) (i : Nat) (s : State) : State :=
  match walkAddr s q.cid (slotVa (qRbase s q) (qLog2n s q) i) .write with
  | .inl pa => homeWrite pa 8 0 s
  | .inr _ => countBad q.cid (slotVa (qRbase s q) (qLog2n s q) i) s

/-- The slots of a packet are consumed: headers to 0, then RDIDX with a release store (R100). -/
def consumeSlots (q : Queue) (i n : Nat) (s : State) : State :=
  setQcb q 0x18 8 ((i + n) % 2 ^ 64) ((List.range n).foldl (fun s j => clearSlot q (i + j) s) s)

/-- The pages of the slots and of RDIDX accept the writes of a consumption, and RDIDX may be released behind the headers: no lease and
no copy of the host's is left on the slots (R100, R292, R446, log 21). -/
def consumeReady (q : Queue) (i n : Nat) (s : State) : State × Stop :=
  match writable q.cid [q.qcb + 0x18] s with
  | (s, .none) => slotsReady q.cid ((List.range n).map fun j => slotVa (qRbase s q) (qLog2n s q) (i + j)) s
  | r => r

/-- The packet of a queue that may start: none before it is unstarted, a WAIT is not pending, and a BARRIER packet and a
FENCE have nothing before them (R106, R107); the 17th launch, and a speculative one without a free tag, wait (R111). -/
def startable (s : State) (qid : Nat) : Option Nat :=
  let q := s.queue qid
  let ps := queuePkts s qid
  match ps.find? fun e => !e.2.started with
  | none => none
  | some (p, x) =>
    if q.slot.isNone || q.heldWait.isSome then none
    else if (x.barrier || x.kind == 7) && ps.any (fun e => e.2.index < x.index) then none
    else if x.kind == 1 && (16 ≤ q.inFlight || (fieldAt x.bytes 0x28 8 != 0 && s.tags == BitVec.allOnes 64)) then none
    else some p

/-- The wait of a queue begins when its packet becomes ready to start (R109). -/
def readyFrom (old s : State) : State :=
  { s with queues := s.queues.map fun e =>
      if (startable old e.1).isNone && (startable s e.1).isSome then (e.1, { e.2 with w := s.time }) else e }

/-- A packet has been read; a WAIT stays in its slot until its condition holds (R100, R107, log 29). A LAUNCHX completes with its
LAUNCH, and its BARRIER and INTR act with those of the LAUNCH (R100, R101). The slot's wait begins when it becomes ready (R109). -/
def enterPacket (qid i : Nat) (b ext : List W8) (s : State) : State :=
  let q := s.queue qid
  let r := s.fresh
  let fl := fieldAt b 1 1
  let p : Pkt := { qid := qid, index := i, addr := slotVa (qRbase s q) (qLog2n s q) i, kind := fieldAt b 0 1
                   barrier := fl.testBit 0 || (fieldAt ext 1 1).testBit 0, intr := fl.testBit 3
                   intrx := (fieldAt ext 1 1).testBit 3, bytes := b, ext := ext }
  let s := readyFrom s { r.2 with packets := tput r.2.packets r.1 p }
  if p.kind = 6 then s else consumeSlots q i (if ext.isEmpty then 1 else 2) s

/-- The front end reads a mapped queue's ring at RDIDX (R100); a queue whose ERR is nonzero consumes nothing (R103), and
the next packet is read once every packet read before has started (log 29). It is entered only when its slots and RDIDX can be
written: a migration is waited for, and another fault stops the queue as one of the slot does (R292, log 29). -/
def queueConsume (slot : Nat) (s : State) : State :=
  match (tget {} s.slots slot).qid with
  | none => s
  | some qid =>
    let q := s.queue qid
    if q.idle || q.send || q.dying || q.heldWait.isSome || q.errOwed.isSome || (queuePkts s qid).any (fun e => !e.2.started) then s
    else
    let s := countBad q.cid q.qcb s
    if qErr s q ≠ 0 then s.onQueue qid fun q => { q with idle := true }
    else
      let i := qRdidx s q
      match readSlot q i s with
      | (s, .wait) => s
      | (s, .idle) => s.onQueue qid fun q => { q with idle := true, stopped := false }
      | (s, .error c j) => packetError qid c j s
      | (s, .packet b x) =>
        match (if fieldAt b 0 1 = 6 then (s, Stop.none) else consumeReady q i (if x.isEmpty then 1 else 2) s) with
        | (s, .wait) => s
        | (s, .fault _ _) => packetError qid 7 i s
        | (s, .none) => enterPacket qid i b x (s.onQueue qid fun q => { q with stopped := false })

def execQueueConsume (slot : Nat) (s : State) : Host.Outcome State Fault Refusal := .next (queueConsume slot s)

/-! Starting packets in index order (R106, R107, R109, R111). -/

def State.pkt (s : State) (p : Nat) : Option Pkt := tfind s.packets p
def State.onPkt (s : State) (p : Nat) (f : Pkt → Pkt) : State :=
  match tfind s.packets p with
  | some x => { s with packets := tput s.packets p (f x) }
  | none => s

/-- Slots with a packet that may start. -/
def readySlots (s : State) : List (Nat × Nat) :=
  (List.range 32).filterMap fun k => match (tget {} s.slots k).qid with
    | some q => if (startable s q).isSome then some (k, q) else none
    | none => none

/-- The slot that the front end serves: the highest effective priority, ties round-robin in slot order (R109). -/
def winner (s : State) : Option (Nat × Nat) :=
  let order := fun (e : Nat × Nat) => slotTurn s e.1
  (readySlots s).foldl (fun a e => match a with
    | none => some e
    | some x =>
      if effPrio s x.2 < effPrio s e.2 then some e
      else if effPrio s x.2 = effPrio s e.2 && order e < order x then some e
      else some x) none

/-- The packet's slot wins, and its waiting time starts again (R109). -/
def won (p kind : Nat) (s : State) : Option (Pkt × State) :=
  match winner s, s.pkt p with
  | some (k, q), some x =>
    if startable s q = some p && x.kind = kind then
      some (x, { s with lastSlot := k }.onQueue q fun y => { y with w := s.time })
    else none
  | _, _ => none

/-- A packet starts when its slot wins. -/
def startPacket (p kind : Nat) (f : Pkt → State → State) (s : State) : Host.Outcome State Fault Refusal :=
  .next (match won p kind s with
    | some (x, s) => f x s
    | none => s)

/-- The packet's effect is complete but for its writes' completion times. -/
def pktDone (p g : Nat) (f : Option (W8 × W64)) (s : State) : State :=
  s.onPkt p fun x => { x with started := true, done := true, gwct := g, fault := f }

def execNopPacket (p : Nat) (s : State) : Host.Outcome State Fault Refusal :=
  startPacket p 0 (fun _ s => pktDone p 0 none s) s

/-- A FENCE starts once every earlier packet has completed, and completes with it: what those packets stored has performed
by their completion (R106, R436). -/
def execFencePacket (p : Nat) (s : State) : Host.Outcome State Fault Refusal :=
  startPacket p 7 (fun _ s => pktDone p 0 none s) s

/-! COPY and FILL (R105, R301, R303). -/

/-- What stops a COPY before it moves a byte: its codes, then checks 2 and 3 of R302. -/
def copyFault (b : List W8) : Option (W8 × W64) :=
  let w := fieldAt b 0x20 8
  let src := fieldAt b 8 8
  let dst := fieldAt b 0x10 8
  let n := fieldAt b 0x18 8
  if transferBad b then some (Cause.reservedField, 0)
  else if !rangeCanonical src n then some (Cause.noncanonical, BitVec.ofNat 64 src)
  else if !rangeCanonical dst (cmdExtent w n) then some (Cause.noncanonical, BitVec.ofNat 64 dst)
  else if cmdCvt w && src % (cmdSizes w).1 ≠ 0 then some (Cause.misaligned, BitVec.ofNat 64 src)
  else if cmdCvt w && dst % (cmdSizes w).2 ≠ 0 then some (Cause.misaligned, BitVec.ofNat 64 dst)
  else if cmdCvt w && n % (cmdSizes w).1 ≠ 0 then some (Cause.misaligned, 0)
  else none

/-- The front end hands the command to the copy engine of a core that has a free command slot (R105, R302). -/
def execCopyPacket (p core : Nat) (s : State) : Host.Outcome State Fault Refusal :=
  .next (if Config.cores ≤ core || (s.core core).lost || 64 ≤ (s.core core).cpy.length then s
    else match won p 3 s with
      | none => s
      | some (x, s) =>
        match copyFault x.bytes with
        | some f => pktDone p 0 (some f) s
        | none =>
          let r := s.fresh
          let b := x.bytes
          let c : CpyCmd := { id := r.1, tid := none, pkt := some p, cid := (s.queue x.qid).cid, kind := 0
                              cmd := BitVec.ofNat 64 (fieldAt b 0x20 8), src := fieldAt b 8 8, dst := fieldAt b 0x10 8
                              count := fieldAt b 0x18 8 }
          (r.2.onCore core fun y => { y with cpy := y.cpy ++ [c] }).onPkt p fun y => { y with started := true, cmd := some core })

/-- The bytes of a FILL: the low PWIDTH bytes of PATTERN, repeated. -/
def fillBytes (b : List W8) : List W8 :=
  let w := fieldAt b 0x20 1
  (List.range (fieldAt b 0x10 8)).map fun i => b.getD (0x18 + i % w) 0

def fillPacket (p : Nat) (x : Pkt) (s : State) : State :=
  let b := x.bytes
  let a := fieldAt b 8 8
  let w := fieldAt b 0x20 1
  if transferBad b then pktDone p 0 (some (Cause.reservedField, 0)) s
  else if a % w ≠ 0 || fieldAt b 0x10 8 % w ≠ 0 then pktDone p 0 (some (Cause.misaligned, BitVec.ofNat 64 a)) s
  else
    match hubWrite (s.queue x.qid).cid a (fillBytes b) s with
    | (s, _, .wait) => s
    | (s, g, .fault c v) => pktDone p g (some (c, BitVec.ofNat 64 v)) s
    | (s, g, .none) => pktDone p g none s

def execFillPacket (p : Nat) (s : State) : Host.Outcome State Fault Refusal := startPacket p 4 (fillPacket p) s

/-! SIGNAL (R105). -/

def sigTarget (x : Pkt) : Nat := fieldAt x.bytes 8 8
def sigValue (x : Pkt) : Nat := fieldAt x.bytes 0x10 8

/-- A write that is abandoned: the SIGNAL completes, and the queue stops (R103, R105). -/
def signalLost (p : Nat) (x : Pkt) (s : State) : State := packetError x.qid 0xB x.index (pktDone p 0 none s)

def startSignal (p op : Nat) (f : Pkt → State → State) (s : State) : Host.Outcome State Fault Refusal :=
  .next (match s.pkt p with
    | some x =>
      if fieldAt x.bytes 0x18 1 ≠ op then s
      else match won p 5 s with
        | some (x, s) => f x s
        | none => s
    | none => s)

def execSignalStore (p : Nat) (s : State) : Host.Outcome State Fault Refusal :=
  startSignal p 0 (fun x s =>
    match hubWrite (s.queue x.qid).cid (sigTarget x) (toBytes 8 (sigValue x)) s with
    | (s, _, .wait) => s
    | (s, _, .fault _ _) => signalLost p x s
    | (s, g, .none) => pktDone p g none s) s

/-- The sum is formed at the home in one step; a poisoned word abandons it. -/
def signalAdd (p : Nat) (x : Pkt) (s : State) : State :=
  match hubAt s (s.queue x.qid).cid (sigTarget x) .write with
  | (s, .inr .wait) => s
  | (s, .inr _) => signalLost p x s
  | (s, .inl pa) =>
    if poisoned s pa 8 then signalLost p x s
    else if (s.l2line (lineOf pa)).host then askHost pa 8 s
    else pktDone p (gwctOf s pa) none (homeWrite pa 8 ((homeRead s pa 8 + sigValue x) % 2 ^ 64) s)

def execSignalAtomicAdd (p : Nat) (s : State) : Host.Outcome State Fault Refusal := startSignal p 1 (signalAdd p) s

/-- SOP 2; a packet has no work identifier, and PWID is 0 (R41, R105, log 52). -/
def execSignalCompleteFuture (p : Nat) (s : State) : Host.Outcome State Fault Refusal :=
  startSignal p 2 (fun x s =>
    match completeAt none (s.queue x.qid).cid (sigTarget x) 1 0 (BitVec.ofNat 64 (sigValue x)) 0 0 s with
    | (s, .wait) => s
    | (s, .abandoned c) => signalLost p x (countLost c s)
    | (s, _) => pktDone p 0 none s) s

/-! WAIT (R105, R107). -/

/-- COND on the value read. -/
def waitCond (b : List W8) (v : Nat) : Bool :=
  let m := fieldAt b 0x18 8
  let x := v &&& m
  let y := fieldAt b 0x10 8 &&& m
  match fieldAt b 0x20 1 with
  | 0 => x == y
  | 1 => x != y
  | 2 => y ≤ x
  | _ => v % 256 != 0

/-- The condition as memory stands: an ADDR that cannot be read meets none (log 29). -/
def waitMet (s : State) (x : Pkt) : Bool :=
  match hubRead (s.queue x.qid).cid (fieldAt x.bytes 8 8) (if fieldAt x.bytes 0x20 1 = 3 then 1 else 8) s with
  | (_, v, .none) => waitCond x.bytes (leNat v)
  | _ => false

/-- A WAIT that stays in its slot while its queue stops with an error (R103, R107). -/
def waitError (p : Nat) (x : Pkt) (code : Nat) (s : State) : State :=
  packetError x.qid code x.index ({ s with packets := tdel s.packets p }.onQueue x.qid fun q => { q with heldWait := none })

/-- The condition holds, and the WAIT leaves its slot once the slot's page accepts the write (R100, R102, R292); one that never will
stops the queue, as at any other packet (log 29). -/
def waitEnd (p : Nat) (x : Pkt) (s : State) : State :=
  match consumeReady (s.queue x.qid) x.index 1 s with
  | (s, .wait) => s
  | (s, .fault _ _) => waitError p x 7 s
  | (s, .none) => pktDone p 0 none (consumeSlots (s.queue x.qid) x.index 1 (s.onQueue x.qid fun q => { q with heldWait := none }))

/-- The slot thread reads ADDR; a queue that is not mapped is only watched (R107, R450). -/
def waitTry (p : Nat) (s : State) : State :=
  match s.pkt p with
  | some x =>
    if x.kind = 6 && x.started && !x.done && (s.queue x.qid).slot.isSome && waitMet s x then waitEnd p x s else s
  | none => s

def execWaitPacket (p : Nat) (s : State) : Host.Outcome State Fault Refusal :=
  startPacket p 6 (fun x s =>
    let us := fieldAt x.bytes 0x24 4
    let due := if us = 0 then none else some (s.time + ticksUs s us)
    waitTry p ((s.onPkt p fun y => { y with started := true, deadline := due }).onQueue x.qid
      fun q => { q with heldWait := some p })) s

def execWaitReevaluate (p : Nat) (s : State) : Host.Outcome State Fault Refusal := .next (waitTry p s)

/-- The WAIT stays in its slot and the queue stops (R103, R107). -/
def execWaitTimeout (p : Nat) (s : State) : Host.Outcome State Fault Refusal :=
  .next (match s.pkt p with
    | some x =>
      if x.kind = 6 && x.started && !x.done && x.deadline.any (· ≤ s.time) then
        waitError p x 8 s
      else s
    | none => s)

/-! Completing packets (R101, R102, R105, R440). -/

/-- The packet leaves: the launch count falls, and the host is told with INTR, that of its LAUNCHX too (R101, R440). -/
def removePacket (p : Nat) (x : Pkt) (s : State) : State :=
  let old := s
  let s := { s with packets := tdel s.packets p }
  let s := readyFrom old (if x.kind = 1 then s.onQueue x.qid fun q => { q with inFlight := q.inFlight - 1 } else s)
  let tell := fun (b : Bool) (s : State) => if b then msix (qMsix s (s.queue x.qid)) x.qid s else s
  tell x.intrx (tell x.intr s)

/-- COPY and FILL complete their future (R105), with PWID 0 (R41, log 52), at FUTURE as it stands, a multiple of 32 or not (log 55). -/
def transferEnd (p : Nat) (x : Pkt) (s : State) : State :=
  let n := BitVec.ofNat 64 (fieldAt x.bytes (if x.kind = 3 then 0x18 else 0x10) 8)
  let r := match x.fault with
    | some (c, a) => completeQuiet none (s.queue x.qid).cid (transferFuture x.bytes) 2 c 0 a 0 s
    | none => completeQuiet none (s.queue x.qid).cid (transferFuture x.bytes) 1 0 n 0 0 s
  if r.2 then removePacket p x r.1 else r.1

/-- A COPY's command has completed; a core that is lost takes its command with it (R413). -/
def copyEnded (p : Nat) (x : Pkt) (s : State) : Option State :=
  match x.cmd with
  | none => some s
  | some c =>
    match (s.core c).cpy.find? fun y => y.pkt == some p with
    | some y =>
      if y.state = 2 then
        some ((s.onCore c fun z => { z with cpy := z.cpy.filter fun y => y.pkt != some p }).onPkt p
          fun x => { x with cmd := none, done := true, fault := y.fault })
      else none
    | none => some ((countLost Cause.fabricLost s).onPkt p fun x => { x with cmd := none, done := true, fault := some (Cause.fabricLost, 0) })

def packetComplete (p : Nat) (s : State) : State :=
  match s.pkt p with
  | none => s
  | some x =>
    match (if x.kind = 3 && x.started then copyEnded p x s else some s) with
    | none => s
    | some s =>
      match s.pkt p with
      | none => s
      | some x =>
        if !x.done || !(x.gwct = 0 || x.gwct < s.time) then s
        else if x.kind = 3 || x.kind = 4 then transferEnd p x s
        else removePacket p x s

def execPacketComplete (p : Nat) (s : State) : Host.Outcome State Fault Refusal := .next (packetComplete p s)

/-! The operating point (R110, R470). -/

/-- The lowest-numbered point that a running launch requests. -/
def requestedOp (s : State) : Option Nat :=
  s.launches.foldl (fun a e =>
    if e.2.st == .complete || 8 ≤ e.2.vf then a
    else some (match a with
      | some n => min n e.2.vf
      | none => e.2.vf)) none

/-- The running point: the larger-numbered of the requested point and the power point (R470). -/
def targetOp (s : State) : Nat := match requestedOp s with
  | some n => max n s.ppoint
  | none => s.ppoint

/-- A change of the point settles before it takes effect. -/
def retarget (s : State) : State := { s with settling := s.settling || targetOp s != s.op }

/-- The running point is credited with the time up to now (R468). -/
def creditPoint (s : State) : State :=
  let l := s.life.now
  { s with life := { s.life with now := { l with opTicks := tputD 0 l.opTicks s.op (tget 0 l.opTicks s.op + (s.time - s.life.since)) }
                                 since := s.time } }

/-- The regulator reports settled (R110). -/
def execVfSettle (s : State) : Host.Outcome State Fault Refusal :=
  .next { creditPoint s with op := targetOp s, settling := false
                             launches := s.launches.map fun e => (e.1, { e.2 with vfWait := false }) }

/-! Launch checks (R25, R26, R29, R40, R110, R111, R115, R485). -/

/-- A LAUNCH with its LAUNCHX as read. -/
structure LReq where
  pkt : Pkt
  entry : Nat
  closure : Nat
  ww : Nat
  ext : Nat
  shape : Nat
  teamcfg : Nat
  hint : Nat
  done : Nat
  lb : Nat
  arena : Nat
  aslot : Nat
  stimeout : Nat
  gsize : Nat
  pmask : Nat
  gang : Bool
  deriving DecidableEq, Repr

def reqOf (x : Pkt) : LReq :=
  let b := x.bytes
  let e := x.ext
  { pkt := x, entry := fieldAt b 8 8, closure := fieldAt b 0x10 8, ww := fieldAt b 0x18 8, ext := fieldAt b 0x20 8
    shape := fieldAt b 0x28 8, teamcfg := fieldAt b 0x30 4, hint := fieldAt b 0x34 4, done := fieldAt b 0x38 8
    lb := fieldAt e 8 8, arena := fieldAt e 0x10 8, aslot := fieldAt e 0x18 4, stimeout := fieldAt e 0x1C 4
    gsize := fieldAt e 0x20 1, pmask := fieldAt e 0x28 8, gang := (fieldAt b 1 1).testBit 1 }

def LReq.nlev (r : LReq) : Nat := r.ww / 2 ^ 36 % 8
def LReq.width (r : LReq) (j : Nat) : Nat := r.ww / 2 ^ (6 * j) % 64
def LReq.widths (r : LReq) : List Nat := (List.range r.nlev).map r.width
def LReq.bits (r : LReq) : Nat := r.widths.foldl (· + ·) 0
def LReq.extents (r : LReq) : List Nat := (idFields r.widths r.ext).map (· + 1)
def LReq.total (r : LReq) : Nat := boxSize r.extents

/-- Row 1 of R485. A non-speculative launch whose lower-bound word has a bit above the last level is refused too: R29 and R485 list the
check for every launch, and R28 says that such a launch ignores the word; the model's choice (log 73). -/
def widthsBad (r : LReq) : Bool :=
  r.nlev == 0 || 6 < r.nlev || r.widths.any (· == 0) || 64 < r.bits || r.ww / 2 ^ 39 != 0 ||
  r.ww % 2 ^ 36 / 2 ^ (6 * r.nlev) != 0 || r.ext / 2 ^ r.bits != 0 || r.lb / 2 ^ r.bits != 0

/-- Row 2. -/
def fieldsBad (r : LReq) : Bool :=
  let e := r.pkt.ext
  9 ≤ r.hint % 16 || r.teamcfg / 2 ^ 28 != 0 || r.hint / 2 ^ 18 != 0 || !zeroBytes e 0x21 0x28 || !zeroBytes e 0x30 0x40 ||
  r.pmask / 2 ^ 36 != 0 || 448 < r.teamcfg / 2 ^ 8 % 2 ^ 9 || 1024 < r.teamcfg / 2 ^ 17 % 2 ^ 11

/-- Row 3. -/
def gangBad (r : LReq) : Bool :=
  r.gang && (r.pkt.ext.isEmpty || r.gsize == 0 || 16 < r.gsize || r.total % r.gsize != 0 || r.teamcfg % 8 == 0 || r.shape != 0)

/-- Row 4. -/
def specBad (r : LReq) : Option W8 :=
  if r.shape = 0 then none
  else if 2 ^ 52 ≤ r.shape then some Cause.noncanonical
  else if r.shape % 32 ≠ 0 then some Cause.misaligned
  else if r.arena % 128 ≠ 0 then some Cause.misaligned
  else if (r.arena ≠ 0 && r.aslot = 0) || r.aslot % 128 ≠ 0 then some Cause.reservedField
  else if r.widths.any (32 < ·) then some Cause.reservedField
  else none

/-- The partition (R111): a mask of 0 selects everything, and a lost core is never selected (R413). -/
def partition (s : State) (cid pmask : Nat) : List Nat :=
  let dm := pmask % 2 ^ 8
  let lm := pmask / 2 ^ 8 % 2 ^ 28
  (List.range Config.cores).filter fun c =>
    (s.ctx cid).cores.contains c && !(s.core c).lost && (dm == 0 || dm.testBit (c / 28)) && (lm == 0 || lm.testBit (c % 28))

/-- Row 5. -/
def partitionBad (r : LReq) (p : List Nat) : Bool :=
  p.isEmpty || (r.gang && (List.range Config.dies).all fun d => (p.filter fun c => c / 28 == d).length < r.gsize)

/-- Rows 1 to 5, in order. -/
def earlyRefusal (s : State) (cid : Nat) (r : LReq) : Option W8 :=
  if widthsBad r || fieldsBad r || gangBad r then some Cause.reservedField
  else match specBad r with
    | some c => some c
    | none => if partitionBad r (partition s cid r.pmask) then some Cause.reservedField else none

/-- The template with the launch's own team configuration (R24). -/
def launchImage (cfg : Nat) (b : List W8) : List W8 :=
  b.take 0x1B ++ [BitVec.ofNat 8 cfg] ++ toBytes 2 (4 * (cfg / 2 ^ 8 % 2 ^ 9)) ++ toBytes 2 (cfg / 2 ^ 17 % 2 ^ 11) ++ b.drop 0x20

/-- Rows 6 and 7. -/
def templateBad (r : LReq) (img : List W8) : Option W8 :=
  match closureFault none img with
  | some c => some c
  | none =>
    if clEntry img != BitVec.ofNat 64 r.entry then some Cause.reservedField
    else if clFuture img != 0 && 2 ^ 52 ≤ (clFuture img).toNat + 32 * (2 ^ r.bits - 1) then some Cause.noncanonical
    else none

/-! Prediction (R119, R120). -/

/-- The predictor entry of a site, which becomes the most recently used. -/
def lookupSite (slot site : Nat) (s : State) : State × List (List Nat) :=
  let k := tget {} s.slots slot
  match k.predict.find? fun p => p.site == site with
  | some p => ({ s with slots := tput s.slots slot { k with predict := p :: k.predict.filter fun x => x.site != site } }, p.shapes)
  | none => (s, [])

/-- The prediction was taken from the entry. -/
def predHit (mode : Nat) (h : List (List Nat)) : Bool := if mode = 2 then 2 ≤ h.length else 1 ≤ h.length

/-- One predicted extent before the clamp; a held shape with fewer levels counts as 0 at the others (R119, log 57). -/
def predOne (mode j q : Nat) (h : List (List Nat)) : Int :=
  let f := fun (x : List Nat) => (x.getD j 0 : Int)
  match mode, h with
  | 1, a :: _ => f a
  | 2, a :: b :: _ => 2 * f a - f b
  | 3, a :: l => (a :: l).foldl (fun m x => max m (f x)) 0
  | _, _ => q

/-- The predicted extents (R119). -/
def predict (r : LReq) (h : List (List Nat)) : List Nat :=
  let lb := idFields r.widths r.lb
  (List.range r.nlev).map fun j =>
    let hi : Int := min (2 ^ r.width j) (2 ^ 32 - 1)
    (max (max 1 (lb.getD j 0) : Int) (min hi (predOne (r.hint / 2 ^ 16 % 4) j (r.extents.getD j 1) h))).toNat

/-! Acceptance (R112, R115, R118, R121, R407). -/

/-- The launch that a packet makes, before it is known what becomes of it. -/
def newLaunch (s : State) (p : Nat) (r : LReq) : Launch :=
  let q := s.queue r.pkt.qid
  { cid := q.cid, pkt := p, qid := r.pkt.qid, slot := q.slot.getD 0, addr := r.pkt.addr, template := r.closure
    teamcfg := BitVec.ofNat 32 r.teamcfg, widths := r.widths, ext := r.extents, lb := idFields r.widths r.lb, done := r.done
    shape := r.shape, site := r.hint / 2 ^ 4 % 2 ^ 12, mode := r.hint / 2 ^ 16 % 4 }

/-- The launch takes its number; the packet has started. -/
def addLaunch (l : Launch) (s : State) : State :=
  let r := s.fresh
  ((r.2.setLaunch r.1 l).onPkt l.pkt fun x => { x with started := true }).onQueue l.qid fun q => { q with inFlight := q.inFlight + 1 }

/-- A refused launch faults its completion future (R29, R440). -/
def refuse (p : Nat) (r : LReq) (c : W8) (s : State) : State :=
  addLaunch { newLaunch s p r with st := .running, refused := some c } s

/-- One range of the seeding (R112). -/
def seedEnt (n k p total : Nat) : Ent :=
  { id := 0, kind := .range n (k * total / p) ((k + 1) * total / p), launch := some n }

/-- The ranges, core by core; an empty one is not seeded (R112). -/
def seedList (n total : Nat) (part : List Nat) : List (Nat × Ent) :=
  (part.zipIdx.map fun c => (c.1, seedEnt n c.2 part.length total)).filter fun e => (entBounds e.2.kind).1 < (entBounds e.2.kind).2

/-- Ranges that have not been seeded enter their deques, those of a launch accepted during a re-stitch after it (R407); a full one
waits (R146). -/
def pushSeeds (n : Nat) (s : State) : State :=
  if (s.launch n).held then s
  else (s.launch n).seeds.foldl (fun s e =>
    if (s.core e.1).lost then s
    else
      let r := s.fresh
      match pushHot e.1 { e.2 with id := r.1 } r.2 with
      | some s => s.setLaunch n { s.launch n with seeds := (s.launch n).seeds.filter fun x => x != e }
      | none => s) s

/-- A launch that passed its checks: its requested point, and its seeding (R110, R112). -/
def accept (l : Launch) (units : Nat) (vf : Nat) (s : State) : State :=
  let n := s.nextId
  let old := (requestedOp s).getD s.ppoint
  let s := addLaunch { l with vf := vf, seeds := seedList n units l.partition, held := s.stitching, vfWait := vf < 8 && vf < old } s
  pushSeeds n (retarget s)

/-- The lowest free tag. -/
def freeTag (s : State) : Option Nat := (List.range 64).find? fun t => !s.tags.getLsbD t

/-- The lowest-numbered predictor mode counts (R142). -/
def countPred (mode : Nat) (h : List (List Nat)) (s : State) : State :=
  if mode = 0 then s
  else if predHit mode h then { s with predhit := s.predhit + 1 } else { s with predfall := s.predfall + 1 }

/-- A speculative launch reads its record, then takes a tag and a prediction (R115, R118, R119, R137); it waits while no
tag is free (R111). -/
def acceptSpec (p : Nat) (r : LReq) (l : Launch) (s : State) : State :=
  match hubRead l.cid r.shape 32 s with
  | (s, _, .wait) => s
  | (s, _, .fault c _) => refuse p r c s
  | (s, b, .none) =>
    match freeTag s, walkAddr s l.cid r.shape .read with
    | some t, .inl pa =>
      let z := lookupSite l.slot l.site s
      let box := predict r z.2
      let units := if r.stimeout = 0 then 1024 else r.stimeout
      accept { l with st := if fieldAt b 0x18 4 = 1 then .resolving else .speculating
                      early := fieldAt b 0x18 4 = 1, box := box, shapePa := pa, arena := r.arena, aslot := r.aslot, tag := some t
                      deadline := s.time + units * 1024 }
        (boxSize box) (r.hint % 16) (countPred l.mode z.2 { z.1 with tags := z.1.tags ||| (1#64 <<< t) })
    | _, _ => s

/-- Rows 6 to 8, then acceptance. -/
def launchTemplate (p : Nat) (r : LReq) (s : State) : State :=
  let cid := (s.queue r.pkt.qid).cid
  if 2 ^ 52 ≤ r.closure then refuse p r Cause.noncanonical s
  else if r.closure % 128 ≠ 0 then refuse p r Cause.misaligned s
  else
    match hubRead cid r.closure 128 s with
    | (s, _, .wait) => s
    | (s, _, .fault c _) => refuse p r c s
    | (s, b, .none) =>
      let img := launchImage r.teamcfg b
      match templateBad r img with
      | some c => refuse p r c s
      | none =>
        let l := { newLaunch s p r with image := img, partition := partition s cid r.pmask }
        if r.shape ≠ 0 then acceptSpec p r l s
        else
          let g := if r.gang then r.gsize else 0
          accept { l with st := .running, box := r.extents, truth := r.extents, gsize := g }
            (r.total / max 1 g) (r.hint % 16) s

/-- The launch of a packet. -/
def launchOfPkt (s : State) (p : Nat) : Option Nat := (s.launches.find? fun e => e.2.pkt == p && e.2.st != .complete).map Prod.fst

def launchPacket (p : Nat) (s : State) : State :=
  match launchOfPkt s p with
  | some n => pushSeeds n s
  | none =>
    match won p 1 s with
    | none => s
    | some (x, s) =>
      match earlyRefusal s (s.queue x.qid).cid (reqOf x) with
      | some c => refuse p (reqOf x) c s
      | none => launchTemplate p (reqOf x) s

def execLaunchPacket (p : Nat) (s : State) : Host.Outcome State Fault Refusal := .next (launchPacket p s)

/-! The freeing of a tag (R121, R137). -/

/-- The tag is freed once every line and entry has left it (R121, R137); a speculative LAUNCH that waited for one is ready now
(R109, R111). -/
def freeTagOf (n : Nat) (s : State) : State :=
  if tagCarried s n then s
  else
    let old := s
    let s := match (s.launch n).tag with
      | some t => { s with tags := s.tags &&& ~~~(1#64 <<< t), cores := s.cores.map (dropTag t) }
      | none => s
    readyFrom old (s.setLaunch n { s.launch n with st := .running, tag := none })

def execSpeculationTagFree (l : Nat) (s : State) : Host.Outcome State Fault Refusal :=
  .next (match (s.launch l).st with
    | .squashing => endSquashing l s
    | .draining => freeTagOf l s
    | _ => s)

/-! Completion of a launch (R440 to R443). -/

def entOf (n : Nat) (e : Ent) : Bool := e.launch == some n

/-- An entry given to this core's thief and not yet placed there (R411). -/
def inFlightTo (s : State) (core n : Nat) (c : Core) : Bool :=
  match c.thief with
  | some a => a.copy.any (entOf n) && (tfind (s.core a.victim).lends core).any fun x => x.tag == a.tag && x.given.isSome
  | none => false

/-- Work of a launch that stands in a deque, in flight to a thief, or is staged, running or swapped out (R440). -/
def launchBusy (s : State) (n : Nat) : Bool :=
  let l := s.launch n
  l.st != .running || !l.seeds.isEmpty || !l.pendingTails.isEmpty ||
  s.cores.any (fun c => (c.2.deque ++ c.2.spill).any (entOf n) || inFlightTo s c.1 n c.2) ||
  s.tasks.any fun t => t.2.launch == some n && (t.2.st == .staged || t.2.st == .running || t.2.st == .swapped)

/-- STATUS (R441, R442). -/
def statusOf (l : Launch) : Nat :=
  if l.refused.isSome then 4 else if l.aborted then 5 else if l.linkDown then 3 else l.status

/-- Linear indices that stand, in rising order, merged into ranges (R443). -/
def mergeRanges : List Nat → List (Nat × Nat)
  | [] => []
  | i :: l => match mergeRanges l with
    | (a, b) :: m => if i + 1 = a then (i, b) :: m else (i, i + 1) :: (a, b) :: m
    | [] => [(i, i + 1)]

def insertNat (n : Nat) : List Nat → List Nat
  | [] => [n]
  | m :: l => if n < m then n :: m :: l else if n = m then m :: l else m :: insertNat n l

def standRanges (l : Launch) : List (Nat × Nat) :=
  let box := if l.truth.isEmpty || l.truth.any (· == 0) then l.box else l.truth
  mergeRanges (l.stands.foldl (fun m w => insertNat (linIndex box (idFields l.widths w)) m) [])

/-- An extent word, with 0 for an extent of 0. -/
def extWord (l : Launch) (e : List Nat) : Nat := idJoin l.widths (e.map (· - 1))

def zmask (l : Launch) : Nat :=
  if l.truth.isEmpty then 2 ^ l.widths.length - 1
  else (List.range l.truth.length).foldl (fun m j => if l.truth.getD j 0 = 0 then m + 2 ^ j else m) 0

/-- The completion record (R441). -/
def recordBytes (l : Launch) : List W8 :=
  let st := statusOf l
  if st = 4 then toBytes 8 4 ++ List.replicate 56 0
  else
    toBytes 8 (st + zmask l * 2 ^ 8 + l.nrange % 2 ^ 32 * 2 ^ 16) ++ toBytes 8 (extWord l l.box) ++
    toBytes 8 (if l.truth.isEmpty then 0 else extWord l l.truth) ++ toBytes 8 l.retired ++ toBytes 8 l.faulted ++
    toBytes 4 (min l.commit (2 ^ 32 - 1)) ++ toBytes 4 (min l.squash (2 ^ 32 - 1)) ++ toBytes 8 l.tail ++ toBytes 8 l.rangeAt

/-- The outcome of the completion future (R442): STATE, CAUSE, VALUE, AUX. -/
def launchOutcome (l : Launch) : Nat × W8 × W64 × W64 :=
  match statusOf l with
  | 0 => (1, 0, BitVec.ofNat 64 l.faulted, 0)
  | 1 => (2, Cause.shapeTimeout, 0, BitVec.ofNat 64 l.shape)
  | 2 => (2, Cause.reservedField, 0, BitVec.ofNat 64 l.shape)
  | 3 => (2, Cause.linkDown, 0, BitVec.ofNat 64 l.rangeAt)
  | 4 => (2, l.refused.getD 0, 0, BitVec.ofNat 64 l.addr)
  | _ => (2, Cause.aborted, 0, BitVec.ofNat 64 l.rangeAt)

/-- RANGE_LIST_WRITE: Umber allocates memory, maps it in the context at an address of its choosing, and writes the list there; a list
for which there is no memory, or that it cannot write, is left out (R443, log 18). The flag says that it is over. -/
def writeRanges (n : Nat) (s : State) : State × Bool :=
  let l := s.launch n
  let rs := standRanges l
  match umberAlloc l.cid (16 * rs.length) s with
  | (s, none) => (s, true)
  | (s, some a) =>
    match hubWrite l.cid a (rs.flatMap fun x => toBytes 8 x.1 ++ toBytes 8 x.2) s with
    | (s, _, .wait) => (umberFree l.cid a (16 * rs.length) s, false)
    | (s, _, .fault _ _) => (umberFree l.cid a (16 * rs.length) s, true)
    | (s, _, .none) => ({ s with ranges := s.ranges ++ [(l.cid, a, rs.length)] }.setLaunch n { s.launch n with rangeAt := a, nrange := rs.length }, true)

/-- Steps 3 and 4 of R440: the packet completes. -/
def launchEnd (n : Nat) (s : State) : State :=
  let l := s.launch n
  retarget (pktDone l.pkt 0 none (s.setLaunch n { l with st := .complete }))

/-- A write of the record or of the future was abandoned (R113). -/
def doneFailed (n : Nat) (s : State) : State := launchEnd n { s with doneFail := s.doneFail + 1 }

/-- Step 1 of R440: the record. -/
def writeRecord (n : Nat) (s : State) : State :=
  let l := s.launch n
  if l.done = 0 then launchEnd n s
  else
    match hubWrite l.cid (l.done + 0x40) (recordBytes l) s with
    | (s, _, .wait) => s
    | (s, _, .fault _ _) => doneFailed n s
    | (s, g, .none) => s.setLaunch n { s.launch n with recGw := some g }

/-- Step 2: the completion future. -/
def writeDone (n : Nat) (s : State) : State :=
  let l := s.launch n
  let o := launchOutcome l
  match completeAt none l.cid l.done o.1 o.2.1 o.2.2.1 o.2.2.2 0 s with
  | (s, .wait) => s
  | (s, .abandoned c) => doneFailed n (countLost c s)
  | (s, _) => launchEnd n s

def launchComplete (n : Nat) (s : State) : State :=
  let l := s.launch n
  if !thas s.launches n || l.st == .complete then s
  else
    match l.recGw with
    | some g => if g < s.time then writeDone n s else s
    | none =>
      if l.refused.isSome then writeRecord n s
      else if launchBusy s n then s
      else if statusOf l = 3 || statusOf l = 5 then
        let r := if l.rangeAt = 0 then writeRanges n s else (s, true)
        if r.2 then writeRecord n r.1 else r.1
      else writeRecord n s

def execLaunchComplete (l : Nat) (s : State) : Host.Outcome State Fault Refusal := .next (launchComplete l s)

end Sys2Proof.Machine
end

