-- ==== Sys2Proof/Machine/Registers.lean ====
section
/-!
DEFINITION. Register blocks as the host and Umber read and write them, format and landing windows, and shootdowns (R17, R108,
R142, R161, R263, R266, R291, R293, R333, R348, R360, R361, R381, R414, R447, R453, R463, R468, R470, R471).
-/
namespace Sys2Proof.Machine

/-! Shootdowns (R291, R293). -/

/-- Offset bits of a SIZE code; SIZE 3 is the whole context. -/
def shootBits (size : Nat) : Nat := match size with
  | 0 => 16
  | 1 => 25
  | 2 => 34
  | _ => 52

def Shoot.lo (x : Shoot) : Nat := x.va / 2 ^ shootBits x.size * 2 ^ shootBits x.size
/-- An address, or a page, of the context lies in the range. -/
def Shoot.hits (x : Shoot) (cid va n : Nat) : Bool :=
  x.cid == cid && overlaps va n x.lo (2 ^ shootBits x.size)

def execTlbShoot (cid : BitVec 12) (size : BitVec 2) (s : State) : Host.Outcome State Fault Refusal :=
  .next { s with shootReq := s.shootReq + 1
                 shoots := s.shoots ++ [⟨(s.shootReq + 1).toNat, cid.toNat, s.shootVa, size.toNat⟩] }

/-- Lanes of an engine operation that hold a translation. -/
def opLanes : EngKind → List GLane
  | .vgth l _ | .vsct l _ => l
  | _ => []

/-- The ranges of a context that a shootdown concerns: its own, and those of the cached entries that it discards (R291, R293). -/
def shootRanges (s : State) (x : Shoot) : List (Nat × Nat) :=
  let of := fun (l : List TlbEnt) => (l.filter fun e => x.hits e.cid e.va (2 ^ e.bits)).map fun e => (e.va, 2 ^ e.bits)
  (x.lo, 2 ^ shootBits x.size) :: s.cores.flatMap (fun c => of c.2.tlb) ++ s.dieTlb.flatMap fun d => of d.2

/-- Accesses that were translated with a discarded entry and have not performed (R291). -/
def shootHeld (s : State) (x : Shoot) : Bool :=
  let within := fun (cid va n : Nat) => x.cid == cid && (shootRanges s x).any fun r => overlaps va n r.1 r.2
  s.threads.any (fun e =>
    let cid := (s.taskT e.1).cid
    (e.2.flight.any fun a => a.n != 0 && within cid a.va a.n) ||
    e.2.ops.any fun o => !o.done && (opLanes o.kind).any fun g => within cid g.va 4) ||
  s.landing.any fun p => p.open' && within p.cid p.va p.data.length

def keepTlb (x : Shoot) (l : List TlbEnt) : List TlbEnt := l.filter fun e => !x.hits e.cid e.va (2 ^ e.bits)
def keepWalks (x : Shoot) (l : List WalkEnt) : List WalkEnt := l.filter fun e => !x.hits e.cid e.va (2 ^ pageBits (e.level + 1))

/-- No TLB or walk cache of the device holds an entry that covers the range. -/
def dropTlb (x : Shoot) (s : State) : State :=
  { s with cores := s.cores.map (fun (c : Nat × Core) => (c.1, { c.2 with tlb := keepTlb x c.2.tlb }))
           dieTlb := s.dieTlb.map (fun (d : Nat × List TlbEnt) => (d.1, keepTlb x d.2))
           walkCache := s.walkCache.map fun (d : Nat × List WalkEnt) => (d.1, keepWalks x d.2) }

/-- WP_MIGRATION_REPLAY: lanes parked for a page of the range replay (R292). -/
def replayWpm (x : Shoot) (s : State) : State :=
  s.threads.foldl (fun s e =>
    let m := maskBy (laneIds.filter fun i => match e.2.lanes[i]? with
      | some l => l.hold == .wpm && x.hits (s.taskT e.1).cid l.frec.faddr.toNat 1
      | none => false)
    if m = 0 then s else replayLanes e.1 m s) s

/-- A blocked joiner was translated with a discarded entry: its place is walked again, so that the count of the page that has taken the
old one's place is the one that it leaves; where none has, no home counts it (R44, R170, R291). -/
def rejoin (x : Shoot) (s : State) : State :=
  s.threads.foldl (fun s e =>
    let cid := (s.taskT e.1).cid
    match e.2.joined, e.2.wait with
    | some j, .join f _ _ =>
      if !x.hits cid f 1 || j.lapsed then s
      else s.onThread e.1 fun t => { t with joined := some (match walkAddr s cid f .read with
        | .inl pa => { j with pa := pa }
        | .inr _ => { j with lapsed := true }) }
    | _, _ => s) s

/-- The oldest request completes, and what waited for a migration is tried again (R291, R292). -/
def shootdownComplete (s : State) : State :=
  match s.shoots with
  | [] => s
  | x :: l =>
    if shootHeld s x then s
    else settleErrs (replayWpm x (rejoin x { dropTlb x s with shoots := l, shootDone := s.shootDone + 1 }))

def execShootdownComplete (s : State) : Host.Outcome State Fault Refusal := .next (shootdownComplete s)

/-! Windows (R263, R266, R361). -/

def fwinSet (w : FWin) (reg v : Nat) : FWin :=
  match reg with
  | 0 => { w with base := v % 2 ^ 52 / 128 * 128 }
  | 1 => { w with limit := v % 2 ^ 52 / 128 * 128 }
  | 2 => { w with en := v.testBit 0, fmt := v / 2 ^ 8 % 2 ^ 8, blke := v / 2 ^ 16 % 2 ^ 8 }
  | _ => { w with scale := v % 2 ^ 52 }

/-- A write to a window's register: the lines of its range before and after are written back and invalidated first (R266). -/
def execFwinWrite (i reg : Nat) (v : W64) (s : State) : Host.Outcome State Fault Refusal :=
  .next (if 64 ≤ i || 4 ≤ reg then s
    else
      let old := tget {} s.fwin i
      let new := fwinSet old reg v.toNat
      let s := flushRange new.base new.limit (flushRange old.base old.limit s)
      { s with fwin := tput s.fwin i new })

def lwinSet (w : LWin) (reg v : Nat) : LWin :=
  match reg with
  | 0 => { w with en := v.testBit 0, base := v % 2 ^ 52 / 128 * 128 }
  | 1 => { w with limit := v % 2 ^ 52 / 128 * 128 }
  | _ => { w with cid := v % 2 ^ 12 }

def execLwinWrite (i reg : Nat) (v : W64) (s : State) : Host.Outcome State Fault Refusal :=
  .next (if 16 ≤ i || 3 ≤ reg then s
    else
      let old := tget {} s.lwin i
      let new := lwinSet old reg v.toNat
      let s := flushRange new.base new.limit (flushRange old.base old.limit s)
      { s with lwin := tput s.lwin i new })

/-! Plain fields (R5, R108, R161, R293, R360, R414, R447, R453, R470). -/

def writeXsteal (v : Nat) (s : State) : State :=
  let m := v / 2 ^ 8 % 2 ^ 8
  { s with xsEnable := v.testBit 0, xsMinvictim := if m = 0 then s.xsMinvictim else m, xsIdle := v / 2 ^ 16 % 2 ^ 32 }

def writeNbCtl (v : Nat) (s : State) : State :=
  let w := v % 2 ^ 16
  let m := v / 2 ^ 16 % 2 ^ 16
  { s with nbWindow := if w = 0 then s.nbWindow else w, nbMaxsusp := if m = 0 then s.nbMaxsusp else m }

/-- PWR_CTL: a cap out of range is clamped above and ignored below; P stays at or above OPLIM (R470). -/
def writePower (v : Nat) (s : State) : State :=
  let c := v % 2 ^ 16
  let o := v / 2 ^ 16 % 8
  retarget { s with cap := if c < 1000 then s.cap else min c 3000, oplim := o, ppoint := max s.ppoint o }

/-- A RW field without behaviour of its own; other offsets are left alone. -/
def registerWrite (off : Nat) (w : W64) (s : State) : State :=
  let v := w.toNat
  match off with
  | 0x20008 => if v % 2 ^ 32 = 0 then s else { s with ageq := w.setWidth 32 }
  | 0x40000 => writeXsteal v s
  | 0x40008 => if v % 2 ^ 32 < 1024 then s else { s with xsSwap := v % 2 ^ 32 }
  | 0x60000 => { s with ctxBase := v % 2 ^ 52 / 2 ^ 15 * 2 ^ 15 }
  | 0x60008 => { s with shootVa := v % 2 ^ 52 }
  | 0x80000 => writeNbCtl v s
  | 0xB0000 => if v % 2 ^ 32 < 65536 then s else { s with opTimeout := v % 2 ^ 32 }
  | 0xC0000 => { s with mbxOpc := w.setWidth 16 }
  | 0xD0000 => if v % 2 ^ 32 < 100 then s else { s with quantum := v % 2 ^ 32 }
  | 0xF0000 => writePower v s
  | _ =>
    if 0xC0010 ≤ off && off ≤ 0xC0048 && off % 8 = 0 then { s with mbxArg := tputD 0 s.mbxArg ((off - 0xC0010) / 8) w }
    else s

def execRegisterWrite (off : Nat) (v : W64) (s : State) : Host.Outcome State Fault Refusal := .next (registerWrite off v s)

/-! Reads (R5, R6). -/

/-- Fields from bit 0 up: value and width. -/
def pack : List (Nat × Nat) → Nat
  | [] => 0
  | (v, w) :: l => v % 2 ^ w + 2 ^ w * pack l

def boolNat (b : Bool) : Nat := if b then 1 else 0

/-- Capability registers: 0 until the fuses are loaded (R17, R471). -/
def readDev (s : State) (o : Nat) : Nat :=
  let f := fun (v : Nat) => if s.fuses then v else 0
  match o with
  | 0x000 => f (pack [(0x8940, 16), (Config.stepping.toNat, 8), (1, 8)])
  | 0x008 => f (pack [(8, 8), (28, 8), (32, 8), (16, 8), (224, 16), (2, 8)])
  | 0x010 => f (pack [(64, 8), (128, 8), (1024, 16), (1024, 16), (64, 8), (4, 8)])
  | 0x018 => pack [(f 64, 16), (s.hbmMask.toNat, 16), (s.regpoolMin, 16)]
  | 0x020 => f (pack [(940000, 32), (6000, 16), (3000, 16)])
  | 0x028 => pack [(s.ready.toNat, 16), (s.links.toNat, 16), (s.failcode, 8)]
  | _ => 0

/-- Bit `k` set for each slot that holds a queue (R108). -/
def mappedBits (s : State) : Nat :=
  (List.range 32).foldl (fun n k => if ((tget {} s.slots k).qid).isSome then n + 2 ^ k else n) 0

def pendWord (s : State) (i : Nat) : Nat := (List.range 64).foldl (fun n k => if s.doorbell.contains (64 * i + k) then n + 2 ^ k else n) 0

def readQs (s : State) (o : Nat) : Nat :=
  match o with
  | 0x008 => s.ageq.toNat
  | 0x010 => mappedBits s
  | 0x018 => s.errslot.toNat
  | 0x020 => s.doneFail.toNat
  | 0x028 => s.futFail.toNat
  | _ => if 0x100 ≤ o && o < 0x300 then pendWord s ((o - 0x100) / 8) else 0

def readSpec (s : State) (o : Nat) : Nat :=
  match o with
  | 0x000 => s.tags.toNat
  | 0x008 => s.scommit.toNat
  | 0x010 => s.ssquash.toNat
  | 0x018 => s.stail.toNat
  | 0x020 => pack [(s.stmo.toNat, 32), (s.sinval.toNat, 32)]
  | 0x028 => pack [(s.secstall.toNat, 32), (s.waystall.toNat, 32)]
  | 0x030 => pack [(s.predhit.toNat, 32), (s.predfall.toNat, 32)]
  | _ => 0

def readXsteal (s : State) (o : Nat) : Nat :=
  match o with
  | 0x000 => pack [(boolNat s.xsEnable, 8), (s.xsMinvictim, 8), (s.xsIdle, 32)]
  | 0x008 => s.xsSwap
  | 0x010 => s.xsLocal.toNat
  | 0x018 => s.xsRemote.toNat
  | 0x020 => pack [(s.xsFail.toNat, 32), (s.xsRestage.toNat, 32)]
  | 0x028 => pack [(s.xsSpill.toNat, 32), (s.xsSwaps.toNat, 32)]
  | _ => 0

def readFwin (s : State) (o : Nat) : Nat :=
  let w := tget {} s.fwin (o / 0x20)
  match o % 0x20 with
  | 0x00 => w.base
  | 0x08 => w.limit
  | 0x10 => pack [(boolNat w.en, 1), (boolNat (w.en && w.invalid), 1), (0, 6), (w.fmt, 8), (w.blke, 8)]
  | _ => w.scale

def readTlb (s : State) (o : Nat) : Nat :=
  match o with
  | 0x000 => s.ctxBase
  | 0x008 => s.shootVa
  | 0x018 => pack [(s.shootReq.toNat, 32), (s.shootDone.toNat, 32)]
  | 0x020 => s.tlbMiss.toNat
  | 0x028 => pack [(s.tlbCoal.toNat, 32), (s.badPte.toNat, 32)]
  | _ => 0

/-- Matrix counters of a core (R333). -/
def readMatrix (s : State) (o : Nat) : Nat :=
  let c := s.core (o / 0x40)
  match o % 0x40 with
  | 0x00 => c.slices
  | 0x08 => pack [(c.flush, 32), (c.fskips, 32)]
  | 0x10 => pack [(c.drsat, 32), (c.bfpclamp, 32)]
  | 0x18 => pack [(c.nanblk, 32), (c.fmtmis, 32)]
  | _ => 0

/-- Repair telemetry of a core (R463). -/
def readRepair (s : State) (o : Nat) : Nat :=
  let k := o / 0x40
  let c := s.core k
  match o % 0x40 with
  | 0x00 => pack [(siteOf s k, 8), (poolBlocks s k - c.retiredBlks, 7), (0, 1), (c.retiredBlks, 7)]
  | 0x08 => c.cpysat
  | _ => 0

def cnt (s : State) (st i : Nat) : Nat := (tget 0 s.nbCnt (cntKey st i)).toNat

/-- HBM counters of a stack (R348). -/
def readHbm (s : State) (o : Nat) : Nat :=
  let st := o / 0x40
  match o % 0x40 with
  | 0x00 => cnt s st 8
  | 0x08 => cnt s st 9
  | 0x10 => cnt s st 10
  | 0x18 => cnt s st 11
  | _ => 0

/-- Seconds at an operating point, up to now (R468, R469). -/
def opSeconds (s : State) (n : Nat) : Nat :=
  (tget 0 s.life.now.opTicks n + if s.op = n then s.time - s.life.since else 0) / (mhzOf n * 1000000)

/-- Error and lifetime counters (R468). -/
def readErrors (s : State) (o : Nat) : Nat :=
  match o with
  | 0x000 => pack [(s.life.ceCore.toNat, 32), (s.life.ceL2.toNat, 32)]
  | 0x008 => pack [(s.life.ceHbm.toNat, 32), (s.life.ue.toNat, 32)]
  | 0x010 => pack [(s.life.now.resets.toNat, 32), (((List.range 8).map (opSeconds s)).foldl (· + ·) 0 / 3600, 32)]
  | _ =>
    if 0x040 ≤ o && o < 0x080 then opSeconds s ((o - 0x040) / 8) % 2 ^ 64
    else if 0x080 ≤ o && o < 0x100 then (tget 0 s.life.now.tjhist ((o - 0x080) / 8)).toNat
    else 0

/-- Near-bank registers (R360). -/
def readNb (s : State) (o : Nat) : Nat :=
  if o = 0 then pack [(s.nbWindow, 16), (s.nbMaxsusp, 16)]
  else if o < 0x100 then 0
  else
    let st := (o - 0x100) / 0x20
    match (o - 0x100) % 0x20 with
    | 0x00 => cnt s st 0
    | 0x08 => pack [(cnt s st 1, 32), (cnt s st 2, 32)]
    | 0x10 => pack [(cnt s st 3, 32), (cnt s st 4, 32)]
    | _ => 0

def readLwin (s : State) (o : Nat) : Nat :=
  if o = 0x200 then s.lwinDrop.toNat
  else
    let w := tget {} s.lwin (o / 0x20)
    match o % 0x20 with
    | 0x00 => w.base + pack [(boolNat w.en, 1), (boolNat (lwinErr s w), 1)]
    | 0x08 => w.limit
    | 0x10 => w.cid
    | _ => 0

/-- Cerulean counters (R381). -/
def readCer (s : State) (o : Nat) : Nat :=
  let st := o / 0x40
  match o % 0x40 with
  | 0x00 => cnt s st 16
  | 0x08 => cnt s st 17
  | 0x10 => cnt s st 18
  | 0x18 => pack [(cnt s st 19, 32), (cnt s st 20, 32)]
  | 0x20 => pack [(cnt s st 21, 32), (cnt s st 22, 32)]
  | 0x28 => (s.queries.filter fun q => q.2.home == st).length
  | _ => 0

def lclostWord (s : State) (w : Nat) : Nat := (List.range 64).foldl (fun n b => if (s.core (64 * w + b)).lost then n + 2 ^ b else n) 0

/-- Fabric registers (R414). -/
def readFab (s : State) (o : Nat) : Nat :=
  match o with
  | 0x000 => s.opTimeout
  | 0x008 => pack [(boolNat s.stitching, 32), (s.fabGen.toNat, 32)]
  | 0x050 => pack [(s.hcorr.toNat, 32), (s.hdrop.toNat, 32)]
  | 0x058 => s.timeouts.toNat
  | 0x060 => pack [(s.fabNext, 4), (s.fabCount, 60)]
  | _ =>
    if 0x010 ≤ o && o < 0x050 then (tget 0 s.bypass ((o - 0x010) / 8)).toNat
    else if 0x068 ≤ o && o < 0x088 then lclostWord s ((o - 0x068) / 8)
    else if 0x100 ≤ o && o < 0x200 then
      let e := tget ⟨0, 0, 0, 0, 0⟩ s.fabLog ((o - 0x100) / 0x10)
      if o % 0x10 = 0 then e.time % 2 ^ 64 else pack [(e.die, 4), (e.site, 5), (e.link, 3), (e.kind, 4)]
    else 0

/-- Mailbox registers (R447). -/
def readMbx (s : State) (o : Nat) : Nat :=
  match o with
  | 0x000 => s.mbxOpc.toNat
  | 0x008 => pack [(boolNat s.mbxRun.isSome, 8), (s.mbxResult.toNat, 8)]
  | _ => if 0x010 ≤ o && o < 0x050 then (tget 0 s.mbxArg ((o - 0x010) / 8)).toNat else 0

def readUmb (s : State) (o : Nat) : Nat :=
  match o with
  | 0x000 => s.quantum
  | 0x008 => pack [(boolNat s.standby, 1), (boolNat s.slate, 1)]
  | 0x010 => s.maps.toNat
  | _ => 0

/-- The peak of the last millisecond: the level that stood when it began, and those that it has brought since (R470). -/
def peakAmps (s : State) : Nat :=
  let recent := s.amps.takeWhile fun x => s.time < x.1 + ticksUs s 1000
  let before' := (s.amps.drop recent.length).take 1
  (recent ++ before').foldl (fun m x => max m x.2.toNat) 0

def readPwr (s : State) (o : Nat) : Nat :=
  match o with
  | 0x000 => pack [(s.cap, 16), (s.oplim, 3)]
  | 0x008 => pack [(s.op, 3), (boolNat s.settling, 29), (s.watts.toNat, 16), (peakAmps s, 16)]
  | 0x010 => s.skips.toNat
  | _ => 0

/-- The value that the 64-bit register at a BAR0 offset reads; a write-only field reads 0 (R5). -/
def barRead (s : State) (off : Nat) : Nat :=
  let o := off % 2 ^ 16
  match off / 2 ^ 16 with
  | 1 => readDev s o
  | 2 => readQs s o
  | 3 => readSpec s o
  | 4 => readXsteal s o
  | 5 => if o < 0x800 then readFwin s o else 0
  | 6 => readTlb s o
  | 7 =>
    if o < 0x3800 then readMatrix s o
    else if 0x4000 ≤ o && o < 0x7800 then readRepair s (o - 0x4000)
    else if 0x8000 ≤ o && o < 0x8400 then readHbm s (o - 0x8000)
    else if 0x9000 ≤ o then readErrors s (o - 0x9000)
    else 0
  | 8 => if o < 0x300 then readNb s o else 0
  | 9 => if o ≤ 0x200 then readLwin s o else 0
  | 0xA => if o < 0x400 then readCer s o else 0
  | 0xB => readFab s o
  | 0xC => readMbx s o
  | 0xD => readUmb s o
  | 0xF => readPwr s o
  | _ => 0

end Sys2Proof.Machine
end

