-- ==== Sys2Proof/Machine/Umber.lean ====
section
/-!
DEFINITION. Umber: the journal, mapping queues to slots, the mailbox and its commands, translation faults, page migration and
the takeover by Slate (R290, R292, R447 to R453, R457 to R460, R472).
-/
namespace Sys2Proof.Machine

/-! Mapping (R450, R451). -/

/-- The slot state written to QCB.SAVE, whose layout the spec does not give: free bytes (log 18). -/
def writeSave (q : Queue) (s : State) : State :=
  { (List.range 24).foldl (fun s i => setQcb q (0x40 + 8 * i) 8 (Config.freeBits (s.free + i)).toNat s) s with free := s.free + 24 }

/-- The page that SAVE stands in migrates, or the host holds a line of it: a write there waits (R292, R446). -/
def saveWaits (s : State) (qid : Nat) : Bool :=
  let q := s.queue qid
  q.slot.isSome && match walkAddr s q.cid (q.qcb + 0x40) .write with
    | .inr c => c == Cause.wpMigration
    | .inl pa => (linesOf pa 192).any fun l => (s.l2line l).host

/-- The lines of a queue's SAVE that the host holds are asked back (R446). -/
def askSave (qid : Nat) (s : State) : State :=
  let q := s.queue qid
  match walkAddr s q.cid (q.qcb + 0x40) .write with
  | .inl pa => askHost pa 192 s
  | .inr _ => s

/-- A packet of the queue has been read and has its start or its WAIT before it. -/
def hasUnstarted (s : State) (qid : Nat) : Bool := (queuePkts s qid).any fun e => !e.2.started || e.2.kind == 6

/-- Unmapping: the queue's state is saved, its ageing time as a duration; a packet that it has read and not started leaves its pending
bit set, so that it is mapped again (R109, R451, log 61). -/
def unmapQueue (qid : Nat) (s : State) : State :=
  let q := s.queue qid
  match q.slot with
  | none => s
  | some k =>
    let s := writeSave q (jlog jUnmapBegin qid k q.cid 0 s)
    let s := { s with slots := tput s.slots k { (tget {} s.slots k : Slot) with qid := none } }
    let s := if hasUnstarted s qid then ringBell qid s else s
    jlog jUnmapDone qid k q.cid 0 (s.onQueue qid fun q => { q with slot := none, unmapped := s.time, w := s.time - q.w })

/-- Mapping: the predictor is cleared for a different queue, the pending bit is cleared, and the ring is read (R120, R451). -/
def mapQueue (qid k : Nat) (s : State) : State :=
  let q := s.queue qid
  let old := tget {} s.slots k
  let s := jlog jMapBegin qid k q.cid 0 s
  let s := { s with slots := tput s.slots k { qid := some qid, lastQid := some qid, predict := if old.lastQid = some qid then old.predict else [] }
                    doorbell := s.doorbell.filter (· != qid), maps := s.maps + 1 }
  jlog jMapDone qid k q.cid 0 (s.onQueue qid fun q => { q with slot := some k, mapped := s.time, w := s.time - q.w, idle := false })

/-- The slot at RDIDX is published. -/
def published (s : State) (q : Queue) : Bool :=
  match hubRead q.cid (slotVa (qRbase s q) (qLog2n s q) (qRdidx s q)) 8 s with
  | (_, b, .none) => fieldAt b 7 1 == 0xA5
  | _ => false

/-- A WAIT holds the queue. -/
def heldByWait (s : State) (q : Queue) : Bool := q.heldWait.any fun p => (s.pkt p).any fun x => !waitMet s x

/-- A queue is ready (R450); one that is being destroyed only for the packets it has read (R448, log 61). -/
def queueReady (s : State) (qid : Nat) : Bool :=
  let q := s.queue qid
  !q.send && !heldByWait s q &&
  if q.dying then hasUnstarted s qid
  else q.errOwed.isNone && qErr s q == 0 && (published s q || s.doorbell.contains qid)

/-- Queues of a context that can be mapped, or are. -/
def ctxQueues (s : State) (cid : Nat) : List Nat :=
  (s.queues.filter fun e => e.2.cid == cid && !e.2.send && (!e.2.dying || hasUnstarted s e.1 || e.2.slot.isSome)).map Prod.fst
def isMapped (s : State) (qid : Nat) : Bool := (s.queue qid).slot.isSome

/-- The ranking of two queues: ready unmapped before mapped; PRIO; the earliest unmapping, or the latest mapping; QID. -/
def ranksBefore (s : State) (a b : Nat) : Bool :=
  let x := s.queue a
  let y := s.queue b
  match isMapped s a, isMapped s b with
  | false, true => true
  | true, false => false
  | m, _ =>
    if qPrio s x ≠ qPrio s y then qPrio s y < qPrio s x
    else if m then (if x.mapped ≠ y.mapped then y.mapped < x.mapped else a < b)
    else if x.unmapped ≠ y.unmapped then x.unmapped < y.unmapped else a < b

def insertRank (s : State) (a : Nat) : List Nat → List Nat
  | [] => [a]
  | b :: l => if ranksBefore s a b then a :: b :: l else b :: insertRank s a l

/-- A context's queues in rank order: those that are mapped, and those that are ready. -/
def ranking (s : State) (cid : Nat) : List Nat :=
  ((ctxQueues s cid).filter fun q => isMapped s q || queueReady s q).foldl (fun l q => insertRank s q l) []

def freeSlots (s : State) : List Nat := (List.range 32).filter fun k => ((tget {} s.slots k).qid).isNone
def mappedCount (s : State) (cid : Nat) : Nat := ((ctxQueues s cid).filter (isMapped s)).length

/-- The best queues of a context, and the mapped ones that they displace (R450). -/
def bestQueues (s : State) (cid : Nat) : List Nat := (ranking s cid).take (s.ctx cid).quota
def displaced (s : State) (cid : Nat) : List Nat := (ctxQueues s cid).filter fun q => isMapped s q && !(bestQueues s cid).contains q

/-- A context's mapped set becomes the best of its ranking (R450). -/
def quantumCtx (s : State) (cid : Nat) : State :=
  let best := bestQueues s cid
  let s := (displaced s cid).foldl (fun s q => unmapQueue q s) s
  (best.filter fun q => !isMapped s q).foldl (fun s q => match freeSlots s with
    | k :: _ => mapQueue q k s
    | [] => s) s

/-- The quantum boundary, every UMB_QUANTUM (R450); a save whose page migrates, or whose lines the host holds, is waited for first
(R292, R446). -/
def execUmberQuantum (s : State) : Host.Outcome State Fault Refusal :=
  .next (if s.time < s.lastQuantum + ticksUs s s.quantum then s
    else if s.ctxs.any (fun c => (displaced s c.1).any (saveWaits s)) then
      (s.ctxs.flatMap fun c => displaced s c.1).foldl (fun s q => askSave q s) s
    else { (s.ctxs.map Prod.fst).foldl quantumCtx s with lastQuantum := s.time })

/-- The best ready unmapped queue of a context. -/
def bestReady (s : State) (cid : Nat) : Option Nat := (ranking s cid).find? fun q => !isMapped s q

/-- A mapped queue that is idle or held by a WAIT gives its slot to the best ready unmapped queue (R450). -/
def execQueueIdleSwap (qid : Nat) (s : State) : Host.Outcome State Fault Refusal :=
  .next (let q := s.queue qid
    match q.slot, bestReady s q.cid with
    | some k, some b =>
      if !(q.idle || heldByWait s q) then s
      else if saveWaits s qid then askSave qid s
      else mapQueue b k (unmapQueue qid s)
    | _, _ => s)

/-- A ready queue with a slot of its context's quota free is mapped (R450). -/
def execQueueReadyMap (qid : Nat) (s : State) : Host.Outcome State Fault Refusal :=
  .next (let q := s.queue qid
    if !thas s.queues qid || isMapped s qid || !queueReady s qid || (s.ctx q.cid).quota ≤ mappedCount s q.cid then s
    else match freeSlots s with
      | k :: _ => mapQueue qid k s
      | [] => s)

/-! The mailbox (R447). -/

def rOk : W8 := 0
def rBadarg : W8 := 1
def rNoresource : W8 := 2
def rNotfound : W8 := 3
def rDenied : W8 := 4

def readyBit (s : State) (i : Nat) : Bool := s.ready.getLsbD i
/-- The mailbox is live: Umber runs, or the device is in recovery (R459, R471). -/
def mbxLive (s : State) : Bool := readyBit s 1 || readyBit s 8

/-- The codes of R448. -/
def listed (opc : Nat) : Bool := 1 ≤ opc && opc ≤ 9

/-- GO with a code: the command runs with the arguments of that moment, unless another does (R447). -/
def goCommand (opc : Nat) (s : State) : Option State :=
  match s.mbxRun with
  | some (o, _) => if o = opc then some s else none
  | none =>
    if !mbxLive s || s.mbxOpc.toNat ≠ opc then none
    else
      let s := { s with mbxRun := some (opc, s.mbxArg) }
      some (if listed opc then jlog (jBegin opc) 0 0 0 0 s else s)

def argOf (s : State) (i : Nat) : Nat := match s.mbxRun with
  | some (_, a) => (tget 0 a i).toNat
  | none => 0

/-- A command ends: RESULT, BUSY, and MSI-X vector 0 (R447). -/
def endCommand (r : W8) (s : State) : State :=
  match s.mbxRun with
  | some (o, _) =>
    let s := { s with mbxRun := none, mbxResult := r }
    msix 0 0 (if listed o then jlog (jDone o) 0 0 0 0 s else s)
  | none => s

/-- The result of a command in ARG0. -/
def endWith (v : Nat) (s : State) : State := endCommand rOk { s with mbxArg := tputD 0 s.mbxArg 0 (BitVec.ofNat 64 v) }

/-- A command in recovery mode is FW_LOAD, or is denied; a code that is not listed ends with BADARG there too (R448, R459). -/
def runCommand (opc : Nat) (f : State → State) (s : State) : Host.Outcome State Fault Refusal :=
  .next (match goCommand opc s with
    | none => s
    | some s => if readyBit s 8 && listed opc && opc ≠ 9 then endCommand rDenied s else f s)

def addrOk (a align : Nat) : Bool := a < 2 ^ 52 && a % align == 0

/-- CORES, FABRIC and QUEUES are set (R472). -/
def workReady (s : State) : Bool := readyBit s 3 && readyBit s 4 && readyBit s 5

/-- Cores that no context holds. -/
def freeCores (s : State) : List Nat := (List.range Config.cores).filter fun c => (s.core c).ctx.isNone && !(s.core c).lost
def usedQuota (s : State) : Nat := s.ctxs.foldl (fun n e => n + e.2.quota) 0
def freeCid (s : State) : Option Nat := ((List.range 4095).map (· + 1)).find? fun c => !thas s.ctxs c
def freeQid (s : State) : Option Nat := ((List.range 4095).map (· + 1)).find? fun q => !thas s.queues q

/-- The host may hold a copy of a line of a range (R446). -/
def hostIn (s : State) (pa n : Nat) : Bool := s.l2.any fun e => e.2.host && overlaps pa n (128 * e.1) 128
/-- Its copies in a range are asked back (R446). -/
def askRange (pa n : Nat) (s : State) : State :=
  { s with l2 := s.l2.map fun e => if e.2.host && overlaps pa n (128 * e.1) 128 then (e.1, { e.2 with biWait := true }) else e }

/-- A write of Umber's is made once the host holds no copy of its lines (R446). -/
def onceBack (pa n : Nat) (f : State → State) (s : State) : State := if hostIn s pa n then askRange pa n s else f s

/-- The context's entry in the context table (R285). -/
def writeCtxEntry (cid root : Nat) (v upf : Bool) (s : State) : State :=
  homeWrite (s.ctxBase + 8 * cid) 8 ((if v then 1 else 0) + (if upf then 2 else 0) + root) s

/-- CTX_CREATE: the lowest free CID and cores (R448, log 18). -/
def ctxCreate (s : State) : State :=
  let a3 := argOf s 3
  let n := a3 % 2 ^ 16
  let quota := a3 / 2 ^ 16 % 2 ^ 8
  let upf := a3.testBit 24
  if n = 0 || 224 < n || !addrOk (argOf s 0) 65536 || !addrOk (argOf s 1) 4 || !addrOk (argOf s 2) 65536 || !addrOk (argOf s 5) 4096 then
    endCommand rBadarg s
  else if !workReady s || (freeCores s).length < n || 32 < usedQuota s + quota then endCommand rNoresource s
  else match freeCid s with
    | none => endCommand rNoresource s
    | some cid =>
      let mine := (freeCores s).take n
      let c : Ctx := { ltbase := argOf s 0, hpc := BitVec.ofNat 64 (argOf s 1), dumpbase := argOf s 2, cores := mine
                       quota := quota, upf := upf, root := argOf s 5 }
      let cap := argOf s 4
      onceBack (s.ctxBase + 8 * cid) 8 (fun s =>
        let s := mine.foldl (fun s k => s.onCore k fun x => { x with ctx := some cid, spillCap := cap }) { s with ctxs := tput s.ctxs cid c }
        endWith cid (writeCtxEntry cid c.root true upf s)) s

def execCtxCreate (s : State) : Host.Outcome State Fault Refusal := runCommand 1 ctxCreate s

/-! CTX_DESTROY (R430, R448). -/

/-- The producer's WID in a closure line, for the future of a closure that never starts (R41): none while the read waits, and
a free value where the line cannot be read. -/
def closureWid (cid addr : Nat) (s : State) : State × Option W64 :=
  match hubRead cid addr 128 s with
  | (s, _, .wait) => (s, none)
  | (s, img, .none) => (s, some (clWid img))
  | (s, _, .fault _ _) => (s.drawFree.2, some s.drawFree.1)

/-- What resolution has made of an entry's first identifier, or of its closure (R130). -/
def entRoot (s : State) (e : Ent) : RootClass :=
  match e.kind with
  | .closure .. => entClass s e
  | .range n lo _ => if (s.launch n).gsize = 0 then classOf (s.launch n) (wordOfIndex (s.launch n) lo) else .real
  | .tail .. => .real

/-- An identifier that never started ends with a cause, or is squashed where its root is surplus; the flag says that it is over
(R42, R413, R441). -/
def endIdent (n w : Nat) (cause : W8) (r : RootClass) (counted : Bool) (s : State) : State × Bool :=
  let l := s.launch n
  let f := identFuture l w
  if r == .surplus then
    match squashFuture l.cid f (BitVec.ofNat 64 w) s with
    | (s, true) => (countSquash n s, true)
    | q => q
  else
    match completeQuiet none l.cid f 2 cause 0 0 (BitVec.ofNat 64 w) s with
    | (s, true) => (countIdent n w (some cause) (if r == .committed && !counted then countCommit n s else s), true)
    | q => q

/-- An entry's first identifier, or its closure, becomes FAULTED with ABORTED or another cause; what remains of the entry.
None while a write waits. -/
def faultEntry (cause : W8) (e : Ent) (s : State) : State × Option (Option Ent) :=
  let b := entBounds e.kind
  let rest : Option Ent := if b.1 + 1 < b.2 then some { e with kind := entWith e.kind (b.1 + 1) b.2, ended := 0 } else none
  match e.kind with
  | .closure a f cid _ _ _ =>
    if f = 0 then (s, some none)
    else if entRoot s e == .surplus then
      let r := squashFuture cid f e.root s
      (r.1, if r.2 then some none else none)
    else
      (match closureWid cid a s with
       | (s, none) => (s, none)
       | (s, some w) =>
         let r := completeQuiet none cid f 2 cause 0 0 w s
         (r.1, if r.2 then some none else none))
  | .range n lo _ =>
    let g := max 1 (s.launch n).gsize
    let r := endIdent n (wordOfIndex (s.launch n) (lo * g + e.ended)) cause (entRoot s e) e.counted s
    (r.1, if !r.2 then none else if e.ended + 1 < g then some (some { e with ended := e.ended + 1 }) else some rest)
  | .tail n lo _ o x =>
    let r := endIdent n (tailWord (s.launch n) o x lo) cause .real false s
    (r.1, if r.2 then some rest else none)

/-- A list with what remains of an entry in its place. -/
def putRest (p : Ent → Bool) (r : Option Ent) (l : List Ent) : List Ent := fixSplit none (l.flatMap fun x => if p x then r.toList else [x])

/-- The first entry of a deque or spill ring is worked off by one step; one whose root is not resolved waits for its resolution, as
the faults of a speculative task do (R128, log 66). -/
def faultDeque (core : Nat) (cause : W8) (p : Ent → Bool) (s : State) : State :=
  let c := s.core core
  match (c.deque ++ c.spill).find? fun e => p e && entRoot s e != .spec with
  | none => s
  | some e =>
    match faultEntry cause e s with
    | (s, none) => s
    | (s, some r) =>
      let s := s.onCore core fun c => { c with deque := putRest (·.id == e.id) r c.deque, spill := putRest (·.id == e.id) r c.spill }
      if (s.core core).lost then s else dequeLeft core s

/-- Ranges of a launch that have not entered the deques of some cores. -/
def faultSeeds (n : Nat) (cause : W8) (p : Nat → Bool) (s : State) : State :=
  let l := s.launch n
  let first := fun (m : List (Nat × Ent)) => m.find? fun e => p e.1 && entRoot s e.2 != .spec
  let put := fun (x : Nat × Ent) (r : Option Ent) (m : List (Nat × Ent)) => m.flatMap fun y => if y == x then r.toList.map fun z => (x.1, z) else [y]
  match first l.seeds, first l.pendingTails with
  | some x, _ =>
    (match faultEntry cause x.2 s with
     | (s, none) => s
     | (s, some r) => s.setLaunch n { s.launch n with seeds := put x r (s.launch n).seeds })
  | none, some x =>
    (match faultEntry cause x.2 s with
     | (s, none) => s
     | (s, some r) => s.setLaunch n { s.launch n with pendingTails := put x r (s.launch n).pendingTails })
  | none, none => s

/-- A task that has not started ends with a cause, held for the resolution while it is speculative (R128, R413, R448). -/
def faultStaged (k : Nat) (cause : W8) (s : State) : State :=
  match completeTask k (.faulted cause 0) s with
  | (s, false) => s
  | (s, true) => (freeSpad k (freeAcc k (unstage k s))).onTask k fun t => { t with st := .dead }

def ctxTasks (s : State) (cid : Nat) (p : TaskSt → Bool) : List Nat :=
  (s.tasks.filter fun e => e.2.cid == cid && p e.2.st).map Prod.fst

/-- Umber ends a running task: the cause that starts its chain (R430). -/
def abortTask (k : Nat) (s : State) : State :=
  let t := s.task k
  if t.dump != .over && !(t.fatal.any fun c => c.code == Cause.aborted) then addCauses k [⟨Cause.aborted, 10, 0xFF, 0xFF, s.time, 0⟩] s else s

/-- An entry is of the context. -/
def entOfCtx (s : State) (cid : Nat) (e : Ent) : Bool :=
  match e.kind with
  | .closure _ _ c _ _ _ => c == cid
  | _ => e.launch.any fun n => (s.launch n).cid == cid

/-- The context's launches that have not completed. -/
def ctxLaunches (s : State) (cid : Nat) : List Nat :=
  (s.launches.filter fun e => e.2.cid == cid && e.2.st != .complete).map Prod.fst

/-- The context's queues read no more, and WAITs that are not met leave with them (log 61). -/
def dropPackets (s : State) (cid : Nat) : State :=
  let mine := fun (x : Pkt) => (s.queue x.qid).cid == cid
  { s with packets := s.packets.filter fun e => !(mine e.2 && e.2.kind == 6 && !e.2.done)
           queues := s.queues.map fun e => if e.2.cid == cid then (e.1, { e.2 with dying := true, heldWait := none }) else e }

/-- One step of the teardown: a launch whose work Umber ends is ABORTED, one whose record is being written stays as it is (R442). -/
def teardown (cid : Nat) (s : State) : State :=
  let s := dropPackets s cid
  let s := { s with launches := s.launches.map fun e => if e.2.cid == cid && e.2.st != .complete && e.2.refused.isNone && e.2.recGw.isNone && launchBusy s e.1
      then (e.1, { e.2 with aborted := true }) else e }
  let s := (ctxTasks s cid fun t => t == .running || t == .swapped).foldl (fun s k => abortTask k s) s
  let s := (ctxTasks s cid (· == .staged)).foldl (fun s k => faultStaged k Cause.aborted s) s
  let s := (s.ctx cid).cores.foldl (fun s c => faultDeque c Cause.aborted (entOfCtx s cid) s) s
  let s := (ctxLaunches s cid).foldl (fun s n => faultSeeds n Cause.aborted (fun _ => true) s) s
  ((s.queues.filter fun e => e.2.cid == cid && saveWaits s e.1).map Prod.fst).foldl (fun s q => askSave q s) s

/-- Nothing of the context is left. -/
def tornDown (s : State) (cid : Nat) : Bool :=
  (ctxTasks s cid fun t => t == .running || t == .swapped || t == .staged).isEmpty && (ctxLaunches s cid).isEmpty &&
  !s.packets.any (fun e => (s.queue e.2.qid).cid == cid) && !s.queues.any (fun e => e.2.cid == cid && saveWaits s e.1) && !s.descs.any (fun e => e.2.cid == cid) &&
  !s.cores.any fun c => (c.2.deque ++ c.2.spill).any (entOfCtx s cid) || (c.2.thief.bind Attempt.copy).any (entOfCtx s cid)

/-- The queues go, the cores return, and the CID is free (R448). -/
def freeCtx (cid : Nat) (s : State) : State :=
  let mine := (s.queues.filter fun e => e.2.cid == cid).map Prod.fst
  let s := mine.foldl (fun s q => unmapQueue q s) s
  let s := (s.ctx cid).cores.foldl (fun s k => s.onCore k fun x => { x with ctx := none, spillCap := 0, layout := [] }) s
  let s := dropTlb ⟨0, cid, 0, 3⟩ (writeCtxEntry cid 0 false false s)
  { s with ctxs := tdel s.ctxs cid, queues := s.queues.filter (fun e => e.2.cid != cid), doorbell := s.doorbell.filter (fun q => !mine.contains q)
           ranges := s.ranges.filter (fun r => r.1 != cid), peers := s.peers.filter (fun p => p.1 != cid)
           ckpts := s.ckpts.filter fun c => c.headD 0 != BitVec.ofNat 64 cid }

def ctxDestroy (s : State) : State :=
  let cid := argOf s 0
  if !thas s.ctxs cid then endCommand rNotfound s
  else
    let s := { s with ctxs := tput s.ctxs cid { s.ctx cid with dying := true } }
    if tornDown s cid then onceBack (s.ctxBase + 8 * cid) 8 (fun s => endCommand rOk (freeCtx cid s)) s else teardown cid s

def execCtxDestroy (s : State) : Host.Outcome State Fault Refusal := runCommand 2 ctxDestroy s

/-! Queues (R98, R448, R455). -/

/-- The block's own fields are in range (R98); one that is not gives Q_CREATE the result BADARG (log 54). -/
def qcbOk (b : List W8) : Bool :=
  addrOk (fieldAt b 0 8) 64 && 4 ≤ fieldAt b 8 1 && fieldAt b 8 1 ≤ 16 && fieldAt b 9 1 ≤ 3

/-- Q_CREATE, whose arguments are checked before the readiness of what it uses, and that before its context (R448, R472). -/
def qCreate (s : State) : State :=
  let cid := argOf s 0
  let qcb := argOf s 1
  if !addrOk qcb 256 || 2 ≤ argOf s 2 then endCommand rBadarg s
  else if !workReady s then endCommand rNoresource s
  else if !thas s.ctxs cid || (s.ctx cid).dying then endCommand rNotfound s
  else
    match hubRead cid qcb 16 s, freeQid s with
    | (s, _, .wait), _ => s
    | (s, _, .fault _ _), _ => endCommand rBadarg s
    | (s, _, .none), none => endCommand rNoresource s
    | (s, b, .none), some qid =>
      if !qcbOk b then endCommand rBadarg s
      else
        match hubWrite cid (qcb + 0x0A) (toBytes 2 qid ++ toBytes 2 cid) s with
        | (s, _, .wait) => s
        | (s, _, .fault _ _) => endCommand rBadarg s
        | (s, _, .none) =>
          let q : Queue := { cid := cid, qcb := qcb, send := argOf s 2 == 1, unmapped := s.time }
          endWith qid { s with queues := tput s.queues qid q }

def execQCreate (s : State) : Host.Outcome State Fault Refusal := runCommand 3 qCreate s

/-- Q_DESTROY ends once every packet already read has completed (R448). -/
def qDestroy (s : State) : State :=
  let qid := argOf s 0
  if !thas s.queues qid then endCommand rNotfound s
  else
    let s := s.onQueue qid fun q => { q with dying := true, idle := true }
    if !(queuePkts s qid).isEmpty || s.descs.any (fun e => e.2.qid == qid) then s
    else if saveWaits s qid then askSave qid s
    else
      let s := unmapQueue qid s
      endCommand rOk { s with queues := tdel s.queues qid, doorbell := s.doorbell.filter (· != qid) }

def execQDestroy (s : State) : Host.Outcome State Fault Refusal := runCommand 4 qDestroy s

/-! Other commands (R448, R454, R457, R472). -/

def rangesFree (s : State) : State :=
  let cid := argOf s 0
  let a := argOf s 1
  if 2 ^ 52 ≤ a then endCommand rBadarg s
  else match s.ranges.find? fun r => r.1 == cid && r.2.1 == a with
    | some r => endCommand rOk { umberFree cid a (16 * r.2.2) s with ranges := s.ranges.filter fun r => !(r.1 == cid && r.2.1 == a) }
    | none => endCommand rNotfound s

def execRangesFree (s : State) : Host.Outcome State Fault Refusal := runCommand 5 rangesFree s

/-- PEER_BIND waits for no link: the link to the peer must have trained (R472). -/
def peerBind (s : State) : State :=
  let cid := argOf s 0
  let a := argOf s 1
  let dev := a % 2 ^ 12
  if !thas s.ctxs cid then endCommand rNotfound s
  else if !s.links.getLsbD (Config.route s.routeGen dev % 16) then endCommand rNoresource s
  else endCommand rOk { s with peers := s.peers ++ [(cid, dev, a / 2 ^ 12 % 2 ^ 12, a.testBit 24)] }

def execPeerBind (s : State) : Host.Outcome State Fault Refusal := runCommand 6 peerBind s

/-- The arguments of a checkpoint: CID, region, size, buddy, its areas, recovery queue and image (R457). -/
def ckptReg (s : State) : State :=
  let g := argOf s
  if !thas s.ctxs (g 0) then endCommand rNotfound s
  else if !addrOk (g 1) 1 || !addrOk (g 4) 1 || !addrOk (g 6) 1 || !addrOk (g 7) 8 || 2 ^ 12 ≤ g 3 then endCommand rBadarg s
  else
    let c := (List.range 8).map fun i => BitVec.ofNat 64 (g i)
    endCommand rOk { s with ckpts := s.ckpts.filter (fun c => c.headD 0 != BitVec.ofNat 64 (g 0)) ++ [c] }

def execCkptReg (s : State) : Host.Outcome State Fault Refusal := runCommand 7 ckptReg s

/-! Firmware and attestation (R458 to R460). -/

def runningImage (s : State) : List W8 := s.flash.getD Config.image

/-- The repair map: the site of each logical core, the pool that each has left, and the rows repaired (R462, R467). -/
def repairMap (s : State) : List Nat :=
  (List.range Config.cores).map (siteOf s) ++ (List.range Config.cores).map (poolBlocks s) ++ s.life.rowsFixed

/-- The report (R460). -/
def attestReport (s : State) (nonce : List W8) : List W8 :=
  let img := runningImage s
  let b := nonce ++ Config.sha384 Config.bootRom ++ Config.sha384 img ++ Config.sha384 (Config.fuseMap (repairMap s)) ++
    toBytes 2 0x8940 ++ [Config.stepping, 0] ++ toBytes 4 (fieldAt img 4 4) ++ toBytes 8 s.life.now.resets.toNat
  b ++ Config.sign (Config.sha384 b)

def attest (s : State) : State :=
  let a := argOf s 0
  let r := argOf s 1
  if 2 ^ 51 < a + 48 || 2 ^ 51 < r + 304 then endCommand rBadarg s
  else
    let b := attestReport s (toBytes 48 (homeRead s (hostBase + a) 48))
    endCommand rOk (homeWrite (hostBase + r) b.length (leNat b) s)

def execAttest (s : State) : Host.Outcome State Fault Refusal := runCommand 8 attest s

/-- The vendor public key and the signature of an image, and the bytes that it signs: the header before it, and the body (R458). -/
def imageKey (img : List W8) : List W8 := (img.drop 0x10).take 96
def imageSig (img : List W8) : List W8 := (img.drop 0x70).take 96
def signedBytes (img : List W8) : List W8 := img.take 0x70 ++ img.drop 0xD0

/-- The checks of an image (R458). -/
def imageOk (img : List W8) : Bool :=
  fieldAt img 0 4 == 0x5A554D42 && Config.minVersion ≤ fieldAt img 4 4 && img.length == 0xD0 + fieldAt img 8 8 &&
  Config.sha384 (imageKey img) == Config.keyDigest && Config.sigOk (imageKey img) (imageSig img) (Config.sha384 (signedBytes img))

/-- An unlisted code ends with BADARG (R448). -/
def execMbxUnknownOpc (s : State) : Host.Outcome State Fault Refusal :=
  if listed s.mbxOpc.toNat then .next s
  else runCommand s.mbxOpc.toNat (endCommand rBadarg) s

/-! Translation faults (R290). -/

/-- Umber takes a record of a thread: it replays the parked lanes, or forwards the record to the task's handling. -/
def faultService (tid sub : Nat) (replay : Bool) (s : State) : State :=
  let m := maskBy (laneIds.filter fun i => match (s.thread tid).lanes[i]? with
    | some x => x.hold == .umber && x.sub == sub
    | none => false)
  let s := { s with faultq := s.faultq.filter fun e => e != (tid, sub) }
  if m = 0 then s else if replay then replayLanes tid m s else reportFault tid m s

def execUmberFaultService (core unit : Nat) (replay : Bool) (s : State) : Host.Outcome State Fault Refusal :=
  .next (match unitTid s core unit with
    | none => s
    | some tid => match s.faultq.find? fun e => e.1 == tid with
      | some e => faultService e.1 e.2 replay s
      | none => s)

/-! Migration (R292). -/

/-- A leaf with another address and WPM. -/
def leafWith (e : W64) (page : Nat) (wpm : Bool) : Nat :=
  e.toNat % 2 ^ 4 + (if wpm then 16 else 0) + page

/-- The page's bytes are copied, and poison with them. -/
def copyPage (old new size : Nat) (s : State) : State :=
  let offs := ((s.mem.filter fun c => old ≤ c.1 && c.1 < old + size).map fun c => c.1 - old) ++
    ((s.mem.filter fun c => new ≤ c.1 && c.1 < new + size).map fun c => c.1 - new)
  let s' := offs.foldl (fun s o => homeWrite (new + o) 1 (byteAt s.mem (old + o)).toNat s) s
  { s' with poison := (s'.poison.filter fun a => !(new ≤ a && a < new + size)) ++
      (s.poison.filter fun a => old ≤ a && a < old + size).map fun a => a - old + new }

def shootOver (s : State) (n : Nat) : Bool := !s.shoots.any fun x => x.num == n

/-- The steps of R292, each an event: 1 protect, 2 copy, 3 remap, 4 the replay, which the second shootdown made. A line that the host
holds is asked back before it is written (R446). Speculative lines of the page, and the watch on a shape record, stay where they were:
the spec does not say what becomes of them (log 67). -/
def pageMigration (cid va page : Nat) (s : State) : State :=
  match leafOf s cid va with
  | none => s
  | some (a, level) =>
    let e : W64 := BitVec.ofNat 64 (homeRead s a 8)
    let size := 2 ^ pageBits level
    let step := fun (m : Migr) (s : State) => { s with migr := m :: s.migr.filter fun x => !(x.cid == cid && x.va == va) }
    match s.migr.find? fun m => m.cid == cid && m.va == va with
    | none =>
      if page % size ≠ 0 || !present s page || !present s (page + size - 1) then s
      else onceBack a 8 (fun s =>
        let s := homeWrite a 8 (leafWith e (pteAddr e) true) (jlog (jMigrate 1) 0 0 cid va s)
        let r := shootPage cid va level s
        step ⟨cid, va, page, 1, r.2⟩ r.1) s
    | some m =>
      if m.phase = 1 then
        if !shootOver s m.shoot then s
        else onceBack m.page size (fun s => step { m with phase := 2 } (copyPage (pteAddr e) m.page size (jlog (jMigrate 2) 0 0 cid va s))) s
      else if m.phase = 2 then
        onceBack a 8 (fun s =>
          let s := homeWrite a 8 (leafWith e m.page false) (jlog (jMigrate 3) 0 0 cid va s)
          let r := shootPage cid va level s
          step { m with phase := 3, shoot := r.2 } r.1) s
      else if shootOver s m.shoot then
        jlog (jMigrate 4) 0 0 cid va { s with migr := s.migr.filter fun x => !(x.cid == cid && x.va == va) }
      else s

def execPageMigration (cid va page : Nat) (s : State) : Host.Outcome State Fault Refusal :=
  .next (if !thas s.ctxs cid || 2 ^ 52 ≤ va then s else pageMigration cid va page s)

/-! Slate (R453). -/

/-- A migration of the journal without its step 4 begins again at its first step (R453). -/
def redoMigration (s : State) (m : Migr) : State :=
  pageMigration m.cid m.va m.page { s with migr := s.migr.filter fun x => !(x.cid == m.cid && x.va == m.va) }

/-- Slate takes over from Umber, which runs: every operation of the journal that has no DONE is redone from its first step, oldest
first. A mailbox command goes on from its arguments, of which nothing has been taken back, and maps and unmaps are whole in one step
of the model (log 18). Every mapped slot is read again; the pending bits are read at each event of the queues (R450, R453). -/
def execSlateTakeover (s : State) : Host.Outcome State Fault Refusal :=
  .next (if !readyBit s 1 || !s.standby then s
    else
      let s := s.migr.reverse.foldl redoMigration { s with standby := false, slate := true }
      { s with queues := s.queues.map fun e => if e.2.slot.isSome then (e.1, { e.2 with idle := false }) else e })

end Sys2Proof.Machine
end

