-- ==== Sys2Proof/Machine/Links.lean ====
section
/-!
DEFINITION. Axyel links and send rings, losses of links, routers, bridges and dies, the fabric's timeouts and drops, and the
host's accesses over CXL (R405 to R415, R445, R446, R454 to R457).
-/
namespace Sys2Proof.Machine

/-! Send rings (R454, R455). -/

def dKind (b : List W8) : Nat := fieldAt b 0 1
def dOrdered (b : List W8) : Bool := (fieldAt b 1 1).testBit 0
def dDev (b : List W8) : Nat := fieldAt b 0 8 / 2 ^ 16 % 2 ^ 12
def dCid (b : List W8) : Nat := fieldAt b 0 8 / 2 ^ 28 % 2 ^ 12
def dOpc (b : List W8) : Nat := fieldAt b 6 1
def dLaddr (b : List W8) : Nat := fieldAt b 8 8
def dRaddr (b : List W8) : Nat := fieldAt b 0x10 8
def dCount (b : List W8) : Nat := fieldAt b 0x18 8
def dFuture (b : List W8) : Nat := fieldAt b 0x20 8

/-- Errors 0x04 and 0x05 of a descriptor (R455). -/
def descError (b : List W8) : Nat :=
  let w := fieldAt b 0 8
  let k := dKind b
  if k = 0 || 4 < k then 4
  else if w / 2 ^ 9 % 2 ^ 7 ≠ 0 || w / 2 ^ 40 % 2 ^ 8 ≠ 0 || (if k = 4 then 4 < dOpc b else dOpc b ≠ 0) || !zeroBytes b 0x28 0x40 then 5
  else if (k = 1 && !List.contains [64, 128] (dCount b)) || (k = 4 && !List.contains [128, 256] (dCount b)) then 5
  else 0

/-- The ring is still to be read: what it waits for leaves its notify standing. -/
def toRead (qid : Nat) (s : State) : State := s.onQueue qid fun q => { q with idle := false }

/-- A ring that may be read and may start descriptors: its ERR is 0 (R455). -/
def ringRuns (s : State) (qid : Nat) : Bool := (s.queue qid).errOwed.isNone && qErr s (s.queue qid) == 0

/-- The engine reads the ring at RDIDX, slot after slot, until one is not published (R100, R455). -/
def readRing (qid : Nat) : Nat → State → State
  | 0, s => s
  | fuel + 1, s =>
    let q := s.queue qid
    let i := qRdidx s q
    match hubRead q.cid (slotVa (qRbase s q) (qLog2n s q) i) 64 s with
    | (s, _, .wait) => toRead qid s
    | (s, _, .fault _ _) => packetError qid 7 i s
    | (s, b, .none) =>
      if fieldAt b 7 1 ≠ 0xA5 then s.onQueue qid fun q => { q with idle := true, stopped := false }
      else if descError b ≠ 0 then packetError qid (descError b) i s
      else
        match consumeReady q i 1 s with
        | (s, .wait) => toRead qid s
        | (s, .fault _ _) => packetError qid 7 i s
        | (s, .none) =>
        let r := s.fresh
        readRing qid fuel (consumeSlots q i 1
          { r.2 with descs := tput r.2.descs r.1 { qid := qid, cid := q.cid, index := i, bytes := b } })

/-- A QID that names no send ring is ignored; a ring whose ERR is nonzero starts nothing (R455). -/
def execAxlNotify (qid : Nat) (s : State) : Host.Outcome State Fault Refusal :=
  .next (match tfind s.queues (qid % 2 ^ 12) with
    | some q => if q.send && !q.dying && ringRuns s (qid % 2 ^ 12) then readRing (qid % 2 ^ 12) (2 ^ qLog2n s q) s else s
    | none => s)

def State.onDesc (s : State) (d : Nat) (f : AxDesc → AxDesc) : State :=
  match tfind s.descs d with
  | some x => { s with descs := tput s.descs d (f x) }
  | none => s

/-- Earlier descriptors of its ring have not completed. -/
def descBehind (s : State) (x : AxDesc) : Bool := s.descs.any fun e => e.2.qid == x.qid && e.2.index < x.index

/-- It has started: a GET with its request (R454). -/
def descBegun (x : AxDesc) : Bool := x.asked || x.started || x.done

/-- Its place in its ring has come: descriptors start in ring order, an ORDERED one after every earlier one has completed, and none of
a ring whose ERR is nonzero (R454, R455). The reads of a recovery are in no ring. -/
def descReady (s : State) (d : Nat) (x : AxDesc) : Bool :=
  !descBegun x && (x.purpose != 0 || ringRuns s x.qid) && s.descs.all fun e =>
    e.1 == d || e.2.qid != x.qid || x.index ≤ e.2.index || (descBegun e.2 && !dOrdered x.bytes)

/-- A ring's effective priority among the rings: PRIO, aged as a queue's is (R109, R455); a recovery's reads have the highest. -/
def ringPrio (s : State) (x : AxDesc) : Nat := if x.purpose = 0 then effPrio s x.qid else 4

/-- The descriptor may start: no other ring has one of a higher effective priority that may (R109, R455, log 68). -/
def descStarts (s : State) (d : Nat) (x : AxDesc) : Bool :=
  descReady s d x && s.descs.all fun e => !descReady s e.1 e.2 || ringPrio s e.2 ≤ ringPrio s x

/-- A descriptor of a kind that may start; its ring's wait starts again (R109). -/
def startDesc (d kind : Nat) (f : AxDesc → State → State) (s : State) : Host.Outcome State Fault Refusal :=
  .next (match tfind s.descs d with
    | some x => if dKind x.bytes = kind && descStarts s d x then f x (s.onQueue x.qid fun q => { q with w := s.time }) else s
    | none => s)

/-- A descriptor ends with a fault that its future will take. -/
def descFault (d : Nat) (c : W8) (a : Nat) (s : State) : State :=
  s.onDesc d fun x => { x with started := true, done := true, fault := some (c, BitVec.ofNat 64 a) }

/-- The request of a descriptor goes out, under this device's number (R454). -/
def request (b data : List W8) (s : State) : State :=
  { s with sent := s.sent ++ [{ dev := dDev b, kind := dKind b, raddr := dRaddr b, cause := 0, data := data, src := Config.devNum s.routeGen
                                dcid := dCid b, opc := dOpc b, count := dCount b, due := s.time }] }

/-- Local bytes go to the peer; a lost device answers nothing (R456). -/
def sendBytes (d : Nat) (x : AxDesc) (s : State) : State :=
  let b := x.bytes
  if s.lostDevs.contains (dDev b) then descFault d Cause.linkDown 0 s
  else
    match hubRead x.cid (dLaddr b) (dCount b) s with
    | (s, _, .wait) => s
    | (s, _, .fault c a) => descFault d c a s
    | (s, data, .none) =>
      (request b data s).onDesc d fun x => { x with started := true }

def execAxyelAppend (d : Nat) (s : State) : Host.Outcome State Fault Refusal := startDesc d 1 (sendBytes d) s
def execAxyelPut (d : Nat) (s : State) : Host.Outcome State Fault Refusal := startDesc d 2 (sendBytes d) s
def execAxyelLand (d : Nat) (s : State) : Host.Outcome State Fault Refusal := startDesc d 4 (sendBytes d) s

/-- A GET of the model's own, for a recovery (R457). -/
def getDesc (cid dev pcid laddr raddr n purpose : Nat) : AxDesc :=
  { qid := 2 ^ 12 + cid, cid := cid, index := 0, purpose := purpose
    bytes := toBytes 8 (3 + dev * 2 ^ 16 + pcid * 2 ^ 28 + 0xA5 * 2 ^ 56) ++ toBytes 8 laddr ++ toBytes 8 raddr ++ toBytes 8 n ++
      toBytes 32 0 }

/-- The checkpoint of a context: its arguments (R448, R457). -/
def ckptArg (s : State) (cid i : Nat) : Nat :=
  match s.ckpts.find? fun c => c.headD 0 == BitVec.ofNat 64 cid with
  | some c => (c.getD i 0).toNat
  | none => 0

/-- The CID under which a context reaches a device: its export binding. -/
def exportCid (s : State) (cid dev : Nat) : Nat :=
  ((s.peers.find? fun p => p.1 == cid && p.2.1 == dev && !p.2.2.2).map fun p => p.2.2.1).getD 0

/-- The generation word has come: bit 63 names the copy, and 0 names none (R457). -/
def wordArrived (d : Nat) (x : AxDesc) (data : List W8) (s : State) : State :=
  let w := leNat data
  let cid := x.cid
  let s := { s with descs := tdel s.descs d }
  if w = 0 then { s with recov := tput s.recov cid 4 }
  else
    let dev := ckptArg s cid 3
    let n := ckptArg s cid 2
    let base := ckptArg s cid 4
    let copy := if w / 2 ^ 63 = 1 then ceilTo (base + n) 65536 else base
    let r := s.fresh
    { r.2 with descs := tput r.2.descs r.1 (getDesc cid dev (exportCid s cid dev) (ckptArg s cid 1) copy n 2), recov := tput r.2.recov cid 3 }

/-- The pair of a descriptor is exported (R454). -/
def exported (s : State) (x : AxDesc) : Bool :=
  s.peers.any fun p => p.1 == x.cid && p.2.1 == dDev x.bytes && p.2.2.1 == dCid x.bytes && !p.2.2.2

/-- A GET sends its request; then its bytes arrive and are written at their homes. None come for a pair that is not exported, whose
request the receiver drops (R454). -/
def getArrived (d : Nat) (data : List W8) (x : AxDesc) (s : State) : State :=
  if s.lostDevs.contains (dDev x.bytes) then descFault d Cause.linkDown 0 s
  else if data.length ≠ dCount x.bytes || (x.purpose = 0 && !exported s x) then s
  else if x.purpose = 1 then wordArrived d x data s
  else
    match hubWrite x.cid (dLaddr x.bytes) data s with
    | (s, _, .wait) => s
    | (s, g, .fault c a) => descFault d c a (s.onDesc d fun x => { x with gwct := g })
    | (s, g, .none) => s.onDesc d fun x => { x with started := true, gwct := g }

def execAxyelGet (d : Nat) (data : List W8) (s : State) : Host.Outcome State Fault Refusal :=
  match tfind s.descs d with
  | some x =>
    if x.asked then .next (if x.started || x.done then s else getArrived d data x s)
    else startDesc d 3 (fun x s => if s.lostDevs.contains (dDev x.bytes) then descFault d Cause.linkDown 0 s
      else (request x.bytes [] s).onDesc d fun x => { x with asked := true }) s
  | none => .next s

/-- How a descriptor ended: what the model knows of it, otherwise the receiver's answer, which names RADDR. -/
def descEnd (s : State) (x : AxDesc) (cause : W8) : Option (W8 × W64) :=
  match x.fault with
  | some f => some f
  | none =>
    if x.purpose = 0 && !exported s x then some (Cause.permission, BitVec.ofNat 64 (dRaddr x.bytes))
    else if cause = 0 then none
    else some (cause, BitVec.ofNat 64 (dRaddr x.bytes))

/-- Its future is completed, and it leaves (R454, R483); a descriptor has no work identifier, and PWID is 0 (R41, log 52). -/
def finishDesc (d : Nat) (x : AxDesc) (f : Option (W8 × W64)) (s : State) : State :=
  let r := match f with
    | some (c, a) => completeQuiet none x.cid (dFuture x.bytes) 2 c 0 a 0 s
    | none => completeQuiet none x.cid (dFuture x.bytes) 1 0 (BitVec.ofNat 64 (dCount x.bytes)) 0 0 s
  if !r.2 then r.1
  else
    let s := { r.1 with descs := tdel r.1.descs d }
    if x.purpose = 2 then { s with recov := if f.isNone then tput s.recov x.cid 4 else tdel s.recov x.cid }
    else if x.purpose = 1 then { s with recov := tdel s.recov x.cid } else s

def execAxyelDescriptorComplete (d : Nat) (cause : W8) (s : State) : Host.Outcome State Fault Refusal :=
  .next (match tfind s.descs d with
    | none => s
    | some x =>
      let refused := x.asked && !x.started && (descEnd s x cause).isSome
      if !(x.started || refused) || !(x.gwct = 0 || x.gwct < s.time) then s
      else finishDesc d x (descEnd s x cause) s)

/-! What peers send (R99, R454). -/

/-- The slots, the later first: 56 bytes, then the header with its own index (R99, R114). -/
def appendSlots (q : Queue) : List (Nat × Nat × List W8) → State → State
  | [], s => s
  | (i, va, b) :: l, s =>
    match walkAddr s q.cid va .write with
    | .inl pa => appendSlots q l (homeWrite pa 8 (packetHeader b q.cid i) (homeWrite (pa + 8) 56 (fieldAt b 8 56) s))
    | .inr _ => appendSlots q l s

/-- One packet, or a LAUNCH and its LAUNCHX, placed into a queue by R99, and its notify; a full ring is waited for. -/
def appendPackets (qid : Nat) (imgs : List (List W8)) (s : State) : State × Stop :=
  let q := s.queue qid
  let w := qWridx s q
  let n := qLog2n s q
  let slots := (imgs.zipIdx.map fun b => (w + b.2, slotVa (qRbase s q) n (w + b.2), b.1)).reverse
  if 2 ^ n < w + imgs.length - qRdidx s q then (s, .wait)
  else
    let z : State × Stop := match writable q.cid [q.qcb + 0x10] s with
      | (s, .none) => slotsReady q.cid (slots.map fun x => x.2.1) s
      | r => r
    match z with
    | (s, .none) => (notify qid (appendSlots q slots (setQcb q 0x10 8 ((w + imgs.length) % 2 ^ 64) s)), .none)
    | (s, e) => (s, e)

/-- A LAND of a peer: every mask bit set (R363, R454). A packet of two lines begins at a multiple of 256, as NL asks (R363); no rule
names a cause for a RADDR that is not a multiple of the packet's size, and the model answers MISALIGNED (log 69). It is answered once it
has been applied. -/
def receiveLand (dev dcid raddr opc : Nat) (data : List W8) (s : State) : State :=
  if !List.contains [128, 256] data.length || raddr % data.length ≠ 0 then answer dev 4 raddr Cause.misaligned [] 0 s
  else
    match hubAt s dcid raddr .write with
    | (s, .inr .wait) => s
    | (s, .inr (.fault c _)) => answer dev 4 raddr c [] 0 s
    | (s, .inr .none) => s
    | (s, .inl pa) =>
      { s with landing := s.landing ++
        [{ tid := none, peer := some (dev, raddr), op := 0, opc := opc, cid := dcid, line := pa / 128, mask := data.map fun _ => true
           data := data, va := raddr }] }

/-- A request of a peer under a local CID; a pair without an import binding is dropped (R454). -/
def axyelReceive (dev pcid dcid kind raddr opc : Nat) (data : List W8) (s : State) : State :=
  if !(s.peers.any fun p => p == (dcid, dev, pcid, true)) then answer dev kind raddr Cause.permission [] 0 s
  else
    match kind with
    | 1 =>
      let qid := raddr % 2 ^ 12
      let imgs := if data.length = 128 then [data.take 64, data.drop 64] else [data]
      match tfind s.queues qid with
      | none => answer dev 1 raddr Cause.permission [] 0 s
      | some q =>
        if q.send || q.cid ≠ dcid || !List.contains [64, 128] data.length then answer dev 1 raddr Cause.permission [] 0 s
        else match appendPackets qid imgs s with
          | (s, .wait) => s
          | (s, .fault c _) => answer dev 1 raddr c [] 0 s
          | (s, .none) => answer dev 1 raddr 0 [] s.time s
    | 2 =>
      match hubWrite dcid raddr data s with
      | (s, _, .wait) => s
      | (s, g, .fault c _) => answer dev 2 raddr c [] g s
      | (s, g, .none) => answer dev 2 raddr 0 [] g s
    | 3 =>
      match hubRead dcid raddr data.length s with
      | (s, _, .wait) => s
      | (s, _, .fault c _) => answer dev 3 raddr c [] 0 s
      | (s, b, .none) => answer dev 3 raddr 0 b 0 s
    | _ => receiveLand dev dcid raddr opc data s

def execAxyelReceive (dev pcid dcid kind raddr : Nat) (opc : BitVec 4) (data : List W8) (s : State) :
    Host.Outcome State Fault Refusal := .next (axyelReceive dev pcid dcid kind raddr opc.toNat data s)

/-! Losses of links, and recovery (R456, R457). -/

/-- Step 1 of a loss: Umber journals it and tells the host. -/
def reportLoss (what arg : Nat) (s : State) : State := tellHost 1 what arg (msix 0 what (jlog jLoss 0 0 0 what s))

/-- Descriptors to a lost device fault with LINK_DOWN (R456). -/
def dropDescs (dev : Nat) (s : State) : State :=
  (s.descs.filter fun e => dDev e.2.bytes == dev && !e.2.done).foldl (fun s e => descFault e.1 Cause.linkDown 0 s) s

/-- A task ends with LINK_DOWN, or by the fatal fault it has, with or without a dump (R412, R430, R457). -/
def linkDownTask (dump : Bool) (k : Nat) (s : State) : State :=
  let s := if (s.task k).fatal.isEmpty then addCauses k [⟨Cause.linkDown, 8, 0xFF, 0xFF, s.time, 0⟩] s else s
  if dump then s else s.onTask k fun t => { t with dump := .over }

/-- Step 2: the tasks of a context whose bindings name the device are dumped and end (R457). -/
def startRecovery (dev : Nat) (s : State) : State :=
  s.ckpts.foldl (fun s c =>
    let cid := (c.headD 0).toNat
    if !(s.peers.any fun p => p.1 == cid && p.2.1 == dev) || thas s.recov cid then s
    else
      let s := { s with recov := tput s.recov cid 1 }
      (ctxTasks s cid fun t => t == .running || t == .swapped).foldl (fun s k => linkDownTask true k s) s) s

/-- Steps 3 to 5, once what step 2 ended has ended: new route tables, the word, the copy, and the recovery packet (R457). A
replacement device that CKPT_REG has registered takes these steps itself: its context's checkpoint names the buddy. A context whose
buddy is lost too has no copy to read, and its recovery ends there (log 70). -/
def recoverCtx (cid phase : Nat) (s : State) : State :=
  let dev := ckptArg s cid 3
  if phase = 1 then
    if (ctxTasks s cid fun t => t == .running || t == .swapped).any fun k => !(s.task k).fatal.isEmpty then s
    else if s.lostDevs.contains dev then { s with recov := tdel s.recov cid }
    else
      let r := { s with routeGen := s.routeGen + 1 }.fresh
      { r.2 with descs := tput r.2.descs r.1 (getDesc cid dev (exportCid s cid dev) 0 (ckptArg s cid 7) 8 1), recov := tput r.2.recov cid 2 }
  else if phase = 4 then
    match hubRead cid (ckptArg s cid 6) 128 s with
    | (s, b, .none) =>
      let imgs := if (fieldAt b 1 1).testBit 2 then [b.take 64, b.drop 64] else [b.take 64]
      (match tfind s.queues (ckptArg s cid 5) with
       | none => { s with recov := tdel s.recov cid }
       | some _ => match appendPackets (ckptArg s cid 5) imgs s with
         | (s, .wait) => s
         | (s, _) => { s with recov := tdel s.recov cid })
    | (s, _, .wait) => s
    | (s, _, .fault _ _) => { s with recov := tdel s.recov cid }
  else s

/-- A loss, and the steps of the recoveries that it started. -/
def execLinkLoss (dev : Nat) (s : State) : Host.Outcome State Fault Refusal :=
  .next (let s := if s.lostDevs.contains dev then s
      else startRecovery dev (dropDescs dev (reportLoss dev 0 { s with lostDevs := dev :: s.lostDevs }))
    s.recov.foldl (fun s e => recoverCtx e.1 e.2 s) s)

/-! The host over CXL (R445, R446, R472). -/

/-- What a host's read returns: its bytes, and whether they are poisoned. -/
def hostReturn (pa : Nat) (b : List W8) (bad : Bool) (s : State) : State := { s with hostReads := s.hostReads ++ [(pa, b, bad)] }

/-- A host access to HBM at the line's home, or the host's own access to its memory once the device holds no copy (log 17). A read takes
as many bytes as `data` has; of a stack that is absent it returns poison, and so does one of a lost home (R446, R472). -/
def hostAccess (pa : Nat) (write : Bool) (data : List W8) (keep : Bool) (s : State) : State :=
  let n := data.length
  if n = 0 then s
  else if pa < 2 ^ 40 then
    if !isHbm s pa || !isHbm s (pa + n - 1) then (if write then s.countUe else hostReturn pa (List.replicate n 0) true s)
    else if (linesOf pa n).any fun l => homeGone s (128 * l) then (if write then s else hostReturn pa (List.replicate n 0) true s)
    else
      let s := if write then homeWrite pa n (leNat data) s else hostReturn pa (toBytes n (homeRead s pa n)) (poisoned s pa n) s
      if keep then (linesOf pa n).foldl (fun s l => (fillL2 l s).onL2 l fun x => { x with host := true }) s else s
  else if hostBase ≤ pa && pa + n ≤ 2 ^ 52 && write then
    if (linesOf pa n).any fun l => (s.l2line l).inL2 then s
    else performed none pa n { s with mem := listSet s.mem pa data, poison := s.poison.filter fun a => !(pa ≤ a && a < pa + n) }
  else s

def execHostCxlMemAccess (pa : Nat) (write : Bool) (data : List W8) (keep : Bool) (s : State) : Host.Outcome State Fault Refusal :=
  .next (hostAccess pa write data keep s)

/-- The host gives up its copy, and the store that waits may perform (R446). -/
def execBackInvalidateResponse (line : Nat) (s : State) : Host.Outcome State Fault Refusal :=
  .next (if (s.l2line line).biWait then s.onL2 line fun x => { x with host := false, biWait := false } else s)

/-- The device gives up its copy of a host line, or keeps it clean; leases that it granted run out first (R385, R445). -/
def execCxlCacheSnoop (line : Nat) (inv : Bool) (s : State) : Host.Outcome State Fault Refusal :=
  .next (if 128 * line < hostBase || !(s.l2line line).inL2 then s
    else if !inv then pushL2 line s
    else if (s.l2line line).lease < s.time then dropL2 line (pushL2 line s) else s)

/-! The fabric (R405 to R414). -/

/-- An entry enters at position `i` of the ring, before those of its own tick that name a higher die (R415). -/
def fabLogAt (e : FabLog) : Nat → Nat → SMap FabLog → SMap FabLog
  | 0, i, l => tput l i e
  | fuel + 1, i, l =>
    match tfind l ((i + 15) % 16) with
    | some p => if p.time = e.time && e.die < p.die then fabLogAt e fuel ((i + 15) % 16) (tput l i p) else tput l i e
    | none => tput l i e

/-- A log entry; the log is a ring of 16, and the entries of one tick stand in ascending die order (R414, R415). -/
def fabLogPut (die site link kind : Nat) (s : State) : State :=
  { s with fabLog := fabLogAt ⟨s.time, die, site, link, kind⟩ 15 s.fabNext s.fabLog, fabNext := (s.fabNext + 1) % 16, fabCount := s.fabCount + 1 }

/-! Packets in flight (R404 to R410). Which of them a failing router, a lost bridge or a bad header meets is a free value (log 8,
19): an access that has gone out, an operation of a thread's engines, a message of the steal exchange, a peer's landing packet, a
COPY packet's command, a fetch of a staging engine, a query, or a near-bank program of a unit. -/
inductive Flying where
  | acc (tid i : Nat)
  | op (tid id : Nat)
  | msg (i : Nat)
  | land (i : Nat)
  | copy (core id : Nat)
  | stage (k : Nat)
  | query (q : Nat)
  | near (u op : Nat)
  deriving DecidableEq, Repr

/-- An operation whose engine sends packets: any but the matrix unit's own, `adrn` excepted. Queries and near-bank programs stand for
their operations. -/
def sendsPackets (o : EngOp) : Bool :=
  match o.kind with
  | .mma .. | .acc .. | .fskip .. | .ardv .. | .qsub | .nbrun => false
  | _ => !o.done && o.lost.isNone

/-- The programs of a unit. -/
def NbUnit.progs (x : NbUnit) : List NbProg := x.run.toList ++ x.queue

/-- A staging engine fetches for a task. -/
def fetching (t : Task) : Bool := t.st == .staged && t.stageFault.isNone && t.lost.isNone && t.bufs.any fun b => b.owner.isNone && !b.filled

def flying (s : State) : List Flying :=
  (s.threads.flatMap fun e =>
    (e.2.flight.zipIdx.filterMap fun x =>
      if x.1.out.isSome && !x.1.lost && !x.1.marker then some (Flying.acc e.1 x.2) else none) ++
    (e.2.ops.filter sendsPackets).map fun (o : EngOp) => Flying.op e.1 o.id) ++
  (List.range s.msgs.length).map Flying.msg ++
  ((s.landing.zipIdx.filter fun p => p.1.tid.isNone && p.1.applied.isNone).map fun p => Flying.land p.2) ++
  (s.cores.flatMap fun e => (e.2.cpy.filter fun x => x.tid.isNone && x.state == 0 && x.lost.isNone).map fun x => Flying.copy e.1 x.id) ++
  ((s.tasks.filter fun e => fetching e.2).map fun e => Flying.stage e.1) ++
  ((s.queries.filter fun e => e.2.lost.isNone).map fun e => Flying.query e.1) ++
  s.nb.flatMap fun e => (e.2.progs.filter fun p => !p.ended && p.lost.isNone).map fun p => Flying.near e.1 p.op

/-- A program of a unit changes. -/
def onProg (u op : Nat) (f : NbProg → NbProg) (s : State) : State :=
  let g := fun (p : NbProg) => if p.op == op then f p else p
  s.onUnit u fun x => { x with run := x.run.map g, queue := x.queue.map g }

def onQuery (q : Nat) (f : Query → Query) (s : State) : State :=
  match tfind s.queries q with
  | some x => { s with queries := tput s.queries q (f x) }
  | none => s

def onCpy (core id : Nat) (f : CpyCmd → CpyCmd) (s : State) : State :=
  s.onCore core fun c => { c with cpy := c.cpy.map fun x => if x.id == id then f x else x }

/-- A packet is gone: its access or operation is never answered, and a landing packet is never applied (R405, R406, R409). -/
def dropFlying (f : Flying) (s : State) : State :=
  match f with
  | .acc tid i => s.onThread tid fun t => { t with flight := t.flight.modify i fun a => { a with lost := true } }
  | .op tid id =>
    { s with landing := s.landing.filter fun p => !(p.tid == some tid && p.op == id) }.onThread tid fun t =>
      { t with ops := t.ops.map fun (o : EngOp) => if o.id == id then { o with lost := some s.time } else o }
  | .msg i => { s with msgs := s.msgs.eraseIdx i }
  | .land i => { s with landing := s.landing.eraseIdx i }
  | .copy core id => onCpy core id (fun x => { x with lost := some s.time }) s
  | .stage k => s.onTask k fun t => { t with lost := some s.time }
  | .query q => onQuery q (fun x => { x with lost := some s.time }) s
  | .near u op => onProg u op (fun p => { p with lost := some s.time }) s

/-- A packet that goes from one die to another: host memory lies behind the I/O die (R403, R445), and the homes that an engine, a
query or a peer's packet reaches lie on any. -/
def crosses (s : State) (f : Flying) : Bool :=
  match f with
  | .acc tid i => ((s.thread tid).flight[i]?).any fun a => homeDie a.pa != dieOfCore (s.taskT tid).core || hostBase ≤ a.pa
  | .msg i => (s.msgs[i]?).any fun m => dieOfCore m.thief != dieOfCore m.victim
  | .near u op => ((s.unit u).progs.find? fun p => p.op == op).any fun p => dieOfCore (s.taskT p.tid).core != u / 128
  | _ => true

/-- Each packet of a kind is lost or not by a free value. -/
def dropSome (p : Flying → Bool) (s : State) : State :=
  ((flying s).filter p).reverse.foldl (fun s f =>
    let r := s.drawFree
    if r.1.getLsbD 0 then dropFlying f r.2 else r.2) s

/-- One packet in flight, chosen by a free value. -/
def pickFlying (s : State) : Option Flying × State :=
  let r := s.drawFree
  let l := flying s
  (l[r.1.toNat % max 1 l.length]?, r.2)

def dropOne (s : State) : State :=
  match pickFlying s with
  | (some f, s) => dropFlying f s
  | (none, s) => s

/-! What a requester makes of a packet without an answer, or with poisoned data (R409, R410). -/

/-- An operation ends with its fault pending with its issuer. A copy command leaves its engine through its own completion, and a stream
goes on with poison (R305, R309, R410). -/
def failOp (tid id : Nat) (c : W8) (s : State) : State :=
  let core := (s.taskT tid).core
  match (s.thread tid).ops.find? fun o => o.id == id with
  | none => s
  | some o =>
    let a : W64 := BitVec.ofNat 64 (((o.wr ++ o.rd).map Prod.fst).headD 0)
    let s := { s with landing := s.landing.filter fun p => !(p.tid == some tid && p.op == id) }.onThread tid fun t =>
      { t with ops := t.ops.map fun (q : EngOp) => if q.id == id then { q with lost := none } else q }
    match o.kind with
    | .cpy => pendFaultOf tid 0 c a (onCpy core id (fun x => { x with state := 1, fault := some (c, a) }) s)
    | .strm => pendFaultOf tid 0 c a (s.onCore core fun y =>
        { y with streams := y.streams.map fun x => if x.id == id then { x with poison := true, bad := x.next } else x })
    | _ => completeOp tid id (pendFaultOf tid o.cls c a s)

/-- A COPY packet's command ends with its fault, for the packet (R101). -/
def failCopy (core id : Nat) (c : W8) (s : State) : State :=
  match (s.core core).cpy.find? fun x => x.id == id with
  | some _ => countLost c (onCpy core id (fun x => { x with state := 1, lost := none, fault := some (c, BitVec.ofNat 64 x.dst) }) s)
  | none => s

/-- A fetch of a staging engine: a staging fault with the record's base (R153). -/
def failFetch (k : Nat) (c : W8) (s : State) : State :=
  let b := ((s.task k).bufs.find? fun b => b.owner.isNone && !b.filled).getD { off := 0 }
  stageFail k b.lrec.base (countLost c (s.onTask k fun t => { t with lost := none }))

/-- A query ends: with FABRIC_LOST it names its home stack, and otherwise its query vector (R377). -/
def failQuery (q : Nat) (c : W8) (s : State) : State :=
  onQuery q (fun x => { x with lost := none, stopped := true
                               fault := some (x.fault.getD (c, BitVec.ofNat 64 (if c = Cause.fabricLost then x.home else qVec x.pkt))) }) s

/-- A near-bank program that runs stops with its fault, and one that is queued leaves its unit (R358). -/
def failProg (u op : Nat) (c : W8) (s : State) : State :=
  match (s.unit u).run, (s.unit u).queue.find? fun p => p.op == op with
  | some p, none => if p.op = op then faultProg u { p with lost := none } c p.progress s else s
  | _, some p => completeOp p.tid op (pendFaultOf p.tid 5 c (BitVec.ofNat 64 p.progress) (count32 (u / 64) 4 (s.onUnit u fun x =>
      { x with queue := x.queue.filter fun y => y.op != op })))
  | none, none => s

/-- Data of a packet arrives with an uncorrectable flit, and its receiver reports ECC_UNCORRECTABLE (R409, R466); data in flight of
a gather or a scatter is fatal (R274), and a message of the steal exchange is a header alone. -/
def spoilOne (s : State) : State :=
  let r := pickFlying s
  let s := r.2.countUe
  match r.1 with
  | some (.acc tid i) => s.onThread tid fun t => { t with flight := t.flight.modify i fun a => { a with bad := true } }
  | some (.op tid id) => (match (s.thread tid).ops.find? fun o => o.id == id with
    | some o => (match o.kind with
      | .vgth (g :: _) _ | .vsct (g :: _) _ => fatalEcc tid o g.va s
      | _ => failOp tid id Cause.ecc s)
    | none => s)
  | some (.land i) => (match s.landing[i]? with
    | some p => landFail p Cause.ecc { s with landing := s.landing.eraseIdx i }
    | none => s)
  | some (.copy core id) => failCopy core id Cause.ecc s
  | some (.stage k) => failFetch k Cause.ecc s
  | some (.query q) => failQuery q Cause.ecc s
  | some (.near u op) => failProg u op Cause.ecc s
  | some (.msg _) | none => s

/-- A header is corrected (`kind` 0), or dropped with its packet (1), and no context is blamed; a data flit that cannot be corrected
is delivered poisoned (any other; R409). -/
def execFabricHeaderCheck (die site link kind : Nat) (s : State) : Host.Outcome State Fault Refusal :=
  .next (match kind with
    | 0 => { s with hcorr := s.hcorr + 1 }
    | 1 => fabLogPut die site link 1 { dropOne s with hdrop := s.hdrop + 1 }
    | _ => spoilOne s)

/-- Byte by byte, by a free value: what a store that timed out has written (R410, log 8). -/
def mixBytes (mask old new : Nat) : Nat → Nat
  | 0 => 0
  | n + 1 => (if mask.testBit 0 then new % 256 else old % 256) + 256 * mixBytes (mask / 2) (old / 256) (new / 256) n

/-- A store or an atomic that timed out may have been performed (R410). -/
def lostStore (tid : Nat) (a : Acc) (s : State) : State :=
  let k := taskOf tid
  if a.isLoad || homeGone s a.pa || !(a.kind == .store || a.kind == .atm) || hostHolds s k a.pa a.n then s
  else
    let r := s.drawFree
    let old := viewRead r.2 (viewTag r.2 k) a.pa a.n
    let new := if a.kind == .atm then atomNew a.aop a.n a.code old a.data a.data2 else a.data
    dropTagged k a.pa a.n (taskWrite k a.pa a.n (mixBytes r.1.toNat old new a.n) r.2)

/-- What has lost a packet has waited for OPTIMEOUT. -/
def timedOut (s : State) (l : Option Nat) : Bool := l.any fun x => x + s.opTimeout ≤ s.time

/-- An access of a thread whose response has not come within OPTIMEOUT ticks of its request faults; one that waits at its home for
resolution has been answered. Behind the accesses, `idx` counts the thread's engine operations, which time out that long after they
lost a packet (R410, log 19). -/
def timeoutThread (tid idx : Nat) (s : State) : State :=
  let t := s.thread tid
  match t.flight[idx]? with
  | some a => if overdue s a then retireAcc tid idx (failAcc tid a Cause.fabricLost (lostStore tid a s)) else s
  | none => match t.ops[idx - t.flight.length]? with
    | some o => if timedOut s o.lost then failOp tid o.id Cause.fabricLost s else s
    | none => s

/-- The requesters that are no thread, by the unit number: 64 the core's COPY packets' commands, 65 its staging engine, 66 the query
`idx`, and 67 the programs of the near-bank unit that `core` names (R410). -/
def execFabricOpTimeout (core unit idx : Nat) (s : State) : Host.Outcome State Fault Refusal :=
  .next (match unit with
    | 64 => (match (s.core core).cpy[idx]? with
      | some x => if timedOut s x.lost then failCopy core x.id Cause.fabricLost s else s
      | none => s)
    | 65 => if (s.task idx).core == core && timedOut s (s.task idx).lost then failFetch idx Cause.fabricLost s else s
    | 66 => (match tfind s.queries idx with
      | some x => if timedOut s x.lost then failQuery idx Cause.fabricLost s else s
      | none => s)
    | 67 => (match (s.unit core).progs[idx]? with
      | some p => if timedOut s p.lost then failProg core p.op Cause.fabricLost s else s
      | none => s)
    | _ => match unitTid s core unit with
      | some tid => timeoutThread tid idx s
      | none => s)

/-! Losses (R412, R413). -/

/-- The thieves of a lost core: what it has given is placed, and every other attempt fails (R411, R413). -/
def settleThieves (c : Nat) (s : State) : State :=
  ((List.range Config.cores).filter fun t => ((s.core t).thief.map Attempt.victim) == some c).foldl (fun s t =>
    match tfind (s.core c).lends t, (s.core t).thief with
    | some l, some a => if l.tag == a.tag then (match l.given with
        | some e => let m : Msg := ⟨3, t, c, a.tag, some e⟩
          (placeStolen m e s).getD (send m s)
        | none => failAttempt t s) else failAttempt t s
    | _, _ => failAttempt t s) s

/-- An entry confirmed to a lost core counts as its own (R413). -/
def settleOwnAttempt (c : Nat) (s : State) : State :=
  match (s.core c).thief with
  | none => s
  | some a =>
    let given := match tfind (s.core a.victim).lends c with
      | some l => if l.tag == a.tag then l.given else none
      | none => none
    s.onCore c fun x => { x with thief := none, deque := x.deque ++ given.toList }

/-- Core `c` leaves the machine until the next reset (R413). -/
def loseCore (c : Nat) (s : State) : State :=
  if (s.core c).lost then s
  else
    let s := settleThieves c (settleOwnAttempt c (s.onCore c fun x => { x with lost := true, cpy := [], layout := [], l1 := [] }))
    let resident := (s.tasks.filter fun e => e.2.core == c && e.2.st == .running).map Prod.fst
    let s := resident.foldl (fun s k => linkDownTask false k s) s
    { s with ctxs := s.ctxs.map fun (e : Nat × Ctx) => (e.1, { e.2 with cores := e.2.cores.filter (· != c) })
             launches := s.launches.map fun (e : Nat × Launch) => (e.1, { e.2 with partition := e.2.partition.filter (· != c) }) }

/-- Work on a lost core ends bit by bit: staged tasks, and one identifier of its deque (R413). -/
def drainCore (c : Nat) (s : State) : State :=
  let staged := (s.tasks.filter fun e => e.2.core == c && e.2.st == .staged).map Prod.fst
  faultDeque c Cause.linkDown (fun _ => true) (staged.foldl (fun s k => faultStaged k Cause.linkDown s) s)

/-- Seeds and tail ranges that were to enter a lost core's deque. -/
def drainSeeds (s : State) : State :=
  s.launches.foldl (fun s e => faultSeeds e.1 Cause.linkDown (fun c => (s.core c).lost) s) s

/-- The logical core at a site (R11): the n-th of the 28 lowest working sites. -/
def coreAt (s : State) (die site : Nat) : Option Nat :=
  ((List.range 28).map (28 * die + ·)).find? fun c => siteOf s c == site

/-- The bytes of a line that memory holds where its newest copy is lost: free values (R413, log 8, 22). -/
def loseLine (line : Nat) (s : State) : State :=
  (List.range 16).foldl (fun s i =>
    let r := s.drawFree
    { r.2 with mem := bytesSet r.2.mem (128 * line + 8 * i) 8 r.1.toNat }) s

/-- A slice is lost with the dirty and the speculative lines that it held (R413), and the requests to it that are on their way are
not answered (R412). -/
def loseSlice (h : Nat) (s : State) : State :=
  if s.lostSlices.contains h then s
  else
    let s := (s.l2.filter fun e => e.2.dirty && sliceOf (128 * e.1) == h).foldl (fun s e => loseLine e.1 s) s
    { s with lostSlices := h :: s.lostSlices, l2 := s.l2.filter fun e => sliceOf (128 * e.1) != h
             spec := s.spec.filter fun x => sliceOf (32 * x.sector % 2 ^ 52) != h
             threads := s.threads.map fun e => if e.2.flight.isEmpty then e else (e.1, { e.2 with
               flight := e.2.flight.map fun a => if a.out.isSome && !a.marker && sliceOf a.pa == h then { a with lost := true } else a }) }

/-- Operations of units beneath a lost die's memory: each leaves FABRIC_LOST pending with its issuer (R410). -/
def dropPrograms (d : Nat) (s : State) : State :=
  (s.nb.filter fun e => e.1 / 128 == d).foldl (fun s e =>
    let ps := e.2.run.toList ++ e.2.queue
    let s := ps.foldl (fun s p => completeOp p.tid p.op (pendFaultOf p.tid 5 Cause.fabricLost 0 s)) s
    s.onUnit e.1 fun x => { x with run := none, queue := [] }) s

/-- Queries whose home stack is lost end with FABRIC_LOST and the stack's number (R377). -/
def dropQueries (d : Nat) (s : State) : State :=
  { s with queries := s.queries.map fun (e : Nat × Query) =>
      if e.2.home / 2 == d then
        (e.1, { e.2 with stopped := true, fault := some (e.2.fault.getD (Cause.fabricLost, BitVec.ofNat 64 e.2.home)) }) else e }

def dropLanding (d : Nat) (s : State) : State :=
  let gone := fun (p : Landing) => p.open' && homeDie (128 * p.line) == d
  (s.landing.filter gone).foldl (fun s p => landFail p Cause.fabricLost s) { s with landing := s.landing.filter fun p => !gone p }

/-- The core pops (R147); what stands in a lost core's deque, or was to enter it, ends instead (R413). -/
def execDequePop (core : Nat) (s : State) : Host.Outcome State Fault Refusal :=
  .next (if (s.core core).lost then drainSeeds (drainCore core s) else dequePop core s)

/-- A launch that writes its record while it loses cores with a die ends PARTIAL, and writes the record anew (R444, log 65). -/
def reopenRecords (d : Nat) (s : State) : State :=
  { s with launches := s.launches.map fun e =>
      if e.2.recGw.any (s.time ≤ ·) && e.2.refused.isNone && e.2.partition.any (fun c => c / 28 == d)
      then (e.1, { e.2 with linkDown := true, recGw := none }) else e }

/-- A die stops: its cores, its slices and its stacks are lost (R412). -/
def dieLoss (d : Nat) (s : State) : State :=
  let s := if s.lostDies.contains d then s
    else
      let s := reopenRecords d s
      let s := reportLoss d 8 (fabLogPut d 0 0 4 { s with lostDies := d :: s.lostDies })
      let s := ((List.range 28).map (28 * d + ·)).foldl (fun s c => loseCore c s) s
      dropLanding d (dropQueries d (dropPrograms d s))
  drainSeeds (((List.range 28).map (28 * d + ·)).foldl (fun s c => drainCore c s) s)

def execDieLoss (d : Nat) (s : State) : Host.Outcome State Fault Refusal := .next (if 8 ≤ d then s else dieLoss d s)

def bypassed (s : State) (die site : Nat) : Bool := (tget 0 s.bypass die).getLsbD site
def bypassCount (s : State) (die : Nat) : Nat := ((List.range 32).filter (bypassed s die)).length

/-- A router goes into bypass, with the packets inside it, its core and its slice; a fifth of one die loses the die (R405, R412,
R413). -/
def routerFailure (die site : Nat) (s : State) : State :=
  let s := if bypassed s die site then s
    else
      let s := dropSome (fun _ => true) s
      let s := fabLogPut die site 0 2 { s with bypass := tput s.bypass die (tget 0 s.bypass die ||| (1#32 <<< site)) }
      let s := loseSlice (32 * die + site) s
      let s := match coreAt s die site with
        | some c => loseCore c s
        | none => s
      reportLoss (32 * die + site) ((coreAt s die site).getD 255) s
  let s := match coreAt s die site with
    | some c => drainSeeds (drainCore c s)
    | none => s
  if 5 ≤ bypassCount s die then dieLoss die s else s

def execRouterFailure (die site : Nat) (s : State) : Host.Outcome State Fault Refusal :=
  .next (if 8 ≤ die || 32 ≤ site then s else routerFailure die site s)

/-- Two dies share a bridge; the I/O die, 8, has one to each of CD0 and CD1 (R403). -/
def bridged (a b : Nat) : Bool :=
  let near := fun a b => a < b && ((b < 8 && (b = a + 2 || (b = a + 1 && a % 2 = 0))) || (b = 8 && a < 2))
  near a b || near b a
def bridgeKey (a b : Nat) : Nat × Nat := (min a b, max a b)

/-- A lost bridge drops the packets on it and starts a re-stitch (R406). -/
def execBridgeLoss (a b : Nat) (s : State) : Host.Outcome State Fault Refusal :=
  .next (if !bridged a b || s.lostBridges.contains (bridgeKey a b) then s
    else reportLoss (min a b) (max a b) (fabLogPut (min a b) 0 0 3
      { dropSome (crosses s) s with lostBridges := bridgeKey a b :: s.lostBridges, stitching := true }))

/-- So does one that comes back (R406). -/
def execBridgeReturn (a b : Nat) (s : State) : Host.Outcome State Fault Refusal :=
  .next (if !s.lostBridges.contains (bridgeKey a b) then s
    else { s with lostBridges := s.lostBridges.filter (· != bridgeKey a b), stitching := true })

/-- New route tables are loaded, and launches that were held are seeded (R407). -/
def execRestitchComplete (s : State) : Host.Outcome State Fault Refusal :=
  .next (if !s.stitching then s
    else (s.launches.map Prod.fst).foldl (fun s n => pushSeeds n s)
      { s with stitching := false, fabGen := s.fabGen + 1, launches := s.launches.map fun e => (e.1, { e.2 with held := false }) })

end Sys2Proof.Machine
end

