-- ==== Sys2Proof/Machine/Power.lean ====
section
/-!
DEFINITION. Reset and bring-up, firmware load, power and current limits, scrubbing and lifetime counters (R10 to R12, R17, R18,
R458, R459, R462 to R473).
-/
namespace Sys2Proof.Machine

/-! Readiness (R471). -/

def setReady (i : Nat) (s : State) : State := { s with ready := s.ready ||| (1#10 <<< i) }

/-- ALL: bits 0 to 6 and every link (R471). -/
def checkAll (s : State) : State :=
  if (List.range 7).all (readyBit s) && s.links == BitVec.allOnes 16 then setReady 7 s else s

/-! Reset (R458, R459, R462, R468, R471). -/

/-- Sites out of use for the next repair: those it passed over before, and those whose routers were lost in service (R413). -/
def lostSites (s : State) : List Nat :=
  s.deadSites ++ ((List.range 256).filter fun x => bypassed s (x / 32) (x % 32) && !s.deadSites.contains x)

/-- The counters after a reset: those of errors stand and the lifetime ones count it; a loss of power clears the former, and gives
the latter as flash holds them. The rows that were queued are repaired (R467, R468). -/
def resetLife (power : Bool) (s : State) : Life :=
  let l := (creditPoint s).life
  let z := if power then l.kept else l.now
  let x : Life := { kept := l.kept, now := { z with resets := z.resets + 1 }, rowsFixed := l.rowsFixed ++ l.rowQueue }
  if power then x else { x with ceCore := l.ceCore, ceL2 := l.ceL2, ceHbm := l.ceHbm, ue := l.ue }

/-- What a reset leaves as it was: the turns to come, the flash with its repair map, what the outside has seen, the sites out of use,
the counters that survive (R468), and memory, unless power was lost (log 9). -/
def resetState (power : Bool) (s : State) : State :=
  { State.reset with agenda := s.agenda, mem := if power then [] else s.mem, poison := if power then [] else s.poison, flash := s.flash
                     hostEvents := s.hostEvents, hostReads := s.hostReads, sent := s.sent, deadSites := lostSites s, siteMap := s.siteMap
                     free := s.free, nextId := s.nextId, life := resetLife power s }

/-- Bring-up goes on: Umber runs and no failure has been found. -/
def bringingUp (s : State) : Bool := readyBit s 1 && !readyBit s 9

/-- A stack has trained (R18). -/
def execStackTrained (st : Nat) (s : State) : Host.Outcome State Fault Refusal :=
  .next (if 16 ≤ st || !bringingUp s || readyBit s 2 then s else { s with hbmMask := s.hbmMask ||| (1#16 <<< st) })

/-- Bring-up fails with a code (R471). -/
def failWith (code : Nat) (s : State) : State := setReady 9 { s with failcode := code }

/-- The smallest pool left by repair (R19, R462). -/
def poolMin (s : State) : Nat := (List.range Config.cores).foldl (fun m c => min m (poolBlocks s c)) 64

/-- Every die has 28 working cores (R12, R462). -/
def coresSuffice (s : State) : Bool := (List.range 8).all fun d => 28 ≤ (workingSites s d).length

/-- The map of a die's logical cores that repair makes: a core keeps its site while that is one of the die's 28 lowest working ones, and
the sites that are left pass to the other cores in ascending order (R12, R413, R462, log 4). -/
def dieMap (s : State) (die : Nat) : List (Nat × Nat) :=
  let sites := coreSites s die
  let cores := (List.range 28).map (28 * die + ·)
  let keeps := fun c => sites.contains (siteOf s c)
  let kept := (cores.filter keeps).map fun c => (c, siteOf s c)
  kept ++ (cores.filter fun c => !keeps c).zip (sites.filter fun i => !kept.any fun p => p.2 == i)

/-- The repair map of the part, which the flash keeps (R462). -/
def repairSites (s : State) : SMap Nat :=
  ((List.range 8).flatMap (dieMap s)).foldl (fun m p => tput m p.1 p.2) []

/-- Repair is done: CORES with its map, or FAIL with its code: a die without 28 working cores is never ready (R12, R462, R471). -/
def repairDone (code : Nat) (s : State) : State :=
  if !bringingUp s || !readyBit s 2 || readyBit s 3 then s
  else if code = 1 || !coresSuffice s then failWith 1 s
  else if code = 2 then failWith 2 s
  else { setReady 3 s with regpoolMin := poolMin s, siteMap := repairSites s }

/-- The next readiness bit, once those before it are set (R471). -/
def bringUp (i : Nat) (s : State) : State :=
  if bringingUp s && !readyBit s i && (List.range i).all (readyBit s) then checkAll (setReady i s) else s

/-- RESET, stage by stage: the reset itself, and what bring-up then does by itself: the fuses; the verification of the firmware, after
which Umber runs, or the device is in recovery; the end of training, in which some stack must have trained; the route tables, which
may fail to load; the front end and the near-bank units. Repair is an event of its own (R458, R459, R462, R471). -/
def reset (stage : ResetStage) (s : State) : State :=
  match stage with
  | .start powerLost => resetState powerLost s
  | .fuses => if readyBit s 0 then s else { setReady 0 s with fuses := true }
  | .firmware => if !readyBit s 0 || mbxLive s then s else if imageOk (runningImage s) then setReady 1 s else setReady 8 s
  | .trained => if bringingUp s && s.hbmMask = 0 then failWith 4 s else bringUp 2 s
  | .routes loaded => if !loaded && bringingUp s && readyBit s 3 && !readyBit s 4 then failWith 3 s else bringUp 4 s
  | .frontEnd => bringUp 5 s
  | .nearUnits => bringUp 6 s

def execReset (stage : ResetStage) (s : State) : Host.Outcome State Fault Refusal := .next (reset stage s)

/-- FW_LOAD: in recovery an image that passes goes to the flash and the device resets (R459). Its arguments stand in the mailbox, and the
event has no operand but an empty one. -/
def fwLoad (s : State) : State :=
  let a := argOf s 0
  let n := argOf s 1
  if !readyBit s 8 then endCommand rDenied s
  else if 2 ^ 51 < a + n then endCommand rBadarg s
  else
    let img := toBytes n (homeRead s (hostBase + a) n)
    if imageOk img then resetState false { endCommand rOk s with flash := some img } else endCommand rDenied s

def execFwLoad (_ : Unit) (s : State) : Host.Outcome State Fault Refusal := runCommand 9 fwLoad s

def execRepairDone (code : Nat) (s : State) : Host.Outcome State Fault Refusal := .next (repairDone code s)

/-- An Axyel link has trained (R471). -/
def execLinkTrained (l : Nat) (s : State) : Host.Outcome State Fault Refusal :=
  .next (if 16 ≤ l || !readyBit s 0 || readyBit s 8 then s else checkAll { s with links := s.links ||| (1#16 <<< l) })

/-! Power (R470). -/

/-- A 1 ms average over the cap raises P by one point, and by another after each further millisecond over it. -/
def execPowerOverCap (watts : Nat) (s : State) : Host.Outcome State Fault Refusal :=
  .next (if watts ≤ s.cap then s
    else
      let s := { s with watts := BitVec.ofNat 16 watts, underAt := none }
      if s.overAt.any fun t => s.time < t + ticksUs s 1000 then s
      else retarget { s with overAt := some s.time, ppoint := min 7 (s.ppoint + 1) })

/-- A 1 ms average at or below the cap: ten milliseconds of them below 95 % of it lower P, never below OPLIM. -/
def execPowerUnderCap (watts : Nat) (s : State) : Host.Outcome State Fault Refusal :=
  .next (if s.cap < watts then s
    else
      let s := { s with watts := BitVec.ofNat 16 watts, overAt := none }
      if 95 * s.cap ≤ 100 * watts then { s with underAt := none }
      else match s.underAt with
        | none => { s with underAt := some s.time }
        | some t => if s.time < t + ticksUs s 10000 then s
          else retarget { s with underAt := some s.time, ppoint := max s.oplim (s.ppoint - 1) })

/-- A level of the core-rail current, and what the last millisecond has left of the earlier ones (R470). -/
def noteAmps (amps : Nat) (s : State) : State :=
  let recent := s.amps.takeWhile fun x => s.time < x.1 + ticksUs s 1000
  { s with amps := (s.time, BitVec.ofNat 16 amps) :: recent ++ (s.amps.drop recent.length).take 1 }

/-- Above 6000 A every quadrant and sequencer skips issue. -/
def execCurrentLimit (amps : Nat) (s : State) : Host.Outcome State Fault Refusal :=
  .next (if amps ≤ 6000 then s else { noteAmps amps s with limited := true })

def execCurrentFallsBelowLimit (amps : Nat) (s : State) : Host.Outcome State Fault Refusal :=
  .next (if 6000 ≤ amps then s else { noteAmps amps s with limited := false })

/-! Errors and lifetime (R465 to R468). -/

/-- The counts of a scrub pass end with it: every row is read once in 24 hours (R467). -/
def scrubPass (s : State) : State :=
  if s.time < s.life.scrubAt + ticksUs s (24 * 3600 * 1000000) then s
  else { s with life := { s.life with scrubRows := [], scrubAt := s.time } }

/-- A correctable error of a row; the sixteenth of the pass queues the row for repair (R467). -/
def rowError (row : Nat) (s : State) : State :=
  let s := scrubPass s
  let n := tget 0 s.life.scrubRows row + 1
  { s with life := { s.life with ceHbm := s.life.ceHbm + 1, scrubRows := tputD 0 s.life.scrubRows row n
                                 rowQueue := if n = 16 && !s.life.rowQueue.contains row then s.life.rowQueue ++ [row] else s.life.rowQueue } }

/-- Blocks of a core's pool that no running team holds. -/
def idleBlocks (s : State) (c : Nat) : Nat := freePool s c

/-- An error of a memory that the scrub, or the memory's own check, finds. `unit` 0 is an L2 line or an HBM4E row: a correctable error
is counted, an uncorrectable one poisons the line, and both are when both occur (R465 to R467, R473). 1 is word `line` of task `row`'s
scratchpad; 2 is another array of core `row`, whose uncorrectable errors end a task (R430) and are not this event's; 3 is a pool
block of core `row` that no running team holds, which is retired (R464, R473). No scrub changes a value. -/
def patrolScrub (unit row line : Nat) (e : EccReport) (s : State) : State :=
  match unit with
  | 0 =>
    let s := if !e.ce then s
      else if (s.l2line line).inL2 then { s with life := { s.life with ceL2 := s.life.ceL2 + 1 } }
      else rowError row s
    if e.ue then
      { s.countUe with poison := s.poison ++ ((List.range 128).map (128 * line + ·)).filter fun a => !s.poison.contains a }
    else s
  | 1 =>
    let s := if e.ce then s.countCore else s
    if e.ue && thas s.tasks row && 4 * line < (s.task row).size then
      s.countUe.onTask row fun t => { t with spoison := t.spoison ++ ((List.range 4).map (4 * line + ·)).filter fun a => !t.spoison.contains a }
    else s
  | 2 => if e.ce then s.countCore else s
  | 3 =>
    let s := if e.ce then s.countCore else s
    if e.ue && row < Config.cores && 0 < idleBlocks s row then s.countUe.onCore row fun c => { c with retiredBlks := c.retiredBlks + 1 } else s
  | _ => s

def execPatrolScrub (unit row line : Nat) (e : EccReport) (s : State) : Host.Outcome State Fault Refusal :=
  .next (patrolScrub unit row line e s)

/-- Seconds in a bin of temperature. -/
def addTj (tj : BitVec 4) (secs : Nat) (h : SMap W64) : SMap W64 := tputD 0 h tj.toNat (tget 0 h tj.toNat + BitVec.ofNat 64 secs)

/-- The lifetime counters are written to flash; the seconds are those that the device has spent in two bins of temperature since the
last save (R468). -/
def execLifetimeCounterSave (tj : BitVec 4) (secs : Nat) (tj' : BitVec 4) (secs' : Nat) (s : State) : Host.Outcome State Fault Refusal :=
  .next (let s := creditPoint s
    let l := { s.life.now with tjhist := addTj tj' secs' (addTj tj secs s.life.now.tjhist) }
    { s with life := { s.life with now := l, kept := l } })

end Sys2Proof.Machine
end

