-- ==== Sys2Proof/Machine/Uses.lean ====
section
/-!
DEFINITION. The registers that an instruction names: what it reads, what it writes, and the fixed latency of its result
(R76, R188 to R192).
-/
namespace Sys2Proof.Machine

/-- Registers read and written, and the latency when the result's is fixed. -/
structure Uses where
  reads : List RegName := []
  writes : List RegName := []
  fixed : Option Nat := none
  deriving DecidableEq, Repr

def nS (r : SReg) : List RegName := [.s r.toNat]
def nS2 (r : SReg) : List RegName := [.s r.toNat, .s (r.toNat + 1)]
def nSN (r n : Nat) : List RegName := (List.range n).map fun i => .s (r + i)
def nP (p : Pred) : List RegName := if p = 7 then [] else [.p p.toNat]
def nV (r : VReg) : List RegName := [.v r.toNat]
def nVN (r n : Nat) : List RegName := (List.range n).map fun i => .v (r + i)

end Sys2Proof.Machine

namespace Sys2Proof
open Machine

/-- A register, or a pair for a 64-bit operand. -/
def SSrc.names (wide : Bool) : SSrc → List RegName
  | .reg r => if wide then nS2 r else nS r
  | .lit _ => []

def VSrc.names (wide : Bool) : VSrc → List RegName
  | .vec r => if wide then nVN r.toNat 2 else nV r
  | .sca r => if wide then nS2 r else nS r
  | .lit _ => []

def PSrc.names : PSrc → List RegName
  | .pred p => nP p
  | .lit _ => []

def Tile.names : Tile → List RegName
  | .imm _ => []
  | .ind r => nS r

def Quad.names : Quad → List RegName
  | .vec q => nVN (4 * q.toNat) 4
  | .sca q => nSN (4 * q.toNat) 4

/-! The operand records. -/

def SBin.uses (o : SBin) : Uses := ⟨nS o.a ++ o.b.names false, nS o.d, some 2⟩
def VBin.uses (lat : Nat) (o : VBin) : Uses :=
  let w := o.ty == .x64
  ⟨o.a.names w ++ o.b.names w, nVN o.d.toNat (if w then 2 else 1), some lat⟩
def VTri.uses (lat : Nat) (o : VTri) : Uses :=
  ⟨o.a.names false ++ o.b.names false ++ o.c.names false, nV o.d, some lat⟩
def VCmp.uses (lat : Nat) (o : VCmp) : Uses :=
  let w := o.ty == .x64
  ⟨o.a.names w ++ o.b.names w, nP o.d, some lat⟩
def VUn.uses (lat : Nat) (o : VUn) : Uses := ⟨o.a.names false, nV o.d, some lat⟩
def VScan.uses (o : VScan) : Uses := ⟨o.a.names false, nV o.d, some 8⟩

/-- Data registers of a memory form: `n` bytes, scalar or vector. -/
def MemF.dataNames (scalar : Bool) (n : Nat) (o : MemF) : List RegName :=
  if scalar then nSN (o.data.toNat % 64) (wordsOf n) else nVN o.data.toNat (wordsOf n)
/-- The address registers (R80). -/
def MemF.baseNames (glb : Bool) (o : MemF) : List RegName :=
  if o.bk then nVN o.base.toNat (if glb then 2 else 1) else nSN (o.base.toNat % 64) (if glb then 2 else 1)
def MemF.loads (scalar glb : Bool) (n : Nat) (o : MemF) : Uses := ⟨o.baseNames glb, o.dataNames scalar n, none⟩
def MemF.stores (scalar glb : Bool) (n : Nat) (o : MemF) : Uses := ⟨o.baseNames glb ++ o.dataNames scalar n, [], none⟩
def MemF.accN (o : MemF) : Nat := accBytes (accCode o)

/-- `atm`: its operands are a value, or two for `cas`, and with RET it writes the old value (R281). -/
def atmUses (f : AtmFn) (o : MemF) : Uses :=
  let w := wordsOf (atomBytes o)
  ⟨o.baseNames f.glb ++ nVN o.data.toNat (if f.aop = 7 then 2 * w else w), if f.ret then nVN o.data.toNat w else [], none⟩

/-- The registers that an instruction's operands name; `seq` says that a sequencer context issues it. The guard is added
by `usesOf`. `xacq`, `xrel` and `rgn` name blocks and a set, which they check themselves (R193, R194, R198). -/
def Instr.operands (seq : Bool) : Instr → Uses
  | .sadd _ o | .ssub _ o | .smul _ o | .sdiv _ o | .sand _ o | .sor _ o | .sxor _ o | .sshl _ o | .sshr _ o
  | .smin _ o | .smax _ o | .sbfe _ o => o.uses
  | .scmp _ o => let w := o.ty == .x64; ⟨(if w then nS2 o.a else nS o.a) ++ o.b.names w, nP o.d, some 2⟩
  | .ssel _ o =>
    let w := o.ty == .x64
    ⟨(if w then nS2 o.a else nS o.a) ++ o.b.names w ++ nP o.c, if w then nS2 o.d else nS o.d, some 2⟩
  | .smov _ o | .sli _ o => let w := o.ty == .x64; ⟨o.b.names w, if w then nS2 o.d else nS o.d, some 2⟩
  | .sbit _ o => ⟨nS o.a ++ (if 4 ≤ o.f.toNat then o.b.names false else []), nS o.d, some 2⟩
  | .swide _ o => ⟨nS2 o.a ++ o.b.names (o.ty == .x64), nS2 o.d, some 2⟩
  | .qsub _ a | .nbrun _ a => ⟨nS2 a, [], none⟩
  | .cland _ d a _ _ => ⟨nV d ++ nS2 a, [], none⟩
  | .trapShort _ a | .trap _ _ a => ⟨nS2 a, [], none⟩
  | .sregRead _ d _ => ⟨[], nS d, some 2⟩
  | .sregWrite _ a _ => ⟨nS a, [], none⟩
  | .sregSwap _ d a _ => ⟨nS a, nS d, some 2⟩
  | .brpAny _ p _ | .brpAll _ p _ => ⟨nP p, [], none⟩
  | .jmpi _ a => ⟨nS2 a, [], none⟩
  | .call _ d _ => ⟨[], if seq then nS2 (d.setWidth 6) else nVN d.toNat 2, some 2⟩
  | .ret _ a => ⟨if seq then nS2 (a.setWidth 6) else nVN a.toNat 2, [], none⟩
  | .pop _ o =>
    ⟨(if o.f = 7 then nS2 o.a else if o.f = 6 then [] else nP (o.a.setWidth 3)) ++
     (if o.f = 5 ∨ o.f = 7 then [] else o.b.names), nP o.d, some 2⟩
  | .pvote _ d a _ => ⟨nP a, nS d, some 2⟩
  | .pball _ d a => ⟨nP a, nS2 d, some 2⟩
  | .pballPopc _ d a => ⟨nP a, nS d, some 2⟩
  | .vshfl _ o => ⟨o.a.names false ++ o.b.names false, nV o.d, some 8⟩
  | .vscan _ o | .vred _ o => o.uses
  | .vid _ d b => ⟨(b.map (VSrc.names false)).getD [], nV d, some 4⟩
  | .vbcst _ d a b => ⟨a.names false ++ (b.map (VSrc.names false)).getD [], nV d, some 4⟩
  | .vadd _ o | .vsub _ o | .vmul _ o | .vmin _ o | .vmax _ o | .vand _ o | .vor _ o | .vxor _ o | .vshl _ o | .vshr _ o
  | .vbfe _ o => o.uses 4
  | .vmad _ o | .vbfi _ o => o.uses 4
  | .vbit _ o => ⟨o.a.names false ++ (if 4 ≤ o.f.toNat then o.b.names false else []), nV o.d, some 4⟩
  | .vsel _ o =>
    let w := o.ty == .x64
    ⟨o.a.names w ++ o.b.names w ++ nP o.c, nVN o.d.toNat (if w then 2 else 1), some 4⟩
  | .vcmp _ o => o.uses 4
  | .vfadd _ o | .vfsub _ o | .vfmul _ o | .vfmin _ o | .vfmax _ o | .vfscl _ o => o.uses 6
  | .vffma _ o => o.uses 6
  | .vfcmp _ o => o.uses 6
  | .vfcls _ d a _ => ⟨a.names false, nP d, some 6⟩
  | .vfrcp _ o | .vfrsq _ o | .vfsqrt _ o | .vfexp _ o | .vflog _ o | .vftanh _ o | .vfsinpi _ o | .vfcospi _ o => o.uses 14
  | .vcvt _ o => ⟨o.a.names false ++ (if o.dst.isInt || o.dst == .f32 then [] else nV o.d), nV o.d, some 6⟩
  | .vfrnd _ o => o.uses 6
  | .vdot2 _ o | .vdot4 _ o => o.uses 8
  | .vmov _ d b ty => let w := ty == .x64; ⟨b.names w, nVN d.toNat (if w then 2 else 1), some 4⟩
  | .vsrt _ o => let n := nVN o.d.toNat (2 * 2 ^ o.lr.toNat); ⟨n, n, some 10⟩
  | .vmrg _ o => ⟨nVN o.a.toNat 2 ++ nVN o.b.toNat 2, nVN o.d.toNat (if o.lo then 2 else 4), some 10⟩
  | .vtopk _ o => ⟨nVN o.d.toNat 2 ++ nVN o.a.toNat 2, nVN o.d.toNat 2, some 10⟩
  | .sld _ o => o.loads true true o.accN
  | .sst _ o => o.stores true true o.accN
  | .vld _ o => o.loads false true o.accN
  | .vst _ o => o.stores false true o.accN
  | .vgth _ o | .vsct _ o => o.stores true true 4
  | .lds _ o => o.loads false false o.accN
  | .sts _ o | .mst _ o => o.stores false false o.accN
  | .gld _ o => o.loads false false 4
  | .gst _ o => o.stores false false 4
  | .ldx _ o => o.loads false true 4
  | .cpf _ o | .copInv _ o | .copWb _ o | .copWbinv _ o => ⟨o.baseNames true, [], none⟩
  | .atm _ f o => atmUses f o
  | .gbar _ d => ⟨[], nS d, none⟩
  | .mon _ d a => ⟨nS2 a, nS2 d, none⟩
  | .monSp _ d a => ⟨nS a, nS2 d, none⟩
  | .mwait _ d b => ⟨nS b, nS2 d, none⟩
  | .sgacqE _ d _ | .sgacqF _ d _ | .xacqTry _ d _ => ⟨[], nS d, none⟩
  | .sgrel _ _ b => ⟨nS b, [], none⟩
  | .spawn _ a => ⟨nS2 a, [], none⟩
  | .spawnr _ a b => ⟨nV a ++ nS2 b, [], none⟩
  | .join _ d a b | .fpoll _ d a b => ⟨nS2 a, nS2 d ++ nS b, none⟩
  | .fset _ a => ⟨nS2 a, [], none⟩
  | .fsetAt _ d a b => ⟨nS2 a ++ nS2 b, nS d, none⟩
  | .fflt _ a b => ⟨nS a ++ nS2 b, [], none⟩
  | .ffltAt _ d a b c => ⟨nS a ++ nS2 b ++ nS2 c, nS d, none⟩
  | .tmark _ a => ⟨nS a, [], none⟩
  | .cpy _ a | .strm _ _ a => ⟨nSN (8 * a.toNat) 8, [], none⟩
  | .qput _ d a b | .qputX2 _ d a b => ⟨nS2 a ++ nS b, nS2 d, none⟩
  | .lbind _ a b => ⟨nS a ++ nS2 b, [], none⟩
  | .laddr _ d c a b => ⟨nS a ++ b.names, nVN d.toNat 2 ++ nP c, none⟩
  | .mma _ t _ _ _ | .mmaSh _ t _ _ _ | .accZero _ t _ | .accCommit _ t _ | .accDiscard _ t _ => ⟨t.names, [], none⟩
  | .accMove _ t u _ => ⟨t.names ++ u.names, [], none⟩
  | .ardv _ o => ⟨o.tile.names, nV o.d, none⟩
  | .ardvRaw _ o => ⟨o.tile.names, nVN o.d.toNat 2, none⟩
  | .adrn _ o => ⟨o.tile.names ++ nSN (8 * o.a.toNat) 8, [], none⟩
  | _ => {}

/-- The guard counts as a source (R188). -/
def Instr.usesOf (seq : Bool) (h : Head) (i : Instr) : Uses :=
  let u := i.operands seq
  { u with reads := nP h.g ++ u.reads }

end Sys2Proof
end

