-- ==== Sys2Proof/Machine/Issue.lean ====
section
/-!
DEFINITION. Issue: the choice of the head run, fetching, the checks made at issue, and what an issue leaves behind (R73,
R85, R181 to R185, R189 to R192, R200, R222, R316, R338, R478).
-/
namespace Sys2Proof.Machine

/-! The head run (R184). -/

def Thread.active (t : Thread) : List Nat :=
  (t.lanes.zipIdx.filter fun p => p.1.st == .active).map Prod.snd
def Thread.pcOf (t : Thread) (l : Nat) : Nat := (t.lanes.getD l {}).pc.toNat
def Thread.deferredAt (t : Thread) (l : Nat) : Bool := (t.lanes.getD l {}).deferred

/-- The lowest PC of a list of lanes. -/
def Thread.lowPc (t : Thread) : List Nat → Nat
  | [] => 0
  | [l] => t.pcOf l
  | l :: ls => min (t.pcOf l) (t.lowPc ls)

/-- The lanes of a list at its lowest PC. -/
def Thread.atLow (t : Thread) (ls : List Nat) : List Nat := ls.filter fun l => t.pcOf l == t.lowPc ls

def Thread.clearDeferred (t : Thread) : Thread := { t with lanes := t.lanes.map fun x => { x with deferred := false } }

/-- `select` with no quantum in progress: the lanes not deferred, or all of them once every one is (R184). -/
def Thread.selectFree (t : Thread) : Thread × List Nat :=
  let a := t.active
  let d := a.filter fun l => !t.deferredAt l
  if d.isEmpty then (t.clearDeferred, t.atLow a) else (t, t.atLow d)

/-- The head run, with the quantum and the deferral as the choice leaves them (R184). -/
def Thread.select (t : Thread) : Thread × List Nat :=
  let a := t.active
  if !t.wctl.getLsbD 0 then (t, t.atLow a)
  else if t.q = 0 then t.selectFree
  else
    let u := a.filter fun l => t.p0c.toNat < t.pcOf l
    if u.isEmpty || t.lowPc a != t.p0c.toNat then Thread.selectFree { t with q := 0, h := 0 } else (t, t.atLow u)

/-- The run that issues. After an instruction has waited while a lane that replays a store keeps its place, that lane's run goes
first, so that the store can issue behind which the instruction may be waiting: R184 and R292 leave that open, and it is the model's
choice (log 71). -/
def Thread.choose (t : Thread) : Thread × List Nat :=
  let a := t.active
  let keeps := a.filter fun l => (t.lanes.getD l {}).keep.isSome
  if t.yield && !keeps.isEmpty then (t, a.filter fun l => t.pcOf l == t.lowPc keeps) else t.select

/-! Fetching (R85, R222). -/

/-- Why a fetch fails: cause, address, and whether a translation raised it. -/
abbrev FetchFault := W8 × Nat × Bool

/-- One word of an instruction, read like a plain load (R85). -/
def fetchWord (core tid va : Nat) (s : State) : State × (Nat ⊕ FetchFault) :=
  match translate core (s.taskT tid).cid va .fetch s with
  | (s, .inr c) => (s, .inr (c, va, true))
  | (s, .inl pa) =>
    let a : Acc := { seq := 0, kind := .load, va := va, pa := pa, n := 4 }
    let home := !l1Serves s core tid a pa
    if home && homeGone s pa then (s, .inr (Cause.fabricLost, va, false))
    else if home && poisonedTo s tid pa 4 then (s, .inr (Cause.ecc, va, false))
    else
      let r := loadValue core tid a s
      (r.1, .inl (r.2 % 2 ^ 32))

/-- Words from an address, the first lowest. -/
def fetchWords (core tid : Nat) : Nat → Nat → State → State × (Nat ⊕ FetchFault)
  | 0, _, s => (s, .inl 0)
  | n + 1, va, s =>
    match fetchWord core tid va s with
    | (s, .inr f) => (s, .inr f)
    | (s, .inl w) =>
      match fetchWords core tid n (va + 4) s with
      | (s, .inr f) => (s, .inr f)
      | (s, .inl r) => (s, .inl (w + 2 ^ 32 * r))

/-- The words after the base word (R70). -/
def moreWords (w : Nat) : Nat := match w % 4 with
  | 0 => 0
  | 1 | 2 => 2
  | _ => 4

/-- The words of the instruction at an address as one number (R70). -/
def fetch (core tid va : Nat) (s : State) : State × (Nat ⊕ FetchFault) :=
  match fetchWords core tid 1 va s with
  | (s, .inr f) => (s, .inr f)
  | (s, .inl w) =>
    match fetchWords core tid (moreWords w) (va + 4) s with
    | (s, .inr f) => (s, .inr f)
    | (s, .inl r) => (s, .inl (w + 2 ^ 32 * r))

/-! Readiness and pipes (R181, R182, R316, R338). -/

/-- Waits in which the issue itself is tried again (log 6). -/
def Wait.retries : Wait → Bool
  | .none | .qroom .. | .member _ | .push _ | .counters _ | .slot .. => true
  | _ => false

/-- The thread may be chosen for issue, whatever its next instruction names. The cycle of a fatal fault is still one in which the task's
other threads issue (R431, R435). -/
def issuable (s : State) (core tid : Nat) : Bool :=
  let t := s.thread tid
  let k := s.taskT tid
  !(s.core core).lost && !s.limited && k.st == .running && (k.fatal.isEmpty || k.haltAt = s.time) && !t.retired && t.wait.retries &&
  t.nextIssue ≤ s.time && !t.active.isEmpty && !storeStalled s tid

/-- Opcodes that issue on VB only, and on VA only (R181). -/
def vbOnly (op : Nat) : Bool := op == 0x40 || (0x4D ≤ op && op ≤ 0x4F)
def vaOnly (op : Nat) : Bool :=
  (0x13 ≤ op && op ≤ 0x15) || (0x50 ≤ op && op ≤ 0x5E) || (0x60 ≤ op && op ≤ 0x79) || op == 0x7C || op == 0x7D

def vaOpen (s : State) (p : Pipes) : Bool := p.vaFree ≤ s.time
/-- VB is free, and no other warp holds it (R338). -/
def vbOpen (s : State) (p : Pipes) (core unit : Nat) : Bool :=
  p.vbFree ≤ s.time && (p.vbUntil ≤ s.time || unitTid s core unit == some p.vbOwner)

/-- The pipe on which a warp's instruction issues now: VA if it may. -/
def pipeFor (s : State) (core unit op : Nat) : Option Bool :=
  let p := (s.core core).pipesOf (quadrantOf unit)
  if !vbOnly op && vaOpen s p then some false
  else if !vaOnly op && vbOpen s p core unit then some true
  else none

/-- Where an instruction may issue: on a pipe, or on the sequencer (R316). -/
def mayIssue (s : State) (core unit op : Nat) : Bool :=
  if 32 ≤ unit then (s.core core).seqFree ≤ s.time else (pipeFor s core unit op).isSome

/-- The pipe, or the sequencer, is taken for this cycle. -/
def takePipe (pre : State) (core unit op : Nat) (s : State) : State :=
  s.onCore core fun c =>
    let c := { c with lastIssue := s.time }
    if 32 ≤ unit then { c with seqFree := pre.time + 1, seqLast := unit - 32 }
    else
      let q := quadrantOf unit
      let p := c.pipesOf q
      match pipeFor pre core unit op with
      | some true => { c with pipes := tput c.pipes q { p with vbFree := pre.time + 1, vbLast := unit % 8 } }
      | _ => { c with pipes := tput c.pipes q { p with vaFree := pre.time + 1, vaLast := unit % 8 } }

/-! Checks at issue (R189, R190, R192, R200; their order is log 26). -/

/-- A variable-latency result that the instruction reads or writes is outstanding (R190). -/
def interlocked (t : Thread) (u : Uses) : Bool := t.outstanding.any fun n => (u.reads ++ u.writes).contains n

/-- R189 under CHECK. -/
def undersized (t : Thread) (u : Uses) (now : Nat) : Bool :=
  t.wctl.getLsbD 1 &&
  ((t.pendingNames.any fun n => u.reads.contains n) ||
   (match u.fixed with
    | some l => t.pending.any fun x => x.w.name.any u.writes.contains && now + l ≤ x.due
    | none => false))

def vectorNames (u : Uses) : List Nat := (u.reads ++ u.writes).filterMap fun n => match n with
  | .v r => some r
  | _ => none

/-- The instruction names a vector register outside the open working set (R200). -/
def outsideRegion (t : Thread) (u : Uses) : Bool :=
  match t.region with
  | some w => (vectorNames u).any fun r => !(setOf w).contains r
  | none => false

/-- The fault that an instruction takes at issue, with its address (R189, R192, R200). -/
def issueFault (t : Thread) (seq : Bool) (u : Uses) (now : Nat) : Option (W8 × W64) :=
  if seq then none
  else if undersized t u now then some (Cause.stallUndersized, 0)
  else match lowestUnheld t (vectorNames u) with
    | some r => some (Cause.regUnheld, BitVec.ofNat 64 r)
    | none => if outsideRegion t u && t.wctl.getLsbD 2 then some (Cause.regionStrict, 0) else none

/-! After an issue (R73, R185). -/

/-- The fairness state after an issue of a run; `low` says that the run lay at the lowest PC of any ACTIVE lane when it
was selected (R185, R478). After the issue that writes WCTL it goes by the new value, which R202 leaves open (log 58). -/
def fairness (run : List Nat) (low : Bool) (t : Thread) : Thread :=
  if !t.wctl.getLsbD 0 then t
  else
    let a := t.active
    let apart := a.any fun l => t.pcOf l != t.lowPc a
    let t :=
      if 0 < t.q then { t with q := t.q - 1, h := if t.q = 1 then 0 else t.h }
      else if apart && low then
        (if 2 ^ (t.wctl.toNat / 2 ^ 8 % 16) ≤ t.h + 1
         then { t with q := 2 ^ (t.wctl.toNat / 2 ^ 12 % 16), p0c := BitVec.ofNat 64 (t.lowPc a), h := 0 }
         else { t with h := t.h + 1 })
      else { t with h := 0 }
    if run.any t.deferredAt then t else t.clearDeferred

/-- A wait that was retried is over once the instruction has issued. -/
def endRetry (t : Thread) : Thread := if t.wait.retries then { t with wait := .none } else t

/-- The thread as an issue leaves it. -/
def afterIssue (seq : Bool) (run : List Nat) (low : Bool) (now gap : Nat) (t : Thread) : Thread :=
  let t := endRetry { t with nextIssue := now + gap, delayed := false, noted := false, yield := false }
  if seq then t else fairness run low t

/-- An issue that waits leaves the state as fetching left it, but for the lines asked back from the host, the free values
drawn, the wait entered, and the stall counted (log 6, R125), or but for what a `spawnr` has written (R166). While a lane keeps the
place of a store, attempts of the head run and of that lane alternate (R292). -/
def undoIssue (pre post : State) (tid : Nat) : State :=
  let base := if post.issue.kept then { post with issue := {} } else
    { pre with l2 := post.l2, free := post.free, secstall := post.secstall, waystall := post.waystall }
  base.onThread tid fun t =>
    { t with wait := (post.thread tid).wait, noted := (post.thread tid).noted, nextIssue := pre.time + 1
             yield := !t.yield && t.lanes.any fun x => x.st == .active && x.keep.isSome }

/-- A warp of an ending task that comes to a blocking point later exits there too (R424). -/
def endBlocked (tid : Nat) (s : State) : State :=
  if (s.taskT tid).ending && (s.thread tid).wait.blocked then (leaveJoin tid s).onThread tid (endThread false (isSeq tid)) else s

/-- What an issue leaves behind; `pre` is the state before the instruction took effect. -/
def finishIssue (core unit tid op : Nat) (h : Head) (run : List Nat) (low : Bool) (pre post : State) : State :=
  endBlocked tid (if post.issue.stalled then undoIssue pre post tid
    else
      let gap := max (max 1 h.stall.toNat) post.issue.hold
      let s := takePipe pre core unit op { post with issue := {} }
      s.onThread tid (afterIssue (isSeq tid) run low pre.time gap))

/-- Another attempt is made in the next cycle. -/
def retryNext (tid : Nat) (s : State) : State := s.onThread tid fun t => { t with nextIssue := s.time + 1 }

/-- The most bytes that an instruction stores from one address (R292). -/
def storeBytes : Instr → Nat
  | .spawnr .. | .qputX2 .. => 128
  | .qput .. => 64
  | .cland .. => 256
  | .fsetAt .. | .ffltAt .. => 32
  | .lbind .. => 8
  | _ => 16

/-- The thread as an instruction begins to take effect: the staging copies that it names are marked written, reads as well
as writes (R200), and a store that kept its place after a migration is the one that issues now (R292). -/
def begins (i : Instr) (u : Uses) (run : Mask) (acts : Bool) (t : Thread) : Thread :=
  let named := if acts then ((vectorNames u).filter fun r => thas t.stage r && !t.written.contains r).eraseDups else []
  { t with width := storeBytes i, written := named ++ t.written
           lanes := mapMask run (fun _ x => { x with keep := none }) t.lanes }

/-- The instruction of a run after decoding: it waits, or faults at issue, or takes effect by `run`. One outside the open region is
held back for 8 cycles first, unless it is to fault for that (R200). -/
def issueDecoded (core unit tid op : Nat) (h : Head) (i : Instr) (run : List Nat) (pc : W64) (low : Bool)
    (take : Instr → State → State) (s : State) : State :=
  let t := s.thread tid
  let u := i.usesOf (isSeq tid) h
  if interlocked t u || !mayIssue s core unit op then retryNext tid s
  else
    let s1 := { s with issue := { core := core, unit := unit, tid := tid, run := maskBy run, pc := pc, ilen := h.bytes : Issue } }
    let free := execMask h s1 != 0
    if outsideRegion t u && !t.delayed && !(free && t.wctl.getLsbD 2) then
      s.onThread tid fun t => { t with delayed := true, nextIssue := s.time + 8 }
    else match if free then issueFault t (isSeq tid) u s.time else none with
      | some (c, a) => finishIssue core unit tid op h run low s (faultAll h c a false s1)
      | none => finishIssue core unit tid op h run low s (take i (s1.onCur (begins i u (maskBy run) free)))

/-! The order in which units are served (R182, R316). -/

/-- The opcode that a unit would issue now; a fault of its fetch or its decoding counts as opcode 0. -/
def peekOp (s : State) (core unit : Nat) : Option Nat :=
  match unitTid s core unit with
  | none => none
  | some tid =>
    if !issuable s core tid then none
    else
      let s := s.onThread tid fun t => t.land s.time
      let r := (s.thread tid).choose
      match fetch core tid ((r.1.lanes.getD (r.2.headD 0) {}).pc).toNat s with
      | (_, .inr _) => some 0
      | (_, .inl n) =>
        match decodeFor (roleOf (s.taskT tid).team (warpOf tid)) n with
        | .error _ => some 0
        | .ok i => if interlocked (s.thread tid) (i.usesOf (isSeq tid) (headOf n)) then none else some (opOf n).toNat

/-- The units of a quadrant, or the sequencer's places, from the one after the last that issued. -/
def scanFrom (base size last : Nat) : List Nat := (List.range size).map fun i => base + (last + 1 + i) % size

/-- The unit of a quadrant that issues next: on VA, or else on VB (R182). -/
def pickQuadrant (s : State) (core q : Nat) : Option Nat :=
  let p := (s.core core).pipesOf q
  match if vaOpen s p then (scanFrom (8 * q) 8 p.vaLast).find? fun u => (peekOp s core u).any fun o => !vbOnly o else none with
  | some u => some u
  | none => (scanFrom (8 * q) 8 p.vbLast).find? fun u => vbOpen s p core u && (peekOp s core u).any fun o => !vaOnly o

/-- The sequencer context that issues next (R316). -/
def pickContext (s : State) (core : Nat) : Option Nat :=
  if (s.core core).seqFree ≤ s.time then (scanFrom 32 4 (s.core core).seqLast).find? fun u => (peekOp s core u).isSome else none

/-- The unit is the one whose turn it is, in its quadrant or on the sequencer (R182, R316). -/
def picked (s : State) (core unit : Nat) : Bool :=
  (if unit < 32 then pickQuadrant s core (quadrantOf unit) else pickContext s core) == some unit

/-- A unit whose turn it is issues: due results land, the head run is chosen, its instruction is fetched and decoded, and it issues
(R84, R182, R184, R222, R316). -/
def issueUnit (core unit : Nat) (take : Instr → State → State) (s : State) : State :=
  match unitTid s core unit with
  | none => s
  | some tid =>
    if !issuable s core tid || !picked s core unit then s
    else
      let s := clean tid (s.onThread tid fun t => t.land s.time)
      let r := (s.thread tid).choose
      let pc := (r.1.lanes.getD (r.2.headD 0) {}).pc
      let low := pc.toNat == r.1.lowPc r.1.active
      match fetch core tid pc.toNat (s.setThread tid r.1) with
      | (s, .inr (c, a, tr)) => park tid (r.2.map fun l => ⟨l, c, BitVec.ofNat 64 a, tr⟩) pc 0 s
      | (s, .inl n) =>
        match decodeFor (roleOf (s.taskT tid).team (warpOf tid)) n with
        | .error c => park tid (r.2.map fun l => ⟨l, c, 0, false⟩) pc (headOf n).bytes s
        | .ok i => issueDecoded core unit tid (opOf n).toNat (headOf n) i r.2 pc low take s

def pickUnit (s : State) (core : Nat) : Option Nat :=
  match (List.range 4).findSome? (pickQuadrant s core) with
  | some u => some u
  | none => pickContext s core

/-- The next unit of any core that is ready. -/
def nextUnit (s : State) : Option (Nat × Nat) :=
  s.cores.findSome? fun e => (pickUnit s e.1).map fun u => (e.1, u)

/-! Events that need nothing from outside, in the order in which they are tried when the agenda is empty (log 1). -/

def unitEvents (s : State) (core : Nat) (e : Nat × Nat) : List Instr :=
  let t := s.thread e.2
  let n := List.range t.flight.length
  n.map (Instr.loadResultArrives core e.1) ++ n.map (Instr.storePerformed core e.1) ++
  [.fixedLatencyWriteback core e.1, .mmaSliceApply core e.1, .mtxOpComplete core e.1, .adrnComplete core e.1] ++
  (List.range t.ops.length).map (Instr.gthComplete core e.1) ++
  (List.range t.ops.length).flatMap (fun j => (List.range 16).map (Instr.mstDelivery core e.1 j)) ++
  [.joinerWake core e.1, .mwaitWake core e.1, .mwaitDeadline core e.1, .watchTableFullReread core e.1,
   .handlerEntry core e.1, .warpRetire core e.1]

def coreEvents (s : State) (core : Nat) : List Instr :=
  let c := s.core core
  c.slots.flatMap (unitEvents s core) ++
  (List.range c.cpy.length).flatMap (fun j => [Instr.cpyTransfer core j, .cpyComplete core j]) ++
  (List.range c.streams.length).map (Instr.streamSliceEnter core) ++ [.taskStart core, .dequePop core]

def taskEvents (e : Nat × Task) : List Instr :=
  (if e.2.stageFault.isSome then [Instr.tileArrival e.1 0 128] else []) ++
  (List.range e.2.descs.length).map (fun d => Instr.tileArrival e.1 d 128) ++
  (if e.2.fatal.isEmpty then [] else [.fatalFault e.1 false]) ++ [.taskRetire e.1, .teamRestore e.1]

def packetEvents (p : Nat) : List Instr :=
  [.nopPacket p, .launchPacket p, .copyPacket p 0, .fillPacket p, .signalStore p, .signalAtomicAdd p,
   .signalCompleteFuture p, .waitPacket p, .waitReevaluate p, .waitTimeout p, .fencePacket p, .packetComplete p]

def launchEvents (l : Nat) : List Instr :=
  [.shapeResolution l, .shapeTimeout l, .speculationTagFree l, .launchComplete l]

def ownEvents (s : State) : List Instr :=
  s.cores.flatMap (fun e => coreEvents s e.1) ++ s.tasks.flatMap taskEvents ++ s.gangs.map (fun e => Instr.gangStart e.1) ++
  (List.range s.landing.length).map Instr.landingPacketApply ++
  s.queries.flatMap (fun e => (List.range e.2.list.length).map (Instr.queryDistance e.1) ++ [.queryRound e.1, .queryComplete e.1]) ++
  s.nb.flatMap (fun e => [Instr.nbProgramStart e.1, .nbRowOperation e.1, .nbWindowResume e.1, .nbProgramComplete e.1]) ++
  s.packets.flatMap (fun e => packetEvents e.1) ++ s.launches.flatMap (fun e => launchEvents e.1) ++
  (List.range 32).map Instr.queueConsume ++
  (s.queues.filter fun e => e.2.send && !e.2.idle).map fun e => Instr.axlNotify e.1

end Sys2Proof.Machine
end

