-- ==== Sys2Proof/Machine/Dispatch.lean ====
section
/-!
DEFINITION. The dispatch: one arm per constructor of `Instr`, each one call of its meaning.
-/
namespace Sys2Proof.Machine

def exec (i : Instr) (s : State) : Host.Outcome State Fault Refusal :=
  match i with
  | .nop h => Sys2Proof.Machine.execNop h s
  | .sadd h o => Sys2Proof.Machine.execSadd h o s
  | .ssub h o => Sys2Proof.Machine.execSsub h o s
  | .smul h o => Sys2Proof.Machine.execSmul h o s
  | .sdiv h o => Sys2Proof.Machine.execSdiv h o s
  | .sand h o => Sys2Proof.Machine.execSand h o s
  | .sor h o => Sys2Proof.Machine.execSor h o s
  | .sxor h o => Sys2Proof.Machine.execSxor h o s
  | .sshl h o => Sys2Proof.Machine.execSshl h o s
  | .sshr h o => Sys2Proof.Machine.execSshr h o s
  | .smin h o => Sys2Proof.Machine.execSmin h o s
  | .smax h o => Sys2Proof.Machine.execSmax h o s
  | .scmp h o => Sys2Proof.Machine.execScmp h o s
  | .ssel h o => Sys2Proof.Machine.execSsel h o s
  | .smov h o => Sys2Proof.Machine.execSmov h o s
  | .sli h o => Sys2Proof.Machine.execSli h o s
  | .sbfe h o => Sys2Proof.Machine.execSbfe h o s
  | .sbit h o => Sys2Proof.Machine.execSbit h o s
  | .swide h o => Sys2Proof.Machine.execSwide h o s
  | .qsub h a => Sys2Proof.Machine.execQsub h a s
  | .cland h d a op ty => Sys2Proof.Machine.execCland h d a op ty s
  | .nbrun h a => Sys2Proof.Machine.execNbrun h a s
  | .trapShort h a => Sys2Proof.Machine.execTrapShort h a s
  | .trap h c a => Sys2Proof.Machine.execTrap h c a s
  | .tret h => Sys2Proof.Machine.execTret h s
  | .tretSkip h => Sys2Proof.Machine.execTretSkip h s
  | .brkpt h n => Sys2Proof.Machine.execBrkpt h n s
  | .sregRead h d idx => Sys2Proof.Machine.execSregRead h d idx s
  | .sregWrite h a idx => Sys2Proof.Machine.execSregWrite h a idx s
  | .sregSwap h d a idx => Sys2Proof.Machine.execSregSwap h d a idx s
  | .br h t => Sys2Proof.Machine.execBr h t s
  | .brpAny h p t => Sys2Proof.Machine.execBrpAny h p t s
  | .brpAll h p t => Sys2Proof.Machine.execBrpAll h p t s
  | .jmp h t => Sys2Proof.Machine.execJmp h t s
  | .jmpi h a => Sys2Proof.Machine.execJmpi h a s
  | .call h d t => Sys2Proof.Machine.execCall h d t s
  | .ret h a => Sys2Proof.Machine.execRet h a s
  | .rcv h => Sys2Proof.Machine.execRcv h s
  | .yld h => Sys2Proof.Machine.execYld h s
  | .pop h o => Sys2Proof.Machine.execPop h o s
  | .pvote h d a m => Sys2Proof.Machine.execPvote h d a m s
  | .pball h d a => Sys2Proof.Machine.execPball h d a s
  | .pballPopc h d a => Sys2Proof.Machine.execPballPopc h d a s
  | .vshfl h o => Sys2Proof.Machine.execVshfl h o s
  | .vscan h o => Sys2Proof.Machine.execVscan h o s
  | .vred h o => Sys2Proof.Machine.execVred h o s
  | .vid h d b => Sys2Proof.Machine.execVid h d b s
  | .vbcst h d a b => Sys2Proof.Machine.execVbcst h d a b s
  | .vadd h o => Sys2Proof.Machine.execVadd h o s
  | .vsub h o => Sys2Proof.Machine.execVsub h o s
  | .vmul h o => Sys2Proof.Machine.execVmul h o s
  | .vmad h o => Sys2Proof.Machine.execVmad h o s
  | .vmin h o => Sys2Proof.Machine.execVmin h o s
  | .vmax h o => Sys2Proof.Machine.execVmax h o s
  | .vand h o => Sys2Proof.Machine.execVand h o s
  | .vor h o => Sys2Proof.Machine.execVor h o s
  | .vxor h o => Sys2Proof.Machine.execVxor h o s
  | .vshl h o => Sys2Proof.Machine.execVshl h o s
  | .vshr h o => Sys2Proof.Machine.execVshr h o s
  | .vbit h o => Sys2Proof.Machine.execVbit h o s
  | .vbfe h o => Sys2Proof.Machine.execVbfe h o s
  | .vbfi h o => Sys2Proof.Machine.execVbfi h o s
  | .vsel h o => Sys2Proof.Machine.execVsel h o s
  | .vcmp h o => Sys2Proof.Machine.execVcmp h o s
  | .vfadd h o => Sys2Proof.Machine.execVfadd h o s
  | .vfsub h o => Sys2Proof.Machine.execVfsub h o s
  | .vfmul h o => Sys2Proof.Machine.execVfmul h o s
  | .vffma h o => Sys2Proof.Machine.execVffma h o s
  | .vfmin h o => Sys2Proof.Machine.execVfmin h o s
  | .vfmax h o => Sys2Proof.Machine.execVfmax h o s
  | .vfcmp h o => Sys2Proof.Machine.execVfcmp h o s
  | .vfcls h d a m => Sys2Proof.Machine.execVfcls h d a m s
  | .vfrcp h o => Sys2Proof.Machine.execVfrcp h o s
  | .vfrsq h o => Sys2Proof.Machine.execVfrsq h o s
  | .vfsqrt h o => Sys2Proof.Machine.execVfsqrt h o s
  | .vfexp h o => Sys2Proof.Machine.execVfexp h o s
  | .vflog h o => Sys2Proof.Machine.execVflog h o s
  | .vftanh h o => Sys2Proof.Machine.execVftanh h o s
  | .vfsinpi h o => Sys2Proof.Machine.execVfsinpi h o s
  | .vfcospi h o => Sys2Proof.Machine.execVfcospi h o s
  | .vcvt h o => Sys2Proof.Machine.execVcvt h o s
  | .vfrnd h o => Sys2Proof.Machine.execVfrnd h o s
  | .vdot2 h o => Sys2Proof.Machine.execVdot2 h o s
  | .vdot4 h o => Sys2Proof.Machine.execVdot4 h o s
  | .vmov h d b ty => Sys2Proof.Machine.execVmov h d b ty s
  | .vfscl h o => Sys2Proof.Machine.execVfscl h o s
  | .vsrt h o => Sys2Proof.Machine.execVsrt h o s
  | .vmrg h o => Sys2Proof.Machine.execVmrg h o s
  | .vtopk h o => Sys2Proof.Machine.execVtopk h o s
  | .sld h o => Sys2Proof.Machine.execSld h o s
  | .sst h o => Sys2Proof.Machine.execSst h o s
  | .vld h o => Sys2Proof.Machine.execVld h o s
  | .vst h o => Sys2Proof.Machine.execVst h o s
  | .vgth h o => Sys2Proof.Machine.execVgth h o s
  | .vsct h o => Sys2Proof.Machine.execVsct h o s
  | .lds h o => Sys2Proof.Machine.execLds h o s
  | .sts h o => Sys2Proof.Machine.execSts h o s
  | .gld h o => Sys2Proof.Machine.execGld h o s
  | .gst h o => Sys2Proof.Machine.execGst h o s
  | .mst h o => Sys2Proof.Machine.execMst h o s
  | .ldx h o => Sys2Proof.Machine.execLdx h o s
  | .cpf h o => Sys2Proof.Machine.execCpf h o s
  | .copInv h o => Sys2Proof.Machine.execCopInv h o s
  | .copInvall h o => Sys2Proof.Machine.execCopInvall h o s
  | .copWb h o => Sys2Proof.Machine.execCopWb h o s
  | .copWbinv h o => Sys2Proof.Machine.execCopWbinv h o s
  | .atm h f o => Sys2Proof.Machine.execAtm h f o s
  | .fenceRel h sc => Sys2Proof.Machine.execFenceRel h sc s
  | .fenceAcq h sc => Sys2Proof.Machine.execFenceAcq h sc s
  | .fenceSc h sc => Sys2Proof.Machine.execFenceSc h sc s
  | .wcnt h m t => Sys2Proof.Machine.execWcnt h m t s
  | .bar h => Sys2Proof.Machine.execBar h s
  | .gbar h d => Sys2Proof.Machine.execGbar h d s
  | .mon h d a => Sys2Proof.Machine.execMon h d a s
  | .monSp h d a => Sys2Proof.Machine.execMonSp h d a s
  | .mwait h d b => Sys2Proof.Machine.execMwait h d b s
  | .mwaitWake core unit => Sys2Proof.Machine.execMwaitWake core unit s
  | .mwaitDeadline core unit => Sys2Proof.Machine.execMwaitDeadline core unit s
  | .watchTableFullReread core unit => Sys2Proof.Machine.execWatchTableFullReread core unit s
  | .parkedWatchSpuriousWake task unit => Sys2Proof.Machine.execParkedWatchSpuriousWake task unit s
  | .sgacqE h d r => Sys2Proof.Machine.execSgacqE h d r s
  | .sgacqF h d r => Sys2Proof.Machine.execSgacqF h d r s
  | .sgrel h r b => Sys2Proof.Machine.execSgrel h r b s
  | .sgrelInit h r n => Sys2Proof.Machine.execSgrelInit h r n s
  | .rgn h w => Sys2Proof.Machine.execRgn h w s
  | .rgnend h => Sys2Proof.Machine.execRgnend h s
  | .xacq h k => Sys2Proof.Machine.execXacq h k s
  | .xacqTry h d k => Sys2Proof.Machine.execXacqTry h d k s
  | .xrel h k => Sys2Proof.Machine.execXrel h k s
  | .spawn h a => Sys2Proof.Machine.execSpawn h a s
  | .spawnr h a b => Sys2Proof.Machine.execSpawnr h a b s
  | .join h d a b => Sys2Proof.Machine.execJoin h d a b s
  | .joinerWake core unit => Sys2Proof.Machine.execJoinerWake core unit s
  | .fset h a => Sys2Proof.Machine.execFset h a s
  | .fsetAt h d a b => Sys2Proof.Machine.execFsetAt h d a b s
  | .fflt h a b => Sys2Proof.Machine.execFflt h a b s
  | .ffltAt h d a b c => Sys2Proof.Machine.execFfltAt h d a b c s
  | .fpoll h d a b => Sys2Proof.Machine.execFpoll h d a b s
  | .texit h => Sys2Proof.Machine.execTexit h s
  | .tmark h a => Sys2Proof.Machine.execTmark h a s
  | .cpy h a => Sys2Proof.Machine.execCpy h a s
  | .qput h d a b => Sys2Proof.Machine.execQput h d a b s
  | .qputX2 h d a b => Sys2Proof.Machine.execQputX2 h d a b s
  | .strm h f a => Sys2Proof.Machine.execStrm h f a s
  | .strmend h f => Sys2Proof.Machine.execStrmend h f s
  | .lbind h a b => Sys2Proof.Machine.execLbind h a b s
  | .laddr h d c a b => Sys2Proof.Machine.execLaddr h d c a b s
  | .mma h t fa fb n => Sys2Proof.Machine.execMma h t fa fb n s
  | .mmaSh h t fa fb n => Sys2Proof.Machine.execMmaSh h t fa fb n s
  | .accZero h t m => Sys2Proof.Machine.execAccZero h t m s
  | .accCommit h t m => Sys2Proof.Machine.execAccCommit h t m s
  | .accDiscard h t m => Sys2Proof.Machine.execAccDiscard h t m s
  | .accMove h t u m => Sys2Proof.Machine.execAccMove h t u m s
  | .ardv h o => Sys2Proof.Machine.execArdv h o s
  | .ardvRaw h o => Sys2Proof.Machine.execArdvRaw h o s
  | .adrn h o => Sys2Proof.Machine.execAdrn h o s
  | .fskip h f n => Sys2Proof.Machine.execFskip h f n s
  | .loadResultArrives core unit idx => Sys2Proof.Machine.execLoadResultArrives core unit idx s
  | .fixedLatencyWriteback core unit => Sys2Proof.Machine.execFixedLatencyWriteback core unit s
  | .storePerformed core unit idx => Sys2Proof.Machine.execStorePerformed core unit idx s
  | .leaseExpiry core line => Sys2Proof.Machine.execLeaseExpiry core line s
  | .tlbWalk core cid va => Sys2Proof.Machine.execTlbWalk core cid va s
  | .tileArrival task desc n => Sys2Proof.Machine.execTileArrival task desc n s
  | .dequePop core => Sys2Proof.Machine.execDequePop core s
  | .taskStart core => Sys2Proof.Machine.execTaskStart core s
  | .gangStart gang => Sys2Proof.Machine.execGangStart gang s
  | .stealAttempt core => Sys2Proof.Machine.execStealAttempt core s
  | .stealAttemptReceived msg => Sys2Proof.Machine.execStealAttemptReceived msg s
  | .stealOfferReceived msg => Sys2Proof.Machine.execStealOfferReceived msg s
  | .stealAckReceived msg => Sys2Proof.Machine.execStealAckReceived msg s
  | .stealConfirmReceived msg => Sys2Proof.Machine.execStealConfirmReceived msg s
  | .stealKeepReceived msg => Sys2Proof.Machine.execStealKeepReceived msg s
  | .stealOfferTimeout core => Sys2Proof.Machine.execStealOfferTimeout core s
  | .stealLendTimeout core thief => Sys2Proof.Machine.execStealLendTimeout core thief s
  | .stealAnswerTimeout core => Sys2Proof.Machine.execStealAnswerTimeout core s
  | .forwardProgressSwap core => Sys2Proof.Machine.execForwardProgressSwap core s
  | .teamRestore task => Sys2Proof.Machine.execTeamRestore task s
  | .handlerEntry core unit => Sys2Proof.Machine.execHandlerEntry core unit s
  | .fatalFault task ecc => Sys2Proof.Machine.execFatalFault task ecc s
  | .warpRetire core unit => Sys2Proof.Machine.execWarpRetire core unit s
  | .taskRetire task => Sys2Proof.Machine.execTaskRetire task s
  | .cpyTransfer core idx => Sys2Proof.Machine.execCpyTransfer core idx s
  | .cpyComplete core idx => Sys2Proof.Machine.execCpyComplete core idx s
  | .streamSliceEnter core idx => Sys2Proof.Machine.execStreamSliceEnter core idx s
  | .mmaSliceApply core unit => Sys2Proof.Machine.execMmaSliceApply core unit s
  | .mtxOpComplete core unit => Sys2Proof.Machine.execMtxOpComplete core unit s
  | .adrnComplete core unit => Sys2Proof.Machine.execAdrnComplete core unit s
  | .gthComplete core unit idx => Sys2Proof.Machine.execGthComplete core unit idx s
  | .mstDelivery core unit idx member => Sys2Proof.Machine.execMstDelivery core unit idx member s
  | .nbProgramStart u => Sys2Proof.Machine.execNbProgramStart u s
  | .nbRowOperation u => Sys2Proof.Machine.execNbRowOperation u s
  | .nbWindowResume u => Sys2Proof.Machine.execNbWindowResume u s
  | .nbForcedRowOperation u => Sys2Proof.Machine.execNbForcedRowOperation u s
  | .nbProgramComplete u => Sys2Proof.Machine.execNbProgramComplete u s
  | .hbmRefreshDue u bank => Sys2Proof.Machine.execHbmRefreshDue u bank s
  | .hbmControllerRequest u kind off len => Sys2Proof.Machine.execHbmControllerRequest u kind off len s
  | .landingPacketApply idx => Sys2Proof.Machine.execLandingPacketApply idx s
  | .queryDistance q idx => Sys2Proof.Machine.execQueryDistance q idx s
  | .queryRound q => Sys2Proof.Machine.execQueryRound q s
  | .queryComplete q => Sys2Proof.Machine.execQueryComplete q s
  | .shapeResolution l => Sys2Proof.Machine.execShapeResolution l s
  | .shapeTimeout l => Sys2Proof.Machine.execShapeTimeout l s
  | .speculationTagFree l => Sys2Proof.Machine.execSpeculationTagFree l s
  | .qsNotify qid => Sys2Proof.Machine.execQsNotify qid s
  | .queueConsume slot => Sys2Proof.Machine.execQueueConsume slot s
  | .nopPacket p => Sys2Proof.Machine.execNopPacket p s
  | .launchPacket p => Sys2Proof.Machine.execLaunchPacket p s
  | .copyPacket p core => Sys2Proof.Machine.execCopyPacket p core s
  | .fillPacket p => Sys2Proof.Machine.execFillPacket p s
  | .signalStore p => Sys2Proof.Machine.execSignalStore p s
  | .signalAtomicAdd p => Sys2Proof.Machine.execSignalAtomicAdd p s
  | .signalCompleteFuture p => Sys2Proof.Machine.execSignalCompleteFuture p s
  | .waitPacket p => Sys2Proof.Machine.execWaitPacket p s
  | .waitReevaluate p => Sys2Proof.Machine.execWaitReevaluate p s
  | .waitTimeout p => Sys2Proof.Machine.execWaitTimeout p s
  | .fencePacket p => Sys2Proof.Machine.execFencePacket p s
  | .packetComplete p => Sys2Proof.Machine.execPacketComplete p s
  | .launchComplete l => Sys2Proof.Machine.execLaunchComplete l s
  | .vfSettle => Sys2Proof.Machine.execVfSettle s
  | .qsErrslotClear m => Sys2Proof.Machine.execQsErrslotClear m s
  | .tlbShoot cid size => Sys2Proof.Machine.execTlbShoot cid size s
  | .shootdownComplete => Sys2Proof.Machine.execShootdownComplete s
  | .fwinWrite idx reg v => Sys2Proof.Machine.execFwinWrite idx reg v s
  | .lwinWrite idx reg v => Sys2Proof.Machine.execLwinWrite idx reg v s
  | .registerWrite off v => Sys2Proof.Machine.execRegisterWrite off v s
  | .ctxCreate => Sys2Proof.Machine.execCtxCreate s
  | .ctxDestroy => Sys2Proof.Machine.execCtxDestroy s
  | .qCreate => Sys2Proof.Machine.execQCreate s
  | .qDestroy => Sys2Proof.Machine.execQDestroy s
  | .rangesFree => Sys2Proof.Machine.execRangesFree s
  | .peerBind => Sys2Proof.Machine.execPeerBind s
  | .ckptReg => Sys2Proof.Machine.execCkptReg s
  | .attest => Sys2Proof.Machine.execAttest s
  | .fwLoad u => Sys2Proof.Machine.execFwLoad u s
  | .mbxUnknownOpc => Sys2Proof.Machine.execMbxUnknownOpc s
  | .umberQuantum => Sys2Proof.Machine.execUmberQuantum s
  | .queueIdleSwap qid => Sys2Proof.Machine.execQueueIdleSwap qid s
  | .queueReadyMap qid => Sys2Proof.Machine.execQueueReadyMap qid s
  | .umberFaultService core unit replay => Sys2Proof.Machine.execUmberFaultService core unit replay s
  | .pageMigration cid va page => Sys2Proof.Machine.execPageMigration cid va page s
  | .umberPreemptRequest task => Sys2Proof.Machine.execUmberPreemptRequest task s
  | .slateTakeover => Sys2Proof.Machine.execSlateTakeover s
  | .axlNotify qid => Sys2Proof.Machine.execAxlNotify qid s
  | .axyelAppend d => Sys2Proof.Machine.execAxyelAppend d s
  | .axyelPut d => Sys2Proof.Machine.execAxyelPut d s
  | .axyelGet d data => Sys2Proof.Machine.execAxyelGet d data s
  | .axyelLand d => Sys2Proof.Machine.execAxyelLand d s
  | .axyelReceive dev pcid dcid kind raddr opc data => Sys2Proof.Machine.execAxyelReceive dev pcid dcid kind raddr opc data s
  | .axyelDescriptorComplete d cause => Sys2Proof.Machine.execAxyelDescriptorComplete d cause s
  | .linkLoss dev => Sys2Proof.Machine.execLinkLoss dev s
  | .hostCxlMemAccess pa write data keep => Sys2Proof.Machine.execHostCxlMemAccess pa write data keep s
  | .backInvalidateResponse line => Sys2Proof.Machine.execBackInvalidateResponse line s
  | .fabricHeaderCheck die site link kind => Sys2Proof.Machine.execFabricHeaderCheck die site link kind s
  | .fabricOpTimeout core unit idx => Sys2Proof.Machine.execFabricOpTimeout core unit idx s
  | .routerFailure die site => Sys2Proof.Machine.execRouterFailure die site s
  | .bridgeLoss a b => Sys2Proof.Machine.execBridgeLoss a b s
  | .restitchComplete => Sys2Proof.Machine.execRestitchComplete s
  | .dieLoss d => Sys2Proof.Machine.execDieLoss d s
  | .reset stage => Sys2Proof.Machine.execReset stage s
  | .stackTrained st => Sys2Proof.Machine.execStackTrained st s
  | .repairDone code => Sys2Proof.Machine.execRepairDone code s
  | .linkTrained l => Sys2Proof.Machine.execLinkTrained l s
  | .powerOverCap watts => Sys2Proof.Machine.execPowerOverCap watts s
  | .powerUnderCap watts => Sys2Proof.Machine.execPowerUnderCap watts s
  | .currentLimit amps => Sys2Proof.Machine.execCurrentLimit amps s
  | .patrolScrub unit row line e => Sys2Proof.Machine.execPatrolScrub unit row line e s
  | .lifetimeCounterSave tj secs tj' secs' => Sys2Proof.Machine.execLifetimeCounterSave tj secs tj' secs' s
  | .bridgeReturn a b => Sys2Proof.Machine.execBridgeReturn a b s
  | .currentFallsBelowLimit amps => Sys2Proof.Machine.execCurrentFallsBelowLimit amps s
  | .cxlCacheSnoop line inv => Sys2Proof.Machine.execCxlCacheSnoop line inv s

end Sys2Proof.Machine
end

