-- ==== Sys2Proof/Machine/Load.lean ====
section
/-!
DEFINITION. The passing of device time, and the loading of a program from outside the machine: a context, a task and a warp
or a sequencer context that fetches at its entry (log 5).
-/
namespace Sys2Proof.Machine

/-- The controllers serve their queues, one write and one read a tick (R346, log 59). -/
def serveUnits (n : Nat) (s : State) : State :=
  { s with nb := s.nb.map fun e => (e.1, (List.range (min n (e.2.wq.length + e.2.reqs.length))).foldl (fun x _ => serveRead s.time (serveWrite s.time x)) e.2) }

/-- Device time passes: the requests of the tick that ends have gone out (R410), the L2 holds no more than its ways (R14), and cycles in which the current limiter holds issue
are counted (R470). -/
def passTime (n : Nat) (s0 : State) : State :=
  let s := if n = 0 then s0 else serveUnits n (trimL2 (sendReady s0))
  { s with time := s.time + n, skips := if s.limited then s.skips + BitVec.ofNat 64 n else s.skips }

/-- Bytes laid where a core fetches them: their lines leave its L1, and no byte of them is poisoned. -/
def placeWords (core pa n : Nat) (s : State) : State :=
  let s := { s with mem := bytesSet s.mem pa 20 n, poison := s.poison.filter fun a => !(pa ≤ a && a < pa + 20) }
  (linesOf pa 20).foldl (fun s l => l1Drop core (some l) s) s

/-- The thread's task fetches as committed memory stands, and its next instruction meets no pending result. -/
def canRun (s : State) (tid : Nat) : Bool := !isSpec s (taskOf tid) && (s.thread tid).outstanding.isEmpty

/-- Where a loaded program's page lies, in virtual and in physical addresses. -/
def loadBase : Nat := 2 ^ 16

/-- A plain task, or for the matrix role's instructions a team with a sequencer context. -/
def loadTask (seq : Bool) : Task :=
  { cid := 1, core := 0, st := .running, entry := BitVec.ofNat 64 loadBase
    entry2 := if seq then BitVec.ofNat 64 loadBase else 0, team := if seq then 0x09 else 0 }

/-- Core 0 with the thread on a unit, its page in the TLB, and nothing else under way. -/
def loadCore (unit tid : Nat) (c : Core) : Core :=
  { c with lost := false, ctx := some 1, slots := [(unit, tid)], pipes := [], seqFree := 0, l1 := []
           tlb := [⟨1, loadBase, 16, loadBase, true, true, false⟩] }

/-- The program is loaded: bring-up has completed, context 1 holds core 0, and a task runs there whose first instruction
is the word; the agenda has it issue next. -/
def loadProgram (n : Nat) (s : State) : State :=
  let seq := !roleAllows .any (opOf n).toNat
  let k := s.nextId
  let unit := if seq then 32 else 0
  let tid := tidOf k (if seq then 8 else 0)
  let s := { s with nextId := k + 1, hbmMask := 0xFFFF, ready := 0xFF, fuses := true, lostDies := [], lostSlices := []
                    limited := false, agenda := ⟨0, .issue 0 unit⟩ :: s.agenda
                    ctxs := tput s.ctxs 1 { cores := [0] : Ctx } }
  let s := s.setTask k (loadTask seq)
  let s := s.setThread tid (entryThread (loadTask seq) seq s.time)
  placeWords 0 loadBase n (s.onCore 0 (loadCore unit tid))

end Sys2Proof.Machine
end

