-- ==== Sys2Proof/Machine/Step.lean ====
section
/-!
DEFINITION. One step of the machine: the first turn of the agenda, or with an empty agenda the next thing that the machine
does by itself (log 1), and where a word is laid so that the next step runs it (log 5).
-/
namespace Sys2Proof.Machine

/-- The effect of an instruction or an event. -/
def runInstr (i : Instr) (s : State) : State :=
  match exec i s with
  | .next s => s
  | _ => s

/-- With an empty agenda a ready unit issues; else the first of the machine's own events that is enabled takes place; else
device time advances by one tick (log 1). -/
def stepAlone (s : State) : State :=
  match nextUnit s with
  | some u => issueUnit u.1 u.2 runInstr s
  | none =>
    match (ownEvents s).find? fun e => decide (runInstr e s ≠ s) with
    | some e => runInstr e s
    | none => passTime 1 s

/-- An act: a unit issues, or an event takes place. An encoded instruction is no event. -/
def act (a : Act) (s : State) : Host.Outcome State Fault Refusal :=
  match a with
  | .issue core unit => .next (issueUnit core unit runInstr s)
  | .event i => if i.raw.isNone then exec i s else .next s

/-- While the first turn of the agenda waits, a ready unit issues, and otherwise a tick passes: each cycle takes the first ready
warp (R182, log 1). -/
def stepWait (t : Turn) (rest : List Turn) (s : State) : State :=
  match nextUnit s with
  | some u => issueUnit u.1 u.2 runInstr s
  | none => passTime 1 { s with agenda := { t with wait := t.wait - 1 } :: rest }

def step (s : State) : Host.Outcome State Fault Refusal :=
  match s.agenda with
  | [] => .next (stepAlone s)
  | t :: rest => if t.wait = 0 then act t.act { s with agenda := rest } else .next (stepWait t rest s)

/-- The next step issues from here, when the agenda, or its waiting or its being empty, makes a unit issue that is able to. -/
def nextIssuer (s : State) : Option (Nat × Nat) :=
  match s.agenda with
  | [] => nextUnit s
  | ⟨0, .issue core unit⟩ :: _ => if (unitTid s core unit).any (issuable s core) && picked s core unit then some (core, unit) else none
  | ⟨0, .event _⟩ :: _ => none
  | _ => nextUnit s

/-- Where the unit fetches, when its PC translates and the longest instruction lies in one page. -/
def issuerAddr (s : State) (u : Nat × Nat) : Option Nat :=
  match unitTid s u.1 u.2 with
  | none => none
  | some tid =>
    let r := (s.thread tid).choose
    let pc := ((r.1.lanes.getD (r.2.headD 0) {}).pc).toNat
    match (translate u.1 (s.taskT tid).cid pc .fetch s).2 with
    | .inl pa => if pc % 2 ^ 16 + 20 ≤ 2 ^ 16 && !homeGone s pa && canRun s tid then some pa else none
    | .inr _ => none

def State.withFetchWord (s : State) (nbits w : Nat) : State :=
  let n := w % 2 ^ nbits
  match (nextIssuer s).bind fun u => (issuerAddr s u).map fun pa => (u.1, pa) with
  | some p => placeWords p.1 p.2 n s
  | none => loadProgram n s

end Sys2Proof.Machine
end

