-- ==== Sys2Proof/Safety.lean ====
section
/-!
DEFINITION. The terms that claims use: safe runs, what an integer register holds, what a thread's registers hold once its
results have landed, and what two states share.
-/
namespace Sys2Proof.Machine

/-- The state after `n` steps, when every one of them answers a next state. -/
def afterSteps : Nat → State → Option State
  | 0, s => some s
  | n + 1, s =>
    match step s with
    | .next t => afterSteps n t
    | _ => none

/-- A run of `n` steps meets no fault and no refusal. -/
def SafeRun (n : Nat) (s : State) : Prop := (afterSteps n s).isSome = true

/-! Integers (R45, R46, R58). -/

/-- The integer types of instructions that compute; `.b32` computes as its raw 32 bits. -/
def intTypes : List Ty := [.b32, .i8, .i16, .i32, .n8, .n16, .n32]

/-- A type reads the low bits of a register as `x` (R46). -/
def ReadsAs (t : Ty) (w : W32) (x : Int) : Prop :=
  intMin t ≤ x ∧ x ≤ intMax t ∧ ∃ k : Int, (w.toNat : Int) = x + k * 2 ^ t.bits

/-- The register holds `x`, a value of the type, extended to 32 bits (R46). -/
def HoldsInt (t : Ty) (w : W32) (x : Int) : Prop :=
  intMin t ≤ x ∧ x ≤ intMax t ∧ (w.toNat : Int) = x % 2 ^ 32

/-- The register holds an exact result, clamped under SAT and wrapped modulo 2^n otherwise (R206). -/
def IntResult (t : Ty) (sat : Bool) (r : Int) (w : W32) : Prop :=
  ∃ y, HoldsInt t w y ∧
    if sat then (r < intMin t → y = intMin t) ∧ (intMax t < r → y = intMax t) ∧ (intMin t ≤ r → r ≤ intMax t → y = r)
    else ∃ k : Int, r = y + k * 2 ^ t.bits

/-! What registers hold once every pending result has landed (R188, R189). -/

def Thread.settled (t : Thread) : Thread := t.pending.foldl (fun t x => t.land1 x.w) { t with pending := [] }

/-- A register of a thread once every pending result has landed: the lanes of a vector register, all bits of a predicate. -/
def Thread.holds (t : Thread) : RegName → List W32
  | .s r => [tget 0 t.settled.s r]
  | .p r => [(t.settled.pget (BitVec.ofNat 3 r)).setWidth 32, (t.settled.pget (BitVec.ofNat 3 r)).extractLsb' 32 32]
  | .v r => t.settled.vget r

/-- Two states hold the same bytes of memory. -/
def SameMemory (s t : State) : Prop := ∀ a, byteAt t.mem a = byteAt s.mem a

/-- Two states differ in their threads only. -/
def OnlyThreads (s t : State) : Prop := t = { s with threads := t.threads }

/-- The issuing thread alone differs, and of it only its lanes: no register, no operation, no wait of it (R184). -/
def OnlyLanes (s t : State) : Prop :=
  OnlyThreads s t ∧ (∀ i, i ≠ s.issue.tid → t.thread i = s.thread i) ∧ t.cur = { s.cur with lanes := t.cur.lanes }

/-- Each lane of the issuing thread afterwards, from the lane before. -/
def LanesBecome (s t : State) (f : Nat → Lane → Lane) : Prop :=
  t.cur.lanes.length = s.cur.lanes.length ∧ ∀ l x, s.cur.lanes[l]? = some x → t.cur.lanes[l]? = some (f l x)

/-- A lane of the run moves to the next instruction (R184). -/
def toNext (h : Head) (s : State) (l : Nat) (x : Lane) : Lane :=
  if bit s.issue.run l then { x with pc := s.issue.pc + BitVec.ofNat 64 h.bytes } else x

/-- A lane that takes a fault of the instruction being issued: PARKED at it with its record (R417). -/
def parkedLane (h : Head) (s : State) (cause : W8) (faddr : W64) (x : Lane) : Lane :=
  { x with st := .parked, pc := s.issue.pc, deferred := false, sub := s.cur.subNo, inst := s.cur.nextSeq - 1, hold := .none,
           tr := false, keep := none, frec := ⟨cause, faddr, s.issue.pc, h.bytes, s.time⟩, outer := {} }

/-- The faults of the issuing warp are taken by its task's handler: it has one, it is neither speculative nor ending, and no
lane of the mask runs the handler (R418, R421). -/
def HandledHere (s : State) (m : Mask) : Prop :=
  isSeq s.issue.tid = false ∧ hasHandler s (taskOf s.issue.tid) = true ∧ isSpec s (taskOf s.issue.tid) = false ∧
  s.curTask.ending = false ∧ ∀ l, l < 64 → bit m l = true → (s.cur.lanes.getD l {}).inHandler = false

end Sys2Proof.Machine
end

