-- ==== Sys2Proof/Certificates/Slice0/Obligations.lean ====
section
/-!
DEFINITION. The statements for the provers, the parts that several of them join, and the terms in which they are written.
-/
section
open Sys2Proof Sys2Proof.Machine

/-- A binary32 value, read from its bits (R48): a NaN, an infinity. -/
def IsNan32 (w : W32) : Prop := 0x7F800000 < w.toNat % 2 ^ 31

def IsInf32 (w : W32) : Prop := w.toNat % 2 ^ 31 = 0x7F800000

def IsZero32 (w : W32) : Prop := w.toNat % 2 ^ 31 = 0

def IsFin32 (w : W32) : Prop := w.toNat % 2 ^ 31 < 0x7F800000

/-- A finite binary32 value as a multiple of 2^-149 (R48). -/
def val32 (w : W32) : Int :=
  let e := w.toNat / 2 ^ 23 % 2 ^ 8
  let m : Int := if e = 0 then ((w.toNat % 2 ^ 23 : Nat) : Int) else ((2 ^ 23 + w.toNat % 2 ^ 23) * 2 ^ (e - 1) : Nat)
  if w.getLsbD 31 then -m else m

/-- A floating-point format as R47 and R48 give it: exponent and fraction bits, the exponent of its smallest subnormal, negated, the code
of the largest finite number, that of +infinity where there is one, and the canonical NaN. -/
structure NumFmt where
  eb : Nat
  mb : Nat
  low : Nat
  top : Nat
  inf : Option Nat
  nan : Nat

def numF32 : NumFmt := ⟨8, 23, 149, 0x7F7FFFFF, some 0x7F800000, 0x7FC00000⟩
def numBf16 : NumFmt := ⟨8, 7, 133, 0x7F7F, some 0x7F80, 0x7FC0⟩
def numE4m3 : NumFmt := ⟨4, 3, 9, 0x7E, none, 0x7F⟩
def numE5m2 : NumFmt := ⟨5, 2, 16, 0x7B, some 0x7C, 0x7E⟩
def numOf : Ty → NumFmt
  | .bf16 => numBf16
  | .e4m3 => numE4m3
  | .e5m2 => numE5m2
  | _ => numF32

/-- The sign bit as a number, whether it is set in a code, and the code without it. -/
def NumFmt.sign (f : NumFmt) (neg : Bool) : Nat := if neg then 2 ^ (f.eb + f.mb) else 0
def NumFmt.neg (f : NumFmt) (c : Nat) : Bool := c.testBit (f.eb + f.mb)
def NumFmt.abs (f : NumFmt) (c : Nat) : Nat := c % 2 ^ (f.eb + f.mb)

/-- A code is an infinity, or a NaN (R48). -/
def NumFmt.isInf (f : NumFmt) (c : Nat) : Bool := f.inf.any fun i => f.abs c == i
def NumFmt.isNan (f : NumFmt) (c : Nat) : Bool := f.top < f.abs c && !f.isInf c

/-- The magnitude of a finite code, in multiples of the smallest subnormal, and its value (R47). -/
def NumFmt.mag (f : NumFmt) (c : Nat) : Nat :=
  let e := c / 2 ^ f.mb % 2 ^ f.eb
  if e = 0 then c % 2 ^ f.mb else (2 ^ f.mb + c % 2 ^ f.mb) * 2 ^ (e - 1)
def NumFmt.val (f : NumFmt) (c : Nat) : Int := if f.neg c then -(f.mag c : Int) else f.mag c

/-- Rounding of a number of the given sign goes away from zero, where it is not to nearest (R55). -/
def awayFrom0 (rm : Rm) (neg : Bool) : Bool := (rm == .rdn && neg) || (rm == .rup && !neg)

/-- `x` / `s` rounds to the integer `k` by the mode (R55). -/
def RoundsToInt (rm : Rm) (neg : Bool) (x s k : Nat) : Prop :=
  if rm = .rne then 2 * ((k * s : Int) - x).natAbs ≤ s ∧ (2 * ((k * s : Int) - x).natAbs = s → k % 2 = 0)
  else if awayFrom0 rm neg then x ≤ k * s ∧ k * s < x + s
  else k * s ≤ x ∧ x < k * s + s

/-- A nonzero magnitude, `x` / `s` times the smallest subnormal, is past the largest finite number once it is rounded with that number's
own last place (R56). -/
def NumFmt.Past (f : NumFmt) (rm : Rm) (neg : Bool) (x s : Nat) : Prop :=
  let m := f.mag f.top
  let last := 2 ^ (f.top / 2 ^ f.mb - 1)
  if rm = .rne then (2 * m + last) * s < 2 * x ∨ ((2 * m + last) * s = 2 * x ∧ f.top % 2 = 1)
  else if awayFrom0 rm neg then m * s < x
  else (m + last) * s ≤ x

/-- Rounded with an unbounded exponent it is below the smallest normal number (R59). -/
def NumFmt.Tiny (f : NumFmt) (rm : Rm) (neg : Bool) (x s : Nat) : Prop :=
  if rm = .rne then 4 * x + s < 4 * 2 ^ f.mb * s
  else if awayFrom0 rm neg then 2 * x + s ≤ 2 * 2 ^ f.mb * s
  else x < 2 ^ f.mb * s

/-- A nonzero magnitude, `x` / `s` times the smallest subnormal, and its sign rounded to a format by the mode, saturating where `sat` is set:
the code and the flags (R55, R56, R58, R59). An overflow gives infinity or the largest number as the mode says, with OF and NX, and SAT where
it was saturated; anything else the nearest number, an even one of two, or the nearest on the side of the mode, with NX and UF as R59 has
them. -/
def NumFmt.Rounds (f : NumFmt) (rm : Rm) (sat neg : Bool) (x s : Nat) (r : Nat × W32) : Prop :=
  (f.Past rm neg x s →
    if rm = .rtz ∨ (rm ≠ .rne ∧ awayFrom0 rm neg = false) then r = (f.top + f.sign neg, 0x14)
    else if sat then r = (f.top + f.sign neg, 0x34)
    else match f.inf with
      | some i => r = (i + f.sign neg, 0x14)
      | none => r = (f.nan, 0x14)) ∧
  (¬ f.Past rm neg x s → ∃ c, c ≤ f.top ∧ r.1 = c + f.sign neg ∧
    (∀ d, d ≤ f.top →
      if rm = .rne then
        ((f.mag c * s : Int) - x).natAbs ≤ ((f.mag d * s : Int) - x).natAbs ∧
        (d ≠ c → ((f.mag c * s : Int) - x).natAbs = ((f.mag d * s : Int) - x).natAbs → c % 2 = 0)
      else if awayFrom0 rm neg then x ≤ f.mag c * s ∧ (x ≤ f.mag d * s → c ≤ d)
      else f.mag c * s ≤ x ∧ (f.mag d * s ≤ x → d ≤ c)) ∧
    (f.mag c * s = x → r.2 = 0) ∧
    (f.mag c * s ≠ x → (f.Tiny rm neg x s → r.2 = 0x18) ∧ (¬ f.Tiny rm neg x s → r.2 = 0x10)))

/-- A result is the exact value `x`, a multiple of 2^-149 / `scale`, rounded once by the mode, with its flags; nothing is said of an exact 0,
whose sign R57 gives. -/
def RoundedTo (rm : Rm) (x : Int) (scale : Nat) (r : W32 × W32) : Prop :=
  x ≠ 0 → numF32.Rounds rm false (decide (x < 0)) x.natAbs scale (r.1.toNat, r.2)

/-- The zero that a sum gives whose terms are all -0, or are not (R57, log 43). -/
def zeroSum (rm : Rm) (allNeg : Bool) : W32 := if allNeg || rm == .rdn then 0x80000000 else 0

/-- The address of a memory form for a lane (R80, R269): the lane's own pair under BK, else the scalar pair, plus the offset;
without UNI a scalar base steps by n per lane. -/
def globalAddr (t : Thread) (o : MemF) (step : Nat) (l : Nat) : W64 :=
  (if o.bk then t.vlane2 o.base.toNat l else t.sget2 (o.base.setWidth 6)) + o.off.signExtend 64 +
    (if o.bk then 0 else BitVec.ofNat 64 (step * l))

/-- The same in scratchpad, modulo 2^32 (R80, R269). -/
def spadAddr (t : Thread) (o : MemF) (step : Nat) (l : Nat) : Nat :=
  ((if o.bk then t.vlane o.base.toNat l else t.sget (o.base.setWidth 6)) + o.off.signExtend 32 +
    (if o.bk then 0 else BitVec.ofNat 32 (step * l))).toNat

/-- The low bytes of a lane's data registers (R268). -/
def laneData (t : Thread) (d n l : Nat) : Nat :=
  if n ≤ 4 then (t.vlane d l).toNat % 256 ^ n
  else if n = 8 then (t.vlane2 d l).toNat
  else (t.vlane2 d l).toNat + 2 ^ 64 * (t.vlane2 (d + 2) l).toNat

/-- A task instruction may read `n` bytes at an address that passes its checks and translates to `pa`, with the translation's
effect `s'` (R165, R170). -/
def TaskReads (s s' : State) (x : W64) (align n pa : Nat) : Prop :=
  x.toNat < 2 ^ 52 ∧ x.toNat % align = 0 ∧ taskHeld s.cur = false ∧
  translate s.issue.core s.curTask.cid x.toNat .read s = (s', .inl pa) ∧ homeGone s' pa = false ∧
  mayRead s' s.issue.core s.issue.tid x.toNat pa n = true ∧ poisonedTo s' s.issue.tid pa n = false

/-- The registers of a thread hold the outcome of the committed future at `pa` (R164, R170). -/
def HoldsFuture (s : State) (t : Thread) (d b : SReg) (pa : Nat) : Prop :=
  let st := bytesAt s.mem pa 1
  t.sget b = BitVec.ofNat 32 ((if 4 ≤ st then 2 else st) + 256 * bytesAt s.mem (pa + 1) 1) ∧
  (b ≠ d → b ≠ d + 1 → t.sget2 d = if st = 0 then 0 else BitVec.ofNat 64 (bytesAt s.mem (pa + 8) 8))

/-- An engine operation of a class enters the issuing thread's list, and the lanes move on (R393). -/
def EntersOp (h : Head) (s u : State) (cls : Nat) (q : EngOp) : Prop :=
  u.cur.ops = s.cur.ops ++ [q] ∧ q.cls = cls ∧ q.done = false ∧ LanesBecome s u (toNext h s) ∧ SameMemory s u

/-- An operation of a thread has been carried out: no operation of that number is outstanding (R393). -/
def OpDone (u : State) (tid id : Nat) : Prop := ∀ q, q ∈ (u.thread tid).ops → q.id = id → q.done = true

/-- An agent under a context writes `n` bytes, within one line, at physical address `pa` now. -/
def AgentWrites (s : State) (cid va n pa : Nat) : Prop :=
  0 < n ∧ va % 128 + n ≤ 128 ∧ pa % 128 + n ≤ 128 ∧ walkAddr s cid va .write = .inl pa ∧ homeGone s pa = false ∧
  (s.l2line (lineOf pa)).host = false

/-- An agent under a context reads `n` bytes, within one line, at physical address `pa`. -/
def AgentReads (s : State) (cid va n pa : Nat) : Prop :=
  0 < n ∧ va % 128 + n ≤ 128 ∧ walkAddr s cid va .read = .inl pa ∧ homeGone s pa = false ∧ poisoned s pa n = false

/-- The bytes at physical address `pa`. -/
def bytesFrom (s : State) (pa n : Nat) : List W8 := (List.range n).map fun i => byteAt s.mem (pa + i)

/-- Memory differs only in `n` bytes from `pa`. -/
def OnlyBytes (s u : State) (pa n : Nat) : Prop := ∀ b, b < pa ∨ pa + n ≤ b → byteAt u.mem b = byteAt s.mem b

/-- The packet's slot wins arbitration now (R109). -/
def Wins (s : State) (p kind : Nat) (x : Pkt) : Prop :=
  ∃ k, winner s = some (k, x.qid) ∧ startable s x.qid = some p ∧ s.pkt p = some x ∧ x.kind = kind

/-- A vector register file as the model keeps it: 64 lanes in every listed row, no listed row of zeros, keys rising. -/
def RowsOk (t : Thread) : Prop := Memory.wf zeroRow t.v = true ∧ ∀ r, (t.vmain r).length = 64

/-- The mailbox takes a command with this code: it is live, idle, and not in recovery (R447, R459). -/
def Takes (s : State) (opc : Nat) : Prop := s.mbxRun = none ∧ mbxLive s = true ∧ readyBit s 8 = false ∧ s.mbxOpc.toNat = opc

/-- Argument `i` of the mailbox. -/
def argAt (s : State) (i : Nat) : Nat := (tget 0 s.mbxArg i).toNat

/-- A command has ended with a result, and the host is told (R447). -/
def Ended (s u : State) (r : W8) : Prop :=
  u.mbxRun = none ∧ u.mbxResult = r ∧ u.hostEvents = s.hostEvents ++ [(0, 0, 0)]

/-- The instructions and events that may write memory: stores that perform, atomics, spawned and completed records, queue
slots, and the engines and agents that move bytes. -/
def mayWriteMemory : Instr → Bool
  | .spawnr .. | .join .. | .fsetAt .. | .ffltAt .. | .qput .. | .qputX2 .. | .lbind .. | .storePerformed .. | .joinerWake ..
  | .tileArrival .. | .dequePop .. | .taskRetire .. | .fatalFault .. | .cpyTransfer .. | .adrnComplete .. | .gthComplete ..
  | .nbRowOperation .. | .nbForcedRowOperation .. | .landingPacketApply .. | .queryComplete .. | .shapeResolution .. | .shapeTimeout ..
  | .speculationTagFree .. | .queueConsume .. | .fillPacket .. | .signalStore .. | .signalAtomicAdd .. | .signalCompleteFuture ..
  | .waitPacket .. | .waitReevaluate .. | .waitTimeout .. | .packetComplete .. | .launchComplete .. | .fwinWrite .. | .lwinWrite ..
  | .ctxCreate | .ctxDestroy | .qCreate | .qDestroy | .attest | .umberQuantum | .queueIdleSwap .. | .pageMigration ..
  | .axlNotify .. | .axyelGet .. | .axyelReceive .. | .axyelDescriptorComplete .. | .linkLoss .. | .hostCxlMemAccess ..
  | .fabricOpTimeout .. | .routerFailure .. | .dieLoss .. | .cxlCacheSnoop .. | .warpRetire .. | .shootdownComplete ..
  | .fabricHeaderCheck .. | .forwardProgressSwap .. | .fwLoad .. | .nbProgramStart .. | .rangesFree .. | .reset .. | .slateTakeover ..
  | .stealAttemptReceived .. | .teamRestore .. | .umberPreemptRequest .. => true
  | _ => false

/-- The encoded instructions that may write a register of another thread: the barrier of a gang, the stage rings, and the
return of a block. -/
def mayServeOthers : Instr → Bool
  | .gbar .. | .sgacqE .. | .sgacqF .. | .sgrel .. | .sgrelInit .. | .xrel .. => true
  | _ => false

/-- The instructions that take, return, open or close vector registers of their own warp (R193 to R201). -/
def mayMoveBlocks : Instr → Bool
  | .xacq .. | .xacqTry .. | .xrel .. | .rgn .. | .rgnend .. => true
  | _ => false

/-- The instructions that raise floating-point flags (R59, R241, R245, R248 to R250, R233). -/
def mayRaiseFlags : Instr → Bool
  | .vfadd .. | .vfsub .. | .vfmul .. | .vffma .. | .vfrcp .. | .vfrsq .. | .vfsqrt .. | .vfexp .. | .vflog .. | .vftanh ..
  | .vfsinpi .. | .vfcospi .. | .vcvt .. | .vfrnd .. | .vdot2 .. | .vdot4 .. | .vfscl .. | .vscan .. | .vred .. => true
  | _ => false

def writesSpecials : Instr → Bool
  | .sregWrite .. | .sregSwap .. => true
  | _ => false

def readsTime : Instr → Bool
  | .sregRead .. | .sregSwap .. => true
  | _ => false

def movesMonitor : Instr → Bool
  | .mon .. | .monSp .. | .mwait .. => true
  | _ => false

/-- The instructions that put accesses or fences among the thread's accesses. -/
def entersFlight : Instr → Bool
  | .sld .. | .sst .. | .vld .. | .vst .. | .ldx .. | .copWb .. | .copWbinv .. | .atm .. | .fenceRel .. | .fenceAcq .. => true
  | _ => false

/-- The instructions of the engine classes (R393). -/
def entersEngine : Instr → Bool
  | .qsub .. | .cland .. | .nbrun .. | .vgth .. | .vsct .. | .gld .. | .gst .. | .mst .. | .cpy .. | .strm .. | .strmend ..
  | .mma .. | .mmaSh .. | .accZero .. | .accCommit .. | .accDiscard .. | .accMove .. | .ardv .. | .ardvRaw .. | .adrn ..
  | .fskip .. => true
  | _ => false

/-- Tier 3. Every well-formed instruction is read back from its own words, with every operand (R70 to R83). -/
def Obligations.DecodeEncode : Prop := ∀ (i : Instr) (n : Nat), i.wf = true → encode i = some n → decode n = .ok i

/-- Tier 3. Every step keeps memory in its canonical form: addresses strictly rising, no entry equal to an unlisted byte. -/
def Obligations.MemoryStaysCanonical : Prop :=
  ∀ s u : State, Memory.wf 0 s.mem = true → step s = .next u → Memory.wf 0 u.mem = true

/-- Tier 1. Reset memory has the canonical form, and every byte of it reads 0 (log 2: the model's own value). -/
def Obligations.ResetMemoryCanonical : Prop :=
  Memory.wf 0 State.reset.mem = true ∧ ∀ a, byteAt State.reset.mem a = 0

/-- Tier 1. What reset leaves, where the spec gives the values (R17, R108, R142, R161, R263, R293, R348, R361, R414, R447, R453,
R470): no work, no context, the registers at their reset values. -/
def Obligations.ResetRegisters : Prop :=
  let s := State.reset
  s.ageq = 50 ∧ s.errslot = 0 ∧ s.xsMinvictim = 4 ∧ s.xsIdle = 2048 ∧ s.xsSwap = 65536 ∧ s.opTimeout = 1048576 ∧
  s.cap = 3000 ∧ s.oplim = 0 ∧ s.quantum = 2000 ∧ s.nbWindow = 100 ∧ s.nbMaxsusp = 20 ∧ s.xsEnable = true ∧
  s.tags = 0 ∧ s.scommit = 0 ∧ s.ssquash = 0 ∧ s.stmo = 0 ∧ s.sinval = 0 ∧ s.fwin = [] ∧ s.lwin = [] ∧ s.lwinDrop = 0 ∧
  s.shootReq = 0 ∧ s.shootDone = 0 ∧ s.fabCount = 0 ∧ s.ctxs = [] ∧ s.queues = [] ∧ s.tasks = [] ∧ s.launches = [] ∧
  s.ready = 0

/-- The step makes a unit try to issue, from the state `s0`: the first turn of the agenda names it, or it is ready while the agenda waits
or is empty (R182, log 1). -/
def TurnsTo (s s0 : State) (core unit : Nat) : Prop :=
  (∃ rest, s.agenda = ⟨0, .issue core unit⟩ :: rest ∧ s0 = { s with agenda := rest }) ∨
  ((s.agenda = [] ∨ ∃ w a rest, s.agenda = ⟨w + 1, a⟩ :: rest) ∧ nextUnit s = some (core, unit) ∧ s0 = s)

/-- A unit whose turn it is to issue lands the due results, chooses the head run, fetches and decodes, and what decodes, meets no
interlock, has a pipe and no fault at issue takes effect as `exec` says (R84, R182, R184, R222, log 1); an encoding that the decoder
rejects parks the run. A turn that waits with no unit ready passes one tick, and an event acts as `exec` says. -/
def Claims.StepRunsDecoded : Prop :=
  (∀ (core unit tid n : Nat) (s s0 z : State) (i : Instr), TurnsTo s s0 core unit →
    unitTid s0 core unit = some tid → issuable s0 core tid = true → picked s0 core unit = true →
    let s1 := clean tid (s0.onThread tid fun t => t.land s0.time)
    let r := (s1.thread tid).choose
    let pc := (r.1.lanes.getD (r.2.headD 0) {}).pc
    let low := pc.toNat == r.1.lowPc r.1.active
    fetch core tid pc.toNat (s1.setThread tid r.1) = (z, .inl n) →
    let h := headOf n
    let role := roleOf (z.taskT tid).team (warpOf tid)
    (decodeFor role n = .ok i →
      let uses := i.usesOf (isSeq tid) h
      let chosen := { z with issue := { core := core, unit := unit, tid := tid, run := maskBy r.2, pc := pc, ilen := h.bytes : Issue } }
      let ready := chosen.onCur (begins i uses (maskBy r.2) (execMask h chosen != 0))
      interlocked (z.thread tid) uses = false → mayIssue z core unit (opOf n).toNat = true →
      (execMask h chosen ≠ 0 → issueFault (z.thread tid) (isSeq tid) uses z.time = none) →
      outsideRegion (z.thread tid) uses = false ∨ (z.thread tid).delayed = true →
      ∀ u, exec i ready = .next u → step s = .next (finishIssue core unit tid (opOf n).toNat h r.2 low z u)) ∧
    (∀ c, decodeFor role n = .error c → step s = .next (park tid (r.2.map fun l => ⟨l, c, 0, false⟩) pc h.bytes z))) ∧
  (∀ (w : Nat) (a : Act) (rest : List Turn) (s : State), s.agenda = ⟨w + 1, a⟩ :: rest → nextUnit s = none →
    step s = .next (passTime 1 { s with agenda := ⟨w, a⟩ :: rest })) ∧
  (∀ (rest : List Turn) (s : State) (i : Instr), s.agenda = ⟨0, .event i⟩ :: rest → i.raw = none →
    step s = exec i { s with agenda := rest })

/-- The words of an instruction come from the bytes at the translated PC as a plain load reads them, from the core's L1 while a lease
lasts and from the home otherwise, the first word lowest, the base word naming the length (R70, R85, R1), and a fetch leaves memory as it
was. -/
def Claims.FetchReadsTheBytes : Prop :=
  (∀ (core tid va pa : Nat) (s s' : State), translate core (s.taskT tid).cid va .fetch s = (s', .inl pa) →
    let tag := viewTag s (taskOf tid)
    let held := l1Find (s'.core core) (lineOf pa) tag s.time
    (landsAt s pa = true ∨ held = none → homeGone s' pa = false → poisonedTo s' tid pa 4 = false →
      ∃ z, fetchWord core tid va s = (z, .inl (viewRead s tag pa 4)) ∧ z.mem = s.mem) ∧
    (∀ l, landsAt s pa = false → held = some l →
      ∃ z, fetchWord core tid va s = (z, .inl (bytesOfLine l pa 4 % 2 ^ 32)) ∧ z.mem = s.mem)) ∧
  (∀ (core tid va : Nat) (s z0 : State) (w0 : Nat), fetchWord core tid va s = (z0, .inl w0) →
    (w0 % 4 = 0 → fetch core tid va s = (z0, .inl w0)) ∧
    (∀ z1 z2 w1 w2, w0 % 4 = 1 ∨ w0 % 4 = 2 → fetchWord core tid (va + 4) z0 = (z1, .inl w1) →
      fetchWord core tid (va + 4 + 4) z1 = (z2, .inl w2) →
      fetch core tid va s = (z2, .inl (w0 + 2 ^ 32 * w1 + 2 ^ 64 * w2))) ∧
    (∀ z1 z2 z3 z4 w1 w2 w3 w4, w0 % 4 = 3 → fetchWord core tid (va + 4) z0 = (z1, .inl w1) →
      fetchWord core tid (va + 4 + 4) z1 = (z2, .inl w2) → fetchWord core tid (va + 4 + 4 + 4) z2 = (z3, .inl w3) →
      fetchWord core tid (va + 4 + 4 + 4 + 4) z3 = (z4, .inl w4) →
      fetch core tid va s = (z4, .inl (w0 + 2 ^ 32 * w1 + 2 ^ 64 * w2 + 2 ^ 96 * w3 + 2 ^ 128 * w4))))

/-- Tier 1. A step runs the instruction that it fetched and decoded: the parts above.
It rests also on choices and readings of the model: log 1, 6 and 26. -/
def Obligations.StepRunsDecoded : Prop := Claims.StepRunsDecoded ∧ Claims.FetchReadsTheBytes

/-- Tier 1. Words written out from the encodings of R72 to R80, one or more of each family, decode to what they stand for. -/
def Obligations.DecodedWords : Prop :=
  let h : BitVec 2 → BitVec 3 → Head := fun len g => ⟨len, 0, g, false⟩
  decode 0xE000 = .ok (.nop (h 0 7)) ∧
  decode 0x1122_3344_5566_7788_3000_0000_0000_0400_0000_E3C3 =
    .ok (.sli (h 3 7) { d := 4, b := .lit 0x1122_3344_5566_7788, ty := .x64 }) ∧
  decode 0x1800_0400_C010_0100_0000_E302 = .ok (.scmp (h 2 7) { d := 1, a := 2, b := .reg 3, cc := 2, ty := .n32 }) ∧
  decode 0x0000_3000_0000_0700_0000_E5C2 = .ok (.sregRead (h 2 7) 7 0x18) ∧
  decode 0x0100_E580 = .ok (.trapShort (h 0 7) 4) ∧
  decode 0x100_0000_2601 = .ok (.br (h 1 1) 0x100) ∧
  decode 0x0500_E740 = .ok (.ret (h 0 7) 20) ∧ decode 0xE7C0 = .ok (.yld (h 0 7)) ∧
  decode 0x8000_0001_C030_0800_0000_EF42 =
    .ok (.vfmax (h 2 7) { d := 8, a := .vec 6, b := .vec 7, ty := .f32, rm := .rne, sat := false, x := true }) ∧
  decode 0x1E02_1200_0010_0900_0000_F1C2 =
    .ok (.vcvt (h 2 7) { d := 9, a := .vec 2, src := .f32, dst := .e4m3, sp := 0, dp := 2, rm := .rne, sat := true }) ∧
  decode 0x0000_C600_0000_3C00_0000_F342 =
    .ok (.vsrt (h 2 7) { d := 0x3C, lj := 3, lk := 6, lr := 0, ty := .f32, dn := false }) ∧
  decode 0x8000_0800_0190_2800_0000_33C2 =
    .ok (.vtopk (h 2 1) { d := 0x28, a := 0x32, k := 4, ty := .f32, dn := true }) ∧
  decode 0x0C00_0000_0000_FA82 = .ok (.xacq (h 2 7) 3)

/-- Tier 2. Whatever the decoder accepts is a well-formed encoded instruction with the guard and the length of the word (R83). -/
def Obligations.DecodedWellFormed : Prop :=
  ∀ (n : Nat) (i : Instr), decode n = .ok i → i.wf = true ∧ i.raw.map Raw.head = some (headOf n) ∧
    ∃ m, encode i = some m ∧ decode m = .ok i

/-- Tier 2. An instruction or event that is not one of those named leaves every byte of memory as it was.
It rests also on choices and readings of the model: log 7 and 22. -/
def Obligations.MemoryFrame : Prop :=
  ∀ (i : Instr) (s u : State), mayWriteMemory i = false → exec i s = .next u → SameMemory s u

/-- Tier 2. An encoded instruction changes no register of its thread but those that it names as written, whatever results are
pending, and no register of another thread but through a barrier, a ring or a block that it releases. -/
def Obligations.RegisterFrame : Prop :=
  ∀ (i : Instr) (r : Raw) (s u : State), i.wf = true → i.raw = some r → s.cur.wait.retries = true → exec i s = .next u →
    (∀ k, k < 64 → RegName.s k ∉ (i.usesOf (isSeq s.issue.tid) r.head).writes → u.cur.holds (.s k) = s.cur.holds (.s k)) ∧
    (∀ k, k < 8 → RegName.p k ∉ (i.usesOf (isSeq s.issue.tid) r.head).writes → u.cur.holds (.p k) = s.cur.holds (.p k)) ∧
    (mayMoveBlocks i = false → ∀ k, RegName.v k ∉ (i.usesOf (isSeq s.issue.tid) r.head).writes →
      u.cur.holds (.v k) = s.cur.holds (.v k)) ∧
    (mayServeOthers i = false → ∀ tid n, tid ≠ s.issue.tid → (u.thread tid).holds n = (s.thread tid).holds n)

/-- Tier 2. What an encoded instruction leaves of the special registers, the accumulators, the monitor, the accesses and engine
operations, the task's outcome, barrier and rings, and the rest of the machine (R59, R179, R202, R216, R325, R329, R395). -/
def Obligations.SpecialRegisterFrame : Prop :=
  ∀ (i : Instr) (r : Raw) (s u : State), i.raw = some r → exec i s = .next u →
    let a := s.cur
    let b := u.cur
    (writesSpecials i = false → b.wctl = a.wctl ∧ b.h = a.h ∧ b.q = a.q ∧ b.p0c = a.p0c ∧
      (∀ k, k < 32 → a.settled.fpflags.getLsbD k = true → b.settled.fpflags.getLsbD k = true)) ∧
    (writesSpecials i = false → mayRaiseFlags i = false → b.settled.fpflags = a.settled.fpflags) ∧
    (readsTime i = false → b.timehi = a.timehi) ∧
    ((∀ h x, i ≠ .tmark h x) → b.mark = a.mark) ∧
    ((∀ h w, i ≠ .rgn h w) → (∀ h, i ≠ .rgnend h) → (∀ h k, i ≠ .xrel h k) → b.region = a.region) ∧
    ((∀ h k, i ≠ .xacq h k) → (∀ h d k, i ≠ .xacqTry h d k) → (∀ h k, i ≠ .xrel h k) → b.xblk = a.xblk) ∧
    (movesMonitor i = false → (b.mon.map fun m => (m.sp, m.addr, m.saved)) = a.mon.map fun m => (m.sp, m.addr, m.saved)) ∧
    (entersFlight i = false → b.flight = a.flight) ∧
    (entersEngine i = false → b.ops = a.ops) ∧
    ((∀ h m n, i ≠ .wcnt h m n) → (∀ h x y, i ≠ .sgrel h x y) → (∀ h x y, i ≠ .sgrelInit h x y) → b.pendFault = a.pendFault) ∧
    (mayWriteMemory i = false → b.maxw = a.maxw) ∧ b.retired = a.retired ∧
    (∀ k, (u.task k).cells = (s.task k).cells ∧ (u.task k).shadow = (s.task k).shadow ∧ (u.task k).wid = (s.task k).wid ∧
      (u.task k).st = (s.task k).st) ∧
    ((∀ h x, i ≠ .fset h x) → (∀ h x y, i ≠ .fflt h x y) → ∀ k, (u.task k).out = (s.task k).out) ∧
    ((∀ h d r, i ≠ .sgacqE h d r) → (∀ h d r, i ≠ .sgacqF h d r) → (∀ h r b, i ≠ .sgrel h r b) → (∀ h r n, i ≠ .sgrelInit h r n) →
      ∀ k, (u.task k).rings = (s.task k).rings) ∧
    ((∀ h, i ≠ .bar h) → (∀ h, i ≠ .texit h) → ∀ k, (u.task k).barPhase = (s.task k).barPhase ∧ (u.task k).barHere = (s.task k).barHere) ∧
    u = { s with
      threads := u.threads, tasks := u.tasks, cores := u.cores, issue := u.issue, nextId := u.nextId, free := u.free
      mem := u.mem, poison := u.poison, l2 := u.l2, spec := u.spec, specFut := u.specFut, gangs := u.gangs
      launches := u.launches, queues := u.queues, doorbell := u.doorbell, errslot := u.errslot, hostEvents := u.hostEvents
      nb := u.nb, landing := u.landing, queries := u.queries, faultq := u.faultq, timeouts := u.timeouts, tlbMiss := u.tlbMiss
      secstall := u.secstall, waystall := u.waystall, nbCnt := u.nbCnt, msgs := u.msgs
      tlbCoal := u.tlbCoal, dieTlb := u.dieTlb, walkCache := u.walkCache, badPte := u.badPte, xsSpill := u.xsSpill }

/-- R74: an encoded instruction whose guard passes no lane of the run only moves the lanes of the run on. -/
def Claims.EmptyExecOnlyAdvances : Prop :=
  ∀ (i : Instr) (r : Raw) (s : State), i.raw = some r → execMask r.head s = 0 → exec i s = .next (advance r.head s)

/-- R76: p7 reads all ones and keeps no write, and the other predicates take theirs. -/
def Claims.PredicateSeven : Prop :=
  ∀ (t : Thread) (v : Mask), t.pget 7 = BitVec.allOnes 64 ∧ t.pset 7 v = t ∧
    (∀ p : Pred, p ≠ 7 → Memory.wf 0 t.p = true → (t.pset p v).pget p = v ∧ (t.pset p v).pget 7 = BitVec.allOnes 64) ∧
    ∀ (m : Mask), (t.land1 (.p 7 m v)) = t

/-- R74, R228, R233, R234, R241 to R252, R338, R193 to R201: under a guard that passes a lane of the run, each of these completes for
every operand, moves the lanes of the run on and writes no memory: floating-point arithmetic, special functions, conversions, dot
products, scans, reductions and sorts in every state; register blocks and regions where nothing has to be waited for. -/
def Claims.RegisterFormsComplete : Prop :=
  ∀ (h : Head) (s : State), execMask h s ≠ 0 →
    let completes := fun i : Instr => ∃ t, exec i s = .next t ∧ LanesBecome s t (toNext h s) ∧ SameMemory s t
    (∀ o : VBin, completes (.vfadd h o) ∧ completes (.vfsub h o) ∧ completes (.vfmul h o) ∧ completes (.vfmin h o) ∧
      completes (.vfmax h o) ∧ completes (.vfscl h o)) ∧
    (∀ o : VTri, completes (.vffma h o) ∧ completes (.vdot2 h o) ∧ completes (.vdot4 h o)) ∧
    (∀ o : VUn, completes (.vfrcp h o) ∧ completes (.vfrsq h o) ∧ completes (.vfsqrt h o) ∧ completes (.vfexp h o) ∧
      completes (.vflog h o) ∧ completes (.vftanh h o) ∧ completes (.vfsinpi h o) ∧ completes (.vfcospi h o) ∧
      completes (.vfrnd h o)) ∧
    (∀ o : VCvt, completes (.vcvt h o)) ∧ (∀ o : VCmp, completes (.vfcmp h o)) ∧
    (∀ (d : Pred) (a : VSrc) (m : BitVec 9), completes (.vfcls h d a m)) ∧
    (∀ o : VScan, completes (.vscan h o) ∧ completes (.vred h o)) ∧
    (∀ o : VSrt, completes (.vsrt h o)) ∧ (∀ o : VMrg, completes (.vmrg h o)) ∧ (∀ o : VTopk, completes (.vtopk h o)) ∧
    (∀ k : BitVec 4, s.cur.xblk.getLsbD k.toNat = true ∨ poolFree s = true → completes (.xacq h k)) ∧
    (∀ (d : SReg) (k : BitVec 4), completes (.xacqTry h d k)) ∧
    (∀ k : BitVec 4, s.cur.xblk.getLsbD k.toNat = false ∨
      (s.cur.busyIn fun r => r / 128 == k.toNat) = false ∧ blockedXacq s s.issue.core = [] → completes (.xrel h k)) ∧
    (∀ w : W64, setOk w = true → (∀ r, r ∈ setOf w → s.cur.held r = true) → closeBusy s.cur = false →
      s.cur.busyIn (setOf w).contains = false → completes (.rgn h w)) ∧
    (closeBusy s.cur = false → completes (.rgnend h))

/-- Tier 2. An empty guard only advances the run; the register forms named complete under a guard that is not; p7 reads all ones and
keeps no write: the parts above. -/
def Obligations.GuardsAndPredicates : Prop := Claims.EmptyExecOnlyAdvances ∧ Claims.PredicateSeven ∧ Claims.RegisterFormsComplete

/-- Tier 1. R215: `nop` changes no state and moves the lanes of the run to the next instruction, whatever the guard. -/
def Obligations.NopMovesTheRun : Prop :=
  (∀ (h : Head) (s : State), ∃ t, exec (.nop h) s = .next t ∧ OnlyThreads s t ∧
    (∀ i, i ≠ s.issue.tid → t.thread i = s.thread i) ∧
    t.cur = { s.cur with lanes := t.cur.lanes } ∧ t.cur.lanes.length = s.cur.lanes.length ∧
    ∀ l x, s.cur.lanes[l]? = some x →
      t.cur.lanes[l]? = some (if bit s.issue.run l then { x with pc := s.issue.pc + BitVec.ofNat 64 h.bytes } else x)) ∧
  (∀ n, n / 2 ^ 6 % 2 ^ 7 = 0 → decode n = .ok (.nop (headOf n))) ∧ decode 0xE000 = .ok (.nop ⟨0, 0, 7, false⟩)

/-- Tier 2. R206, R207 (with R46, R58): the arithmetic instructions complete, and what they write is the exact integer result of
the operands as their type reads them, clamped or wrapped, extended to 32 bits. -/
def Obligations.ScalarArithmetic : Prop :=
  ∀ (h : Head) (o : SBin) (s : State) (x y : Int), execMask h s ≠ 0 → intTypes.contains o.ty = true →
    ReadsAs o.ty (s.cur.sget o.a) x → ReadsAs o.ty (o.b.v32 s.cur) y →
    (∃ v, IntResult o.ty o.sat (x + y) v ∧ exec (.sadd h o) s = .next (advance h (putS o.d v s))) ∧
    (∃ v, IntResult o.ty o.sat (x - y) v ∧ exec (.ssub h o) s = .next (advance h (putS o.d v s))) ∧
    (o.x = false → ∃ v, IntResult o.ty o.sat (x * y) v ∧ exec (.smul h o) s = .next (advance h (putS o.d v s))) ∧
    (o.x = true → ∃ v, (v.toNat : Int) = x * y / 2 ^ 32 % 2 ^ 32 ∧
      exec (.smul h o) s = .next (advance h (putS o.d v s))) ∧
    (∃ v, HoldsInt o.ty v (if x ≤ y then x else y) ∧ exec (.smin h o) s = .next (advance h (putS o.d v s))) ∧
    (∃ v, HoldsInt o.ty v (if x ≤ y then y else x) ∧ exec (.smax h o) s = .next (advance h (putS o.d v s)))

/-- Tier 2. R207: division truncates toward zero, the remainder takes the sign of the dividend, a zero divisor gives all ones and
the dividend, and the quotient of the minimum by -1 wraps. -/
def Obligations.ScalarDivision : Prop :=
  ∀ (h : Head) (o : SBin) (s : State) (x y : Int), execMask h s ≠ 0 → orderTys.contains o.ty = true →
    ReadsAs o.ty (s.cur.sget o.a) x → ReadsAs o.ty (o.b.v32 s.cur) y →
    ∃ v, exec (.sdiv h o) s = .next (advance h (writeFixed 2 (.s o.d.toNat v) s)) ∧
      (y = 0 → o.x = false → IntResult o.ty false (-1) v) ∧
      (y = 0 → o.x = true → HoldsInt o.ty v x) ∧
      (y ≠ 0 → ∃ q r : Int, x = y * q + r ∧ r.natAbs < y.natAbs ∧ (0 ≤ x → 0 ≤ r) ∧ (x ≤ 0 → r ≤ 0) ∧
        (if o.x then HoldsInt o.ty v r else IntResult o.ty false q v)) ∧
      (y = -1 → x = intMin o.ty → HoldsInt o.ty v (if o.x then 0 else intMin o.ty))

/-- Tier 2. R206, R208, R212, R214: logic, shifts, bit fields and the wide sums. -/
def Obligations.ScalarLogicAndShifts : Prop :=
  ∀ (h : Head) (o : SBin) (s : State), execMask h s ≠ 0 →
    let a := s.cur.sget o.a
    let b := o.b.v32 s.cur
    exec (.sand h o) s = .next (advance h (putS o.d (a &&& b) s)) ∧
    exec (.sor h o) s = .next (advance h (putS o.d (a ||| b) s)) ∧
    exec (.sxor h o) s = .next (advance h (putS o.d (a ^^^ b) s)) ∧
    (∃ v, exec (.sshl h o) s = .next (advance h (putS o.d v s)) ∧
      ∀ i, i < 32 → v.getLsbD i = (decide (b.toNat ≤ i) && a.getLsbD (i - b.toNat))) ∧
    (∃ v, exec (.sshr h o) s = .next (advance h (putS o.d v s)) ∧
      ∀ i, i < 32 → v.getLsbD i =
        if i + b.toNat < 32 then a.getLsbD (i + b.toNat) else o.ty == .i32 && a.getLsbD 31) ∧
    (∃ v, exec (.sbfe h o) s = .next (advance h (putS o.d v s)) ∧
      let pos := b.toNat % 256
      let w := min (b.toNat / 256 % 256) 32
      let f := fun i => if pos + i < 32 then a.getLsbD (pos + i) else o.ty == .i32 && a.getLsbD 31
      ∀ i, i < 32 → v.getLsbD i = if i < w then f i else (o.ty == .i32 && decide (0 < w) && f (w - 1))) ∧
    (∃ v, exec (.swide h o) s = .next (advance h (putS2 o.d v s)) ∧
      (o.ty = .x64 → v = if o.x then s.cur.sget2 o.a - o.b.v64 s.cur else s.cur.sget2 o.a + o.b.v64 s.cur) ∧
      (o.ty = .i32 → v = if o.x then s.cur.sget2 o.a - b.signExtend 64 else s.cur.sget2 o.a + b.signExtend 64) ∧
      (o.ty = .n32 → v = if o.x then s.cur.sget2 o.a - b.setWidth 64 else s.cur.sget2 o.a + b.setWidth 64))

/-- R213: the bit operations of `sbit`, bit by bit. -/
def Claims.BitOperations : Prop :=
  ∀ (h : Head) (o : SBit) (s : State), execMask h s ≠ 0 →
    let a := s.cur.sget o.a
    let b := (o.b.v32 s.cur).toNat
    let ones := fun n => ((List.range n).filter fun i => a.getLsbD i).length
    ∃ v, exec (.sbit h o) s = .next (advance h (putS o.d v s)) ∧
      (o.f = 0 → v.toNat = ones 32) ∧
      (o.f = 1 → a = 0 → v = 32) ∧
      (o.f = 1 → ∀ k, k < 32 → a.getLsbD k = true → (∀ i, k < i → i < 32 → a.getLsbD i = false) → v.toNat = 31 - k) ∧
      (o.f = 2 → a = 0 → v = 32) ∧
      (o.f = 2 → ∀ k, k < 32 → a.getLsbD k = true → (∀ i, i < k → a.getLsbD i = false) → v.toNat = k) ∧
      (o.f = 3 → ∀ i, i < 32 → v.getLsbD i = a.getLsbD (31 - i)) ∧
      (o.f = 4 → ∀ i, i < 32 → v.getLsbD i = (a.getLsbD i || i == b % 32)) ∧
      (o.f = 5 → ∀ i, i < 32 → v.getLsbD i = (a.getLsbD i && i != b % 32)) ∧
      (o.f = 6 → v.toNat = ones (min b 32))

/-- R209 to R211: compare, select and moves. -/
def Claims.ScalarCompareAndMove : Prop :=
  ∀ (h : Head) (s : State), execMask h s ≠ 0 →
    (∀ (o : SCmp) (x y : Int), orderTys.contains o.ty = true →
      ReadsAs o.ty (s.cur.sget o.a) x → ReadsAs o.ty (o.b.v32 s.cur) y → o.cc.toNat < 6 →
      ∃ c : Bool, exec (.scmp h o) s = .next (advance h (putP 2 o.d (BitVec.allOnes 64) (if c then BitVec.allOnes 64 else 0) s)) ∧
        c = ([decide (x = y), decide (x ≠ y), decide (x < y), decide (x ≤ y), decide (x > y), decide (x ≥ y)].getD o.cc.toNat false)) ∧
    (∀ o : SCmp, o.ty = .x64 → o.cc.toNat < 6 →
      ∃ c : Bool, exec (.scmp h o) s = .next (advance h (putP 2 o.d (BitVec.allOnes 64) (if c then BitVec.allOnes 64 else 0) s)) ∧
        let x := (s.cur.sget2 o.a).toNat
        let y := (o.b.v64 s.cur).toNat
        c = ([decide (x = y), decide (x ≠ y), decide (x < y), decide (x ≤ y), decide (x > y), decide (x ≥ y)].getD o.cc.toNat false)) ∧
    (∀ o : SSel,
      let c := bit (s.cur.pget o.c) (lowLane (execMask h s))
      (o.ty = .b32 → exec (.ssel h o) s = .next (advance h (putS o.d (if c then s.cur.sget o.a else o.b.v32 s.cur) s))) ∧
      (o.ty = .x64 → exec (.ssel h o) s = .next (advance h (putS2 o.d (if c then s.cur.sget2 o.a else o.b.v64 s.cur) s)))) ∧
    (∀ o : SMov,
      (o.ty = .b32 → exec (.smov h o) s = .next (advance h (putS o.d (o.b.v32 s.cur) s))) ∧
      (o.ty = .x64 → exec (.smov h o) s = .next (advance h (putS2 o.d (o.b.v64 s.cur) s))) ∧
      (o.ty = .b32 → exec (.sli h o) s = .next (advance h (putS o.d (o.b.v32 s.cur) s))) ∧
      (o.ty = .x64 → exec (.sli h o) s = .next (advance h (putS2 o.d (o.b.v64 s.cur) s))))

/-- Tier 1. sbit, scmp, ssel, smov and sli: the parts above. -/
def Obligations.ScalarBitsComparesAndMoves : Prop := Claims.BitOperations ∧ Claims.ScalarCompareAndMove

/-- R236: each vector integer instruction applies the effect of its scalar namesake to the values of each lane, and its
result has latency 4. -/
def Claims.VectorMatchesScalar : Prop :=
  let alike := fun (sc : Head → SBin → Instr) (ve : Head → VBin → Instr) =>
    ∀ (o : SBin) (v : VBin), v.ty = o.ty → v.ty ≠ .x64 → v.sat = o.sat → v.x = o.x →
      ∃ g : W32 → W32 → W32, ∀ (h : Head) (s : State), execMask h s ≠ 0 →
        exec (sc h o) s = .next (advance h (putS o.d (g (s.cur.sget o.a) (o.b.v32 s.cur)) s)) ∧
        exec (ve h v) s = .next (advance h (putV 4 h v.d.toNat (fun l => g (v.a.at s.cur l) (v.b.at s.cur l)) s))
  alike .sadd .vadd ∧ alike .ssub .vsub ∧ alike .smul .vmul ∧ alike .smin .vmin ∧ alike .smax .vmax ∧
  alike .sand .vand ∧ alike .sor .vor ∧ alike .sxor .vxor ∧ alike .sshl .vshl ∧ alike .sshr .vshr ∧ alike .sbfe .vbfe ∧
  (∀ (o : SBit) (v : VBitF), v.f = o.f → ∃ g : W32 → W32 → W32, ∀ (h : Head) (s : State), execMask h s ≠ 0 →
    exec (.sbit h o) s = .next (advance h (putS o.d (g (s.cur.sget o.a) (o.b.v32 s.cur)) s)) ∧
    exec (.vbit h v) s = .next (advance h (putV 4 h v.d.toNat (fun l => g (v.a.at s.cur l) (v.b.at s.cur l)) s)))

/-- R236 to R239, R252: the 64-bit sums, multiply-add, bit-field insert, select, compare and move, lane by lane. -/
def Claims.VectorIntegerResults : Prop :=
  ∀ (h : Head) (s : State), execMask h s ≠ 0 →
    (∀ o : VBin, o.ty = .x64 →
      exec (.vadd h o) s = .next (advance h (putV2 4 h o.d.toNat (fun l => o.a.at64 s.cur l + o.b.at64 s.cur l) s)) ∧
      exec (.vsub h o) s = .next (advance h (putV2 4 h o.d.toNat (fun l => o.a.at64 s.cur l - o.b.at64 s.cur l) s))) ∧
    (∀ (o : VTri) (x y z : Nat → Int), [Ty.b32, .i32, .n32].contains o.ty = true →
      (∀ l, ReadsAs o.ty (o.a.at s.cur l) (x l) ∧ ReadsAs o.ty (o.b.at s.cur l) (y l) ∧ ReadsAs o.ty (o.c.at s.cur l) (z l)) →
      ∃ r : Nat → W32, exec (.vmad h o) s = .next (advance h (putV 4 h o.d.toNat r s)) ∧
        (o.x = false → ∀ l, IntResult o.ty o.sat (x l * y l + z l) (r l)) ∧
        (o.x = true → ∀ l, ((r l).toNat : Int) = (x l * y l / 2 ^ 32 + z l) % 2 ^ 32)) ∧
    (∀ o : VTri, ∃ r : Nat → W32, exec (.vbfi h o) s = .next (advance h (putV 4 h o.d.toNat r s)) ∧
      ∀ l i, i < 32 →
        let pos := (o.b.at s.cur l).toNat % 256
        let w := min ((o.b.at s.cur l).toNat / 256 % 256) 32
        (r l).getLsbD i =
          if pos ≤ i ∧ i < pos + w then (o.a.at s.cur l).getLsbD (i - pos) else (o.c.at s.cur l).getLsbD i) ∧
    (∀ o : VSel,
      let c := s.cur.pget o.c
      (o.ty = .b32 → exec (.vsel h o) s =
        .next (advance h (putV 4 h o.d.toNat (fun l => if c.getLsbD l then o.a.at s.cur l else o.b.at s.cur l) s))) ∧
      (o.ty = .x64 → exec (.vsel h o) s =
        .next (advance h (putV2 4 h o.d.toNat (fun l => if c.getLsbD l then o.a.at64 s.cur l else o.b.at64 s.cur l) s)))) ∧
    (∀ (o : VCmp) (x y : Nat → Int),
      ((orderTys.contains o.ty = true ∧ ∀ l, ReadsAs o.ty (o.a.at s.cur l) (x l) ∧ ReadsAs o.ty (o.b.at s.cur l) (y l)) ∨
       (o.ty = .x64 ∧ ∀ l, x l = (o.a.at64 s.cur l).toNat ∧ y l = (o.b.at64 s.cur l).toNat)) → o.cc.toNat < 6 →
      ∃ v : Mask, exec (.vcmp h o) s = .next (advance h (putP 4 o.d (execMask h s) v s)) ∧
        ∀ l, l < 64 → (execMask h s).getLsbD l = true → v.getLsbD l =
          [decide (x l = y l), decide (x l ≠ y l), decide (x l < y l), decide (x l ≤ y l), decide (x l > y l),
            decide (x l ≥ y l)].getD o.cc.toNat false) ∧
    (∀ (d : VReg) (b : VSrc), exec (.vmov h d b .b32) s = .next (advance h (putV 4 h d.toNat (fun l => b.at s.cur l) s)) ∧
      exec (.vmov h d b .x64) s = .next (advance h (putV2 4 h d.toNat (fun l => b.at64 s.cur l) s)))

/-- Tier 2. Vector integer instructions, lane by lane: the parts above. -/
def Obligations.VectorIntegers : Prop := Claims.VectorMatchesScalar ∧ Claims.VectorIntegerResults

/-- R241, R228: the FP32 arithmetic completes with latency 6 and raises the union of its lanes' flags, and each special row of
the table gives the result and the flags stated; finite operands give the exact value rounded once by RM. -/
def Claims.FloatArithmetic : Prop :=
  ∀ (h : Head) (s : State), execMask h s ≠ 0 →
    (∀ o : VBin, ∃ r : Nat → W32 × W32, exec (.vfadd h o) s = .next (advance h (putF 6 h o.d.toNat r s)) ∧
      ∀ l, let a := o.a.at s.cur l
        let b := o.b.at s.cur l
        (IsNan32 a ∨ IsNan32 b → r l = (0x7FC00000, 0)) ∧
        (IsInf32 a → IsInf32 b → a ≠ b → r l = (0x7FC00000, 1)) ∧
        (IsInf32 a → ¬ IsNan32 b → (IsInf32 b → a = b) → r l = (a, 0)) ∧
        (IsInf32 b → ¬ IsNan32 a → (IsInf32 a → a = b) → r l = (b, 0)) ∧
        (IsFin32 a → IsFin32 b → RoundedTo o.rm (val32 a + val32 b) 1 (r l) ∧
          (val32 a + val32 b = 0 → r l = (zeroSum o.rm (a == 0x80000000 && b == 0x80000000), 0)))) ∧
    (∀ o : VBin, ∃ r : Nat → W32 × W32, exec (.vfsub h o) s = .next (advance h (putF 6 h o.d.toNat r s)) ∧
      ∀ l, let a := o.a.at s.cur l
        let b := o.b.at s.cur l
        (IsNan32 a ∨ IsNan32 b → r l = (0x7FC00000, 0)) ∧
        (IsInf32 a → IsInf32 b → a = b → r l = (0x7FC00000, 1)) ∧
        (IsInf32 a → ¬ IsNan32 b → (IsInf32 b → a ≠ b) → r l = (a, 0)) ∧
        (IsInf32 b → ¬ IsNan32 a → (IsInf32 a → a ≠ b) → r l = (b ^^^ 0x80000000, 0)) ∧
        (IsFin32 a → IsFin32 b → RoundedTo o.rm (val32 a - val32 b) 1 (r l) ∧
          (val32 a - val32 b = 0 → r l = (zeroSum o.rm (a == 0x80000000 && b == 0), 0)))) ∧
    (∀ o : VBin, ∃ r : Nat → W32 × W32, exec (.vfmul h o) s = .next (advance h (putF 6 h o.d.toNat r s)) ∧
      ∀ l, let a := o.a.at s.cur l
        let b := o.b.at s.cur l
        let sign := (a ^^^ b) &&& 0x80000000
        (IsNan32 a ∨ IsNan32 b → r l = (0x7FC00000, 0)) ∧
        (IsZero32 a ∧ IsInf32 b ∨ IsInf32 a ∧ IsZero32 b → r l = (0x7FC00000, 1)) ∧
        (¬ IsNan32 a → ¬ IsNan32 b → ¬ IsZero32 a → ¬ IsZero32 b → (IsInf32 a ∨ IsInf32 b) →
          r l = (sign ||| 0x7F800000, 0)) ∧
        (¬ IsNan32 a → ¬ IsInf32 a → ¬ IsNan32 b → ¬ IsInf32 b → (IsZero32 a ∨ IsZero32 b) → r l = (sign, 0)) ∧
        (IsFin32 a → IsFin32 b → RoundedTo o.rm (val32 a * val32 b) (2 ^ 149) (r l))) ∧
    (∀ o : VTri, ∃ r : Nat → W32 × W32, exec (.vffma h o) s = .next (advance h (putF 6 h o.d.toNat r s)) ∧
      ∀ l, let a := o.a.at s.cur l
        let b := o.b.at s.cur l
        let c := o.c.at s.cur l
        (IsZero32 a ∧ IsInf32 b ∨ IsInf32 a ∧ IsZero32 b → r l = (0x7FC00000, 1)) ∧
        (IsNan32 a ∨ IsNan32 b → r l = (0x7FC00000, 0)) ∧
        (IsNan32 c → ¬ (IsZero32 a ∧ IsInf32 b ∨ IsInf32 a ∧ IsZero32 b) → r l = (0x7FC00000, 0)) ∧
        (¬ IsNan32 a → ¬ IsNan32 b → ¬ IsNan32 c → ¬ IsZero32 a → ¬ IsZero32 b → IsInf32 a ∨ IsInf32 b →
          let p := ((a ^^^ b) &&& 0x80000000) ||| 0x7F800000
          (IsInf32 c → c ≠ p → r l = (0x7FC00000, 1)) ∧ (IsFin32 c ∨ c = p → r l = (p, 0))) ∧
        (IsFin32 a → IsFin32 b → IsInf32 c → r l = (c, 0)) ∧
        (IsFin32 a → IsFin32 b → IsFin32 c →
          let x := val32 a * val32 b + val32 c * 2 ^ 149
          RoundedTo o.rm x (2 ^ 149) (r l) ∧
          (x = 0 → r l = (zeroSum o.rm ((numF32.abs a.toNat == 0 || numF32.abs b.toNat == 0) && (a ^^^ b).getLsbD 31 && c == 0x80000000), 0))))

/-- R241 to R243: minimum, maximum, comparison and classification of FP32 values. -/
def Claims.FloatCompareAndClassify : Prop :=
  ∀ (h : Head) (s : State), execMask h s ≠ 0 →
    (∀ o : VBin, ∃ lo hi : Nat → W32,
      exec (.vfmin h o) s = .next (advance h (putV 6 h o.d.toNat lo s)) ∧
      exec (.vfmax h o) s = .next (advance h (putV 6 h o.d.toNat hi s)) ∧
      ∀ l, let clear := fun w : W32 => if o.x then w &&& 0x7FFFFFFF else w
        let a := o.a.at s.cur l
        let b := o.b.at s.cur l
        (IsNan32 a → IsNan32 b → lo l = 0x7FC00000 ∧ hi l = 0x7FC00000) ∧
        (IsNan32 a → ¬ IsNan32 b → lo l = clear b ∧ hi l = clear b) ∧
        (¬ IsNan32 a → IsNan32 b → lo l = clear a ∧ hi l = clear a) ∧
        (¬ IsNan32 a → ¬ IsNan32 b → (lo l = clear a ∧ hi l = clear b) ∨ (lo l = clear b ∧ hi l = clear a)) ∧
        (¬ IsNan32 a → ¬ IsNan32 b → (lo l).toInt ≥ 0 → (hi l).toInt ≥ 0 ∧ (lo l).toNat ≤ (hi l).toNat) ∧
        (¬ IsNan32 a → ¬ IsNan32 b → (lo l).toInt < 0 → (hi l).toInt < 0 → (hi l).toNat ≤ (lo l).toNat)) ∧
    (∀ o : VCmp, ∃ v : Mask, exec (.vfcmp h o) s = .next (advance h (putP 6 o.d (execMask h s) v s)) ∧
      ∀ l, l < 64 → (execMask h s).getLsbD l = true →
        let a := o.a.at s.cur l
        let b := o.b.at s.cur l
        let val := fun w : W32 => if w.getLsbD 31 then -((w.toNat % 2 ^ 31 : Nat) : Int) else ((w.toNat % 2 ^ 31 : Nat) : Int)
        (IsNan32 a ∨ IsNan32 b → v.getLsbD l = (o.cc == 1 || o.cc == 7)) ∧
        (¬ IsNan32 a → ¬ IsNan32 b → v.getLsbD l =
          [decide (val a = val b), decide (val a ≠ val b), decide (val a < val b), decide (val a ≤ val b),
            decide (val a > val b), decide (val a ≥ val b), true, false].getD o.cc.toNat false)) ∧
    (∀ (d : Pred) (a : VSrc) (m : BitVec 9), ∃ v : Mask,
      exec (.vfcls h d a m) s = .next (advance h (putP 6 d (execMask h s) v s)) ∧
      ∀ l, l < 64 → (execMask h s).getLsbD l = true →
        let w := a.at s.cur l
        let n := w.toNat % 2 ^ 31
        let neg := w.getLsbD 31
        v.getLsbD l = m.getLsbD
          (if 0x7F800000 < n then 8 else if n = 0x7F800000 then (if neg then 0 else 7)
           else if n = 0 then (if neg then 3 else 4) else if n < 0x800000 then (if neg then 2 else 5)
           else if neg then 1 else 6))

/-- Tier 2. FP32 arithmetic rounds once; its special cases; minimum, comparison and classes: the parts above.
It rests also on choices and readings of the model: log 43. -/
def Obligations.FloatArithmetic : Prop := Claims.FloatArithmetic ∧ Claims.FloatCompareAndClassify

/-- Tier 1. R245, R246: the special functions complete with latency 14 and give the special cases stated for each.
It rests also on choices and readings of the model: log 14. -/
def Obligations.SpecialFunctions : Prop :=
  ∀ (h : Head) (o : VUn) (s : State), execMask h s ≠ 0 →
    let a := fun l => o.a.at s.cur l
    let gives := fun (i : Instr) (p : (Nat → W32 × W32) → Prop) =>
      ∃ r : Nat → W32 × W32, exec i s = .next (advance h (putF 14 h o.d.toNat r s)) ∧
        (∀ l, IsNan32 (a l) → r l = (0x7FC00000, 0)) ∧ p r
    gives (.vfrcp h o) (fun r => ∀ l, (a l = 0 → r l = (0x7F800000, 2)) ∧ (a l = 0x80000000 → r l = (0xFF800000, 2)) ∧
      (a l = 0x7F800000 → r l = (0, 0)) ∧ (a l = 0xFF800000 → r l = (0x80000000, 0)) ∧ (a l = 0x40000000 → r l = (0x3F000000, 0))) ∧
    gives (.vfrsq h o) (fun r => ∀ l, (a l = 0 → r l = (0x7F800000, 0)) ∧ (a l = 0x80000000 → r l = (0xFF800000, 0)) ∧
      (a l = 0x7F800000 → (r l).1 = 0) ∧ (0x80000000 < (a l).toNat → (a l).toNat ≤ 0xFF800000 → r l = (0x7FC00000, 1)) ∧
      (a l = 0x40800000 → r l = (0x3F000000, 0))) ∧
    gives (.vfsqrt h o) (fun r => ∀ l, (IsZero32 (a l) → r l = (a l, 0)) ∧ (a l = 0x7F800000 → r l = (0x7F800000, 0)) ∧
      (0x80000000 < (a l).toNat → (a l).toNat ≤ 0xFF800000 → r l = (0x7FC00000, 1)) ∧ (a l = 0x40800000 → r l = (0x40000000, 0))) ∧
    gives (.vfexp h o) (fun r => ∀ l, (a l = 0xFF800000 → (r l).1 = 0) ∧ (a l = 0x7F800000 → (r l).1 = 0x7F800000) ∧
      (0x43000000 ≤ (a l).toNat → (a l).toNat < 0x7F800000 → r l = (0x7F800000, 0x14)) ∧
      (0xC3160000 ≤ (a l).toNat → (a l).toNat < 0xFF800000 → r l = (0, 0x18)) ∧ (a l = 0x40400000 → r l = (0x41000000, 0))) ∧
    gives (.vflog h o) (fun r => ∀ l, (IsZero32 (a l) → r l = (0xFF800000, 2)) ∧ (a l = 0x7F800000 → r l = (0x7F800000, 0)) ∧
      (0x80000000 < (a l).toNat → (a l).toNat ≤ 0xFF800000 → r l = (0x7FC00000, 1)) ∧ (a l = 0x41000000 → r l = (0x40400000, 0))) ∧
    gives (.vftanh h o) (fun r => ∀ l, (IsZero32 (a l) → r l = (a l, 0)) ∧
      (0x41200000 ≤ (a l).toNat → (a l).toNat ≤ 0x7F800000 → (r l).1 = 0x3F800000) ∧
      (0xC1200000 ≤ (a l).toNat → (a l).toNat ≤ 0xFF800000 → (r l).1 = 0xBF800000)) ∧
    gives (.vfsinpi h o) (fun r => ∀ l, (IsInf32 (a l) → r l = (0x7FC00000, 1)) ∧
      (IsFin32 (a l) → ∀ k : Int, (val32 (a l) = k * 2 ^ 149 → r l = (a l &&& 0x80000000, 0)) ∧
        (val32 (a l) = (2 * k + 1) * 2 ^ 148 → r l = (if k % 2 = 0 then 0x3F800000 else 0xBF800000, 0)))) ∧
    gives (.vfcospi h o) (fun r => ∀ l, (IsInf32 (a l) → r l = (0x7FC00000, 1)) ∧
      (IsFin32 (a l) → ∀ k : Int, (val32 (a l) = k * 2 ^ 149 → r l = (if k % 2 = 0 then 0x3F800000 else 0xBF800000, 0)) ∧
        (val32 (a l) = (2 * k + 1) * 2 ^ 148 → r l = (0, 0))))

/-- What a source part converts to (R46 to R49, R58, R61, R62): between formats the value rounded, with zeros and infinities kept where the
destination has them; to an integer the rounded integer, clamped with NV; from an integer the value rounded. -/
def ConvertsTo (o : VCvt) (x : Nat) (r : Nat × W32) : Prop :=
  let f := numOf o.src
  let g := numOf o.dst
  (o.src.isInt = true → ∀ v : Int, ReadsAs o.src (BitVec.ofNat 32 x) v →
    (v = 0 → r = (0, 0)) ∧ (v ≠ 0 → g.Rounds o.rm false (decide (v < 0)) (v.natAbs * 2 ^ g.low) 1 r)) ∧
  (o.src.isInt = false → o.dst.isInt = true →
    let holds := fun (v : Int) (fl : W32) => HoldsInt o.dst (BitVec.ofNat 32 r.1) v ∧ r.2 = fl
    (f.isNan x = true → r = (0, 1)) ∧
    (f.isInf x = true → holds (if f.neg x then intMin o.dst else intMax o.dst) 1) ∧
    (f.abs x ≤ f.top → ∀ k, RoundsToInt o.rm (f.neg x) (f.mag x) (2 ^ f.low) k →
      let v : Int := if f.neg x then -(k : Int) else k
      (v < intMin o.dst → holds (intMin o.dst) 1) ∧ (intMax o.dst < v → holds (intMax o.dst) 1) ∧
      (intMin o.dst ≤ v → v ≤ intMax o.dst → holds v (if f.mag x = k * 2 ^ f.low then 0 else 0x10)))) ∧
  (o.src.isInt = false → o.dst.isInt = false →
    (f.isNan x = true → r = (g.nan, 0)) ∧
    (f.isInf x = true →
      (o.sat = true → r = (g.top + g.sign (f.neg x), 0x30)) ∧
      (o.sat = false → (∀ i, g.inf = some i → r = (i + g.sign (f.neg x), 0)) ∧ (g.inf = none → r = (g.nan, 0x10)))) ∧
    (f.abs x = 0 → r = (g.sign (f.neg x), 0)) ∧
    (0 < f.abs x → f.abs x ≤ f.top → g.Rounds o.rm o.sat (f.neg x) (f.mag x * 2 ^ g.low) (2 ^ f.low) r))

/-- R248, R249: `vcvt` reads the part SP of the source, converts it, and writes the whole register or the part DP of it. -/
def Claims.Conversions : Prop :=
  ∀ (h : Head) (s : State), execMask h s ≠ 0 →
    ∀ o : VCvt, (Instr.vcvt h o).wf = true → ∃ r : Nat → W32 × W32,
      exec (.vcvt h o) s = .next (advance h (putF 6 h o.d.toNat r s)) ∧
      ∀ l, ∃ c : Nat × W32, ConvertsTo o ((o.a.at s.cur l).toNat / 2 ^ (o.src.bits * o.sp.toNat) % 2 ^ o.src.bits) c ∧
        (r l).2 = c.2 ∧
        (o.dst.isSmallFp = false → (r l).1 = BitVec.ofNat 32 c.1) ∧
        (o.dst.isSmallFp = true → ∀ i, i < 32 → (r l).1.getLsbD i =
          if o.dst.bits * o.dp.toNat ≤ i ∧ i < o.dst.bits * o.dp.toNat + o.dst.bits then c.1.testBit (i - o.dst.bits * o.dp.toNat)
          else (s.cur.vlane o.d.toNat l).getLsbD i)

/-- R250, R252: `vfrnd` gives the integer that the mode selects, with NX alone where it differs, and `vfscl` the value times 2^b,
rounded once. -/
def Claims.IntegersAndScaling : Prop :=
  ∀ (h : Head) (s : State), execMask h s ≠ 0 →
    (∀ o : VUn, ∃ r : Nat → W32 × W32, exec (.vfrnd h o) s = .next (advance h (putF 6 h o.d.toNat r s)) ∧
      ∀ l, let a := o.a.at s.cur l
        let f := numF32
        (IsNan32 a → r l = (0x7FC00000, 0)) ∧ (IsInf32 a ∨ IsZero32 a → r l = (a, 0)) ∧
        (IsFin32 a → ∀ k, RoundsToInt o.rm (f.neg a.toNat) (f.mag a.toNat) (2 ^ 149) k →
          ∃ c, c ≤ f.top ∧ f.mag c = k * 2 ^ 149 ∧ (r l).1.toNat = c + f.sign (f.neg a.toNat) ∧
            (r l).2 = if f.mag a.toNat = k * 2 ^ 149 then 0 else 0x10)) ∧
    (∀ o : VBin, ∃ r : Nat → W32 × W32, exec (.vfscl h o) s = .next (advance h (putF 6 h o.d.toNat r s)) ∧
      ∀ l, let a := o.a.at s.cur l
        let b := (o.b.at s.cur l).toInt
        (IsNan32 a → r l = (0x7FC00000, 0)) ∧ (IsInf32 a ∨ IsZero32 a → r l = (a, 0)) ∧
        (IsFin32 a → RoundedTo o.rm (val32 a * 2 ^ b.toNat) (2 ^ (-b).toNat) (r l)))

/-- A sum of products and `c`, rounded once to binary32 (R57, R67, R251): the products are multiples of 2^-149 times 2^`up`, or over
2^`down`. -/
def DotRounds (f : NumFmt) (up down : Nat) (rm : Rm) (ps : List (Nat × Nat)) (c : W32) (r : W32 × W32) : Prop :=
  let zero := fun x => f.abs x == 0
  let sgn := fun (p : Nat × Nat) => f.neg p.1 != f.neg p.2
  let invalid := ps.any fun p => (zero p.1 && f.isInf p.2) || (f.isInf p.1 && zero p.2)
  let nan := numF32.isNan c.toNat || ps.any fun p => f.isNan p.1 || f.isNan p.2
  let infs := (ps.filter fun p => f.isInf p.1 || f.isInf p.2).map sgn ++ (if numF32.isInf c.toNat then [c.getLsbD 31] else [])
  let x := (ps.map fun p => f.val p.1 * f.val p.2 * 2 ^ up).foldl (· + ·) 0 + val32 c * 2 ^ down
  (invalid = true → r = (0x7FC00000, 1)) ∧
  (invalid = false → nan = true → r = (0x7FC00000, 0)) ∧
  (invalid = false → nan = false →
    (true ∈ infs → false ∈ infs → r = (0x7FC00000, 1)) ∧
    (true ∈ infs → false ∉ infs → r = (0xFF800000, 0)) ∧
    (true ∉ infs → false ∈ infs → r = (0x7F800000, 0)) ∧
    (infs = [] → RoundedTo rm x (2 ^ down) r ∧
      (x = 0 → r = (zeroSum rm (c == 0x80000000 && ps.all fun p => (zero p.1 || zero p.2) && sgn p), 0))))

/-- R251: the integer dot products wrap or saturate the exact sum, and the floating-point ones round it once, with the flags of every
lane. -/
def Claims.DotProducts : Prop :=
  ∀ (h : Head) (s : State), execMask h s ≠ 0 →
    (∀ (o : VTri) (a b : Nat → Nat → Int) (c : Nat → Int), o.ty = .i16 ∨ o.ty = .n16 →
      (∀ l i, ReadsAs o.ty (BitVec.ofNat 32 (partOf (o.a.at s.cur l) 16 i)) (a l i) ∧
        ReadsAs o.ty (BitVec.ofNat 32 (partOf (o.b.at s.cur l) 16 i)) (b l i)) →
      (∀ l, ReadsAs (if o.ty = .i16 then .i32 else .n32) (o.c.at s.cur l) (c l)) →
      ∃ r : Nat → W32, exec (.vdot2 h o) s = .next (advance h (putV 8 h o.d.toNat r s)) ∧
        ∀ l, IntResult (if o.ty = .i16 then .i32 else .n32) o.sat (a l 0 * b l 0 + a l 1 * b l 1 + c l) (r l)) ∧
    (∀ (o : VTri) (a b : Nat → Nat → Int) (c : Nat → Int), o.ty = .i8 ∨ o.ty = .n8 →
      (∀ l i, ReadsAs o.ty (BitVec.ofNat 32 (partOf (o.a.at s.cur l) 8 i)) (a l i) ∧
        ReadsAs o.ty (BitVec.ofNat 32 (partOf (o.b.at s.cur l) 8 i)) (b l i)) →
      (∀ l, ReadsAs (if o.ty = .i8 then .i32 else .n32) (o.c.at s.cur l) (c l)) →
      ∃ r : Nat → W32, exec (.vdot4 h o) s = .next (advance h (putV 8 h o.d.toNat r s)) ∧
        ∀ l, IntResult (if o.ty = .i8 then .i32 else .n32) o.sat
          (a l 0 * b l 0 + a l 1 * b l 1 + a l 2 * b l 2 + a l 3 * b l 3 + c l) (r l)) ∧
    (∀ o : VTri, o.ty = .bf16 → ∃ r : Nat → W32 × W32, exec (.vdot2 h o) s = .next (advance h (putF 8 h o.d.toNat r s)) ∧
      ∀ l, let ps := (List.range 2).map fun i => (partOf (o.a.at s.cur l) 16 i, partOf (o.b.at s.cur l) 16 i)
        DotRounds numBf16 0 117 o.rm ps (o.c.at s.cur l) (r l)) ∧
    (∀ o : VTri, o.ty = .e4m3 ∨ o.ty = .e5m2 →
      ∃ r : Nat → W32 × W32, exec (.vdot4 h o) s = .next (advance h (putF 8 h o.d.toNat r s)) ∧
      ∀ l, let ps := (List.range 4).map fun i => (partOf (o.a.at s.cur l) 8 i, partOf (o.b.at s.cur l) 8 i)
        DotRounds (numOf o.ty) (if o.ty = .e4m3 then 131 else 117) 0 o.rm ps (o.c.at s.cur l) (r l))

/-- Tier 2. R248 to R252: conversions, rounding to an integer, dot products and scaling: the parts above.
It rests also on choices and readings of the model: log 25 where an infinity saturates or has no code, 43 for zero sums, and 75 for NaN
elements of a dot product. -/
def Obligations.ConversionsAndDotProducts : Prop := Claims.Conversions ∧ Claims.IntegersAndScaling ∧ Claims.DotProducts

/-- R230 to R232, R235: predicate operations, votes, ballots, shuffles, lane numbers and broadcasts. -/
def Claims.PredicatesAndLanes : Prop :=
  ∀ (h : Head) (s : State), execMask h s ≠ 0 →
    let e := execMask h s
    let t := s.cur
    (∀ o : POp, ∃ v : Mask, exec (.pop h o) s = .next (advance h (putP 2 o.d e v s)) ∧
      ∀ l, l < 64 → let a := (t.pget (o.a.setWidth 3)).getLsbD l
        let b := (o.b.mask t).getLsbD l
        v.getLsbD l = [a && b, a || b, a ^^ b, a && !b, a || !b, !a, b, (t.sget2 o.a).getLsbD l].getD o.f.toNat false) ∧
    (∀ (d : SReg) (p : Pred) (m : BitVec 2), m.toNat < 3 →
      ∃ v : W32, exec (.pvote h d p m) s = .next (advance h (putS d v s)) ∧ (v = 1 ∨ v = 0) ∧
        (m = 0 → (v = 1 ↔ ∃ l, l < 64 ∧ e.getLsbD l = true ∧ (t.pget p).getLsbD l = true)) ∧
        (m = 1 → (v = 1 ↔ ∀ l, l < 64 → e.getLsbD l = true → (t.pget p).getLsbD l = true)) ∧
        (m = 2 → (v = 1 ↔ ∃ b, ∀ l, l < 64 → e.getLsbD l = true → (t.pget p).getLsbD l = b))) ∧
    (∀ (d : SReg) (p : Pred), ∃ v : W64, exec (.pball h d p) s = .next (advance h (putS2 d v s)) ∧
      ∀ l, l < 64 → v.getLsbD l = ((t.pget p).getLsbD l && e.getLsbD l)) ∧
    (∀ (d : SReg) (p : Pred), ∃ v : W32, exec (.pballPopc h d p) s = .next (advance h (putS d v s)) ∧
      v.toNat = ((List.range 64).filter fun l => (t.pget p).getLsbD l && e.getLsbD l).length) ∧
    (∀ o : VShfl, o.w.toNat < 6 → ∃ src : Nat → Nat,
      exec (.vshfl h o) s = .next (advance h (putV 8 h o.d.toNat (fun l => o.a.at t (src l)) s)) ∧
      ∀ l, l < 64 →
        let w := if o.w = 0 then 64 else 2 ^ o.w.toNat
        let b := (o.b.at t l).toNat
        (o.m = 0 → src l = l / w * w + b % w) ∧
        (o.m = 1 → src l = if b ≤ l % w then l - b else l) ∧
        (o.m = 2 → src l = if l % w + b < w then l + b else l) ∧
        (o.m = 3 → src l = l ^^^ b % w)) ∧
    (∀ d : VReg, exec (.vid h d none) s = .next (advance h (putV 4 h d.toNat (fun l => BitVec.ofNat 32 l) s))) ∧
    (∀ (d : VReg) (b : VSrc), exec (.vid h d (some b)) s =
      .next (advance h (putV 4 h d.toNat (fun l => BitVec.ofNat 32 (l + (b.at t l).toNat)) s))) ∧
    (∀ (d : VReg) (a b : VSrc), exec (.vbcst h d a (some b)) s =
      .next (advance h (putV 4 h d.toNat (fun l => a.at t ((b.at t l).toNat % 64)) s))) ∧
    (∀ (d : VReg) (a : VSrc), exec (.vbcst h d a none) s =
      .next (advance h (putV 4 h d.toNat (fun _ => a.at t (lowLane e)) s)))

/-- R233, R234: `vscan` and `vred` combine the executing lanes of each segment, in lane order or by the fixed pairwise tree. -/
def Claims.ScansAndReductions : Prop :=
  ∀ (h : Head) (o : VScan) (s : State), execMask h s ≠ 0 → o.w.toNat < 6 →
    (o.op = 1 ∨ o.op = 2 → o.ty = .i32 ∨ o.ty = .n32) →
    let e := execMask h s
    let a := fun l => o.a.at s.cur l
    let w := if o.w = 0 then 64 else 2 ^ o.w.toNat
    let signed := fun x : W32 => if o.ty = .i32 then x.toInt else (x.toNat : Int)
    let op := fun x y : W32 =>
      [x + y, if signed y < signed x then y else x, if signed x < signed y then y else x, x &&& y, x ||| y, x ^^^ y,
        (fadd o.rm x y).1, fmax false x y].getD o.op.toNat 0
    let identity : W32 := [0, if o.ty = .i32 then 0x7FFFFFFF else 0xFFFFFFFF, if o.ty = .i32 then 0x80000000 else 0,
      0xFFFFFFFF, 0, 0, 0x80000000, 0xFF800000].getD o.op.toNat 0
    let among := fun (keep : Nat → Bool) => ((List.range 64).filter fun j => e.getLsbD j && keep j).map a
    let put := fun (r : Nat → W32 × W32) =>
      if o.op = 6 then putF 8 h o.d.toNat r s else putV 8 h o.d.toNat (fun l => (r l).1) s
    (∃ r : Nat → W32 × W32, exec (.vscan h o) s = .next (advance h (put r)) ∧
      ∀ l, l < 64 → e.getLsbD l = true →
        (among (fun j => j / w == l / w && (if o.x then j < l else j ≤ l)) = [] → (r l).1 = identity) ∧
        ∀ x ys, among (fun j => j / w == l / w && (if o.x then j < l else j ≤ l)) = x :: ys → (r l).1 = ys.foldl op x) ∧
    (∃ (r : Nat → W32 × W32) (node : Nat → Nat → Option W32),
      exec (.vred h o) s = .next (advance h (put r)) ∧
      (∀ j, node 0 j = if e.getLsbD j then some (a j) else none) ∧
      (∀ k j, node (k + 1) j =
        match node k (2 * j), node k (2 * j + 1) with
        | some x, some y => some (fadd o.rm x y).1
        | some x, none => some x
        | none, y => y) ∧
      ∀ l, l < 64 → e.getLsbD l = true →
        (o.op = 6 → some (r l).1 = node (if o.w = 0 then 6 else o.w.toNat) (l / w)) ∧
        (o.op ≠ 6 → ∀ x ys, among (fun j => j / w == l / w) = x :: ys → (r l).1 = ys.foldl op x))

/-- Tier 1. Predicate operations, votes, shuffles, broadcasts, scans and reductions: the parts above. -/
def Obligations.PredicatesLanesAndScans : Prop := Claims.PredicatesAndLanes ∧ Claims.ScansAndReductions

/-- Tier 1. R339, R341, R343, R338: one compare-exchange stage, the merge of two lists, and the running list of the first k; each
holds VB, and every source is read before a result is written. -/
def Obligations.SortingInstructions : Prop :=
  ∀ (h : Head) (s : State), execMask h s ≠ 0 →
    (∀ o : VSrt, ∃ (m : Nat → Mask) (k x : Nat → Nat → W32),
      exec (.vsrt h o) s = .next (advance h (holdVb (2 ^ o.lr.toNat) ((List.range (2 ^ o.lr.toNat)).foldl (fun z r =>
        writeFixed 10 (.v (o.d.toNat + 2 * r + 1) (m r) (rowOf (x r)))
          (writeFixed 10 (.v (o.d.toNat + 2 * r) (m r) (rowOf (k r))) z)) s))) ∧
      ∀ r l, r < 2 ^ o.lr.toNat → l < 64 →
        let el := fun p => elemAt s.cur (o.d.toNat + 2 * (p / 64)) (p % 64)
        let p := 64 * r + l
        let q := p ^^^ 2 ^ o.lj.toNat
        let ahead := fun a b => if p &&& 2 ^ o.lk.toNat = 0 ∨ o.lk.toNat = o.lr.toNat + 6 then before o.ty o.dn a b
          else before o.ty o.dn b a
        (k r l, x r l) = el q ∧
        (m r).getLsbD l = ((execMask h s).getLsbD l && (execMask h s).getLsbD (q % 64) &&
          (if p < q then ahead (el q) (el p) else ahead (el p) (el q)))) ∧
    (∀ o : VMrg, ∃ (out : List Elem) (i j : Nat → Nat), out.length = 128 ∧ i 0 = 0 ∧ j 0 = 0 ∧
      (∀ n, n < 128 →
        let a := elemAt s.cur o.a.toNat (i n)
        let b := elemAt s.cur o.b.toNat (j n)
        if j n = 64 ∨ (i n < 64 ∧ before o.ty o.dn b a = false)
        then out[n]? = some a ∧ i (n + 1) = i n + 1 ∧ j (n + 1) = j n
        else out[n]? = some b ∧ i (n + 1) = i n ∧ j (n + 1) = j n + 1) ∧
      let put := fun d base z => putV 10 h (d + 1) (fun l => (out.getD (base + l) (0, 0)).2)
        (putV 10 h d (fun l => (out.getD (base + l) (0, 0)).1) z)
      exec (.vmrg h o) s = .next (advance h (holdVb 2
        (if o.lo then put o.d.toNat 0 s else put (o.d.toNat + 2) 64 (put o.d.toNat 0 s))))) ∧
    (∀ o : VTopk, o.k.toNat ≤ 64 → ∃ all r : List Elem, r = all.take o.k.toNat ∧
      all.Perm ((List.range o.k.toNat).map (elemAt s.cur o.d.toNat) ++
        ((List.range 64).filter fun l => (execMask h s).getLsbD l).map (elemAt s.cur o.a.toNat)) ∧
      all.Pairwise (fun a b => before o.ty o.dn b a = false) ∧
      exec (.vtopk h o) s = .next (advance h (holdVb 2
        (writeFixed 10 (.v (o.d.toNat + 1) (maskBy (List.range o.k.toNat)) (rowOf fun l => (r.getD l (0, 0)).2))
          (writeFixed 10 (.v o.d.toNat (maskBy (List.range o.k.toNat)) (rowOf fun l => (r.getD l (0, 0)).1)) s)))))

/-- Tier 2. R336: the order of sort elements: keys by their type, NaN keys last in both directions, equal keys by index. -/
def Obligations.SortOrder : Prop :=
  (∀ (ty : Ty) (dn : Bool) (a b c : Elem),
    before ty dn a a = false ∧
    (before ty dn a b = true → before ty dn b a = false) ∧
    (before ty dn a b = true → before ty dn b c = true → before ty dn a c = true)) ∧
  (∀ (dn : Bool) (a b : Elem), a.1.toInt ≠ b.1.toInt →
    before .i32 dn a b = if dn then decide (b.1.toInt < a.1.toInt) else decide (a.1.toInt < b.1.toInt)) ∧
  (∀ (dn : Bool) (a b : Elem), a.1 ≠ b.1 →
    before .n32 dn a b = if dn then decide (b.1.toNat < a.1.toNat) else decide (a.1.toNat < b.1.toNat)) ∧
  (∀ (dn : Bool) (a b : Elem), 0x7F800000 < b.1.toNat % 2 ^ 31 → a.1.toNat % 2 ^ 31 ≤ 0x7F800000 →
    before .f32 dn a b = true) ∧
  (∀ (dn : Bool) (a b : Elem), 0x7F800000 < a.1.toNat % 2 ^ 31 → 0x7F800000 < b.1.toNat % 2 ^ 31 →
    before .f32 dn a b = decide (a.2.toNat < b.2.toNat)) ∧
  (∀ (dn : Bool) (a b : Elem), a.1.toNat % 2 ^ 31 ≤ 0x7F800000 → b.1.toNat % 2 ^ 31 ≤ 0x7F800000 → a.1 ≠ b.1 →
    let rank := fun w : W32 => if w.getLsbD 31 then -((w.toNat % 2 ^ 31 : Nat) : Int) - 1 else ((w.toNat % 2 ^ 31 : Nat) : Int)
    before .f32 dn a b = if dn then decide (rank b.1 < rank a.1) else decide (rank a.1 < rank b.1)) ∧
  (∀ (ty : Ty) (dn : Bool) (k i j : W32), before ty dn (k, i) (k, j) = decide (i.toNat < j.toNat))

/-- R218 to R221: where each lane goes after a control transfer whose target is canonical and aligned, with nothing else of
the machine changed but the link that `call` writes. -/
def Claims.ControlTransfers : Prop :=
  ∀ (h : Head) (t : W32) (s : State), execMask h s ≠ 0 →
    let e := execMask h s
    let run := s.issue.run
    let target := s.issue.pc + t.signExtend 64
    let next := s.issue.pc + BitVec.ofNat 64 h.bytes
    let good := fun a : W64 => a.toNat < 2 ^ 52 ∧ a.toNat % 4 = 0
    (good target →
      (∃ u, exec (.br h t) s = .next u ∧ OnlyLanes s u ∧ LanesBecome s u (fun l x =>
        { x with pc := if bit e l then target else if bit run l then next else x.pc })) ∧
      (∃ u, exec (.jmp h t) s = .next u ∧ OnlyLanes s u ∧ LanesBecome s u (fun l x =>
        { x with pc := if bit run l then target else x.pc })) ∧
      (∀ p : Pred, ∃ u, exec (.brpAny h p t) s = .next u ∧ OnlyLanes s u ∧ LanesBecome s u (fun l x =>
        { x with pc := if bit run l then (if s.cur.pget p &&& e ≠ 0 then target else next) else x.pc })) ∧
      (∀ p : Pred, ∃ u, exec (.brpAll h p t) s = .next u ∧ OnlyLanes s u ∧ LanesBecome s u (fun l x =>
        { x with pc := if bit run l then (if e &&& ~~~ s.cur.pget p = 0 then target else next) else x.pc })) ∧
      (∀ d : VReg, exec (.call h d t) s = .next (setPcs e target (advance h
        (if isSeq s.issue.tid then putS2 (d.setWidth 6) next s else putV2 2 h d.toNat (fun _ => next) s))))) ∧
    (∀ a : SReg, good (s.cur.sget2 a) → ∃ u, exec (.jmpi h a) s = .next u ∧ OnlyLanes s u ∧
      LanesBecome s u (fun l x => { x with pc := if bit run l then s.cur.sget2 a else x.pc })) ∧
    (∀ a : VReg,
      let link := fun l => if isSeq s.issue.tid then s.cur.sget2 (a.setWidth 6) else s.cur.vlane2 a.toNat l
      (∀ l, l < 64 → bit e l = true → good (link l)) →
      ∃ u, exec (.ret h a) s = .next u ∧ OnlyLanes s u ∧ LanesBecome s u (fun l x =>
        { x with pc := if bit e l then link l else if bit run l then next else x.pc }))

/-- R218, R417: a target with a nonzero bit in [63:52] parks the lanes in `exec`, and none of them moves; the lanes of the run
that fail the guard move on. -/
def Claims.NoncanonicalTargetParks : Prop :=
  ∀ (h : Head) (t : W32) (s : State), execMask h s ≠ 0 → HandledHere s (execMask h s) →
    let target := s.issue.pc + t.signExtend 64
    2 ^ 52 ≤ target.toNat →
    let parks := fun i => ∃ u, exec i s = .next u ∧ LanesBecome s u (fun l x =>
      if bit (execMask h s) l then parkedLane h s 0x15 target x else toNext h s l x) ∧
      u.cur.s = s.cur.s ∧ u.cur.p = s.cur.p ∧ u.cur.v = s.cur.v ∧ u.cur.pending = s.cur.pending ∧ SameMemory s u
    parks (.br h t) ∧ parks (.jmp h t) ∧ (∀ p, parks (.brpAny h p t)) ∧ (∀ p, parks (.brpAll h p t)) ∧
    (∀ d, parks (.call h d t))

/-- R187, R186, R221: `rcv` makes the lanes in `exec` WAITING at the next instruction, and releases every WAITING lane when no
lane is ACTIVE or PARKED; `yld` defers them while PROGRESS is 1; in a sequencer context both act as `nop`. -/
def Claims.ReconvergeAndYield : Prop :=
  ∀ (h : Head) (s : State), execMask h s ≠ 0 →
    (isSeq s.issue.tid = false → s.curTask.ending = false →
      let waits := fun (l : Nat) (x : Lane) => if bit (execMask h s) l then LaneSt.waiting else x.st
      let all := (List.range s.cur.lanes.length).all fun l =>
        waits l (s.cur.lanes.getD l {}) != .active && waits l (s.cur.lanes.getD l {}) != .parked
      ∃ u, exec (.rcv h) s = .next u ∧ OnlyLanes s u ∧ LanesBecome s u (fun l x =>
        { toNext h s l x with st := if all && waits l x == .waiting then .active else waits l x })) ∧
    (isSeq s.issue.tid = false →
      ∃ u, exec (.yld h) s = .next u ∧ OnlyLanes s u ∧ LanesBecome s u (fun l x =>
        { toNext h s l x with deferred := x.deferred || (bit (execMask h s) l && s.cur.wctl.getLsbD 0) })) ∧
    (isSeq s.issue.tid = true → exec (.rcv h) s = exec (.nop h) s ∧ exec (.yld h) s = exec (.nop h) s)

/-- Tier 1. Branches, jumps, calls, returns, rcv and yld: the parts above.
It rests also on choices and readings of the model: log 23. -/
def Obligations.ControlTransfers : Prop := Claims.ControlTransfers ∧ Claims.NoncanonicalTargetParks ∧ Claims.ReconvergeAndYield

/-- R422, R423, R417: `trap` and `brkpt` park the lanes in `exec` with the record stated, in a task that has a handler. -/
def Claims.TrapsParkTheLanes : Prop :=
  ∀ (h : Head) (s : State), execMask h s ≠ 0 → HandledHere s (execMask h s) →
    let parks := fun i cause faddr => ∃ u, exec i s = .next u ∧ LanesBecome s u (fun l x =>
      if bit (execMask h s) l then parkedLane h s cause faddr x else toNext h s l x) ∧
      u.cur.s = s.cur.s ∧ u.cur.p = s.cur.p ∧ u.cur.v = s.cur.v ∧ u.cur.pending = s.cur.pending ∧
      u.tasks = s.tasks ∧ SameMemory s u
    (∀ a : SReg, parks (.trapShort h a) 0x80 (s.cur.sget2 a)) ∧
    (∀ (c : BitVec 7) (a : SReg), parks (.trap h c a) (BitVec.ofNat 8 (0x80 + c.toNat)) (s.cur.sget2 a)) ∧
    (∀ n : W8, parks (.brkpt h n) 0x08 (n.setWidth 64))

/-- R424, R430: without a handler `trap` ends the task, the outcome fixed by the lowest lane's record and the lanes EXITED, and
`brkpt` is fatal with BREAKPOINT; within a handler every fault is nested and fatal, the record that entered first (R421). -/
def Claims.UnhandledAndNestedFaults : Prop :=
  ∀ (h : Head) (s : State), execMask h s ≠ 0 → isSeq s.issue.tid = false → isSpec s (taskOf s.issue.tid) = false →
    (∀ l, bit (execMask h s) l = true → l < s.cur.lanes.length) →
    ((∀ l, l < 64 → bit (execMask h s) l = true → (s.cur.lanes.getD l {}).inHandler = false) →
      hasHandler s (taskOf s.issue.tid) = false → s.curTask.ending = false → s.curTask.fout = none →
      (∀ (c : BitVec 7) (a : SReg), ∃ u, exec (.trap h c a) s = .next u ∧
        u.curTask.fout = some (BitVec.ofNat 8 (0x80 + c.toNat), s.cur.sget2 a) ∧ u.curTask.ending = true ∧
        ∀ l, l < 64 → bit (execMask h s) l = true → (u.cur.lanes.getD l {}).st = .exited) ∧
      (∀ n : W8, s.curTask.fatal = [] → ∃ u c, exec (.brkpt h n) s = .next u ∧
        u.curTask.fatal = [c] ∧ c.code = 0x08 ∧ c.addr = n.setWidth 64 ∧ c.warp = warpOf s.issue.tid)) ∧
    (∀ (l : Nat) (c : BitVec 7) (a : SReg), execMask h s = 1#64 <<< l → l < 64 → (s.cur.lanes.getD l {}).inHandler = true →
      s.curTask.fatal = [] → ∃ u c1 c2, exec (.trap h c a) s = .next u ∧ u.curTask.fatal = [c1, c2] ∧
        c1.code = (s.cur.lanes.getD l {}).frec.cause ∧ c1.addr = (s.cur.lanes.getD l {}).frec.faddr ∧
        c2.code = BitVec.ofNat 8 (0x80 + c.toNat) ∧ c2.addr = s.cur.sget2 a ∧ c2.lane = l)

/-- R423: `tret` returns each handler lane to the faulting PC and clears its record; `tret.skip` returns it past the faulting
instruction; a lane that runs no handler parks with ILLEGAL_INSTR. -/
def Claims.ReturnsFromTheHandler : Prop :=
  ∀ (h : Head) (s : State), execMask h s ≠ 0 →
    ((∀ l, l < 64 → bit (execMask h s) l = true → (s.cur.lanes.getD l {}).inHandler = true) →
      (∃ u, exec (.tret h) s = .next u ∧ OnlyLanes s u ∧ LanesBecome s u (fun l x =>
        if bit (execMask h s) l then { x with inHandler := false, frec := {}, pc := x.frec.fpc } else toNext h s l x)) ∧
      (∃ u, exec (.tretSkip h) s = .next u ∧ OnlyLanes s u ∧ LanesBecome s u (fun l x =>
        if bit (execMask h s) l
        then { x with inHandler := false, frec := {}, pc := x.frec.fpc + BitVec.ofNat 64 x.frec.ilen }
        else toNext h s l x))) ∧
    (HandledHere s (execMask h s) → ∃ u, exec (.tret h) s = .next u ∧ LanesBecome s u (fun l x =>
      if bit (execMask h s) l then parkedLane h s 0x01 0 x else toNext h s l x))

/-- Tier 1. Taking a trap, a breakpoint and a nested fault, and the return from a handler: the parts above.
It rests also on choices and readings of the model: log 33. -/
def Obligations.TrapsAndReturns : Prop := Claims.TrapsParkTheLanes ∧ Claims.UnhandledAndNestedFaults ∧ Claims.ReturnsFromTheHandler

/-- R216, R217: `sreg` answers the value that the map gives for the warp, with latency 2, and a read of TIMELO latches the
upper half of device time. -/
def Claims.SpecialRegisterReads : Prop :=
  ∀ (h : Head) (d : SReg) (i : W8) (s : State), execMask h s ≠ 0 → isSeq s.issue.tid = false →
    (i = 0x0F → s.cur.flagsPending = false) →
    ∃ v : W32, exec (.sregRead h d i) s = .next (advance h (putS d v
        (if i = 0x04 then s.onCur (fun t => { t with timehi := some (BitVec.ofNat 32 (s.time / 2 ^ 32)) }) else s))) ∧
      (i = 0x00 → bit (execMask h s) v.toNat = true ∧ ∀ l, l < v.toNat → bit (execMask h s) l = false) ∧
      (i = 0x01 → v = BitVec.ofNat 32 (s.issue.tid % 16)) ∧ (i = 0x02 → v = BitVec.ofNat 32 s.issue.core) ∧
      (i = 0x03 → v = BitVec.ofNat 32 (s.issue.core / 28)) ∧ (i = 0x04 → v = BitVec.ofNat 32 s.time) ∧
      (i = 0x05 → v = s.cur.timehi.getD (BitVec.ofNat 32 (s.time / 2 ^ 32))) ∧
      (i = 0x06 → v = s.curTask.wid.setWidth 32) ∧ (i = 0x07 → v = s.curTask.wid.extractLsb' 32 32) ∧
      (i = 0x08 → v = BitVec.ofNat 32 s.curTask.closure) ∧ (i = 0x09 → v = BitVec.ofNat 32 (s.curTask.closure / 2 ^ 32)) ∧
      (i = 0x0A → v = if s.curTask.team.toNat % 128 = 0 then 0
        else if s.issue.tid % 16 < s.curTask.team.toNat / 16 % 8 then 1 else 2) ∧
      (i = 0x0B → v = BitVec.ofNat 32 (s.curTask.team.toNat % 8 + 1)) ∧
      (i = 0x0C → v = match s.curTask.gang with | some g => BitVec.ofNat 32 g.2 | none => 0xFFFFFFFF) ∧
      (i = 0x0D → v = BitVec.ofNat 32 s.cur.maxw) ∧ (i = 0x0E → v = BitVec.ofNat 32 (s.cur.maxw / 2 ^ 32)) ∧
      (i = 0x0F → v = s.cur.fpflags) ∧
      (let x := (s.cur.lanes.getD (lowLane (execMask h s)) {} : Lane);
        (x.inHandler = false → 0x10 ≤ i.toNat → i.toNat ≤ 0x13 → v = 0) ∧
        (x.inHandler = true → (i = 0x10 → v = x.frec.cause.setWidth 32) ∧ (i = 0x11 → v = x.frec.faddr.setWidth 32) ∧
          (i = 0x12 → v = x.frec.faddr.extractLsb' 32 32) ∧ (i = 0x13 → v = x.frec.fpc.setWidth 32))) ∧
      (i = 0x18 → v = s.cur.wctl) ∧ (i = 0x19 → v = s.cur.xblk) ∧
      (i = 0x1A → v = match s.curTask.tag with | some g => BitVec.ofNat 32 (2 * g + 1) | none => 0)

/-- R216, R59, R202, R425: writes and swaps of special registers: FPFLAGS keeps its six defined bits, WCTL clamps its limits,
and clearing PROGRESS ends the quantum and every deferral; every other register, and all of them in a sequencer context,
ignore the write. -/
def Claims.SpecialRegisterWrites : Prop :=
  ∀ (h : Head) (d a : SReg) (i : W8) (s : State), execMask h s ≠ 0 → (i = 0x0F → s.cur.flagsPending = false) →
    let v := s.cur.sget a
    (isSeq s.issue.tid = false → i = 0x0F →
      exec (.sregWrite h a i) s = .next (advance h (s.onCur fun t => { t with fpflags := v &&& 0x3F })) ∧
      exec (.sregSwap h d a i) s =
        .next (advance h (putS d s.cur.fpflags (s.onCur fun t => { t with fpflags := v &&& 0x3F })))) ∧
    (isSeq s.issue.tid = false → i = 0x18 → ∃ w : W32, ∃ f : Thread → Thread,
      exec (.sregWrite h a i) s = .next (advance h (s.onCur f)) ∧
      exec (.sregSwap h d a i) s = .next (advance h (putS d s.cur.wctl (s.onCur f))) ∧
      w.extractLsb' 0 3 = v.extractLsb' 0 3 ∧ w.extractLsb' 3 5 = 0 ∧
      (w.extractLsb' 8 4).toNat = max 4 (v.extractLsb' 8 4).toNat ∧
      (w.extractLsb' 12 4).toNat = min 10 (v.extractLsb' 12 4).toNat ∧ w.extractLsb' 16 16 = 0 ∧
      (v.getLsbD 0 = true → ∀ t, f t = { t with wctl := w }) ∧
      (v.getLsbD 0 = false → ∀ t, f t = { t with
        wctl := w, q := 0, h := 0, lanes := t.lanes.map fun x => { x with deferred := false } })) ∧
    (isSeq s.issue.tid = true ∨ (i ≠ 0x0F ∧ i ≠ 0x18) → exec (.sregWrite h a i) s = .next (advance h s)) ∧
    (isSeq s.issue.tid = false → i = 0x19 → exec (.sregSwap h d a i) s = .next (advance h (putS d s.cur.xblk s)))

/-- Tier 1. Reads, writes and swaps of special registers: the parts above. -/
def Obligations.SpecialRegisters : Prop := Claims.SpecialRegisterReads ∧ Claims.SpecialRegisterWrites

/-- R270, R417: the checks of a lane's address in their order, and the fault each gives. -/
def Claims.AccessChecksInOrder : Prop :=
  ∀ (core cid n : Nat) (need : Need) (x : W64) (s : State),
    (2 ^ 52 ≤ x.toNat → (checkGlobal core cid n need x s).2 = .inr (0x15, false)) ∧
    (x.toNat < 2 ^ 52 → x.toNat % n ≠ 0 → (checkGlobal core cid n need x s).2 = .inr (0x06, false)) ∧
    (x.toNat < 2 ^ 52 → x.toNat % n = 0 →
      (∀ pa, (checkGlobal core cid n need x s).2 = .inl pa ↔ (translate core cid x.toNat need s).2 = .inl pa) ∧
      (∀ e : TlbEnt, (lookup core cid x.toNat s).2 = .inl e →
        (checkGlobal core cid n need x s).2 =
          match need with
          | .read => .inl (e.pa + (x.toNat - e.va))
          | .fetch => if e.x then .inl (e.pa + (x.toNat - e.va)) else .inr (0x11, true)
          | .write => if e.w = false then .inr (0x11, true) else if e.wpm then .inr (0x12, true)
            else .inl (e.pa + (x.toNat - e.va)))) ∧
    (s.mem = (checkGlobal core cid n need x s).1.mem ∧ s.threads = (checkGlobal core cid n need x s).1.threads ∧
      s.tasks = (checkGlobal core cid n need x s).1.tasks)

/-- R267 to R270, R273: a load or store whose lanes pass the checks enters the thread's accesses, one access per lane in
ascending lane order (one for a scalar form), and the run moves on; nothing else changes at issue. -/
def Claims.GlobalLoadsAndStoresIssue : Prop :=
  ∀ (h : Head) (o : MemF) (s : State), execMask h s ≠ 0 →
    let c := o.var.toNat % 8
    let n := accBytes c
    let e := execMask h s
    (∀ (s' : State) (pa : Nat) (x : W64), o.bk = false → x = globalAddr s.cur o 0 0 → wpmBlocks s.cur x.toNat n = false →
      (checkGlobal s.issue.core s.curTask.cid n .read x s = (s', .inl pa) →
        ∃ a, exec (.sld h o) s = .next (enqueue [a] (advance h s')) ∧ a.kind = .load ∧ a.va = x.toNat ∧ a.pa = pa ∧ a.n = n ∧
          a.code = c ∧ a.dst = .s o.data.toNat ∧ a.strong = (o.ord != 0) ∧ a.acq = (o.ord == 2) ∧ a.scope = o.scope.toNat) ∧
      (checkGlobal s.issue.core s.curTask.cid n .write x s = (s', .inl pa) →
        ∃ a, exec (.sst h o) s = .next (enqueue [a] (advance h s')) ∧ a.kind = .store ∧ a.va = x.toNat ∧ a.pa = pa ∧ a.n = n ∧
          a.dst = .none ∧ a.strong = (o.ord != 0) ∧ a.rel = (o.ord == 3) ∧ a.scope = o.scope.toNat ∧
          a.data = (if n = 8 then (s.cur.sget2 (o.data.setWidth 6)).toNat else (s.cur.sget (o.data.setWidth 6)).toNat))) ∧
    (let addr := globalAddr s.cur o (if o.var.toNat < 8 then n else 0)
     (∀ l, l < 64 → bit e l = true → wpmBlocks s.cur (addr l).toNat n = false) →
      (let r := checkLanes n .read addr (lanesOf e) s
       r.2.bad = [] → ∃ accs, exec (.vld h o) s = .next (enqueue accs (advance h r.1)) ∧
        accs.map (fun a => (a.lane, a.va, a.pa)) = r.2.ok ∧
        ∀ a, a ∈ accs → a.kind = .load ∧ a.n = n ∧ a.code = c ∧ a.dst = .v o.data.toNat ∧ a.strong = (o.ord != 0) ∧
          a.acq = (o.ord == 2) ∧ a.scope = o.scope.toNat) ∧
      (let r := checkLanes n .write addr (lanesOf e) s
       r.2.bad = [] → ∃ accs, exec (.vst h o) s = .next (enqueue accs (advance h r.1)) ∧
        accs.map (fun a => (a.lane, a.va, a.pa)) = r.2.ok ∧
        ∀ a, a ∈ accs → a.kind = .store ∧ a.n = n ∧ a.dst = .none ∧ a.strong = (o.ord != 0) ∧ a.rel = (o.ord == 3) ∧
          a.scope = o.scope.toNat ∧ a.data % 256 ^ n = laneData s.cur o.data.toNat n a.lane))

/-- R278: `ldx` reads one element per lane from the address's format window, element l for lane l. -/
def Claims.DecodedLoadsIssue : Prop :=
  ∀ (h : Head) (o : MemF) (s s' : State) (pa : Nat) (w : FWin), execMask h s ≠ 0 → o.bk = false →
    let x := globalAddr s.cur o 0 0
    wpmBlocks s.cur x.toNat 256 = false → checkGlobal s.issue.core s.curTask.cid 1 .read x s = (s', .inl pa) →
    fwinAt s' pa = some w → (w.fmt = 8 ∨ w.fmt = 9 ∨ w.fmt = 10) →
    let size := if w.fmt = 8 then 2 else 1
    (pa - w.base) % size = 0 →
    ∃ u accs bad, exec (.ldx h o) s = .next (parkCur h bad (enqueue accs (advance h u))) ∧
      accs.length + bad.length = (lanesOf (execMask h s)).length ∧
      (∀ a, a ∈ accs → bit (execMask h s) a.lane = true ∧ a.kind = .ldx ∧ a.va = x.toNat + size * a.lane ∧ a.n = size ∧
        a.fmt = w.fmt ∧ a.dst = .v o.data.toNat) ∧
      (∀ f, f ∈ bad → w.limit < pa + size * f.lane + size → f.cause = 0x13)

/-- Tier 1. Global loads and stores at issue, and the checks of their addresses: the parts above.
It rests also on choices and readings of the model: log 16. -/
def Obligations.LoadsAndStoresIssue : Prop := Claims.AccessChecksInOrder ∧ Claims.GlobalLoadsAndStoresIssue ∧ Claims.DecodedLoadsIssue

/-- R384, R273, R385: a store that performs leaves its bytes at the home and no other byte of memory changed, and the
thread's largest completion time takes in the store's. -/
def Claims.StorePerforms : Prop :=
  ∀ (core unit idx tid : Nat) (a : Acc) (s : State), unitTid s core unit = some tid → (s.thread tid).flight[idx]? = some a →
    a.kind = .store → accReady s core tid idx a = true → overdue s a = false → a.bad = false →
    sliceLost s a.pa = false → isSpec s (taskOf tid) = false → hostHolds s (taskOf tid) a.pa a.n = false → Memory.wf 0 s.mem = true →
    ∃ u, exec (.storePerformed core unit idx) s = .next u ∧ bytesAt u.mem a.pa a.n = a.data % 256 ^ a.n ∧
      (∀ b, b < a.pa ∨ a.pa + a.n ≤ b → byteAt u.mem b = byteAt s.mem b) ∧ Memory.wf 0 u.mem = true ∧
      (u.thread tid).maxw = max (s.thread tid).maxw (gwctOf s a.pa) ∧
      (∀ p, p ∈ u.poison ↔ p ∈ s.poison ∧ ¬ (a.pa ≤ p ∧ p < a.pa + a.n))

/-- R281, R282, R384: a global atomic that performs replaces the bytes by the operation's result and returns the old value, which a
task of a speculating launch reads as its loads do (log 31). -/
def Claims.AtomicPerforms : Prop :=
  ∀ (core unit idx tid : Nat) (a : Acc) (s : State), unitTid s core unit = some tid → (s.thread tid).flight[idx]? = some a →
    a.kind = .atm → accReady s core tid idx a = true → overdue s a = false → a.bad = false → sliceLost s a.pa = false → isSpec s (taskOf tid) = false →
    hostHolds s (taskOf tid) a.pa a.n = false → poisonedTo s tid a.pa a.n = false →
    Memory.wf 0 s.mem = true → a.n = 4 ∨ a.n = 8 → a.data < 256 ^ a.n → a.data2 < 256 ^ a.n →
    let old := viewRead s (viewTag s (taskOf tid)) a.pa a.n
    let m := 256 ^ a.n
    let signed := fun x : Nat => if a.code = 1 ∧ m / 2 ≤ x then (x : Int) - m else (x : Int)
    ∃ u new, exec (.storePerformed core unit idx) s = .next u ∧ bytesAt u.mem a.pa a.n = new ∧
      (∀ b, b < a.pa ∨ a.pa + a.n ≤ b → byteAt u.mem b = byteAt s.mem b) ∧
      (a.aop = 0 → new = (old + a.data) % m) ∧
      (a.aop = 1 → new = if signed a.data < signed old then a.data else old) ∧
      (a.aop = 2 → new = if signed old < signed a.data then a.data else old) ∧
      (a.aop = 3 → new = old &&& a.data) ∧ (a.aop = 4 → new = old ||| a.data) ∧ (a.aop = 5 → new = old ^^^ a.data) ∧
      (a.aop = 6 → new = a.data) ∧ (a.aop = 7 → new = if old = a.data2 then a.data else old) ∧
      (a.aop = 8 → a.n = 4 → new = (fadd .rne (BitVec.ofNat 32 old) (BitVec.ofNat 32 a.data)).1.toNat) ∧
      (a.aop = 9 → a.n = 4 → new = (famax (BitVec.ofNat 32 old) (BitVec.ofNat 32 a.data)).toNat) ∧
      (∀ r, a.dst = .v r → a.n = 4 → a.lane < 64 → (s.thread tid).pending = [] → (s.thread tid).region = none →
        Memory.wf zeroRow (s.thread tid).v = true → (∀ q, ((s.thread tid).vmain q).length = 64) →
        (u.thread tid).vlane r a.lane = BitVec.ofNat 32 old)

/-- A byte as a weak load of a thread reads it: from the core's L1 while a lease is valid, and at the home otherwise (R273, R383). -/
def weakByte (s : State) (core tid pa : Nat) : Nat :=
  let tag := viewTag s (taskOf tid)
  match if landsAt s pa then none else l1Find (s.core core) (lineOf pa) tag s.time with
  | some l => bytesOfLine l pa 1
  | none => (viewByte s tag pa).toNat

/-- R190, R268, R273, R278: a load's result arrives extended by its access type: read at the home for a strong load, for a landing
window and where the L1 holds no copy under a lease, which is then filled, from the L1 while a lease is valid, and decoded from its format
window for `ldx`. -/
def Claims.LoadResultArrives : Prop :=
  ∀ (core unit idx tid : Nat) (a : Acc) (s : State), unitTid s core unit = some tid → (s.thread tid).flight[idx]? = some a →
    accReady s core tid idx a = true → overdue s a = false → a.bad = false →
    (∀ p, p ∈ fromHome s core tid a → sliceLost s p.1 = false ∧ poisonedTo s tid p.1 p.2 = false) →
    let extended := fun v : Nat => if a.code = 3 then ((BitVec.ofNat 8 v).signExtend 32).toNat
      else if a.code = 5 then ((BitVec.ofNat 16 v).signExtend 32).toNat else v
    let tag := viewTag s (taskOf tid)
    (a.kind = .load → a.strong = true ∨ landsAt s a.pa = true →
      exec (.loadResultArrives core unit idx) s = .next (retireAcc tid idx
        (landResult tid a.dst a.lane (wordsOf a.n) (extended (viewRead s tag a.pa a.n)) (fillL2 (lineOf a.pa) s)))) ∧
    (a.kind = .load → a.strong = false → landsAt s a.pa = false →
      ∀ l, l1Find (s.core core) (lineOf a.pa) tag s.time = some l →
      exec (.loadResultArrives core unit idx) s = .next (retireAcc tid idx
        (landResult tid a.dst a.lane (wordsOf a.n) (extended (bytesOfLine l a.pa a.n)) (s.onCore core (l1Use l))))) ∧
    (a.kind = .load → a.strong = false → landsAt s a.pa = false →
      l1Find (s.core core) (lineOf a.pa) tag s.time = none →
      exec (.loadResultArrives core unit idx) s = .next (retireAcc tid idx
        (landResult tid a.dst a.lane (wordsOf a.n) (extended (viewRead s tag a.pa a.n)) (l1Fill core (lineOf a.pa) tag s)))) ∧
    (a.kind = .ldx → a.strong = false → a.fmt = 8 ∨ a.fmt = 9 ∨ a.fmt = 10 → ∃ raw z,
      ldxRaw core tid a s = (z, raw) ∧
      exec (.loadResultArrives core unit idx) s = .next (retireAcc tid idx ((landResult tid a.dst a.lane 1
        (rne32 (unpack (if a.fmt = 8 then fmtBf16 else if a.fmt = 9 then fmtE4m3 else fmtE5m2) raw)).toNat z).onThread tid
          fun t => { t with fpflags := t.fpflags ||| 0 })) ∧
      (a.n = 1 → raw = weakByte s core tid a.pa) ∧
      (a.n ≠ 1 → raw = weakByte s core tid a.pa + 256 * weakByte (loadValue core tid { a with n := 1 } s).1 core tid a.data2))

/-- Tier 1. Stores and atomics perform, and load results arrive: the parts above.
It rests also on choices and readings of the model: log 10, 17, 22 and 31. -/
def Obligations.AccessesPerform : Prop := Claims.StorePerforms ∧ Claims.AtomicPerforms ∧ Claims.LoadResultArrives

/-- Tier 2. R190, R188, R268: where a result lands: a scalar result in its register, a vector result in its lane, the other registers
and lanes as they were; a later variable-latency result stands over the fixed-latency results pending before it. -/
def Obligations.ResultsLandInTheirRegisters : Prop :=
  (∀ (t : Thread) (r : SReg) (v : W32), Memory.wf 0 t.s = true → t.pending = [] →
    (t.varS r v).sget r = v ∧ (∀ q, q ≠ r → (t.varS r v).sget q = t.sget q) ∧ (t.varS r v).v = t.v ∧ (t.varS r v).p = t.p) ∧
  (∀ (t : Thread) (r l : Nat) (v : W32), l < 64 → (∀ q, (t.vget q).length = 64) → Memory.wf zeroRow t.v = true → t.pending = [] →
    (t.varV r (1#64 <<< l) (rowOf fun _ => v)).vlane r l = v ∧
    (∀ k, k ≠ l → (t.varV r (1#64 <<< l) (rowOf fun _ => v)).vlane r k = t.vlane r k) ∧
    (∀ q k, q ≠ r → (t.varV r (1#64 <<< l) (rowOf fun _ => v)).vlane q k = t.vlane q k) ∧
    (t.varV r (1#64 <<< l) (rowOf fun _ => v)).s = t.s) ∧
  (∀ (t : Thread) (r : SReg) (v w : W32) (due : Nat), Memory.wf 0 t.s = true →
    ({ t with pending := [⟨due, .s r.toNat w⟩] }.varS r v).settled.sget r = v) ∧
  (∀ (s : State) (r : SReg) (v : W32) (lat now : Nat), isSeq s.issue.tid = false → s.cur.pending = [] →
    Memory.wf 0 s.cur.s = true →
    ((writeFixed lat (.s r.toNat v) s).cur.land now).sget r = if s.time + lat ≤ now then v else s.cur.sget r) ∧
  (∀ (s : State) (r : SReg) (v : W32) (lat : Nat), isSeq s.issue.tid = true → Memory.wf 0 s.cur.s = true →
    (writeFixed lat (.s r.toNat v) s).cur.sget r = v)

/-- R257, R275: scratchpad loads and stores take effect at issue: a load's lanes read the task's bytes, a store's lanes leave
theirs, the highest lane where lanes overlap, and no other byte of the scratchpad or of memory changes. -/
def Claims.ScratchpadLoadsAndStores : Prop :=
  ∀ (h : Head) (o : MemF) (s : State), execMask h s ≠ 0 →
    let c := o.var.toNat % 8
    let n := accBytes c
    let e := execMask h s
    let x := spadAddr s.cur o (if o.var.toNat < 8 then n else 0)
    (∀ l, l < 64 → bit e l = true → x l % n = 0 ∧ x l + n ≤ s.curTask.size) →
    (spadMay s.cur false (fun l => BitVec.ofNat 64 (x l)) (lanesOf e) n = true →
      (∀ l, l < 64 → bit e l = true → spPoisoned s (taskOf s.issue.tid, x l) n = false) →
      exec (.lds h o) s = .next ((lanesOf e).foldl (fun z l => landResult s.issue.tid (.v o.data.toNat) l (wordsOf n)
        (extendAcc c (bytesAt s.curTask.spad (x l) n)) z) (advance h s))) ∧
    (spadMay s.cur true (fun l => BitVec.ofNat 64 (x l)) (lanesOf e) n = true →
      (∀ l i, l < 64 → bit e l = true → i < n → headerOf s.curTask (x l + i) = none) → Memory.wf 0 s.curTask.spad = true →
      ∃ u, exec (.sts h o) s = .next u ∧ SameMemory s u ∧
        (∀ b, (∀ l, l < 64 → bit e l = true → b < x l ∨ x l + n ≤ b) → byteAt u.curTask.spad b = byteAt s.curTask.spad b) ∧
        (∀ l, l < 64 → bit e l = true → (∀ k, l < k → k < 64 → bit e k = true → x k + n ≤ x l ∨ x l + n ≤ x k) →
          bytesAt u.curTask.spad (x l) n = laneData s.cur o.data.toNat n l))

/-- R281, R282, R257: atomics. On scratchpad the bytes change at issue; a global atomic enters the accesses as a strong
operation with the acquire and release that its ordering gives. -/
def Claims.AtomicsIssue : Prop :=
  ∀ (h : Head) (f : AtmFn) (o : MemF) (s : State), execMask h s ≠ 0 →
    let n := if o.var.toNat % 4 = 2 then 8 else 4
    let e := execMask h s
    (f.glb = false → ∀ l, e = 1#64 <<< l → l < 64 →
      let x := spadAddr s.cur o 0 l
      x % n = 0 → x + n ≤ s.curTask.size → spadMay s.cur true (fun _ => BitVec.ofNat 64 x) [l] n = true →
      (∀ i, i < n → headerOf s.curTask (x + i) = none) → Memory.wf 0 s.curTask.spad = true →
      spPoisoned s (taskOf s.issue.tid, x) n = false → ∃ u, exec (.atm h f o) s = .next u ∧ SameMemory s u ∧
        bytesAt u.curTask.spad x n = atomNew f.aop.toNat n (o.var.toNat % 4) (bytesAt s.curTask.spad x n)
          (atomArgs s.cur f o l).1 (atomArgs s.cur f o l).2 % 256 ^ n ∧
        ∀ b, b < x ∨ x + n ≤ b → byteAt u.curTask.spad b = byteAt s.curTask.spad b) ∧
    (f.glb = true → isSpec s (taskOf s.issue.tid) = false →
      let addr := globalAddr s.cur o 0
      (∀ l, l < 64 → bit e l = true → wpmBlocks s.cur (addr l).toNat n = false) →
      let r := checkLanes n .write addr (lanesOf e) s
      r.2.bad = [] → ∃ accs, exec (.atm h f o) s = .next (enqueue accs (advance h r.1)) ∧
        accs.map (fun a => (a.lane, a.va, a.pa)) = r.2.ok ∧
        ∀ a, a ∈ accs → a.kind = .atm ∧ a.n = n ∧ a.aop = f.aop.toNat ∧ a.strong = true ∧
          a.acq = (o.ord == 0 || o.ord == 2) ∧ a.rel = (o.ord == 0 || o.ord == 3) ∧ a.scope = o.scope.toNat ∧
          a.dst = (if f.ret then .v o.data.toNat else .none) ∧
          (a.data, a.data2) = atomArgs s.cur f o a.lane)

/-- Tier 1. Scratchpad loads and stores, and atomics at issue: the parts above.
It rests also on choices and readings of the model: log 15. -/
def Obligations.ScratchpadAndAtomics : Prop := Claims.ScratchpadLoadsAndStores ∧ Claims.AtomicsIssue

/-- R279, R280: prefetches and cache operations. -/
def Claims.CacheOperations : Prop :=
  ∀ (h : Head) (o : MemF) (s : State), execMask h s ≠ 0 →
    let r := lineTranslate (lineAddrs h o s) s
    (∃ u, exec (.cpf h o) s = .next u ∧ SameMemory s u ∧ u.tasks = s.tasks ∧
      ∀ pa, pa ∈ r.2 → landsAt s pa = false → homeGone s pa = false → poisonedTo s s.issue.tid pa 1 = false → (u.l2line (lineOf pa)).inL2 = true) ∧
    (∃ u, exec (.copInv h o) s = .next u ∧ SameMemory s u ∧ u.tasks = s.tasks ∧
      ∀ pa x, pa ∈ r.2 → x ∈ (u.core s.issue.core).l1 → x.line ≠ lineOf pa) ∧
    (∃ u, exec (.copInvall h o) s = .next u ∧ SameMemory s u ∧ (u.core s.issue.core).l1 = []) ∧
    (o.bk = false → isSpec s (taskOf s.issue.tid) = false → ∀ (s' : State) (pa : Nat),
      checkGlobal s.issue.core s.curTask.cid 1 .read (globalAddr s.cur o 0 0) s = (s', .inl pa) →
      (∃ a, exec (.copWb h o) s = .next (enqueue [a] (advance h s')) ∧ a.kind = .copWb ∧ a.pa = pa / 128 * 128 ∧ a.n = 128 ∧
        a.strong = true) ∧
      (∃ a, exec (.copWbinv h o) s = .next (enqueue [a] (advance h s')) ∧ a.kind = .copWbinv ∧ a.pa = pa / 128 * 128 ∧
        a.n = 128 ∧ a.strong = true)) ∧
    (o.bk = true → isSpec s (taskOf s.issue.tid) = false →
      let r := checkLanes 1 .read (globalAddr s.cur o 0) (lanesOf (execMask h s)) s
      r.2.bad = [] →
      (∃ accs, exec (.copWb h o) s = .next (enqueue accs (advance h r.1)) ∧
        accs.map (fun a => (a.lane, a.pa)) = r.2.ok.map (fun x => (x.1, x.2.2 / 128 * 128)) ∧
        ∀ a, a ∈ accs → a.kind = .copWb ∧ a.n = 128) ∧
      (∃ accs, exec (.copWbinv h o) s = .next (enqueue accs (advance h r.1)) ∧
        accs.map (fun a => (a.lane, a.pa)) = r.2.ok.map (fun x => (x.1, x.2.2 / 128 * 128)) ∧
        ∀ a, a ∈ accs → a.kind = .copWbinv ∧ a.n = 128))

/-- R274, R276, R277, R393: gathers, scatters and gang accesses whose lanes pass the checks enter the GTH class, which counts
one more, with each lane's two addresses. -/
def Claims.GatherClassIssues : Prop :=
  ∀ (h : Head) (o : MemF) (s : State), execMask h s ≠ 0 → opHeld s.cur 2 = false →
    let e := execMask h s
    let n := accBytes (o.var.toNat % 8)
    let d := (s.cur.sget (o.data.setWidth 6)).toNat
    (o.bk = true → (∀ l, l < 64 → bit e l = true → wpmBlocks s.cur (globalAddr s.cur o 0 l).toNat n = false) →
      (∀ l, l < 64 → bit e l = true → (d + n * l) % n = 0 ∧ d + n * l + n ≤ s.curTask.size) →
      (let r := checkLanes n .read (globalAddr s.cur o 0) (lanesOf e) s
       r.2.bad = [] → ∃ q gl, exec (.vgth h o) s = .next (pushOp q (advance h r.1)) ∧ q.cls = 2 ∧ q.done = false ∧
        q.kind = .vgth gl n ∧ gl.map (fun g => (g.lane, g.va, g.pa)) = r.2.ok ∧ ∀ g, g ∈ gl → g.off = d + n * g.lane) ∧
      (let r := checkLanes n .write (globalAddr s.cur o 0) (lanesOf e) s
       r.2.bad = [] → ∃ q gl, exec (.vsct h o) s = .next (pushOp q (advance h r.1)) ∧ q.cls = 2 ∧ q.done = false ∧
        q.kind = .vsct gl n ∧ gl.map (fun g => (g.lane, g.va, g.pa)) = r.2.ok ∧ ∀ g, g ∈ gl → g.off = d + n * g.lane)) ∧
    (∀ (g i k : Nat), s.curTask.gang = some (g, i) → o.var.toNat < (s.launch (s.gang g).launch).gsize →
      (s.gang g).members[o.var.toNat]? = some k → (s.task k).st = .running →
      let x := spadAddr s.cur o 4
      (∀ l, l < 64 → bit e l = true → x l % 4 = 0 ∧ x l + 4 ≤ (s.task k).size) →
      (∃ q gl, exec (.gld h o) s = .next (pushOp q (advance h s)) ∧ q.cls = 2 ∧ q.kind = .gld k o.data.toNat gl ∧
        gl.map (fun g => (g.lane, g.off)) = (lanesOf e).map (fun l => (l, x l))) ∧
      (∃ q gl, exec (.gst h o) s = .next (pushOp q (advance h s)) ∧ q.cls = 2 ∧ q.kind = .gst k gl ∧
        gl.map (fun g => (g.lane, g.off, g.data)) = (lanesOf e).map (fun l => (l, x l, (s.cur.vlane o.data.toNat l).toNat)))) ∧
    (∀ (g i : Nat), s.curTask.gang = some (g, i) →
      let x := spadAddr s.cur o (if o.var.toNat < 8 then n else 0)
      (∀ l, l < 64 → bit e l = true → x l % n = 0 ∧ s.curTask.size / 2 ≤ x l ∧ x l + n ≤ s.curTask.size) →
      ∃ q gl, exec (.mst h o) s = .next (pushOp q (advance h s)) ∧ q.cls = 2 ∧ q.kind = .mst gl n (s.gang g).members ∧
        gl.map (fun g => (g.lane, g.off, g.data)) =
          (lanesOf e).map (fun l => (l, x l, laneData s.cur o.data.toNat n l)))

/-- Tier 1. Cache operations, gathers, scatters and gang accesses at issue: the parts above.
It rests also on choices and readings of the model: log 24. -/
def Obligations.CachesAndGathers : Prop := Claims.CacheOperations ∧ Claims.GatherClassIssues

/-- R391, R395, R396: fences and `wcnt`. A release fence stands among the accesses until every access before it has performed
and, at a scope above core, device time has passed the largest completion time; an acquire fence until the loads and returning
atomics before it have returned; `fence.sc` and `wcnt` issue once their conditions hold, and a pending fault of a selected
class is raised by `wcnt`. -/
def Claims.FencesAndCounters : Prop :=
  ∀ (h : Head) (sc : BitVec 3) (m n : BitVec 6) (s : State), execMask h s ≠ 0 →
    let f := s.cur.flight
    let released := f = [] ∧ (sc.toNat < 2 ∨ s.cur.maxw < s.time)
    (isSpec s (taskOf s.issue.tid) = false → (∀ a, a ∈ f → a.marker = false) →
      (∃ u, exec (.fenceRel h sc) s = .next u ∧ OnlyThreads s u ∧ (released → u.cur.flight = []) ∧
        (¬ released → ∃ a, u.cur.flight = f ++ [a] ∧ a.kind = .relFence ∧ a.scope = sc.toNat)) ∧
      (∃ u, exec (.fenceAcq h sc) s = .next u ∧ OnlyThreads s u ∧ (f.any Acc.returns = false → u.cur.flight = f) ∧
        (f.any Acc.returns = true → ∃ a, u.cur.flight = f ++ [a] ∧ a.kind = .acqFence)) ∧
      (released → exec (.fenceSc h sc) s = .next (advance h s))) ∧
    (firstPending s.cur m = none → (∀ c, c < 6 → m.getLsbD c = true → classCount s.cur c ≤ n.toNat) →
      exec (.wcnt h m n) s = .next (advance h s)) ∧
    (∀ c cause addr, firstPending s.cur m = some (c, cause, addr) → s.cur.wait ≠ .counters s.issue.pc → cause ≠ 0x12 → HandledHere s (execMask h s) →
      ∃ u, exec (.wcnt h m n) s = .next u ∧ u.cur.pendFault = tdel s.cur.pendFault c ∧ LanesBecome s u (fun l x =>
        if bit (execMask h s) l then parkedLane h s cause addr x else toNext h s l x))

/-- R397, R398: a barrier's phase completes when its last participant arrives, and every waiting participant is released; until
then the thread waits. A gang's barrier also delivers the count of errors and clears it. -/
def Claims.Barriers : Prop :=
  ∀ (h : Head) (d : SReg) (s : State), execMask h s ≠ 0 → isSpec s (taskOf s.issue.tid) = false → s.cur.flight = [] →
    (let here := s.curTask.barHere ++ [s.issue.tid]
     let all := ∀ i, i ∈ participants s (taskOf s.issue.tid) → i ∈ here
     ∃ u, exec (.bar h) s = .next u ∧ SameMemory s u ∧
      (all → u.curTask.barHere = [] ∧ u.curTask.barPhase = s.curTask.barPhase + 1 ∧
        ∀ i p, i ∈ here → (u.thread i).wait ≠ .bar p) ∧
      (¬ all → u.curTask.barHere = here ∧ u.curTask.barPhase = s.curTask.barPhase ∧
        u.cur.wait = .bar s.curTask.barPhase)) ∧
    (∀ g i, s.curTask.gang = some (g, i) → s.cur.maxw < s.time → classCount s.cur 2 = 0 →
      let here := (s.gang g).here ++ [s.issue.tid]
      let all := ∀ k, k ∈ (s.gang g).members → hasExited s k = true ∨
        ((s.task k).st ≠ .staged ∧ ∀ i, i ∈ liveWarps s k → i ∈ here)
      ∃ u, exec (.gbar h d) s = .next u ∧ SameMemory s u ∧
        (all → (u.gang g).here = [] ∧ (u.gang g).phase = (s.gang g).phase + 1 ∧ (u.gang g).errs = 0 ∧ u.cur.wait = .none ∧
          (Memory.wf 0 s.cur.s = true → s.cur.pending = [] → u.cur.sget d = BitVec.ofNat 32 (s.gang g).errs)) ∧
        (¬ all → (u.gang g).here = here ∧ (u.gang g).phase = (s.gang g).phase ∧ (u.gang g).errs = (s.gang g).errs ∧
          u.cur.wait = .gbar d (s.gang g).phase))

/-- Tier 1. Fences, wcnt and barriers: the parts above.
It rests also on choices and readings of the model: log 6 and 46. -/
def Obligations.FencesAndBarriers : Prop := Claims.FencesAndCounters ∧ Claims.Barriers

/-- Tier 1. R399 to R401: a monitor is armed with the word that it read; `mwait` without one returns 0, with one it waits until the word
differs from the one saved or the deadline passes, and the events that end its wait.
It rests also on choices and readings of the model: log 6. -/
def Obligations.MonitorsAndWaits : Prop :=
  ∀ (h : Head) (d a : SReg) (s : State),
    (execMask h s ≠ 0 → ∀ (s' : State) (pa : Nat), (s.cur.sget2 a).toNat % 8 = 0 →
      checkGlobal s.issue.core s.curTask.cid 8 .read (s.cur.sget2 a) s = (s', .inl pa) → homeGone s' pa = false →
      mayRead s' s.issue.core s.issue.tid (s.cur.sget2 a).toNat pa 8 = true → poisonedTo s' s.issue.tid pa 8 = false →
      ∃ (z : State) (m : Mon), exec (.mon h d a) s = .next (giveS2 d m.saved (z.onCur fun t => { t with mon := some m })) ∧ z.mem = s.mem ∧
        m.sp = false ∧ m.va = (s.cur.sget2 a).toNat ∧ m.addr = pa ∧ m.trig = false ∧
        m.saved = BitVec.ofNat 64 (readWord s' s.issue.tid pa 8)) ∧
    (execMask h s ≠ 0 → acqPending s.cur = false → spadHeld s.cur (s.cur.sget a).toNat 8 = false →
      (s.cur.sget a).toNat % 8 = 0 → (s.cur.sget a).toNat + 8 ≤ s.curTask.size →
      spPoisoned s (taskOf s.issue.tid, (s.cur.sget a).toNat) 8 = false →
      ∃ (z : State) (m : Mon), exec (.monSp h d a) s = .next (giveS2 d m.saved (z.onCur fun t => { t with mon := some m })) ∧ z.mem = s.mem ∧
        m.sp = true ∧ m.addr = (s.cur.sget a).toNat ∧ m.trig = false ∧
        m.saved = BitVec.ofNat 64 (bytesAt s.curTask.spad (s.cur.sget a).toNat 8)) ∧
    (execMask h s ≠ 0 → s.cur.mon = none → exec (.mwait h d a) s = .next (giveS2 d 0 (advance h s))) ∧
    (execMask h s ≠ 0 → ∀ m, s.cur.mon = some m → m.trig = false →
      ∃ u, exec (.mwait h d a) s = .next u ∧ OnlyThreads s u ∧ u.cur.mon = some m ∧
        u.cur.wait = .mwait d (if s.cur.sget a = 0 then none else some (s.time + 1024 * (s.cur.sget a).toNat))) ∧
    (∀ (core unit tid : Nat) (dl : Option Nat) (m : Mon), unitTid s core unit = some tid →
      (s.thread tid).wait = .mwait d dl → (s.thread tid).mon = some m →
      (m.trig = true → mayReread s core tid m = true → rereadFault s tid m = none → watchedNow s tid m ≠ m.saved →
        ∃ u, exec (.mwaitWake core unit) s = .next u ∧ SameMemory s u ∧ (u.thread tid).mon = none ∧ (u.thread tid).wait = .none ∧
          (Memory.wf 0 (s.thread tid).s = true → (s.thread tid).pending = [] →
            (u.thread tid).sget2 d = watchedNow s tid m)) ∧
      (m.trig = true → mayReread s core tid m = true → rereadFault s tid m = none → watchedNow s tid m = m.saved →
        (∀ x, dl = some x → s.time ≤ x) →
        exec (.mwaitWake core unit) s =
          .next (s.onThread tid fun t => { t with mon := some { m with trig := false } })) ∧
      (m.trig = false → ∀ x, dl = some x → x < s.time →
        ∃ u, exec (.mwaitDeadline core unit) s = .next u ∧ SameMemory s u ∧ (u.thread tid).mon = none ∧
          (u.thread tid).wait = .none ∧ (Memory.wf 0 (s.thread tid).s = true → (s.thread tid).pending = [] →
            (u.thread tid).sget2 d = m.saved))) ∧
    (∀ (core unit tid : Nat) (m : Mon), unitTid s core unit = some tid → (s.thread tid).mon = some m → m.full = true →
      m.due ≤ s.time → exec (.watchTableFullReread core unit) s =
        .next (s.onThread tid fun t => { t with mon := some { m with trig := true, due := s.time + 1024 } })) ∧
    (∀ (task unit : Nat) (m : Mon), (s.task task).st = .swapped → (s.thread (tidOf task unit)).mon = some m →
      m.full = true → m.due ≤ s.time → exec (.parkedWatchSpuriousWake task unit) s =
        .next (s.onThread (tidOf task unit) fun t => { t with wake := true, mon := some { m with due := s.time + 65536 } }))

/-- R193 to R196: register blocks: `xacq` gives a free block, whose registers read 0, and waits when none is free; `xacq.try`
answers 0, 1 or all ones; `xrel` returns a held block, and changes nothing of one that is not held. -/
def Claims.RegisterBlocks : Prop :=
  ∀ (h : Head) (d : SReg) (k : BitVec 4) (s : State), execMask h s ≠ 0 →
    let held := s.cur.xblk.getLsbD k.toNat
    let given := s.onCur (giveBlock k.toNat)
    (held = true → exec (.xacq h k) s = .next (advance h s) ∧ exec (.xacqTry h d k) s = .next (advance h (giveS d 1 s))) ∧
    (held = false → poolFree s = true →
      exec (.xacq h k) s = .next (advance h given) ∧ exec (.xacqTry h d k) s = .next (advance h (giveS d 0 given)) ∧
      given.cur.held (128 * k.toNat) = true ∧
      (s.cur.region = none → ∀ r l, r / 128 = k.toNat → given.cur.vlane r l = 0) ∧
      (s.cur.region = none → ∀ r l, r / 128 ≠ k.toNat → given.cur.vlane r l = s.cur.vlane r l)) ∧
    (held = false → poolFree s = false →
      (∃ u order, exec (.xacq h k) s = .next u ∧ u.cur.wait = .xacq k.toNat order ∧ u.cur.xblk = s.cur.xblk ∧ SameMemory s u) ∧
      exec (.xacqTry h d k) s = .next (advance h (giveS d 0xFFFFFFFF s))) ∧
    (held = false → exec (.xrel h k) s = .next (advance h s)) ∧
    (held = true → (s.cur.busyIn fun r => r / 128 == k.toNat) = false → blockedXacq s s.issue.core = [] →
      exec (.xrel h k) s = .next ((advance h s).onCur (dropBlock k.toNat)) ∧
      ((advance h s).onCur (dropBlock k.toNat)).cur.held (128 * k.toNat) = false)

/-- R197 to R201: `rgn` opens a region whose registers read as before, and holds the warp's issue for 2 + ceil(n/8) cycles;
`rgnend` returns the written registers to the main file and changes nothing when no region is open. -/
def Claims.Regions : Prop :=
  ∀ (h : Head) (w : W64) (s : State), execMask h s ≠ 0 →
    (s.cur.region = none → setOk w = true → (∀ r, r ∈ setOf w → s.cur.held r = true) →
      s.cur.busyIn (setOf w).contains = false →
      ∃ u, exec (.rgn h w) s = .next u ∧ u.cur.region = some w ∧ u.cur.written = [] ∧
        (∀ r, u.cur.vget r = s.cur.vget r) ∧ u.issue.hold = 2 + ((setOf w).length + 7) / 8 ∧ SameMemory s u) ∧
    (setOk w = false → HandledHere s (execMask h s) →
      ∃ u, exec (.rgn h w) s = .next u ∧ u.cur.region = s.cur.region ∧ LanesBecome s u (fun l x =>
        if bit (execMask h s) l then parkedLane h s 0x02 0 x else toNext h s l x)) ∧
    (s.cur.region = none → exec (.rgnend h) s = .next (advance h s)) ∧
    (s.cur.region ≠ none → closeBusy s.cur = false → Memory.wf zeroRow s.cur.v = true →
      (∀ r, r ∈ s.cur.written → thas s.cur.stage r = true) →
      ∃ u, exec (.rgnend h) s = .next u ∧ u.cur.region = none ∧ u.cur.stage = [] ∧ u.cur.written = [] ∧
        (∀ r, r ∈ s.cur.written ∨ thas s.cur.stage r = false → u.cur.vget r = s.cur.vget r) ∧
        u.issue.hold = 2 + (s.cur.written.length + 7) / 8 ∧ SameMemory s u)

/-- Tier 1. Register blocks and regions: the parts above.
It rests also on choices and readings of the model: log 6. -/
def Obligations.RegisterBlocksAndRegions : Prop := Claims.RegisterBlocks ∧ Claims.Regions

/-- R165, R166, R143: `spawn` and `spawnr` push the closure's entry at the hot end of the core's deque; `spawnr` writes the image
that the lanes hold first, and no other byte of memory changes. -/
def Claims.SpawnPushesTheClosure : Prop :=
  ∀ (h : Head) (a : SReg) (v : VReg) (s s' : State) (pa : Nat), execMask h s ≠ 0 → storesDone s = true →
    (s.core s.issue.core).deque.length < 512 → (∀ e, e ∈ (s.core s.issue.core).deque → e.raised = false) →
    let c := s.cur.sget2 a
    let pushes := fun (u : State) (img : List W8) => ∃ e ns sp ls, (u.core s.issue.core).deque = e :: (s.core s.issue.core).deque ∧
      e.kind = .closure c.toNat (clFuture img).toNat s.curTask.cid ns sp ls ∧
      (ns = true ↔ (clFlags img).getLsbD 1 = true ∨ ls ≠ []) ∧ e.launch = s.curTask.launch ∧ e.root = s.curTask.root ∧
      LanesBecome s u (toNext h s)
    (TaskReads s s' c 128 128 pa → closureFault (some s.curTask) (readImage s s.issue.tid pa 128) = none →
      ∃ u, exec (.spawn h a) s = .next u ∧ SameMemory s u ∧ pushes u (readImage s s.issue.tid pa 128)) ∧
    (c.toNat < 2 ^ 52 → c.toNat % 128 = 0 → taskHeld s.cur = false → isSpec s (taskOf s.issue.tid) = false →
      translate s.issue.core s.curTask.cid c.toNat .write s = (s', .inl pa) → homeGone s' pa = false →
      s.cur.wait ≠ .push c.toNat → wpmBlocks s.cur c.toNat 128 = false → futureQuiet s' pa = true →
      mayRead s' s.issue.core s.issue.tid c.toNat pa 128 = true → closureFault (some s.curTask) (imageOf s.cur v) = none →
      Memory.wf 0 s.mem = true →
      ∃ u, exec (.spawnr h v a) s = .next u ∧ bytesAt u.mem pa 128 = leNat (imageOf s.cur v) ∧
        (∀ b, b < pa ∨ pa + 128 ≤ b → byteAt u.mem b = byteAt s.mem b) ∧ pushes u (imageOf s.cur v))

/-- R22, R165: a closure that breaks a rule is not pushed: the lanes park with the cause of the first check that fails. -/
def Claims.BadClosuresPark : Prop :=
  ∀ (h : Head) (a : SReg) (s s' : State) (pa : Nat) (cause : W8), execMask h s ≠ 0 → storesDone s = true →
    HandledHere s (execMask h s) → TaskReads s s' (s.cur.sget2 a) 128 128 pa →
    let img := readImage s s.issue.tid pa 128
    closureFault (some s.curTask) img = some cause →
    (∃ u, exec (.spawn h a) s = .next u ∧ SameMemory s u ∧ (u.core s.issue.core).deque = (s.core s.issue.core).deque ∧
      LanesBecome s u (fun l x => if bit (execMask h s) l then parkedLane h s cause (s.cur.sget2 a) x else toNext h s l x)) ∧
    ((2 ^ 52 ≤ (clEntry img).toNat ∨ 2 ^ 52 ≤ (clFuture img).toNat) → cause = 0x15) ∧
    ((clEntry img).toNat < 2 ^ 52 → (clFuture img).toNat < 2 ^ 52 → teamSeq (clTeam img) = false →
      ((clEntry img).toNat % 4 ≠ 0 ∨ (clFuture img).toNat % 32 ≠ 0 → cause = 0x06) ∧
      ((clEntry img).toNat % 4 = 0 → (clFuture img).toNat % 32 = 0 → cause = 0x02))

/-- Tier 1. spawn and spawnr, and closures that break a rule: the parts above. -/
def Obligations.SpawnPushesTheClosure : Prop := Claims.SpawnPushesTheClosure ∧ Claims.BadClosuresPark

/-- R164, R170 to R173, R44: `join` and `fpoll` give a future's outcome; `join` on an EMPTY one counts itself in WAITERS and
waits, and wakes when it is no longer EMPTY, leaves the count and reads it again. -/
def Claims.JoinsAndPolls : Prop :=
  ∀ (h : Head) (d a b : SReg) (s s' : State) (pa : Nat), isSpec s (taskOf s.issue.tid) = false →
    Memory.wf 0 s.mem = true → Memory.wf 0 s.cur.s = true → s.cur.pending = [] →
    (execMask h s ≠ 0 → TaskReads s s' (s.cur.sget2 a) 32 32 pa →
      (∃ u, exec (.fpoll h d a b) s = .next u ∧ HoldsFuture s u.cur d b pa ∧ LanesBecome s u (toNext h s) ∧ SameMemory s u) ∧
      (bytesAt s.mem pa 1 ≠ 0 → exec (.join h d a b) s = exec (.fpoll h d a b) s) ∧
      (bytesAt s.mem pa 1 = 0 → ∃ u, exec (.join h d a b) s = .next u ∧ LanesBecome s u (toNext h s) ∧
        u.cur.wait = .join (s.cur.sget2 a).toNat d b ∧
        bytesAt u.mem (pa + 2) 2 = (bytesAt s.mem (pa + 2) 2 + 1) % 65536 ∧
        ∀ x, x ≠ pa + 2 → x ≠ pa + 3 → byteAt u.mem x = byteAt s.mem x)) ∧
    (∀ core unit f j, unitTid s core unit = some s.issue.tid → s.cur.wait = .join f d b → s.cur.joined = some j → j.lapsed = false → j.pa = pa →
      let left := leaveJoin s.issue.tid s
      translate core s.curTask.cid f .read left = (s', .inl pa) → homeGone s pa = false → poisonedTo left s.issue.tid pa 32 = false →
      bytesAt s.mem pa 1 ≠ 0 →
      ∃ u, exec (.joinerWake core unit) s = .next u ∧ u.cur.wait = .none ∧ HoldsFuture s u.cur d b pa ∧
        bytesAt u.mem (pa + 2) 2 = (bytesAt s.mem (pa + 2) 2 + 65535) % 65536 ∧
        ∀ x, x ≠ pa + 2 → x ≠ pa + 3 → byteAt u.mem x = byteAt s.mem x)

/-- R175, R42, R43: completing another future. An EMPTY one takes STATE, CAUSE, VALUE, AUX and the completer's identifier, its
WAITERS stays, and the register reads 0; one that is not EMPTY is left as it is, and its status is returned. -/
def Claims.CompletingAnotherFuture : Prop :=
  ∀ (h : Head) (d a b c : SReg) (s s' : State) (pa : Nat), execMask h s ≠ 0 → isSpec s (taskOf s.issue.tid) = false →
    storesDone s = true → taskHeld s.cur = false → Memory.wf 0 s.mem = true →
    let x := s.cur.sget2 b
    x.toNat < 2 ^ 52 → x.toNat % 32 = 0 → translate s.issue.core s.curTask.cid x.toNat .write s = (s', .inl pa) →
    homeGone s' pa = false → wpmBlocks s.cur x.toNat 32 = false →
    mayRead s' s.issue.core s.issue.tid x.toNat pa 32 = true → poisonedTo s' s.issue.tid pa 32 = false →
    let seen := bytesAt s.mem pa 1
    let writes := fun (i : Instr) (st cause : Nat) (value aux : W64) => ∃ z, exec i s = .next (giveS d 0 (advance h z)) ∧
      bytesAt z.mem pa 1 = st ∧ bytesAt z.mem (pa + 1) 1 = cause ∧ bytesAt z.mem (pa + 2) 2 = bytesAt s.mem (pa + 2) 2 ∧
      bytesAt z.mem (pa + 8) 8 = value.toNat ∧ bytesAt z.mem (pa + 16) 8 = aux.toNat ∧
      bytesAt z.mem (pa + 24) 8 = s.curTask.wid.toNat ∧ ∀ y, y < pa ∨ pa + 32 ≤ y → byteAt z.mem y = byteAt s.mem y
    (seen = 0 → futureQuiet s' pa = true →
      writes (.fsetAt h d a b) 1 0 (s.cur.sget2 a) 0 ∧
      (0x80 ≤ (s.cur.sget a).toNat → (s.cur.sget a).toNat ≤ 0xFF →
        writes (.ffltAt h d a c b) 2 (s.cur.sget a).toNat 0 (s.cur.sget2 c))) ∧
    (seen ≠ 0 →
      exec (.fsetAt h d a b) s = .next (giveS d (BitVec.ofNat 32 (if 4 ≤ seen then 2 else seen)) (advance h s')) ∧
      (0x80 ≤ (s.cur.sget a).toNat → (s.cur.sget a).toNat ≤ 0xFF → exec (.ffltAt h d a c b) s =
        .next (giveS d (BitVec.ofNat 32 (if 4 ≤ seen then 2 else seen)) (advance h s'))))

/-- Tier 1. Joining, polling and completing futures: the parts above.
It rests also on choices and readings of the model: log 6 and 21. -/
def Obligations.Futures : Prop := Claims.JoinsAndPolls ∧ Claims.CompletingAnotherFuture

/-- Tier 1. R174, R176, R179: `fset` and `fflt` set the outcome that the task will leave, `texit` ends the lanes, and `tmark` records its
operand with the time. -/
def Obligations.TaskOutcomes : Prop :=
  ∀ (h : Head) (a b : SReg) (s : State), execMask h s ≠ 0 → taskHeld s.cur = false →
    exec (.fset h a) s = .next (advance h (s.onTask (taskOf s.issue.tid) fun t => { t with out := .full (s.cur.sget2 a) })) ∧
    (0x80 ≤ (s.cur.sget a).toNat → (s.cur.sget a).toNat ≤ 0xFF → exec (.fflt h a b) s = .next (advance h
      (s.onTask (taskOf s.issue.tid) fun t => { t with out := .faulted ((s.cur.sget a).setWidth 8) (s.cur.sget2 b) }))) ∧
    (¬ (0x80 ≤ (s.cur.sget a).toNat ∧ (s.cur.sget a).toNat ≤ 0xFF) → HandledHere s (execMask h s) →
      ∃ u, exec (.fflt h a b) s = .next u ∧ u.curTask.out = s.curTask.out ∧ LanesBecome s u (fun l x =>
        if bit (execMask h s) l then parkedLane h s 0x02 0 x else toNext h s l x)) ∧
    (∃ u, exec (.texit h) s = .next u ∧ (isSeq s.issue.tid = false ∨ s.curTask.barHere = [] → OnlyLanes s u) ∧
      (∀ l x, s.cur.lanes[l]? = some x → bit (execMask h s) l = true → ∃ y, u.cur.lanes[l]? = some y ∧ y.st = .exited) ∧
      (∀ l x, s.cur.lanes[l]? = some x → bit (execMask h s) l = false → ∃ y, u.cur.lanes[l]? = some y ∧
        (x.st ≠ .waiting → y = toNext h s l x) ∧ (x.st = .waiting → y.st = .waiting ∨ y.st = .active))) ∧
    exec (.tmark h a) s = .next (advance h (s.onCur fun t => { t with mark := some (s.cur.sget a, s.time) }))

/-- R295: `lbind` writes the handle's table entry, no other byte of memory changes, and the handle leaves the record cache of
every core of the context. -/
def Claims.BindingAHandle : Prop :=
  ∀ (h : Head) (a b : SReg) (s s1 s' : State) (pa : Nat), execMask h s ≠ 0 → isSpec s (taskOf s.issue.tid) = false →
    acqPending s.cur = false → relPending s.cur = false → Memory.wf 0 s.mem = true →
    let r := s.cur.sget2 b
    let hd := (s.cur.sget a).toNat % 65536
    (r = 0 ∧ s1 = s ∨ r ≠ 0 ∧ r.toNat < 2 ^ 52 ∧ r.toNat % 64 = 0 ∧
      ∃ bytes, issueRead r.toNat 64 s = (s1, .inl bytes) ∧ (recOf r.toNat bytes).ok = true) →
    let va := entryVa s1 s.curTask.cid hd
    translate s.issue.core s.curTask.cid va .write s1 = (s', .inl pa) → homeGone s' pa = false → futureQuiet s' pa = true →
    wpmBlocks s'.cur va 8 = false → mayRead s' s.issue.core s.issue.tid va pa 8 = true →
    ∃ u, exec (.lbind h a b) s = .next u ∧ bytesAt u.mem pa 8 = r.toNat ∧
      (∀ x, x < pa ∨ pa + 8 ≤ x → byteAt u.mem x = byteAt s.mem x) ∧
      (∀ c e, c ∈ (s.ctx s.curTask.cid).cores → e ∈ (u.core c).layout → e.1 ≠ hd) ∧ LanesBecome s u (toNext h s)

/-- R311, R297, R298: `laddr` gives each lane the address of its element and sets its predicate bit when the element is in bounds;
out of bounds an address of 0, or that of the clamped element. -/
def Claims.ElementAddresses : Prop :=
  ∀ (h : Head) (d : VReg) (c : Pred) (a : SReg) (b : Quad) (s s1 : State) (r : Rec), execMask h s ≠ 0 → c ≠ 7 →
    acqPending s.cur = false → useRec s.issue.core s.curTask.cid ((s.cur.sget a).toNat % 65536) s = (s1, .ok r) →
    (∀ l, l < 64 → bit (execMask h s) l = true → laddrBad r (quadAt s.cur l b) = false) →
    s.cur.pending = [] → (∀ q, (s.cur.vget q).length = 64) → Memory.wf zeroRow s.cur.v = true → Memory.wf 0 s.cur.p = true →
    ∃ u, exec (.laddr h d c a b) s = .next u ∧ LanesBecome s u (toNext h s) ∧ SameMemory s u ∧
      ∀ l, l < 64 →
        let e := quadAt s.cur l b
        (bit (execMask h s) l = true → (u.cur.pget c).getLsbD l = r.inside e ∧ u.cur.vlane2 d.toNat l =
          BitVec.ofNat 64 (if r.inside e then r.addrOf e else if r.pad = 0 then 0 else r.addrOf (r.clamp e))) ∧
        (bit (execMask h s) l = false → (u.cur.pget c).getLsbD l = (s.cur.pget c).getLsbD l ∧
          u.cur.vlane2 d.toNat l = s.cur.vlane2 d.toNat l)

/-- R301 to R304: a `cpy` that passes its checks takes a slot of the core's engine and counts in CPY; its transfer moves the bytes, here
within scratchpad, and between scratchpad and global memory or within it where each end lies in one line; and once device time has passed
its completion time it leaves the engine and its operation is done. -/
def Claims.CopiesMoveBytes : Prop :=
  (∀ (h : Head) (a : BitVec 3) (s : State), execMask h s ≠ 0 →
    let w := (s.cur.sget2 (octet a 0)).toNat
    let src := (s.cur.sget2 (octet a 2)).toNat
    let dst := (s.cur.sget2 (octet a 4)).toNat
    let n := (s.cur.sget2 (octet a 6)).toNat
    w % 8 = 0 → linearFault s (taskOf s.issue.tid) w src dst n = none → cpyHeld s = false →
    ∃ u q x, exec (.cpy h a) s = .next u ∧ SameMemory s u ∧ u.cur.ops = s.cur.ops ++ [q] ∧ q.cls = 0 ∧ q.done = false ∧
      (u.core s.issue.core).cpy = (s.core s.issue.core).cpy ++ [x] ∧ x.id = q.id ∧ x.tid = some s.issue.tid ∧ x.kind = 0 ∧
      x.cmd.toNat = w ∧ x.src = src ∧ x.dst = dst ∧ x.count = n ∧ x.state = 0 ∧ LanesBecome s u (toNext h s)) ∧
  (∀ (core idx tid : Nat) (x : CpyCmd) (s : State), (s.core core).cpy[idx]? = some x → x.tid = some tid → x.state = 0 →
    cmdReady s x = true → x.kind = 0 → cmdSpf x.cmd.toNat = true → cmdSpt x.cmd.toNat = true → cmdCvt x.cmd.toNat = false →
    x.src + x.count ≤ (s.task (taskOf tid)).size → x.dst + x.count ≤ (s.task (taskOf tid)).size → cmdPoisoned s x = false →
    (∀ o, x.dst ≤ o → o < x.dst + x.count → headerOf (s.task (taskOf tid)) o = none) →
    Memory.wf 0 (s.task (taskOf tid)).spad = true →
    ∃ u, exec (.cpyTransfer core idx) s = .next u ∧ SameMemory s u ∧
      bytesAt (u.task (taskOf tid)).spad x.dst x.count = bytesAt (s.task (taskOf tid)).spad x.src x.count ∧
      (∀ b, b < x.dst ∨ x.dst + x.count ≤ b → byteAt (u.task (taskOf tid)).spad b = byteAt (s.task (taskOf tid)).spad b) ∧
      ∃ y, (u.core core).cpy[idx]? = some y ∧ y.state = 1 ∧ y.id = x.id ∧ y.fault = none) ∧
  (∀ (core idx tid : Nat) (x : CpyCmd) (s : State), (s.core core).cpy[idx]? = some x → x.tid = some tid → x.state = 0 →
    cmdReady s x = true → cmdPoisoned s x = false → x.kind = 0 → cmdCvt x.cmd.toNat = false → 0 < x.count → isSpec s (taskOf tid) = false →
    let k := taskOf tid
    let moved := fun (u : State) => ∃ y, (u.core core).cpy[idx]? = some y ∧ y.state = 1 ∧ y.id = x.id ∧ y.fault = none
    let reads := fun (s1 : State) (ps : Nat) => x.src % 128 + x.count ≤ 128 ∧ translate core x.cid x.src .read s = (s1, .inl ps) ∧
      homeGone s1 ps = false ∧ poisoned s1 ps x.count = false
    let writes := fun (s1 s2 : State) (pd : Nat) => x.dst % 128 + x.count ≤ 128 ∧ pd % 128 + x.count ≤ 128 ∧
      translate core x.cid x.dst .write s1 = (s2, .inl pd) ∧ homeGone s2 pd = false ∧ (s2.l2line (lineOf pd)).host = false
    (∀ s1 ps, cmdSpf x.cmd.toNat = false → cmdSpt x.cmd.toNat = true → reads s1 ps → x.dst + x.count ≤ (s.task k).size →
      (∀ o, x.dst ≤ o → o < x.dst + x.count → headerOf (s.task k) o = none) → Memory.wf 0 (s.task k).spad = true →
      ∃ u, exec (.cpyTransfer core idx) s = .next u ∧ SameMemory s u ∧ moved u ∧
        bytesAt (u.task k).spad x.dst x.count = bytesAt s.mem ps x.count ∧
        ∀ b, b < x.dst ∨ x.dst + x.count ≤ b → byteAt (u.task k).spad b = byteAt (s.task k).spad b) ∧
    (Memory.wf 0 s.mem = true →
      (∀ s2 pd, cmdSpf x.cmd.toNat = true → cmdSpt x.cmd.toNat = false → x.src + x.count ≤ (s.task k).size → writes s s2 pd →
        ∃ u, exec (.cpyTransfer core idx) s = .next u ∧ moved u ∧
          bytesAt u.mem pd x.count = bytesAt (s.task k).spad x.src x.count ∧ OnlyBytes s u pd x.count) ∧
      (∀ s1 ps s2 pd, cmdSpf x.cmd.toNat = false → cmdSpt x.cmd.toNat = false → reads s1 ps →
        writes (fillL2 (lineOf ps) s1) s2 pd →
        ∃ u, exec (.cpyTransfer core idx) s = .next u ∧ moved u ∧
          bytesAt u.mem pd x.count = bytesAt s.mem ps x.count ∧ OnlyBytes s u pd x.count))) ∧
  (∀ (core idx : Nat) (x : CpyCmd) (s : State), (s.core core).cpy[idx]? = some x → x.state = 1 → x.gwct < s.time →
    ∃ u, exec (.cpyComplete core idx) s = .next u ∧ SameMemory s u ∧
      (∀ tid, x.tid = some tid → (∀ y, y ∈ (u.core core).cpy → y.id ≠ x.id) ∧
        ∀ o, o ∈ (u.thread tid).ops → o.id = x.id → o.done = true) ∧
      (x.tid = none → ∃ y, (u.core core).cpy[idx]? = some y ∧ y.state = 2))

/-- R301, R302, R258, R259: a TLOAD whose header is EMPTY with the tile's size as its target, and a TSTORE whose header is FULL, take a slot
of the core's engine and count in CPY; the TSTORE's header becomes DRAINING, its other fields as they were. -/
def Claims.TileCopiesIssue : Prop :=
  ∀ (h : Head) (a : BitVec 3) (s s1 : State) (r : Rec), execMask h s ≠ 0 → acqPending s.cur = false →
    let w := (s.cur.sget2 (octet a 0)).toNat
    let src := (s.cur.sget2 (octet a 2)).toNat
    let dst := (s.cur.sget2 (octet a 4)).toNat
    let k := taskOf s.issue.tid
    let enters := fun (u : State) (kind : Nat) => SameMemory s u ∧ ∃ q x, u.cur.ops = s.cur.ops ++ [q] ∧ q.cls = 0 ∧ q.done = false ∧
      (u.core s.issue.core).cpy = (s.core s.issue.core).cpy ++ [x] ∧ x.id = q.id ∧ x.tid = some s.issue.tid ∧ x.kind = kind ∧
      x.cmd.toNat = w ∧ x.src = src ∧ x.dst = dst ∧ x.lrec = r ∧ x.state = 0 ∧ LanesBecome s u (toNext h s)
    let fits := fun (hdr : Nat) (c : List Nat) => hdr % 128 = 0 ∧ hdr + (128 + r.tileSize) ≤ s.curTask.size ∧
      useRec s.issue.core s.curTask.cid (cmdHandle w) s = (s1, .ok r) ∧ r.extra c = false ∧ (r.pad = 2 → r.holds c = true) ∧ cpyHeld s1 = false
    cpyOk w src dst (s.cur.sget2 (octet a 6)).toNat = true →
    (cmdKind w = 1 → fits dst (coords src) → hdrState (readHdr s k dst) = 0 → hdrTarget (readHdr s k dst) = r.tileSize →
      ∃ u, exec (.cpy h a) s = .next u ∧ enters u 1 ∧ readHdr u k dst = readHdr s k dst) ∧
    (cmdKind w = 2 → fits src (coords dst) → hdrState (readHdr s k src) = 2 → Memory.wf 0 s.curTask.spad = true →
      ∃ u, exec (.cpy h a) s = .next u ∧ enters u 2 ∧ hdrState (readHdr u k src) = 3 ∧
        hdrGen (readHdr u k src) = hdrGen (readHdr s k src) ∧ hdrTarget (readHdr u k src) = hdrTarget (readHdr s k src) ∧
        hdrArrived (readHdr u k src) = hdrArrived (readHdr s k src))

/-- R307, R310: `strm` opens a stream on a FIFO and counts in CPY; `strmend` stops the task's stream on the FIFO, which delivers
at most the slices already asked for, and does nothing where there is none. -/
def Claims.Streams : Prop :=
  ∀ (h : Head) (f : BitVec 2) (a : BitVec 3) (s : State), execMask h s ≠ 0 →
    let g : Nat → Nat := fun i => (s.cur.sget (octet a i)).toNat
    let k := taskOf s.issue.tid
    let mine := fun x : Strm => taskOf x.tid == k && x.fifo == f.toNat
    (∀ (s1 : State) (r : Rec), g 0 < 2 ^ 17 → g 4 ≠ 0 → useRec s.issue.core s.curTask.cid (g 0 % 65536) s = (s1, .ok r) →
      strmFault s1 k r ((g 0).testBit 16) (g 5) (g 1) (g 2) (g 3 % 65536) (g 3 / 65536) (g 4) = none → opHeld s.cur 0 = false →
      (s.core s.issue.core).streams.any mine = false →
      ∃ u q x, exec (.strm h f a) s = .next u ∧ SameMemory s u ∧ u.cur.ops = s.cur.ops ++ [q] ∧ q.cls = 0 ∧
        (u.core s.issue.core).streams = (s.core s.issue.core).streams ++ [x] ∧ mine x = true ∧ x.id = q.id ∧ x.lrec = r ∧
        x.nsl = g 4 ∧ x.next = 0 ∧ x.k0 = g 1 ∧ x.row0 = g 2 ∧ x.spb = (if (g 0).testBit 16 then some (g 5) else none) ∧
        LanesBecome s u (toNext h s)) ∧
    ((s.core s.issue.core).streams.find? mine = none → exec (.strmend h f) s = .next (advance h s)) ∧
    (∀ x, (s.core s.issue.core).streams.find? mine = some x → x.next ≤ x.nsl →
      (∀ y, y ∈ (s.core s.issue.core).streams → y.id = x.id → y = x) →
      ∃ u, exec (.strmend h f) s = .next u ∧ SameMemory s u ∧ LanesBecome s u (toNext h s) ∧
        ∀ y, y ∈ (u.core s.issue.core).streams → y.id = x.id → y.stop = true ∧ y.next = x.next ∧ y.next < y.nsl ∧ y.nsl ≤ x.nsl)

/-- Tier 1. Handles, element addresses, copies and streams: the parts above.
It rests also on choices and readings of the model: log 7 and 31. -/
def Obligations.LayoutsAndCopies : Prop := Claims.BindingAHandle ∧ Claims.ElementAddresses ∧ Claims.CopiesMoveBytes ∧
  Claims.TileCopiesIssue ∧ Claims.Streams

/-- Tier 1. R316, R319 to R324: an operation of the matrix queue whose tiles lie in the allocation enters the queue and counts in MTX. -/
def Obligations.MatrixOperationsIssue : Prop :=
  ∀ (h : Head) (s : State), execMask h s ≠ 0 → mtxHeld s.cur (isSeq s.issue.tid) = false →
    let enters := fun (i : Instr) (k : EngKind) => ∃ u q, exec i s = .next u ∧ u.cur.ops = s.cur.ops ++ [q] ∧ q.cls = 1 ∧
      q.done = false ∧ q.kind = k ∧ LanesBecome s u (toNext h s) ∧ SameMemory s u
    let nacc := s.curTask.nacc
    (∀ (d a : Tile) (fa fb : Bool) (n : BitVec 11),
      let t := tileNum s.cur d
      let u := tileNum s.cur a
      (t < nacc → enters (.mma h d fa fb n) (.mma t fa fb n.toNat false)) ∧
      (t % 2 = 0 → t + 1 < nacc → enters (.mmaSh h d fa fb n) (.mma t fa fb n.toNat true)) ∧
      (t + n.toNat ≤ nacc → enters (.accZero h d n) (.acc 0 t 0 n.toNat)) ∧
      (t % 2 = 0 → t + 2 * n.toNat ≤ nacc → enters (.accCommit h d n) (.acc 1 t 0 n.toNat) ∧
        enters (.accDiscard h d n) (.acc 2 t 0 n.toNat)) ∧
      (t + n.toNat ≤ nacc → u + n.toNat ≤ nacc → enters (.accMove h d a n) (.acc 3 t u n.toNat))) ∧
    (∀ (f : BitVec 2) (n : BitVec 11), enters (.fskip h f n) (.fskip f.toNat n.toNat)) ∧
    (∀ o : Ardv, tileNum s.cur o.tile < nacc →
      enters (.ardv h o) (.ardv o.d.toNat (tileNum s.cur o.tile) o.q.toNat false o.rm o.sat (execMask h s)) ∧
      enters (.ardvRaw h o) (.ardv o.d.toNat (tileNum s.cur o.tile) o.q.toNat true o.rm o.sat (execMask h s))) ∧
    (∀ o : Adrn, drainFault s (taskOf s.issue.tid) (drainOf s.cur o) = none → enters (.adrn h o) (.adrn (drainOf s.cur o) none))

/-- F36 (R50): its exponent field 0 codes zeros alone. -/
def numF36 : NumFmt := ⟨9, 26, 280, 0x7FBFFFFFF, some 0x7FC000000, 0x7FE000000⟩

/-- A term of an exact sum (R66, R67): a NaN, an infinity by its sign, or a number in multiples of 2^-280, with its sign. -/
structure SumTerm where
  nan : Bool
  inf : Option Bool
  neg : Bool
  val : Int

/-- An F36 cell as a term. -/
def cellTerm (x : F36) : SumTerm :=
  let c := x.toNat
  let neg := numF36.neg c
  { nan := numF36.isNan c, inf := if numF36.isInf c then some neg else none, neg := neg
    val := if c / 2 ^ 26 % 2 ^ 9 = 0 then 0 else numF36.val c }

/-- The product of an element of an A slice and one of a B slice, classes BF and F8 (R66, R67). -/
def productTerm (f g : NumFmt) (x y : Nat) : SumTerm :=
  let inf := f.isInf x || g.isInf y
  let neg := f.neg x != g.neg y
  { nan := f.isNan x || g.isNan y || (inf && (f.abs x == 0 || g.abs y == 0))
    inf := if inf then some neg else none, neg := neg, val := f.val x * g.val y * 2 ^ (280 - f.low - g.low) }

/-- The exact sum of terms as F36 (R50, R51, R57, R67): NaN, an infinity, a zero, or rounded to nearest with 27 bits, a result below the
smallest normal number being flushed to a zero of its sign. -/
def SumsTo (ts : List SumTerm) (r : F36) : Prop :=
  let plus := ts.any fun t => t.inf == some false
  let minus := ts.any fun t => t.inf == some true
  let nan := ts.any SumTerm.nan || (plus && minus)
  let x := (ts.map SumTerm.val).foldl (· + ·) 0
  let neg := decide (x < 0)
  (nan = true → r = 0x7FE000000) ∧
  (nan = false → (plus = true → r = 0x7FC000000) ∧ (minus = true → r = 0xFFC000000) ∧
    (plus = false → minus = false →
      (x = 0 → r = if ts.all SumTerm.neg then 0x800000000 else 0) ∧
      (x ≠ 0 → (numF36.Tiny .rne neg x.natAbs 1 → r.toNat = numF36.sign neg) ∧
        (¬ numF36.Tiny .rne neg x.natAbs 1 → ∃ fl, numF36.Rounds .rne false neg x.natAbs 1 (r.toNat, fl)))))

/-- The format of a floating-point slice, the two's complement value of a BFP mantissa, and the classes of a pair of slices (R47, R53, R65):
BF or F8, and BFP. -/
def sliceNum (f : Nat) : NumFmt := if f = 8 then numBf16 else if f = 9 then numE4m3 else numE5m2
def mantissa (b v : Nat) : Int := if 2 ^ (b - 1) ≤ v % 2 ^ b then ((v % 2 ^ b : Nat) : Int) - 2 ^ b else (v % 2 ^ b : Nat)
def FpPair (f g : Nat) : Prop := (f = 8 ∧ g = 8) ∨ ((f = 9 ∨ f = 10) ∧ (g = 9 ∨ g = 10))
def BfpPair (f g : Nat) : Prop := 0x12 ≤ f ∧ f ≤ 0x18 ∧ 0x12 ≤ g ∧ g ≤ 0x18

/-- R66 to R68: row `i` of an A slice times column `j` of a B slice is added to a cell: four groups of eight products, each group rounded
once and added, for BF and F8; one exact dot product under the blocks' exponents for BFP. -/
def Accumulates (a b : Slice) (i j : Nat) (old new : F36) : Prop :=
  let x := fun k => a.data.getD (32 * i + k) 0
  let y := fun k => b.data.getD (32 * j + k) 0
  (FpPair a.fmt b.fmt → ∃ (grp acc : Nat → F36), acc 0 = old ∧ acc 4 = new ∧ ∀ g, g < 4 →
    SumsTo ((List.range 8).map fun k => productTerm (sliceNum a.fmt) (sliceNum b.fmt) (x (8 * g + k)) (y (8 * g + k))) (grp g) ∧
    SumsTo [cellTerm (acc g), cellTerm (grp g)] (acc (g + 1))) ∧
  (BfpPair a.fmt b.fmt →
    let ba := a.fmt - 16
    let bb := b.fmt - 16
    let ea := a.exps.getD i 0
    let eb := b.exps.getD j 0
    let d := ((List.range 32).map fun k => mantissa ba (x k) * mantissa bb (y k)).foldl (· + ·) 0
    ∃ p : F36, (ea = 0xFF ∨ eb = 0xFF → p = 0x7FE000000) ∧
      (ea ≠ 0xFF → eb ≠ 0xFF → SumsTo [⟨false, none, decide (d < 0), d * 2 ^ (ea + eb + 30 - ba - bb)⟩] p) ∧
      SumsTo [cellTerm old, cellTerm p] new)

/-- Tier 2. R65 to R68, R319 to R323, R140, R141, R325: what the operation at the head of a matrix queue does: `acc` on the cells, `fskip` on
a FIFO, `mma` and `mma.sh` with the oldest slices of two FIFOs of any class, and of none, `ardv.raw` on the registers, and a drain on the
scratchpad. -/
def Obligations.MatrixOperationsTakeEffect : Prop :=
  ∀ (core unit tid : Nat) (o : EngOp) (s : State), unitTid s core unit = some tid → headOp s tid = some o →
    let k := taskOf tid
    let completes := fun (i : Instr) (p : State → Prop) => ∃ u, exec i s = .next u ∧ SameMemory s u ∧ p u
    (Memory.wf 0 (s.task k).cells = true → ∀ t v m, (∀ fn, o.kind = .acc fn t v m →
      completes (.mtxOpComplete core unit) fun u => (∀ q, q ∈ (u.thread tid).ops → q.id = o.id → q.done = true) ∧
        ∀ tile i j, i < 32 → j < 32 →
        let old := cell (s.task k) tile i j
        let new := cell (u.task k) tile i j
        (fn = 0 → new = if t ≤ tile ∧ tile < t + m then 0 else old) ∧
        (fn = 1 → t % 2 = 0 → new = if t ≤ tile ∧ tile < t + 2 * m ∧ tile % 2 = 0 ∧ tile / 2 ∈ (s.task k).shadow
          then cell (s.task k) (tile + 1) i j else old) ∧
        (fn = 2 → new = old ∧ (t ≤ tile → tile < t + 2 * m → t % 2 = 0 → tile / 2 ∉ (u.task k).shadow)) ∧
        (fn = 3 → new = if t ≤ tile ∧ tile < t + m then cell (s.task k) (v + (tile - t)) i j else old))) ∧
    (∀ f n x l, o.kind = .fskip f n → f < 4 → takeSlice k (fifoOf (s.core core) f) = some (x, l) →
      completes (.mtxOpComplete core unit) fun u => fifoOf (u.core core) f = l ∧
        (u.core core).fskips = ((s.core core).fskips + 1) % 2 ^ 32 ∧
        ∀ q, q ∈ (u.thread tid).ops → q.id = o.id → if n ≤ 1 then q.done = true else q.kind = .fskip f (n - 1)) ∧
    (∀ d t q rm sat m, o.kind = .ardv d t q true rm sat m → (s.thread tid).pending = [] →
      (∀ r, ((s.thread tid).vget r).length = 64) → Memory.wf zeroRow (s.thread tid).v = true →
      completes (.mtxOpComplete core unit) fun u => ∀ l, l < 64 → bit m l = true →
        let x := cell (s.task k) t (2 * q + l / 32) (l % 32)
        (u.thread tid).vlane d l = x.setWidth 32 ∧ (u.thread tid).vlane (d + 1) l = (x.extractLsb' 32 4).setWidth 32) ∧
    (∀ t fa fb n sh a b la lb, o.kind = .mma t fa fb n sh → (sh = true → t % 2 = 0) → Memory.wf 0 (s.task k).cells = true →
      takeSlice k (fifoOf (s.core core) (if fa then 1 else 0)) = some (a, la) →
      takeSlice k (fifoOf (s.core core) (if fb then 3 else 2)) = some (b, lb) →
      completes (.mmaSliceApply core unit) fun u =>
        let dest := if sh then t + 1 else t
        let from' := if sh = true ∧ t / 2 ∉ (s.task k).shadow then t else dest
        (FpPair a.fmt b.fmt ∨ BfpPair a.fmt b.fmt →
          fifoOf (u.core core) (if fa then 1 else 0) = la ∧ fifoOf (u.core core) (if fb then 3 else 2) = lb ∧
          (∀ i j, i < 32 → j < 32 → Accumulates a b i j (cell (s.task k) from' i j) (cell (u.task k) dest i j)) ∧
          (∀ v i j, v ≠ dest → i < 32 → j < 32 → cell (u.task k) v i j = cell (s.task k) v i j) ∧
          (sh = true → t / 2 ∈ (u.task k).shadow) ∧
          ∀ q, q ∈ (u.thread tid).ops → q.id = o.id → if n ≤ 1 then q.done = true else q.kind = .mma t fa fb (n - 1) sh) ∧
        (¬ FpPair a.fmt b.fmt → ¬ BfpPair a.fmt b.fmt → u.tasks = s.tasks ∧ thas (u.thread tid).pendFault 1 = true ∧
          (∀ q, q ∈ (u.thread tid).ops → q.id = o.id → q.done = true) ∧
          (u.core core).fmtmis = ((s.core core).fmtmis + 1) % 2 ^ 32)) ∧
    (∀ d, o.kind = .adrn d none → drainedDue (s.thread tid) s.time = none → opReady s tid o = true →
      d.spd = true → d.arv = false → d.am = false → d.ty = .f32 → 128 ≤ d.rowb → d.dst + 31 * d.rowb + 128 ≤ (s.task k).size →
      (∀ b, d.dst ≤ b → b < d.dst + 31 * d.rowb + 128 → headerOf (s.task k) b = none) → Memory.wf 0 (s.task k).spad = true →
      completes (.adrnComplete core unit) fun u => ∀ i, i < 32 →
        bytesAt (u.task k).spad (d.dst + d.rowb * i) 128 = leNat (drainBytes (s.task k) d i).1)

/-- Tier 1. R327 to R329: a stage ring's slot is taken in order and its number returned when the slot is in the phase asked for and free,
`sgrel` turns a held slot's phase and frees it, and `sgrel.init` gives the ring its number of slots. -/
def Obligations.StageRings : Prop :=
  ∀ (h : Head) (d b : SReg) (r : BitVec 3) (n : BitVec 5) (s : State), execMask h s ≠ 0 →
    let k := taskOf s.issue.tid
    let x := ringOf s.curTask r.toNat
    s.issue.tid ∈ s.tids k → ringWaiters s k r.toNat false = [] → ringWaiters s k r.toNat true = [] → s.cur.wait = .none →
    s.cur.pending = [] → Memory.wf 0 s.cur.s = true → Memory.wf {} s.curTask.rings = true →
    let acquires := fun (i : Instr) (full : Bool) => ∃ u, exec i s = .next u ∧ LanesBecome s u (toNext h s) ∧ SameMemory s u ∧
      let c := if full then x.f else x.e
      (x.phase.getLsbD c = full → x.held.getLsbD c = false → u.cur.wait = .none ∧ u.cur.sget d = BitVec.ofNat 32 c ∧
        ringOf u.curTask r.toNat = (if full then { x with held := x.held ||| (1#16 <<< c), f := (c + 1) % x.ns }
          else { x with held := x.held ||| (1#16 <<< c), e := (c + 1) % x.ns })) ∧
      (x.phase.getLsbD c ≠ full ∨ x.held.getLsbD c = true → ringOf u.curTask r.toNat = x ∧
        ∃ order, u.cur.wait = .sgacq r.toNat full d order)
    acquires (.sgacqE h d r) false ∧ acquires (.sgacqF h d r) true ∧
    (firstPending s.cur 0b111 = none → sgrelMay s = true →
      (let c := (s.cur.sget b).toNat
       c < x.ns → x.held.getLsbD c = true → ∃ u, exec (.sgrel h r b) s = .next u ∧ LanesBecome s u (toNext h s) ∧
        ringOf u.curTask r.toNat = { x with phase := x.phase ^^^ (1#16 <<< c), held := x.held &&& ~~~(1#16 <<< c) }) ∧
      (∃ u, exec (.sgrelInit h r n) s = .next u ∧ LanesBecome s u (toNext h s) ∧
        ringOf u.curTask r.toNat = { ns := n.toNat }))

/-- R353, R364, R378: `nbrun`, `cland` and `qsub` that pass their checks join a unit's queue, the landing packets and the queries,
and count in their class. -/
def Claims.NearMemoryOperationsIssue : Prop :=
  ∀ (h : Head) (a : SReg) (s : State), execMask h s ≠ 0 → nearReady s = true → isSpec s (taskOf s.issue.tid) = false →
    let x := s.cur.sget2 a
    x.toNat < 2 ^ 52 → s.cur.flight = [] → s.cur.maxw < s.time → Memory.wf {} s.nb = true →
    (∀ (s1 s2 s3 : State) (d u : List W8) (un : Nat), x.toNat % 128 = 0 → issueRead x.toNat 128 s = (s1, .inl d) →
      fieldAt d 0 8 < 2 ^ 52 → fieldAt d 0 8 % 256 = 0 → issueRead (fieldAt d 0 8) 256 s1 = (s2, .inl u) →
      nbReserved d = false → fieldAt d 8 2 ≠ 0 → progOk (nbProgOf x.toNat d u).uops = true →
      checkStreams s.issue.core s.curTask.cid (nbProgOf x.toNat d u).rva (usedStreams (nbProgOf x.toNat d u).uops) none s2 =
        (s3, .inl (some un)) →
      opHeld s.cur 5 = false → unitRoom s3 un = true → stackPresent s3 (un / 64) = true →
      ∃ z q p, exec (.nbrun h a) s = .next z ∧ EntersOp h s z 5 q ∧ (z.unit un).queue = (s.unit un).queue ++ [p] ∧
        p.tid = s.issue.tid ∧ p.op = q.id ∧ p.uops = (nbProgOf x.toNat d u).uops ∧ p.rva = (nbProgOf x.toNat d u).rva ∧
        p.bmask = (nbProgOf x.toNat d u).bmask) ∧
    (∀ (d : VReg) (op : BitVec 2) (ty : Ty) (s1 : State) (pa : Nat), x.toNat % 256 = 0 → opHeld s.cur 3 = false →
      wpmBlocks s.cur x.toNat 256 = false → translate s.issue.core s.curTask.cid x.toNat .write s = (s1, .inl pa) →
      landsFor s1 s.curTask.cid pa 256 = true →
      ∃ z q p, exec (.cland h d a op ty) s = .next z ∧ EntersOp h s z 3 q ∧ z.landing = s.landing ++ [p] ∧
        p.tid = some s.issue.tid ∧ p.op = q.id ∧ p.opc = landOpc op ty ∧ p.line = pa / 128 ∧
        (∀ l, l < 64 → fieldAt p.data (4 * l) 4 = (s.cur.vlane d.toNat l).toNat ∧
          p.mask[4 * l]? = some (bit (execMask h s) l))) ∧
    (∀ (s1 s2 s3 : State) (p g b : List W8), x.toNat % 64 = 0 → issueRead x.toNat 64 s = (s1, .inl p) →
      packetFault x.toNat p = none → issueRead (qGraph p) 64 s1 = (s2, .inl g) → headerOk g = true → qEntry p 0 < gNnode g →
      issueRead (wrap64 (gPmap g + qEntry p 0)) 1 s2 = (s3, .inl b) → leNat b ≤ 15 → stackPresent s3 (leNat b) = true →
      opHeld s.cur 4 = false → admitted s3 (leNat b) = true →
      ∃ z q r, exec (.qsub h a) s = .next z ∧ EntersOp h s z 4 q ∧ tfind z.queries q.id = some r ∧ r.tid = s.issue.tid ∧
        r.op = q.id ∧ r.home = leNat b ∧ r.pkt = p ∧ r.hdr = g ∧ r.v = [] ∧ r.c = [] ∧ r.stopped = false)

/-- R363, R364, R393: a landing packet of 128 bytes adds its words to those of its line in the window's order, and is complete once device
time has passed that; one that no window takes is dropped, counted, and left pending as a fault of its issuer. -/
def Claims.LandingPackets : Prop :=
  ∀ (idx : Nat) (p : Landing) (s : State), s.landing[idx]? = some p →
    (∀ g, p.applied = some g → (s.time ≤ g → exec (.landingPacketApply idx) s = .next s) ∧
      (g < s.time → ∃ u, exec (.landingPacketApply idx) s = .next u ∧ u.landing = s.landing.eraseIdx idx ∧ SameMemory s u ∧
        ∀ t, p.tid = some t → OpDone u t p.op)) ∧
    (p.applied = none → landReady s p = true → homeGone s (128 * p.line) = false →
    (landsFor s p.cid (128 * p.line) p.data.length = true → p.data.length = 128 → (∀ b, b ∈ p.mask → b = true) →
      Memory.wf 0 s.mem = true → p.opc = 4 ∨ p.opc = 0 →
      ∃ u, exec (.landingPacketApply idx) s = .next u ∧ u.landing = s.landing.set idx { p with applied := some s.time } ∧
        (∀ b, b < 128 * p.line ∨ 128 * p.line + 128 ≤ b → byteAt u.mem b = byteAt s.mem b) ∧
        ∀ i, i < 32 →
          let old := bytesAt s.mem (128 * p.line + 4 * i) 4
          let v := fieldAt p.data (4 * i) 4
          bytesAt u.mem (128 * p.line + 4 * i) 4 =
            if p.opc = 4 then (old + v) % 2 ^ 32 else (fadd .rne (BitVec.ofNat 32 old) (BitVec.ofNat 32 v)).1.toNat) ∧
    (landsFor s p.cid (128 * p.line) p.data.length = false → p.seen = false →
      ∃ u, exec (.landingPacketApply idx) s = .next u ∧ u.landing = s.landing.eraseIdx idx ∧ u.lwinDrop = s.lwinDrop + 1 ∧
        SameMemory s u ∧ ∀ t, p.tid = some t → OpDone u t p.op ∧ thas (u.thread t).pendFault 3 = true))

/-- R370 to R377, R380: a query's distances arrive and count in VISITED, an ill-formed node leaves its fault with the entry, the entries
stand in the first list, a search without an open candidate stops, a stopped query frees its place, and one whose task or context has
ended stops at the next round boundary and writes nothing. -/
def Claims.GraphQueries : Prop :=
  ∀ (q : Nat) (x : Query) (s : State), tfind s.queries q = some x → x.lost = none →
    (x.stopped = false → issuerDead s x.tid x.cid = true → (∀ e, e ∈ x.list → e.d.isSome = true) →
      ∃ u, exec (.queryRound q) s = .next u ∧ u.queries = tdel s.queries q ∧ OpDone u x.tid x.op ∧ SameMemory s u) ∧
    (∀ idx e, x.stopped = false → headerFull x.hdr = true → x.list[idx]? = some e → e.d = none → e.fault = none →
      (∀ s1 s2 s3 r home b v i1 i2, readNode x.cid x.hdr e.id s = (s1, .good r home) →
        cerRead x.cid (recEmb r) (gDim x.hdr * embSize x.hdr) home s1 = (s2, b, i1, .none) →
        cerRead x.cid (qVec x.pkt) (4 * gDim x.hdr) 0 s2 = (s3, v, i2, .none) →
        ∃ u y, exec (.queryDistance q idx) s = .next u ∧ tfind u.queries q = some y ∧ y.visited = x.visited + 1 ∧
          (y.list[idx]?.bind QDist.d) = some (distance (qMetric x.pkt) (gDim x.hdr)
            (fun i => BitVec.ofNat 32 (fieldAt v (4 * i) 4)) (embElem x.hdr b)) ∧ SameMemory s u) ∧
      (∀ s1, readNode x.cid x.hdr e.id s = (s1, .bad) → qFlags x.pkt = 0 ∨ e.parent = 0xFFFFFFFF → ∃ u y, exec (.queryDistance q idx) s = .next u ∧
        tfind u.queries q = some y ∧ y.visited = x.visited ∧
        (y.list[idx]?.bind QDist.fault) = some (0x40, BitVec.ofNat 64 (e.id + e.parent * 2 ^ 32)))) ∧
    (x.stopped = false → issuerDead s x.tid x.cid = false → headerFull x.hdr = true → x.entryDone = false → x.v = [] →
      ∃ u y, exec (.queryRound q) s = .next u ∧ tfind u.queries q = some y ∧ SameMemory s u ∧ y.entryDone = false ∧
        (∀ n, n ∈ y.v ↔ ∃ i, i < 4 ∧ n = qEntry x.pkt i ∧ n ≠ 0xFFFFFFFF) ∧ y.v.Nodup ∧
        y.list = x.list ++ y.v.map fun n => ⟨n, 0xFFFFFFFF, none, none⟩) ∧
    (x.stopped = false → issuerDead s x.tid x.cid = false → headerFull x.hdr = true → x.entryDone = true → x.list = [] →
      (∀ c, c ∈ x.c → c.exp = true) → ∃ u y, exec (.queryRound q) s = .next u ∧ tfind u.queries q = some y ∧
        y.stopped = true ∧ y.c = x.c ∧ y.rounds = x.rounds + 1) ∧
    (x.stopped = true → issuerDead s x.tid x.cid = false → x.fault = none → qFuture x.pkt = 0 → (∃ g, x.gw = some g ∧ g < s.time) →
      ∃ u, exec (.queryComplete q) s = .next u ∧ u.queries = tdel s.queries q ∧ OpDone u x.tid x.op ∧ SameMemory s u)

/-- Tier 1. nbrun, cland and qsub at issue, landing packets and graph queries: the parts above.
It rests also on choices and readings of the model: log 7, 12 and 34. -/
def Obligations.NearMemory : Prop := Claims.NearMemoryOperationsIssue ∧ Claims.LandingPackets ∧ Claims.GraphQueries

/-- R352 to R358, R480: a near-bank program starts at micro-op 0, runs its micro-ops, is suspended by a core request, resumes when the request queue has been empty for
WINDOW, makes a row operation after MAXSUSP, and completes when its writes have completed. The clauses about a micro-op are for a next one
that is a row operation or END, where the unit goes on to it and stops there. -/
def Claims.NearBankPrograms : Prop :=
  ∀ (u : Nat) (s : State), Memory.wf {} s.nb = true →
    let rests := fun (w : W64) => isData w = true ∨ uopOf w = 0
    let nextOp := fun (p : NbProg) =>
      nbOp (if (banksOf p.bmask).all fun b => b ≤ p.bank then { p with mpc := p.mpc + 1 } else p)
    let reached := fun (p : NbProg) (pa : Nat) => (rowAt u p (uRs (nbOp p)) (rowNeed p (uRs (nbOp p))) s).2 = .inl pa ∧
      ∀ l, l ∈ rowLines pa p.bank → homeGone s (128 * l) = false
    (∀ p l, (s.unit u).run = none → (s.unit u).queue = p :: l → progDead s p = false → p.lost = none → rests (p.uops.getD 0 0) →
      ∃ z r, exec (.nbProgramStart u) s = .next z ∧ SameMemory s z ∧ (z.unit u).run = some r ∧ (z.unit u).queue = l ∧
        r.mpc = 0 ∧ r.i = 0 ∧ r.acc = [] ∧ r.uops = p.uops ∧ r.tid = p.tid ∧ r.op = p.op ∧
        (uopOf (p.uops.getD 0 0) = 0 → r.ended = true)) ∧
    (∀ p, (s.unit u).run = some p → progHeld s u p = false →
      let w := nbOp p
      (uopOf w = 0 → ∃ z r, exec (.nbRowOperation u) s = .next z ∧ (z.unit u).run = some r ∧ r.ended = true ∧ SameMemory s z) ∧
      (uopOf w = 5 → rests (nbOp { p with mpc := p.mpc + 1 }) → Memory.wf [] p.acc = true →
        (∀ b, Memory.wf 0 (accRow p b) = true) →
        ∃ z r, exec (.nbRowOperation u) s = .next z ∧ (z.unit u).run = some r ∧ SameMemory s z ∧ r.mpc = p.mpc + 1 ∧ r.i = p.i ∧
          ∀ b i, i < 512 → tget 0 (accRow r b) i = if p.bmask.getLsbD b = true
            then (fmul .rne (tget 0 (accRow p b) i) (p.sc.getD (uSi w) 0)).1 else tget 0 (accRow p b) i) ∧
      (uopOf w = 6 →
        let mpc := if p.i + 1 < uCount w then uTarget w else p.mpc + 1
        rests (nbOp { p with mpc := mpc }) →
        ∃ z r, exec (.nbRowOperation u) s = .next z ∧ (z.unit u).run = some r ∧ SameMemory s z ∧ r.acc = p.acc ∧ r.mpc = mpc ∧
          r.i = if p.i + 1 < uCount w then p.i + 1 else 0) ∧
      (uopOf w = 7 → rests (nbOp { p with mpc := p.mpc + 1 }) → ∀ pa, walkAddr s p.cid p.progress .write = .inl pa →
        homeGone s pa = false → hostHolds s 0 pa 8 = false → Memory.wf 0 s.mem = true →
        ∃ z r, exec (.nbRowOperation u) s = .next z ∧ (z.unit u).run = some r ∧ r.mpc = p.mpc + 1 ∧ r.i = p.i ∧ r.acc = p.acc ∧
          bytesAt z.mem pa 8 = (p.mpc % 32 + p.i * 2 ^ 16 + 2 ^ 63) % 2 ^ 64 ∧
          ∀ b, b < pa ∨ pa + 8 ≤ b → byteAt z.mem b = byteAt s.mem b) ∧
      (uopOf w = 2 → (s.unit u).susp = none → rests (nextOp p) → ∀ pa, reached p pa →
        Memory.wf 0 s.mem = true → ∃ z, exec (.nbRowOperation u) s = .next z ∧
          (requested (s.unit u) = true → isData (nextOp p) = true → (z.unit u).susp = some s.time) ∧
          (∀ k, k < 1024 → byteAt z.mem (rowByte pa p.bank k) = nbRowBytes p w p.bank k) ∧
          (∀ b, (∀ k, k < 1024 → b ≠ rowByte pa p.bank k) → byteAt z.mem b = byteAt s.mem b)) ∧
      (uopOf w = 1 → uFmt w = false → (s.unit u).susp = none → rests (nextOp p) → ∀ pa, reached p pa →
        (∀ l, l ∈ rowLines pa p.bank → (s.l2line l).dirty = false) →
        (∀ l, l ∈ rowLines pa p.bank → poisoned s (128 * l) 128 = false) → Memory.wf 0 (accRow p p.bank) = true →
        Memory.wf [] p.acc = true →
        ∃ z r, exec (.nbRowOperation u) s = .next z ∧ (z.unit u).run = some r ∧ SameMemory s z ∧
          (requested (s.unit u) = true → isData (nextOp p) = true → (z.unit u).susp = some s.time) ∧
          ∀ i, i < 256 → tget 0 (accRow r p.bank) i = BitVec.ofNat 32 (bytesAt s.mem (rowByte pa p.bank (4 * i)) 4))) ∧
    (∀ t, (s.unit u).susp = some t → requested (s.unit u) = false → (s.unit u).quiet + ticksNs s s.nbWindow < s.time →
      exec (.nbWindowResume u) s = .next (s.onUnit u fun x => { x with susp := none })) ∧
    (∀ p t, (s.unit u).run = some p → (s.unit u).susp = some t → progHeld s u p = false →
      t + ticksUs s s.nbMaxsusp ≤ s.time → Memory.wf 0 s.nbCnt = true → isData (nbOp p) = true → rests (nextOp p) →
      ∀ pa, reached p pa → (uopOf (nbOp p) ≠ 2 → ∀ l, l ∈ rowLines pa p.bank → poisoned s (128 * l) 128 = false) →
      ∃ z, exec (.nbForcedRowOperation u) s = .next z ∧ tget 0 z.nbCnt (cntKey (u / 64) 2) =
        BitVec.ofNat 64 (((tget 0 s.nbCnt (cntKey (u / 64) 2)).toNat + 1) % 2 ^ 32)) ∧
    (∀ p, (s.unit u).run = some p → p.ended = true → progDead s p = false → p.lost = none → p.lease < s.time →
      ∃ z, exec (.nbProgramComplete u) s = .next z ∧ SameMemory s z ∧ (z.unit u).run = none ∧ OpDone z p.tid p.op ∧
        (Memory.wf 0 s.nbCnt = true → tget 0 z.nbCnt (cntKey (u / 64) 0) = BitVec.ofNat 64 (((tget 0 s.nbCnt (cntKey (u / 64) 0)).toNat + 1) % 2 ^ 64)) ∧
        (∀ c a, p.fault = some (c, a) → thas (s.thread p.tid).pendFault 5 = false →
          tget (0, 0) (z.thread p.tid).pendFault 5 = (c, a)))

/-- R346 to R348: a controller's queues take and serve requests in order, a read is served from the last queued write that meets it if that
covers it,
nothing is served during a row operation, and a refresh is postponed while a burst holds the row open, up to eight intervals. -/
def Claims.MemoryControllers : Prop :=
  ∀ (u bank off len : Nat) (s : State), Memory.wf {} s.nb = true →
    let x := s.unit u
    let b := bank % 16
    (rowGoing x = true → ∀ k, k = 2 ∨ k = 3 → ∃ z, exec (.hbmControllerRequest u k off len) s = .next z ∧ z.unit u = x) ∧
    (x.run = none → (forwards x.wq (off, len) = true →
      exec (.hbmControllerRequest u 0 off len) s = .next (count64 (u / 64) 8 s)) ∧
    ((x.wq.any fun w => meets w (off, len)) = false →
      exec (.hbmControllerRequest u 0 off len) s = .next (s.onUnit u fun x => { x with reqs := x.reqs ++ [(off, len)] })) ∧
    exec (.hbmControllerRequest u 1 off len) s = .next (s.onUnit u fun x => { x with wq := x.wq ++ [(off, len)] }) ∧
    (∃ z, exec (.hbmControllerRequest u 2 off len) s = .next z ∧ (z.unit u).wq = x.wq.drop 1 ∧ (z.unit u).reqs = x.reqs) ∧
    (∀ r l, x.reqs = r :: l → (x.wq.any fun w => meets w r) = false →
      ∃ z, exec (.hbmControllerRequest u 3 off len) s = .next z ∧ (z.unit u).reqs = l ∧ (z.unit u).wq = x.wq) ∧
    (x.burst.contains b = false → ∃ z, exec (.hbmRefreshDue u bank) s = .next z ∧
      (Memory.wf 0 x.postponed = true → tget 0 (z.unit u).postponed b = 0)) ∧
    (x.burst.contains b = true → tget 0 x.postponed b + 1 < 8 → ∃ z, exec (.hbmRefreshDue u bank) s = .next z ∧
      tget 0 (z.unit u).postponed b = tget 0 x.postponed b + 1) ∧
    (x.burst.contains b = true → 8 ≤ tget 0 x.postponed b + 1 → Memory.wf 0 s.nbCnt = true → ∃ z,
      exec (.hbmRefreshDue u bank) s = .next z ∧ tget 0 z.nbCnt (cntKey (u / 64) 10) =
        BitVec.ofNat 64 (((tget 0 s.nbCnt (cntKey (u / 64) 10)).toNat + 1) % 2 ^ 32)))

/-- Tier 1. Near-bank programs and HBM controllers: the parts above.
It rests also on choices and readings of the model: log 59 (which the controllers' requests, their masks and their order are), 8 and 13. -/
def Obligations.NearBankAndControllers : Prop := Claims.NearBankPrograms ∧ Claims.MemoryControllers

/-- Tier 1. R114: `qput` and `qput.x2` answer all ones when the ring has no room; otherwise they claim the slots from WRIDX, write each
image with its header, and answer the first index.
It rests also on choices and readings of the model: log 6. -/
def Obligations.PuttingPackets : Prop :=
  ∀ (h : Head) (d a b : SReg) (k : Nat) (s s' : State) (pa : Nat), execMask h s ≠ 0 → k = 1 ∨ k = 2 →
    isSpec s (taskOf s.issue.tid) = false → taskHeld s.cur = false → storesDone s = true →
    let x := s.cur.sget2 a
    let o := (s.cur.sget b).toNat
    let core := s.issue.core
    let i : Instr := if k = 1 then .qput h d a b else .qputX2 h d a b
    x.toNat < 2 ^ 52 → x.toNat % 256 = 0 → o % 64 = 0 → o + 64 * k ≤ s.curTask.size →
    translate core s.curTask.cid x.toNat .write s = (s', .inl pa) → homeGone s' pa = false →
    mayRead s' core s.issue.tid x.toNat pa 64 = true → futureQuiet s' pa = true → poisonedTo s' s.issue.tid pa 64 = false →
    spadHeld s.cur o (64 * k) = false → (∀ p, spLoc s (taskOf s.issue.tid) o (64 * k) = some p → spPoisoned s' p (64 * k) = false) →
    let n := bytesAt s.mem (pa + 8) 1
    let w := bytesAt s.mem (pa + 0x10) 8
    let r := bytesAt s.mem (pa + 0x18) 8
    (r + 2 ^ n < w + k → exec i s = .next (giveS2 d (BitVec.allOnes 64) (advance h s'))) ∧
    (w + k ≤ r + 2 ^ n → Memory.wf 0 s.mem = true →
      let va := fun j => slotVa (bytesAt s.mem pa 8) n (w + j)
      ∀ (e : Nat → TlbEnt), (∀ j, j < k → ((s'.core core).tlb.find? fun e => e.covers s.curTask.cid (va j)) = some (e j) ∧
          va j < 2 ^ 52 ∧ (e j).w = true ∧ (e j).wpm = false) →
      let slot := fun j => (e j).pa + (va j - (e j).va)
      (∀ j, j < k → homeGone s' (slot j) = false ∧ futureQuiet s' (slot j) = true ∧
        (slot j + 64 ≤ pa ∨ pa + 64 ≤ slot j)) → (k = 2 → slot 0 + 64 ≤ slot 1 ∨ slot 1 + 64 ≤ slot 0) →
      ∃ z, exec i s = .next (giveS2 d (BitVec.ofNat 64 w) z) ∧ z.cur.lanes = (advance h s).cur.lanes ∧
        bytesAt z.mem (pa + 0x10) 8 = (w + k) % 2 ^ 64 ∧
        (∀ y, y < pa + 0x10 ∨ pa + 0x18 ≤ y → (∀ j, j < k → y < slot j ∨ slot j + 64 ≤ y) → byteAt z.mem y = byteAt s.mem y) ∧
        ∀ j, j < k →
          let image := (List.range 64).map fun q => byteAt s.curTask.spad (o + 64 * j + q)
          bytesAt z.mem (slot j) 8 = packetHeader image (bytesAt s.mem (pa + 0x0C) 2) (w + j) ∧
          bytesAt z.mem (slot j + 8) 56 = fieldAt image 8 56)

/-- Tier 1. R23, R39, R147, R151, R152, R156, R259: popping a range takes its lowest identifier into staging, an arrival that completes a
buffer makes it FULL, and a task and a gang start with every warp at the entry with its registers set.
It rests also on choices and readings of the model: log 7 and 37. -/
def Obligations.TasksStageAndStart : Prop :=
  (∀ (core n lo hi : Nat) (e : Ent) (s : State), (s.core core).deque = [e] → (s.core core).spill = [] → e.lent = none →
    e.raised = false → e.split = false → e.kind = .range n lo hi → lo < hi → (s.core core).lost = false → (s.core core).staged.length < 2 →
    (∀ l, l ∈ s.launches → l.2.pendingTails = []) → (s.launch n).gsize = 0 → (s.launch n).shape = 0 →
    clNtile (s.launch n).image = 0 → canHold (s.core core) (ceilTo (4 * cfgSpk4 (s.launch n).teamcfg) 4 * 1024) (cfgNacc (s.launch n).teamcfg) = true →
    ∃ u k, exec (.dequePop core) s = .next u ∧ SameMemory s u ∧ (u.core core).staged = (s.core core).staged ++ [k] ∧
      (u.task k).st = .staged ∧ (u.task k).core = core ∧ (u.task k).launch = some n ∧
      (u.task k).wid = BitVec.ofNat 64 (wordOfIndex (s.launch n) lo) ∧
      (u.core core).deque = if lo + 1 < hi then [{ e with kind := .range n (lo + 1) hi }] else []) ∧
  (∀ (k i : Nat) (b : Buf) (d : Desc) (s s1 : State) (bytes : List W8), (s.task k).st = .staged → thas s.tasks k = true →
    (s.task k).lost = none → (s.task k).stageFault = none → (s.task k).bufs[i]? = some b → (s.task k).descs[i]? = some d → b.owner = none →
    b.filled = false → hdrState (readHdr s k b.off) = 0 → hdrTarget (readHdr s k b.off) = bytes.length →
    readTile (s.task k).core (s.task k).cid (viewTag s k) b.lrec d.coord s = (s1, bytes, .none) →
    (∀ o, b.off + 128 ≤ o → o < b.off + 128 + bytes.length → headerOf (s.task k) o = none) →
    Memory.wf 0 (s.task k).spad = true →
    ∃ u, exec (.tileArrival k i 0) s = .next u ∧ hdrState (readHdr u k b.off) = 2 ∧
      hdrGen (readHdr u k b.off) = (hdrGen (readHdr s k b.off) + 1) % 2 ^ 14 ∧
      bytesAt (u.task k).spad (b.off + 128) bytes.length = leNat bytes) ∧
  (∀ (core k : Nat) (s : State), (s.core core).lost = false → restoreFirst s core = false →
    pickStart s core (startOrder s core) = some k →
    ∃ u, exec (.taskStart core) s = .next u ∧ SameMemory s u ∧ (u.task k).st = .running ∧
      (∀ w, w < teamWarps (s.task k).team →
        let t := u.thread (tidOf k w)
        t.lanes = List.replicate 64 { pc := (s.task k).entry } ∧ t.sget2 6 = (s.task k).wid ∧
        (∀ r : SReg, r.toNat < 6 → t.sget r = descReg (s.task k) r.toNat) ∧ (∀ r : SReg, 8 ≤ r.toNat → t.sget r = 0) ∧
        t.xblk = 1 ∧ t.ops = [] ∧ t.flight = [])) ∧
  (∀ (g : Nat) (s : State), (s.gang g).started = false → gangReady s g = true →
    (∀ k, k ∈ liveMembers s g → restoreFirst s (s.task k).core = false) →
    ∃ u, exec (.gangStart g) s = .next u ∧ SameMemory s u ∧ (u.gang g).started = true ∧
      ∀ k, k ∈ (s.gang g).members → hasExited s k = false → (u.task k).st = .running)

/-- Tier 1. R148 to R150, R161, R411: the messages of a steal: ATTEMPT, OFFER, ACK, CONFIRM and KEEP, each answered as the exchange says, and
the timers that end or repeat a wait.
It rests also on choices and readings of the model: log 19 and 49. -/
def Obligations.StealExchange : Prop :=
  (∀ (c v : Nat) (s : State), c < 224 → isIdle (s.core c) = true → mayGoFar s c = false → localVictim s c = some v →
    ∃ u tag, exec (.stealAttempt c) s = .next u ∧ u.msgs = s.msgs ++ [⟨0, c, v, tag, none⟩] ∧
      ∃ a, (u.core c).thief = some a ∧ a.victim = v ∧ a.tag = tag ∧ a.copy = none ∧ a.offerDue = s.time + 4096) ∧
  (∀ (i : Nat) (m : Msg) (s : State), s.msgs[i]? = some m →
    let answered := ∀ l, tfind (s.core m.victim).lends m.thief = some l → l.given ≠ none ∨ l.kept = true
    (m.kind = 0 → (s.core m.victim).lost = false → popDue s m.victim = false → answered → coldest s m.victim m.thief = none → stagedGift s m.victim m.thief = none →
      ∃ u, exec (.stealAttemptReceived i) s = .next u ∧ u.msgs = s.msgs.eraseIdx i ++ [⟨1, m.thief, m.victim, m.tag, none⟩]) ∧
    (m.kind = 0 → (s.core m.victim).lost = false → popDue s m.victim = false → answered → ∀ e, coldest s m.victim m.thief = some e →
      ∃ u p l, exec (.stealAttemptReceived i) s = .next u ∧
        u.msgs = s.msgs.eraseIdx i ++ [⟨1, m.thief, m.victim, m.tag, some p⟩] ∧ p.lent = some m.thief ∧
        tfind (u.core m.victim).lends m.thief = some l ∧ l.tag = m.tag ∧ l.ent = some p.id ∧ l.due = s.time + 4096) ∧
    (∀ a, (s.core m.thief).thief = some a → a.tag = m.tag →
      (m.kind = 1 → offerFresh s m = false → a.copy = none → s.time < a.offerDue → ∀ e, m.ent = some e →
        ∃ u b, exec (.stealOfferReceived i) s = .next u ∧
          u.msgs = s.msgs.eraseIdx i ++ [⟨2, m.thief, m.victim, m.tag, none⟩] ∧
          (u.core m.thief).thief = some b ∧ b.copy = some e ∧ b.ackDue = s.time + 2048) ∧
      (m.kind = 1 → offerFresh s m = false → a.copy = none → s.time < a.offerDue → m.ent = none →
        ∃ u, exec (.stealOfferReceived i) s = .next u ∧ (u.core m.thief).thief = none ∧ u.xsFail = s.xsFail + 1) ∧
      (m.kind = 3 → a.copy ≠ none → (s.core m.thief).deque.length < 512 → ∀ e, m.ent = some e →
        ∃ u, exec (.stealConfirmReceived i) s = .next u ∧ (u.core m.thief).thief = none ∧
          (u.core m.thief).deque = hotInsert (settledEnt s e) (s.core m.thief).deque ∧ u.msgs = s.msgs.eraseIdx i ∧
          u.xsLocal + u.xsRemote = s.xsLocal + s.xsRemote + 1) ∧
      (m.kind = 4 → a.copy ≠ none → ∃ u, exec (.stealKeepReceived i) s = .next u ∧ (u.core m.thief).thief = none ∧
        u.xsFail = s.xsFail + 1 ∧ (u.core m.thief).deque = (s.core m.thief).deque)) ∧
    (m.kind = 2 → (s.core m.victim).lost = false → ∀ l, tfind (s.core m.victim).lends m.thief = some l → l.tag = m.tag →
      (∀ e, l.given = some e → ∃ u, exec (.stealAckReceived i) s = .next u ∧
        u.msgs = s.msgs.eraseIdx i ++ [⟨3, m.thief, m.victim, m.tag, some e⟩] ∧ u.cores = s.cores) ∧
      (l.given = none → (s.core m.thief).lost = true → ∃ u, exec (.stealAckReceived i) s = .next u ∧ u.msgs = s.msgs.eraseIdx i) ∧
      (l.given = none → (s.core m.thief).lost = false → l.kept = true → ∃ u, exec (.stealAckReceived i) s = .next u ∧
        u.msgs = s.msgs.eraseIdx i ++ [⟨4, m.thief, m.victim, m.tag, none⟩]) ∧
      (l.given = none → (s.core m.thief).lost = false → l.kept = false → s.time < l.due → (∀ n, n ∈ s.launches → n.2.pendingTails = []) → ∀ id e, l.ent = some id →
        (((s.core m.victim).deque ++ (s.core m.victim).spill).find? fun x => x.id == id) = some e →
        ∃ u, exec (.stealAckReceived i) s = .next u ∧
          u.msgs = s.msgs.eraseIdx i ++ [⟨3, m.thief, m.victim, m.tag, some { e with lent := none, split := false }⟩] ∧
          ∀ x, x ∈ (u.core m.victim).deque ++ (u.core m.victim).spill → x.id ≠ id))) ∧
  (∀ (c : Nat) (a : Attempt) (s : State), (s.core c).thief = some a →
    (a.copy = none → a.offerDue ≤ s.time → ∃ u, exec (.stealOfferTimeout c) s = .next u ∧ (u.core c).thief = none ∧
      u.xsFail = s.xsFail + 1) ∧
    (a.copy ≠ none → a.ackDue ≤ s.time → ∃ u, exec (.stealAnswerTimeout c) s = .next u ∧
      u.msgs = s.msgs ++ [⟨2, c, a.victim, a.tag, none⟩] ∧
      (u.core c).thief = some { a with ackDue := s.time + 2048 })) ∧
  (∀ (c thief : Nat) (l : Lend) (s : State), tfind (s.core c).lends thief = some l → l.given = none → l.kept = false →
    l.due ≤ s.time → ∃ u, exec (.stealLendTimeout c thief) s = .next u ∧ u.msgs = s.msgs ∧
      ∃ k, tfind (u.core c).lends thief = some k ∧ k.kept = true)

/-- Tier 1. R158, R418, R419, R426 to R430: a team that has been asked for is saved as soon as it is swappable and leaves its slots; it comes
back running when its wake condition holds; one that no core can hold, and one whose save record holds an uncorrectable error, ends; and the oldest waiting sub-warp enters the handler.
It rests also on choices and readings of the model: log 18 and 27. -/
def Obligations.SwapsRestoresAndHandlers : Prop :=
  (∀ (core k : Nat) (l : List Nat) (s : State), (s.core core).lost = false →
    longestBlocked s core (fun k => (s.task k).preempt && (swapSet s k).isSome) = some k → swapSet s k = some l →
    ∃ u, exec (.forwardProgressSwap core) s = .next u ∧ ∀ j, j ∈ l → (u.task j).st = .swapped ∧
      ∀ e, e ∈ (u.core (s.task j).core).slots → taskOf e.2 ≠ j) ∧
  (∀ (k : Nat) (s : State), (s.task k).st = .running →
    (∀ l, swapSet s k = some l → ∃ u, exec (.umberPreemptRequest k) s = .next u ∧
      ∀ j, j ∈ l → (u.task j).st = .swapped) ∧
    (swapSet s k = none → exec (.umberPreemptRequest k) s =
      .next ((jlog jPreempt 0 0 (s.task k).cid k s).onTask k fun t => { t with preempt := true }))) ∧
  (∀ (k : Nat) (s : State), (s.task k).st = .swapped → (s.task k).ending = false → (s.task k).fatal = [] →
    (neverRestored s k = false → (s.task k).gang = none → wakeHolds s k = true → ∀ c, restoreCore s k = some c →
      ∃ u, exec (.teamRestore k) s = .next u ∧ ((s.task k).record = none → SameMemory s u) ∧ (u.task k).st = .running ∧
        (u.task k).core = c ∧ (u.task k).record = none) ∧
    (neverRestored s k = true → isSpec s k = false → ∃ u x, exec (.teamRestore k) s = .next u ∧ (u.task k).fatal = [x] ∧ x.code = 0x34) ∧
    (neverRestored s k = false → isSpec s k = false → (s.task k).gang = none → wakeHolds s k = true → recordBad s k = true →
      ∃ u x, exec (.teamRestore k) s = .next u ∧ SameMemory s u ∧ (u.task k).fatal = [x] ∧ x.code = 0x20)) ∧
  (∀ (core unit tid n : Nat) (s : State), unitTid s core unit = some tid → isSeq tid = false →
    hasHandler s (taskOf tid) = true → (s.taskT tid).fatal = [] → (∀ x, x ∈ (s.thread tid).lanes → x.inHandler = false) →
    (∃ x, x ∈ (s.thread tid).lanes ∧ waitsForHandler x = true ∧ x.sub = n) →
    (∀ x, x ∈ (s.thread tid).lanes → waitsForHandler x = true → n ≤ x.sub) →
    (∀ x, x ∈ (s.thread tid).lanes → waitsForHandler x = true → x.sub = n → mayJoin (s.thread tid) x = false) →
    exec (.handlerEntry core unit) s = .next (s.onThread tid fun t =>
      { t with lanes := t.lanes.map fun x => if waitsForHandler x && x.sub == n
          then { x with st := .active, pc := (s.ctx (s.taskT tid).cid).hpc, deferred := false, inHandler := true } else x }))

/-- Tier 1. R177, R178, R424, R430, R431, R128: a warp retires once its lanes, operations and stores are done; a task completes its future and
is done; Umber's ABORTED and an uncorrectable error are fatal, the error held while the task is speculative, and a fatal task whose dump is
over ends.
It rests also on choices and readings of the model: log 7, 21, 28 and 47. -/
def Obligations.RetirementAndFatalFaults : Prop :=
  (∀ (core unit tid : Nat) (s : State), unitTid s core unit = some tid → mayRetire s tid = true → (s.taskT tid).fatal = [] → (s.thread tid).joined = none →
    ∃ u, exec (.warpRetire core unit) s = .next u ∧ SameMemory s u ∧ (u.thread tid).retired = true ∧ (u.thread tid).mon = none ∧
      (u.thread tid).region = none) ∧
  (∀ (k : Nat) (v : W64) (s : State), (s.task k).st = .running → (s.task k).fatal = [] → isSpec s k = false →
    (∀ i, i ∈ s.tids k → (s.thread i).retired = true) → (s.task k).written = true → (s.task k).wbGw < s.time →
    (s.task k).wbFault = none → (s.task k).fout = none → (s.task k).out = .full v → owesWriteBack s k = false →
    ((s.task k).future = 0 → ∃ u, exec (.taskRetire k) s = .next u ∧ SameMemory s u ∧ (u.task k).st = .done) ∧
    ((s.task k).future ≠ 0 → ∀ pa, walkAddr s (s.task k).cid (s.task k).future .write = .inl pa → homeGone s pa = false →
      poisoned s pa 1 = false → bytesAt s.mem pa 1 = 0 → futureQuiet s pa = true → Memory.wf 0 s.mem = true →
      ∃ u, exec (.taskRetire k) s = .next u ∧ (u.task k).st = .done ∧ bytesAt u.mem pa 1 = 1 ∧
        bytesAt u.mem (pa + 8) 8 = v.toNat ∧ bytesAt u.mem (pa + 24) 8 = (s.task k).wid.toNat ∧
        ∀ x, x < pa ∨ pa + 32 ≤ x → byteAt u.mem x = byteAt s.mem x)) ∧
  (∀ (k : Nat) (ecc : Bool) (s : State), (s.task k).st = .running ∨ (s.task k).st = .swapped →
    ((s.task k).fatal = [] → isSpec s k = true → ecc = true → ∃ u c, exec (.fatalFault k ecc) s = .next u ∧ SameMemory s u ∧
      (u.task k).st = (s.task k).st ∧ (u.task k).fatal = [] ∧ (u.task k).heldFatal = (s.task k).heldFatal ++ [c] ∧ c.code = 0x20) ∧
    ((s.task k).fatal = [] → (s.task k).dump = .idle → (ecc = true → isSpec s k = false) →
      ∃ u c, exec (.fatalFault k ecc) s = .next u ∧ (u.task k).fatal = [c] ∧ c.code = (if ecc then 0x20 else 0x35) ∧
        c.unit = (if ecc then 0 else 10)) ∧
    (∀ c, (s.task k).fatal = [c] → (s.task k).dump = .over → isSpec s k = false → (s.task k).future = 0 →
      storesLeft k s = false → (∀ i, i ∈ s.tids k → (s.thread i).joined = none) →
      ∃ u, exec (.fatalFault k ecc) s = .next u ∧ SameMemory s u ∧ (u.task k).st = .dead ∧
        ∀ i, i ∈ s.tids k → (u.thread i).retired = true ∧ (u.thread i).ops = [] ∧ (u.thread i).flight = []))

/-- Tier 2. R130 to R137: a true shape settles a launch, its tag's lines leave, the tasks of committed roots go on without the tag, and those
of surplus roots end; an impossible shape, and a timeout, squash every root: its tasks end, its identifiers count, its entries leave the
deques, and its one future turns SQUASHED; the launch drains once its completions are written, and its tag is free once nothing carries it.
It rests also on choices and readings of the model: log 21. -/
def Obligations.SpeculationSettles : Prop :=
  ∀ (n tag : Nat) (s : State), (s.launch n).tag = some tag →
    let l := s.launch n
    let live := fun (k : Nat) => (s.task k).tag = some tag ∧ (s.task k).st ≠ .done ∧ (s.task k).st ≠ .dead
    let ends := fun (u : State) (k : Nat) => (u.task k).st = .dead ∧
      ∀ i, i ∈ s.tids k → (u.thread i).retired = true ∧ (u.thread i).ops = [] ∧ (u.thread i).flight = []
    let owed := (s.cores.flatMap fun c => lostFutures l tag [] (c.2.deque ++ c.2.spill)) ++
      ((taggedTasks s tag).map fun k => ((s.task k).future, (s.task k).root)) ++ l.doneRoots.map fun d => (d.future, d.root)
    let squashed := fun (u : State) => (∀ k, live k → ends u k) ∧
      (u.launch n).squash = l.squash + ((taggedTasks s tag).filter fun k => (s.task k).ident).length +
        (l.doneRoots.filter DoneRoot.ident).length ∧
      ((∀ x, x ∈ s.launches → x.2.pendingTails = []) → ∀ c, c ∈ u.cores → ∀ e, e ∈ c.2.deque ++ c.2.spill → e.tag ≠ some tag) ∧
      (∀ va root pa, (owed.filter fun p => p.1 != 0) = [(va, root)] → l.squashes = [] →
        (∀ k, live k → ∀ i, i ∈ s.tids k → (s.thread i).joined = none) → walkAddr s l.cid va .write = .inl pa → homeGone s pa = false →
        poisoned s pa 1 = false → futureQuiet s pa = true → bytesAt s.mem pa 1 = 0 → Memory.wf 0 s.mem = true →
        bytesAt u.mem pa 1 = 3 ∧ bytesAt u.mem (pa + 24) 8 = root.toNat ∧ ∀ b, b < pa ∨ pa + 32 ≤ b → byteAt u.mem b = byteAt s.mem b)
    (l.st = .resolving → l.truth = [] → l.widths ≠ [] → shapeBad l (shapeExt s l) = false →
      mergeReady s (mergeLines s l tag (shapeExt s l)) = true →
      ∃ u, exec (.shapeResolution n) s = .next u ∧ (u.launch n).truth = shapeExt s l ∧
        (u.launch n).st = (if (u.launch n).merges = [] ∧ (u.launch n).squashes = [] then .draining else .resolving) ∧
        (∀ k, live k → if isCommitted l (shapeExt s l) (s.task k).root then (u.task k).tag = none else ends u k) ∧
        (∀ x, x ∈ u.spec → x.tag ≠ tag) ∧ (∀ x, x ∈ u.specFut → x.tag ≠ tag)) ∧
    (l.st = .resolving → l.truth = [] → shapeBad l (shapeExt s l) = true → ∃ u, exec (.shapeResolution n) s = .next u ∧
      (u.launch n).st = .squashing ∧ (u.launch n).truth = [] ∧ (u.launch n).status = 2 ∧ u.sinval = s.sinval + 1 ∧ squashed u ∧
      ∀ x, x ∈ u.spec → x.tag ≠ tag) ∧
    (l.st = .speculating → l.deadline ≤ s.time → ∃ u, exec (.shapeTimeout n) s = .next u ∧ (u.launch n).st = .squashing ∧
      (u.launch n).truth = [] ∧ (u.launch n).status = 1 ∧ u.stmo = s.stmo + 1 ∧ squashed u ∧ ∀ x, x ∈ u.spec → x.tag ≠ tag) ∧
    (l.st = .squashing → l.merges = [] → l.squashes = [] → ∃ u, exec (.speculationTagFree n) s = .next u ∧ SameMemory s u ∧
      (u.launch n).st = .draining ∧ (u.launch n).tag = some tag ∧ u.tags = s.tags) ∧
    (l.st = .draining → tagCarried s n = false → tag < 64 → ∃ u, exec (.speculationTagFree n) s = .next u ∧ SameMemory s u ∧
      (u.launch n).st = .running ∧ (u.launch n).tag = none ∧ u.tags.getLsbD tag = false ∧
      ∀ t, t ≠ tag → u.tags.getLsbD t = s.tags.getLsbD t)

/-- R100, R101, R103, R108: a notify, a read of the ring, an error of a header, and the clearing of error slots. -/
def Claims.FrontEndReadsRings : Prop :=
  (∀ (qid : Nat) (s : State), let n := qid % 2 ^ 12
    (∀ q k, tfind s.queues n = some q → q.slot = some k → ∃ u, exec (.qsNotify qid) s = .next u ∧
      u.queue n = { q with idle := false } ∧ u.doorbell = s.doorbell) ∧
    ((∀ q, tfind s.queues n = some q → q.slot = none) → ∃ u, exec (.qsNotify qid) s = .next u ∧ u.queues = s.queues ∧
      ∀ x, x ∈ u.doorbell ↔ x ∈ s.doorbell ∨ x = n)) ∧
  (∀ (m : W32) (s : State), ∃ u, exec (.qsErrslotClear m) s = .next u ∧ SameMemory s u ∧
    ∀ b, u.errslot.getLsbD b = (s.errslot.getLsbD b && !m.getLsbD b)) ∧
  (∀ (slot qid k pa : Nat) (q : Queue) (s : State), (tget {} s.slots slot).qid = some qid → tfind s.queues qid = some q →
    q.slot = some k → q.idle = false → q.send = false → q.dying = false → q.heldWait = none → q.errOwed = none →
    (queuePkts s qid).any (fun e => !e.2.started) = false → qErr s q = 0 →
    AgentReads s q.cid (slotVa (qRbase s q) (qLog2n s q) (qRdidx s q)) 64 pa →
    let i := qRdidx s q
    let b := bytesFrom s pa 64
    let w := fieldAt b 0 8
    (b.getD 7 0 ≠ 0xA5 → ∃ u, exec (.queueConsume slot) s = .next u ∧ SameMemory s u ∧ u.packets = s.packets ∧
      u.queue qid = { q with idle := true, stopped := false }) ∧
    (b.getD 7 0 = 0xA5 →
      (w / 2 ^ 48 % 256 ≠ hchk w ∨ w / 2 ^ 32 % 2 ^ 16 ≠ i % 2 ^ 16 ∨ w / 2 ^ 16 % 2 ^ 12 ≠ q.cid ∨ 7 < w % 256 ∨ w % 256 = 2) →
      ∃ u, exec (.queueConsume slot) s = .next u ∧ u.packets = s.packets ∧ (u.queue qid).stopped = true ∧
        (u.queue qid).idle = true ∧ u.errslot = s.errslot ||| (1#32 <<< k)) ∧
    (b.getD 7 0 = 0xA5 → headerError w i q.cid false = 0 → bodyError b = 0 → fieldAt b 0 1 ≠ 1 →
      (fieldAt b 0 1 ≠ 6 → ∃ pb pc, AgentWrites s q.cid (slotVa (qRbase s q) (qLog2n s q) i) 8 pb ∧ futureQuiet s pb = true ∧
        AgentWrites s q.cid (q.qcb + 0x18) 8 pc) →
      ∃ u v p x, exec (.queueConsume slot) s = .next u ∧ u.pkt p = some x ∧ x.qid = qid ∧ x.index = i ∧ x.bytes = b ∧
        x.kind = w % 256 ∧ x.started = false ∧ x.barrier = w.testBit 8 ∧ x.intr = w.testBit 11 ∧ SameMemory s v ∧
        u = if x.kind = 6 then v else consumeSlots q i 1 v)) ∧
  (∀ (q : Queue) (i pa : Nat) (s : State), Memory.wf 0 s.mem = true →
    AgentWrites s q.cid (slotVa (qRbase s q) (qLog2n s q) i) 8 pa →
    bytesAt (clearSlot q i s).mem pa 8 = 0 ∧ OnlyBytes s (clearSlot q i s) pa 8) ∧
  (∀ (q : Queue) (pa off n v : Nat) (s : State), Memory.wf 0 s.mem = true → walkAddr s q.cid (q.qcb + off) .write = .inl pa →
    bytesAt (setQcb q off n v s).mem pa n = v % 256 ^ n ∧ OnlyBytes s (setQcb q off n v s) pa n)

/-- R105, R106, R301: a NOP and a FENCE complete, a COPY goes to a core's copy engine, and a FILL writes its pattern. -/
def Claims.PacketsStart : Prop :=
  ∀ (p : Nat) (x : Pkt) (s : State),
    let cid := (s.queue x.qid).cid
    let b := x.bytes
    (Wins s p 0 x → ∃ u, exec (.nopPacket p) s = .next u ∧ SameMemory s u ∧
      u.pkt p = some { x with started := true, done := true, gwct := 0, fault := none }) ∧
    (Wins s p 7 x → ∃ u, exec (.fencePacket p) s = .next u ∧ SameMemory s u ∧
      u.pkt p = some { x with started := true, done := true, gwct := 0, fault := none }) ∧
    (∀ core, Wins s p 3 x → core < Config.cores → (s.core core).lost = false → (s.core core).cpy.length < 64 →
      (copyFault b = none → ∃ u c, exec (.copyPacket p core) s = .next u ∧ SameMemory s u ∧
        (u.core core).cpy = (s.core core).cpy ++ [c] ∧ c.pkt = some p ∧ c.src = fieldAt b 8 8 ∧ c.dst = fieldAt b 0x10 8 ∧
        c.count = fieldAt b 0x18 8 ∧ c.cid = cid ∧ u.pkt p = some { x with started := true, cmd := some core }) ∧
      (∀ c, copyFault b = some c → ∃ u, exec (.copyPacket p core) s = .next u ∧ SameMemory s u ∧
        (u.core core).cpy = (s.core core).cpy ∧
        u.pkt p = some { x with started := true, done := true, gwct := 0, fault := some c })) ∧
    (∀ pa, Wins s p 4 x → transferBad b = false → Memory.wf 0 s.mem = true → fieldAt b 8 8 % fieldAt b 0x20 1 = 0 →
      fieldAt b 0x10 8 % fieldAt b 0x20 1 = 0 → AgentWrites s cid (fieldAt b 8 8) (fieldAt b 0x10 8) pa →
      ∃ u, exec (.fillPacket p) s = .next u ∧ OnlyBytes s u pa (fieldAt b 0x10 8) ∧
        (∀ i, i < fieldAt b 0x10 8 → byteAt u.mem (pa + i) = b.getD (0x18 + i % fieldAt b 0x20 1) 0) ∧
        u.pkt p = some { x with started := true, done := true, gwct := gwctOf s pa, fault := none })

/-- R101, R105: a packet completes when its effect is done and its writes have completed: it leaves the front end, the host is told
under INTR of the packet and of its LAUNCHX, and a FILL completes its future with its count, also where its address is not a multiple of
32 (log 55). -/
def Claims.PacketsComplete : Prop :=
  ∀ (p : Nat) (x : Pkt) (s : State), s.pkt p = some x → tsorted s.packets 0 = true → x.done = true →
    (x.gwct = 0 ∨ x.gwct < s.time) →
    (x.kind ≠ 3 → x.kind ≠ 4 → ∃ u, exec (.packetComplete p) s = .next u ∧ SameMemory s u ∧ u.pkt p = none ∧
      (∀ r, r ≠ p → u.pkt r = s.pkt r) ∧
      (x.intr = false → x.intrx = false → u.hostEvents = s.hostEvents) ∧
      u.hostEvents.length = s.hostEvents.length + (if x.intr then 1 else 0) + (if x.intrx then 1 else 0)) ∧
    (x.kind = 4 → x.fault = none → Memory.wf 0 s.mem = true → ∀ pa, fieldAt x.bytes 0x28 8 ≠ 0 →
      walkAddr s (s.queue x.qid).cid (fieldAt x.bytes 0x28 8) .write = .inl pa → homeGone s pa = false →
      poisoned s pa 1 = false → bytesAt s.mem pa 1 = 0 → futureQuiet s pa = true →
      ∃ u, exec (.packetComplete p) s = .next u ∧ u.pkt p = none ∧ bytesAt u.mem pa 1 = 1 ∧
        bytesAt u.mem (pa + 8) 8 = fieldAt x.bytes 0x10 8 % 2 ^ 64 ∧ OnlyBytes s u pa 32)

/-- Tier 1. Packets from the ring to their completion: the parts above.
It rests also on choices and readings of the model: log 7, 29 and 55. -/
def Obligations.PacketsRun : Prop := Claims.FrontEndReadsRings ∧ Claims.PacketsStart ∧ Claims.PacketsComplete

/-- R105: the three SIGNALs, and one whose write is abandoned; that a completed future's PWID is 0 is the model's choice (log 52). -/
def Claims.Signals : Prop :=
  ∀ (p pa : Nat) (x : Pkt) (s : State), Wins s p 5 x → Memory.wf 0 s.mem = true →
    let cid := (s.queue x.qid).cid
    let t := fieldAt x.bytes 8 8
    let v := fieldAt x.bytes 0x10 8
    let op := fieldAt x.bytes 0x18 1
    let ended := { x with started := true, done := true, gwct := gwctOf s pa, fault := none }
    (op = 0 → AgentWrites s cid t 8 pa → ∃ u, exec (.signalStore p) s = .next u ∧ bytesAt u.mem pa 8 = v % 2 ^ 64 ∧
      OnlyBytes s u pa 8 ∧ u.pkt p = some ended) ∧
    (op = 1 → AgentWrites s cid t 8 pa → poisoned s pa 8 = false → ∃ u, exec (.signalAtomicAdd p) s = .next u ∧
      bytesAt u.mem pa 8 = (bytesAt s.mem pa 8 + v) % 2 ^ 64 ∧ OnlyBytes s u pa 8 ∧ u.pkt p = some ended) ∧
    (op = 2 → walkAddr s cid t .write = .inl pa → homeGone s pa = false → poisoned s pa 1 = false →
      (bytesAt s.mem pa 1 = 0 → futureQuiet s pa = true → ∃ u, exec (.signalCompleteFuture p) s = .next u ∧
        bytesAt u.mem pa 1 = 1 ∧ bytesAt u.mem (pa + 8) 8 = v % 2 ^ 64 ∧ bytesAt u.mem (pa + 16) 16 = 0 ∧ OnlyBytes s u pa 32 ∧
        u.pkt p = some { x with started := true, done := true, gwct := 0, fault := none }) ∧
      (bytesAt s.mem pa 1 ≠ 0 → ∃ u, exec (.signalCompleteFuture p) s = .next u ∧ SameMemory s u ∧
        u.pkt p = some { x with started := true, done := true, gwct := 0, fault := none })) ∧
    (∀ c k, walkAddr s cid t .write = .inr c → c ≠ 0x12 → upfOf s cid = false → (s.queue x.qid).slot = some k →
      ∀ i, (op = 0 ∧ i = .signalStore p) ∨ (op = 1 ∧ i = .signalAtomicAdd p) ∨ (op = 2 ∧ i = .signalCompleteFuture p) →
      ∃ u, exec i s = .next u ∧ u.errslot = s.errslot ||| (1#32 <<< k) ∧ (u.queue x.qid).stopped = true ∧
        u.pkt p = some { x with started := true, done := true, gwct := 0, fault := none })

/-- R107: a WAIT ends when its condition holds, waits otherwise, and stops its queue when its time is up. -/
def Claims.Waits : Prop :=
  ∀ (p pa : Nat) (x : Pkt) (s : State),
    let cid := (s.queue x.qid).cid
    let b := x.bytes
    let code := fieldAt b 0x20 1
    let n := if code = 3 then 1 else 8
    let v := bytesAt s.mem pa n
    let m := fieldAt b 0x18 8
    let y := fieldAt b 0x10 8 &&& m
    let met := [v &&& m == y, v &&& m != y, decide (y ≤ v &&& m), v != 0].getD code false
    let us := fieldAt b 0x24 4
    let due := if us = 0 then none else some (s.time + us * mhzOf s.op) -- log 13
    let free := (consumeReady (s.queue x.qid) x.index 1 s).2 = .none
    code < 4 → AgentReads s cid (fieldAt b 8 8) n pa →
    (Wins s p 6 x → x.done = false →
      (met = true → free → ∃ u, exec (.waitPacket p) s = .next u ∧ (u.queue x.qid).heldWait = none ∧
        u.pkt p = some { x with started := true, done := true, deadline := due, gwct := 0, fault := none }) ∧
      (met = false → ∃ u, exec (.waitPacket p) s = .next u ∧ SameMemory s u ∧ (u.queue x.qid).heldWait = some p ∧
        u.pkt p = some { x with started := true, deadline := due })) ∧
    (s.pkt p = some x → x.kind = 6 → x.started = true → x.done = false →
      (met = true → free → (s.queue x.qid).slot ≠ none → ∃ u, exec (.waitReevaluate p) s = .next u ∧ (u.queue x.qid).heldWait = none ∧
        u.pkt p = some { x with done := true, gwct := 0, fault := none }) ∧
      (met = false → exec (.waitReevaluate p) s = .next s) ∧
      (∀ d k, x.deadline = some d → d ≤ s.time → (s.queue x.qid).slot = some k → tsorted s.packets 0 = true →
        ∃ u, exec (.waitTimeout p) s = .next u ∧ u.pkt p = none ∧ (u.queue x.qid).heldWait = none ∧
          (u.queue x.qid).stopped = true ∧ u.errslot = s.errslot ||| (1#32 <<< k)))

/-- Tier 1. SIGNAL and WAIT packets: the parts above.
It rests also on choices and readings of the model: log 13 (the deadline of a WAIT, from microseconds at the running point), 21, 29 and 52. -/
def Obligations.SignalsAndWaits : Prop := Claims.Signals ∧ Claims.Waits

/-- R24, R29, R110 to R112: a launch that passes its checks seeds one range on each core of its partition; one that does not is
refused; and the regulator's settling sets the running point. -/
def Claims.LaunchesStart : Prop :=
  (∀ (p pa : Nat) (x : Pkt) (s : State), Wins s p 1 x → launchOfPkt s p = none →
    let q := s.queue x.qid
    let r := reqOf x
    let b := bytesFrom s pa 128
    let part := partition s q.cid r.pmask
    (∀ c, earlyRefusal s q.cid r = some c → ∃ u n, exec (.launchPacket p) s = .next u ∧ SameMemory s u ∧
      (u.launch n).refused = some c ∧ (u.launch n).pkt = p ∧ (u.queue x.qid).inFlight = q.inFlight + 1) ∧
    (earlyRefusal s q.cid r = none → r.shape = 0 → r.gang = false → r.closure < 2 ^ 52 → r.closure % 128 = 0 →
      AgentReads s q.cid r.closure 128 pa → templateBad r (launchImage r.teamcfg b) = none → s.stitching = false →
      (∀ c, c ∈ part → (s.core c).deque.length < 512) →
      ∃ u n, exec (.launchPacket p) s = .next u ∧ SameMemory s u ∧
        u.pkt p = some { x with started := true } ∧ (u.queue x.qid).inFlight = q.inFlight + 1 ∧
        (u.launch n).st = .running ∧ (u.launch n).pkt = p ∧ (u.launch n).box = r.extents ∧ (u.launch n).partition = part ∧
        ∀ k c, part[k]? = some c →
          let lo := k * r.total / part.length
          let hi := (k + 1) * r.total / part.length
          lo < hi → ∃ e, e ∈ (u.core c).deque ∧ e.kind = .range n lo hi)) ∧
  (∀ s : State, ∃ u, exec .vfSettle s = .next u ∧ SameMemory s u ∧ u.settling = false ∧ (∀ n, (u.launch n).vfWait = false) ∧
    ((∀ e, e ∈ s.launches → e.2.st ≠ .complete → 8 ≤ e.2.vf) → u.op = s.ppoint) ∧
    (∀ e, e ∈ s.launches → e.2.st ≠ .complete → e.2.vf < 8 →
      (∀ f, f ∈ s.launches → f.2.st ≠ .complete → e.2.vf ≤ f.2.vf) → u.op = max e.2.vf s.ppoint))

/-- R440 to R442: a launch with no work left completes: its record holds the counts, then its future the number of faulted
identifiers, then its packet is done. -/
def Claims.LaunchesComplete : Prop :=
  ∀ (n : Nat) (s : State), thas s.launches n = true → (s.launch n).st = .running → (s.launch n).refused = none →
    (s.launch n).status = 0 → (s.launch n).aborted = false → (s.launch n).linkDown = false → Memory.wf 0 s.mem = true →
    let l := s.launch n
    (l.recGw = none → launchBusy s n = false →
      (l.done = 0 → ∃ u, exec (.launchComplete n) s = .next u ∧ SameMemory s u ∧ (u.launch n).st = .complete ∧
        ∀ x, s.pkt l.pkt = some x → u.pkt l.pkt = some { x with started := true, done := true, gwct := 0, fault := none }) ∧
      (∀ pa, l.done ≠ 0 → AgentWrites s l.cid (l.done + 0x40) 64 pa →
        ∃ u, exec (.launchComplete n) s = .next u ∧ OnlyBytes s u pa 64 ∧ (u.launch n).st = .running ∧
          (u.launch n).recGw = some (gwctOf s pa) ∧ bytesAt u.mem pa 1 = 0 ∧ bytesAt u.mem (pa + 24) 8 = l.retired % 2 ^ 64 ∧
          bytesAt u.mem (pa + 32) 8 = l.faulted % 2 ^ 64)) ∧
    (∀ g pa, l.recGw = some g → g < s.time → walkAddr s l.cid l.done .write = .inl pa → homeGone s pa = false →
      poisoned s pa 1 = false → bytesAt s.mem pa 1 = 0 → futureQuiet s pa = true →
      ∃ u, exec (.launchComplete n) s = .next u ∧ (u.launch n).st = .complete ∧ bytesAt u.mem pa 1 = 1 ∧
        bytesAt u.mem (pa + 8) 8 = l.faulted % 2 ^ 64 ∧ OnlyBytes s u pa 32)

/-- Tier 1. Launches start and complete: the parts above.
It rests also on choices and readings of the model: log 13, 21 and 44. -/
def Obligations.Launches : Prop := Claims.LaunchesStart ∧ Claims.LaunchesComplete

/-- R274, R276, R277, R393: a gather, a scatter and gang accesses take effect for a lane and complete; a mirrored store is delivered
to each member. -/
def Claims.GatherAndGangOperationsTakeEffect : Prop :=
  ∀ (core unit idx tid n : Nat) (o : EngOp) (g : GLane) (s : State), unitTid s core unit = some tid →
    opAt s tid idx = some o → o.done = false → (n = 1 ∨ n = 2 ∨ n = 4 ∨ n = 8 ∨ n = 16) →
    (opReady s tid o = true →
      (∀ p, o.kind = .vgth [g] n → homeGone s g.pa = false → poisonedTo s tid g.pa n = false →
        spLoc s (taskOf tid) g.off n = some p → (s.task p.1).bufs = [] → Memory.wf 0 (s.task p.1).spad = true →
        ∃ u, exec (.gthComplete core unit idx) s = .next u ∧ SameMemory s u ∧ OpDone u tid o.id ∧
          bytesAt (u.task p.1).spad p.2 n = viewRead s (viewTag s (taskOf tid)) g.pa n) ∧
      (∀ p, o.kind = .vsct [g] n → homeGone s g.pa = false → isSpec s (taskOf tid) = false →
        hostHolds s (taskOf tid) g.pa n = false → spLoc s (taskOf tid) g.off n = some p → spPoisoned s p n = false →
        Memory.wf 0 s.mem = true → ∃ u, exec (.gthComplete core unit idx) s = .next u ∧ bytesAt u.mem g.pa n = bytesAt (s.task p.1).spad p.2 n ∧
          (∀ b, b < g.pa ∨ g.pa + n ≤ b → byteAt u.mem b = byteAt s.mem b) ∧
          (u.thread tid).maxw = max (s.thread tid).maxw (gwctOf s g.pa)) ∧
      (o.kind = .vsct [] n → o.gwct < s.time → ∃ u, exec (.gthComplete core unit idx) s = .next u ∧ SameMemory s u ∧
        OpDone u tid o.id) ∧
      (∀ m d, o.kind = .gld m d [g] → gangOrder (s.thread tid) o m = true → hasExited s m = false → g.lane < 64 →
        spPoisoned s (m, g.off) 4 = false → (s.thread tid).pending = [] → (s.thread tid).region = none → RowsOk (s.thread tid) →
        ∃ u, exec (.gthComplete core unit idx) s = .next u ∧ SameMemory s u ∧ OpDone u tid o.id ∧
          (u.thread tid).vlane d g.lane = BitVec.ofNat 32 (bytesAt (s.task m).spad g.off 4)) ∧
      (∀ m, o.kind = .gst m [g] → gangOrder (s.thread tid) o m = true → hasExited s m = false →
        (s.task m).bufs = [] → Memory.wf 0 (s.task m).spad = true →
        ∃ u, exec (.gthComplete core unit idx) s = .next u ∧ SameMemory s u ∧ OpDone u tid o.id ∧
          bytesAt (u.task m).spad g.off 4 = g.data % 2 ^ 32) ∧
      (o.kind = .mst [g] n [] → ∃ u, exec (.gthComplete core unit idx) s = .next u ∧ SameMemory s u ∧ OpDone u tid o.id)) ∧
    (∀ m todo, o.kind = .mst [g] n todo → m ∈ todo → opReady s tid o = true → gangOrder (s.thread tid) o m = true →
      (hasExited s m = false → (s.task m).bufs = [] → Memory.wf 0 (s.task m).spad = true →
        ∃ u q, exec (.mstDelivery core unit idx m) s = .next u ∧ SameMemory s u ∧
          bytesAt (u.task m).spad g.off n = g.data % 256 ^ n ∧ opAt u tid idx = some q ∧ q.kind = .mst [g] n (todo.erase m)) ∧
      (hasExited s m = true → ∀ k i, (s.taskT tid).gang = some (k, i) →
        ∃ u, exec (.mstDelivery core unit idx m) s = .next u ∧ SameMemory s u ∧ u.tasks = s.tasks ∧
          (u.gang k).errs = (s.gang k).errs + 1))

/-- R188, R189, R289, R309, R385: due results land in order, an expired copy is no longer served, a walk's leaf enters the TLBs, and
a fetched slice enters its FIFO. -/
def Claims.ResultsLeasesWalksAndSlices : Prop :=
  (∀ (core unit tid : Nat) (due rest : List Pend) (s : State), unitTid s core unit = some tid →
    (s.thread tid).pending = due ++ rest → (∀ x, x ∈ due → x.due ≤ s.time) → (∀ x, rest.head? = some x → s.time < x.due) →
    ∃ u, exec (.fixedLatencyWriteback core unit) s = .next u ∧ OnlyThreads s u ∧
      u.thread tid = { due.foldl (fun t x => t.land1 x.w) (s.thread tid) with pending := rest } ∧
      ∀ i, i ≠ tid → u.thread i = s.thread i) ∧
  (∀ (core line : Nat) (s : State), ∃ u, exec (.leaseExpiry core line) s = .next u ∧ SameMemory s u ∧
    ∀ x, x ∈ (u.core core).l1 ↔ x ∈ (s.core core).l1 ∧ (x.line ≠ line ∨ s.time < x.expiry)) ∧
  (∀ (core cid va : Nat) (s : State), va < 2 ^ 52 → (∀ e, e ∈ (s.core core).tlb → e.covers cid va = false) →
    (∀ e, e ∈ tget [] s.dieTlb (dieOfCore core) → e.covers cid va = false) → merged s cid va = false →
    ∃ u, exec (.tlbWalk core cid va) s = .next u ∧ SameMemory s u ∧ u.tlbMiss = s.tlbMiss + 1 ∧
      (∀ e, walkVia s (dieOfCore core) cid va = .leaf e → e ∈ (u.core core).tlb ∧ e ∈ tget [] u.dieTlb (dieOfCore core)) ∧
      (∀ c m, walkVia s (dieOfCore core) cid va = .bad c m → u.badPte = (if m then s.badPte + 1 else s.badPte) ∧ u.cores = s.cores)) ∧
  (∀ (core idx : Nat) (x : Strm) (s : State), (s.core core).streams[idx]? = some x → x.fifo < 4 →
    fifoRoom s core (taskOf x.tid) x.fifo = true →
    (x.poison = true → ∃ u sl, exec (.streamSliceEnter core idx) s = .next u ∧ SameMemory s u ∧
      fifoOf (u.core core) x.fifo = fifoOf (s.core core) x.fifo ++ [sl] ∧ sl.idx = x.next ∧ sl.strm = x.id ∧
      sl.data = List.replicate 1024 (poisonCode x.lrec.fmt)) ∧
    (∀ s1 sl, x.poison = false → strmMay s x = true → fetchSlice core x (strmBuf s x) s = (s1, sl, .none) →
      ∃ u, exec (.streamSliceEnter core idx) s = .next u ∧
        fifoOf (u.core core) x.fifo = fifoOf (s1.core core) x.fifo ++ [sl]))

/-- Tier 1. Gathers and gang accesses take effect; results, leases, walks and slices: the parts above.
It rests also on choices and readings of the model: log 7 and 11. -/
def Obligations.EngineOperationsTakeEffect : Prop := Claims.GatherAndGangOperationsTakeEffect ∧ Claims.ResultsLeasesWalksAndSlices

/-- Tier 1. R263, R266, R291, R361, R447, R453, R470: shootdowns, format and landing windows, and the fields that a register write sets.
It rests also on choices and readings of the model: log 9 and 22. -/
def Obligations.ShootdownsAndRegisterBlocks : Prop :=
  (∀ (cid : BitVec 12) (size : BitVec 2) (s : State), ∃ u x, exec (.tlbShoot cid size) s = .next u ∧ SameMemory s u ∧
    u.shootReq = s.shootReq + 1 ∧ u.shoots = s.shoots ++ [x] ∧ x.cid = cid.toNat ∧ x.va = s.shootVa ∧ x.size = size.toNat) ∧
  (∀ (x : Shoot) (l : List Shoot) (s : State), s.shoots = x :: l → shootHeld s x = false →
    (∀ e, e ∈ s.queues → e.2.errOwed = none) → ∃ u, exec .shootdownComplete s = .next u ∧ SameMemory s u ∧ u.shoots = l ∧ u.shootDone = s.shootDone + 1 ∧
      (∀ c e, e ∈ (u.core c).tlb → x.hits e.cid e.va (2 ^ e.bits) = false) ∧
      ∀ d e, e ∈ tget [] u.dieTlb d → x.hits e.cid e.va (2 ^ e.bits) = false) ∧
  (∀ (i reg : Nat) (v : W64) (s : State), Memory.wf {} s.l2 = true →
    let old := tget {} s.fwin i
    let oldl := tget {} s.lwin i
    (i < 64 → reg < 4 → ∃ u, exec (.fwinWrite i reg v) s = .next u ∧
      tget {} u.fwin i = (if reg = 0 then { old with base := v.toNat % 2 ^ 52 / 128 * 128 }
        else if reg = 1 then { old with limit := v.toNat % 2 ^ 52 / 128 * 128 }
        else if reg = 2 then { old with en := v.getLsbD 0, fmt := v.toNat / 2 ^ 8 % 2 ^ 8, blke := v.toNat / 2 ^ 16 % 2 ^ 8 }
        else { old with scale := v.toNat % 2 ^ 52 }) ∧
      ∀ line, (old.base < 128 * line + 128 ∧ 128 * line < old.limit) ∨
          ((tget {} u.fwin i).base < 128 * line + 128 ∧ 128 * line < (tget {} u.fwin i).limit) →
        (u.l2line line).inL2 = false) ∧
    (i < 16 → reg < 3 → ∃ u, exec (.lwinWrite i reg v) s = .next u ∧
      tget {} u.lwin i = (if reg = 0 then { oldl with en := v.getLsbD 0, base := v.toNat % 2 ^ 52 / 128 * 128 }
        else if reg = 1 then { oldl with limit := v.toNat % 2 ^ 52 / 128 * 128 } else { oldl with cid := v.toNat % 2 ^ 12 }) ∧
      ∀ line, (oldl.base < 128 * line + 128 ∧ 128 * line < oldl.limit) ∨
          ((tget {} u.lwin i).base < 128 * line + 128 ∧ 128 * line < (tget {} u.lwin i).limit) →
        (u.l2line line).inL2 = false)) ∧
  (∀ (v : W64) (s : State),
    (v.toNat % 2 ^ 32 ≠ 0 → exec (.registerWrite 0x20008 v) s = .next { s with ageq := v.setWidth 32 }) ∧
    exec (.registerWrite 0x60000 v) s = .next { s with ctxBase := v.toNat % 2 ^ 52 / 2 ^ 15 * 2 ^ 15 } ∧
    exec (.registerWrite 0x60008 v) s = .next { s with shootVa := v.toNat % 2 ^ 52 } ∧
    exec (.registerWrite 0xB0000 v) s =
      .next (if v.toNat % 2 ^ 32 < 65536 then s else { s with opTimeout := v.toNat % 2 ^ 32 }) ∧
    exec (.registerWrite 0xC0000 v) s = .next { s with mbxOpc := v.setWidth 16 } ∧
    (∀ k, k < 8 → exec (.registerWrite (0xC0010 + 8 * k) v) s = .next { s with mbxArg := tputD 0 s.mbxArg k v }) ∧
    exec (.registerWrite 0xD0000 v) s =
      .next (if v.toNat % 2 ^ 32 < 100 then s else { s with quantum := v.toNat % 2 ^ 32 }) ∧
    (∃ u, exec (.registerWrite 0xF0000 v) s = .next u ∧ SameMemory s u ∧ u.oplim = v.toNat / 2 ^ 16 % 8 ∧
      u.cap = (if v.toNat % 2 ^ 16 < 1000 then s.cap else min (v.toNat % 2 ^ 16) 3000) ∧ u.ppoint = max s.ppoint u.oplim) ∧
    (∀ off, off < 0x20000 → exec (.registerWrite off v) s = .next s))

/-- R447, R448: CTX_CREATE and CTX_DESTROY. -/
def Claims.MailboxContexts : Prop :=
  ∀ s : State,
    (Takes s 1 →
      let n := argAt s 3 % 2 ^ 16
      let quota := argAt s 3 / 2 ^ 16 % 2 ^ 8
      (n = 0 ∨ 224 < n → ∃ u, exec .ctxCreate s = .next u ∧ Ended s u 1 ∧ SameMemory s u ∧ u.ctxs = s.ctxs) ∧
      (0 < n → n ≤ 224 → addrOk (argAt s 0) 65536 = true → addrOk (argAt s 1) 4 = true → addrOk (argAt s 2) 65536 = true →
        addrOk (argAt s 5) 4096 = true →
        (workReady s = false ∨ (freeCores s).length < n ∨ 32 < usedQuota s + quota → ∃ u, exec .ctxCreate s = .next u ∧
          Ended s u 2 ∧ SameMemory s u ∧ u.ctxs = s.ctxs) ∧
        (∀ cid, workReady s = true → n ≤ (freeCores s).length → usedQuota s + quota ≤ 32 → freeCid s = some cid →
          hostIn s (s.ctxBase + 8 * cid) 8 = false → Memory.wf 0 s.mem = true →
          ∃ u, exec .ctxCreate s = .next u ∧ Ended s u 0 ∧ argAt u 0 = cid ∧
            (u.ctx cid).ltbase = argAt s 0 ∧ (u.ctx cid).hpc = BitVec.ofNat 64 (argAt s 1) ∧
            (u.ctx cid).dumpbase = argAt s 2 ∧ (u.ctx cid).quota = quota ∧ (u.ctx cid).root = argAt s 5 ∧
            (u.ctx cid).upf = (argAt s 3).testBit 24 ∧ (u.ctx cid).cores.length = n ∧
            (∀ k, k ∈ (u.ctx cid).cores → (s.core k).ctx = none ∧ (u.core k).ctx = some cid ∧ (u.core k).spillCap = argAt s 4) ∧
            bytesAt u.mem (s.ctxBase + 8 * cid) 8 = 1 + (if (argAt s 3).testBit 24 then 2 else 0) + argAt s 5 ∧
            OnlyBytes s u (s.ctxBase + 8 * cid) 8))) ∧
    (Takes s 2 →
      let cid := argAt s 0
      (thas s.ctxs cid = false → ∃ u, exec .ctxDestroy s = .next u ∧ Ended s u 3 ∧ SameMemory s u) ∧
      (thas s.ctxs cid = true → tornDown s cid = true → tsorted s.ctxs 0 = true → hostIn s (s.ctxBase + 8 * cid) 8 = false →
        Memory.wf 0 s.mem = true →
        ∃ u, exec .ctxDestroy s = .next u ∧ Ended s u 0 ∧ thas u.ctxs cid = false ∧
          (∀ c, c ∈ (s.ctx cid).cores → (u.core c).ctx = none) ∧ (∀ e, e ∈ u.queues → e.2.cid ≠ cid) ∧
          bytesAt u.mem (s.ctxBase + 8 * cid) 8 = 0) ∧
      (thas s.ctxs cid = true → tornDown s cid = false → ∃ u, exec .ctxDestroy s = .next u ∧ u.mbxRun ≠ none ∧
        (∀ e, e ∈ u.queues → e.2.cid = cid → e.2.dying = true) ∧
        ∀ k, (s.task k).st = .running → thas s.tasks k = true → (s.task k).cid = cid → (s.task k).dump ≠ .over → (u.task k).fatal ≠ []))

/-- R98, R448, R454, R457: Q_CREATE, Q_DESTROY, RANGES_FREE, PEER_BIND, CKPT_REG, and a code that is not listed. -/
def Claims.MailboxQueuesAndBindings : Prop :=
  ∀ s : State,
    let a := argAt s
    (Takes s 3 →
      ((addrOk (a 1) 256 = false ∨ 2 ≤ a 2) → ∃ u, exec .qCreate s = .next u ∧ Ended s u 1 ∧ SameMemory s u) ∧
      (addrOk (a 1) 256 = true → a 2 < 2 → workReady s = false → ∃ u, exec .qCreate s = .next u ∧ Ended s u 2 ∧ SameMemory s u) ∧
      (addrOk (a 1) 256 = true → a 2 < 2 → workReady s = true → thas s.ctxs (a 0) = false →
        ∃ u, exec .qCreate s = .next u ∧ Ended s u 3 ∧ SameMemory s u) ∧
      (∀ pa pb qid, thas s.ctxs (a 0) = true → (s.ctx (a 0)).dying = false → addrOk (a 1) 256 = true → a 2 < 2 →
        workReady s = true → AgentReads s (a 0) (a 1) 16 pa → qcbOk (bytesFrom s pa 16) = true → freeQid s = some qid →
        AgentWrites s (a 0) (a 1 + 0x0A) 4 pb → Memory.wf 0 s.mem = true →
        ∃ u, exec .qCreate s = .next u ∧ Ended s u 0 ∧ argAt u 0 = qid ∧ (u.queue qid).cid = a 0 ∧ (u.queue qid).qcb = a 1 ∧
          (u.queue qid).send = (a 2 == 1) ∧ (u.queue qid).slot = none ∧
          bytesAt u.mem pb 4 = qid + 2 ^ 16 * (a 0 % 2 ^ 16) ∧ OnlyBytes s u pb 4)) ∧
    (Takes s 4 →
      (thas s.queues (a 0) = false → ∃ u, exec .qDestroy s = .next u ∧ Ended s u 3 ∧ SameMemory s u) ∧
      (thas s.queues (a 0) = true → tsorted s.queues 0 = true → queuePkts s (a 0) = [] → (∀ e, e ∈ s.descs → e.2.qid ≠ a 0) → saveWaits s (a 0) = false →
        ∃ u, exec .qDestroy s = .next u ∧ Ended s u 0 ∧ thas u.queues (a 0) = false ∧
          ∀ k, (s.queue (a 0)).slot = some k → ((tget {} u.slots k).qid = none))) ∧
    (Takes s 5 → ∃ u, exec .rangesFree s = .next u ∧
      (2 ^ 52 ≤ a 1 → Ended s u 1 ∧ u.ranges = s.ranges ∧ SameMemory s u) ∧
      (a 1 < 2 ^ 52 → (∃ n, (a 0, a 1, n) ∈ s.ranges) → Ended s u 0 ∧
        ∀ r, r ∈ u.ranges ↔ r ∈ s.ranges ∧ ¬ (r.1 = a 0 ∧ r.2.1 = a 1)) ∧
      (a 1 < 2 ^ 52 → (∀ r, r ∈ s.ranges → ¬ (r.1 = a 0 ∧ r.2.1 = a 1)) → Ended s u 3 ∧ u.ranges = s.ranges ∧ SameMemory s u)) ∧
    (Takes s 6 → ∃ u, exec .peerBind s = .next u ∧ SameMemory s u ∧
      (thas s.ctxs (a 0) = false → Ended s u 3 ∧ u.peers = s.peers) ∧
      (thas s.ctxs (a 0) = true → s.links = BitVec.allOnes 16 → Ended s u 0 ∧
        u.peers = s.peers ++ [(a 0, a 1 % 2 ^ 12, a 1 / 2 ^ 12 % 2 ^ 12, (a 1).testBit 24)])) ∧
    (Takes s 7 → ∃ u, exec .ckptReg s = .next u ∧ SameMemory s u ∧
      (thas s.ctxs (a 0) = false → Ended s u 3 ∧ u.ckpts = s.ckpts) ∧
      (thas s.ctxs (a 0) = true → addrOk (a 1) 1 = true → addrOk (a 4) 1 = true → addrOk (a 6) 1 = true →
        addrOk (a 7) 8 = true → a 3 < 2 ^ 12 → Ended s u 0 ∧ ∀ i, i < 8 → ckptArg u (a 0) i = a i)) ∧
    (∀ n, Takes s n → n = 0 ∨ 9 < n → ∃ u, exec .mbxUnknownOpc s = .next u ∧ Ended s u 1 ∧ SameMemory s u)

/-- R458 to R460: ATTEST writes its report to host memory; in recovery every command but FW_LOAD is DENIED, and an image that passes
goes to the flash and resets the device; outside recovery FW_LOAD is DENIED. -/
def Claims.MailboxFirmware : Prop :=
  ∀ s : State,
    let a := argAt s 0
    let r := argAt s 1
    (Takes s 8 → Memory.wf 0 s.mem = true → a + 48 ≤ 2 ^ 51 → r + 304 ≤ 2 ^ 51 → ∃ u b, exec .attest s = .next u ∧ Ended s u 0 ∧
      b = attestReport s (bytesFrom s (hostBase + a) 48) ∧ b.length = 304 ∧
      (∀ i, i < b.length → byteAt u.mem (hostBase + r + i) = b.getD i 0) ∧ OnlyBytes s u (hostBase + r) b.length) ∧
    (Takes s 9 → ∃ u, exec (.fwLoad ()) s = .next u ∧ Ended s u 4 ∧ SameMemory s u ∧ u.flash = s.flash) ∧
    (readyBit s 8 = true → s.mbxRun = none →
      (∀ i n, (n = 1 ∧ i = .ctxCreate) ∨ (n = 2 ∧ i = .ctxDestroy) ∨ (n = 3 ∧ i = .qCreate) ∨ (n = 4 ∧ i = .qDestroy) ∨
          (n = 5 ∧ i = .rangesFree) ∨ (n = 6 ∧ i = .peerBind) ∨ (n = 7 ∧ i = .ckptReg) ∨ (n = 8 ∧ i = .attest) →
        s.mbxOpc.toNat = n → ∃ u, exec i s = .next u ∧ Ended s u 4 ∧ SameMemory s u) ∧
      (s.mbxOpc.toNat = 0 ∨ 9 < s.mbxOpc.toNat → ∃ u, exec .mbxUnknownOpc s = .next u ∧ Ended s u 1 ∧ SameMemory s u) ∧
      (s.mbxOpc.toNat = 9 → a + r ≤ 2 ^ 51 →
        let img := bytesFrom s (hostBase + a) r
        (imageOk img = true → ∃ u, exec (.fwLoad ()) s = .next u ∧ SameMemory s u ∧ u.flash = some img ∧
          u.ready = 0 ∧ u.life.now.resets = s.life.now.resets + 1 ∧ u.ctxs = []) ∧
        (imageOk img = false → ∃ u, exec (.fwLoad ()) s = .next u ∧ Ended s u 4 ∧ SameMemory s u ∧ u.flash = s.flash)))

/-- Tier 1. The mailbox commands: the parts above.
It rests also on choices and readings of the model: log 4 and 18. -/
def Obligations.Mailbox : Prop := Claims.MailboxContexts ∧ Claims.MailboxQueuesAndBindings ∧ Claims.MailboxFirmware

/-- R450, R451: a queue is mapped to a slot at a quantum boundary, when it becomes ready, and in place of an idle one. -/
def Claims.QueuesAreMapped : Prop :=
  ∀ (qid k cid : Nat) (l : List Nat) (s : State), thas s.queues qid = true → freeSlots s = k :: l →
    (s.time < s.lastQuantum + s.quantum * mhzOf s.op → exec .umberQuantum s = .next s) ∧
    (s.lastQuantum + s.quantum * mhzOf s.op ≤ s.time → (∃ c, s.ctxs = [(cid, c)] ∧ 0 < c.quota) → ranking s cid = [qid] →
      (∀ q, isMapped s q = false) → ∃ u, exec .umberQuantum s = .next u ∧ SameMemory s u ∧ u.lastQuantum = s.time ∧
        (u.queue qid).slot = some k ∧ (tget {} u.slots k).qid = some qid ∧ u.maps = s.maps + 1 ∧ qid ∉ u.doorbell) ∧
    (isMapped s qid = false → queueReady s qid = true → mappedCount s (s.queue qid).cid < (s.ctx (s.queue qid).cid).quota →
      ∃ u, exec (.queueReadyMap qid) s = .next u ∧ SameMemory s u ∧ (u.queue qid).slot = some k ∧
        (u.queue qid).idle = false ∧ (tget {} u.slots k).qid = some qid ∧ u.maps = s.maps + 1 ∧ qid ∉ u.doorbell) ∧
    (∀ j b, (s.queue qid).slot = some j → bestReady s (s.queue qid).cid = some b → thas s.queues b = true →
      saveWaits s qid = false → (s.queue qid).idle = true ∨ heldByWait s (s.queue qid) = true →
      ∃ u, exec (.queueIdleSwap qid) s = .next u ∧ (u.queue qid).slot = none ∧ (u.queue b).slot = some j ∧
        (tget {} u.slots j).qid = some b ∧ u.maps = s.maps + 1)

/-- R290, R292, R453: Umber answers a translation fault by a replay or by handing it on, moves a page in its steps, and Slate takes
over. -/
def Claims.UmberServices : Prop :=
  (∀ (core unit tid sub : Nat) (l : List (Nat × Nat)) (s : State), unitTid s core unit = some tid → s.faultq = (tid, sub) :: l →
    (∀ e, e ∈ l → e ≠ (tid, sub)) →
    (∃ u, exec (.umberFaultService core unit true) s = .next u ∧ SameMemory s u ∧ u.faultq = l ∧
      ∀ i x, i < 64 → (s.thread tid).lanes[i]? = some x → x.hold = .umber → x.sub = sub → x.st = .parked →
        (u.thread tid).lanes[i]? = some { x with st := .active, hold := .none, pc := x.frec.fpc, frec := x.outer, outer := {} }) ∧
    (isSeq tid = false → hasHandler s (taskOf tid) = true → (s.taskT tid).ending = false →
      (∀ x, x ∈ (s.thread tid).lanes → x.inHandler = false) →
      ∃ u, exec (.umberFaultService core unit false) s = .next u ∧ SameMemory s u ∧ u.faultq = l ∧
        ∀ i x, i < 64 → (s.thread tid).lanes[i]? = some x → x.hold = .umber → x.sub = sub →
          (u.thread tid).lanes[i]? = some { x with hold := .none })) ∧
  (∀ (cid va page a level : Nat) (s : State), thas s.ctxs cid = true → va < 2 ^ 52 → leafOf s cid va = some (a, level) →
    Memory.wf 0 s.mem = true → tsorted s.mem 0 = true →
    let e : W64 := BitVec.ofNat 64 (bytesAt s.mem a 8)
    let size := 2 ^ pageBits level
    let found := s.migr.find? fun m => m.cid == cid && m.va == va
    (found = none → page % size = 0 → present s page = true → present s (page + size - 1) = true → hostIn s a 8 = false →
      ∃ u x, exec (.pageMigration cid va page) s = .next u ∧ bytesAt u.mem a 8 = e.toNat % 16 + 16 + pteAddr e ∧
        OnlyBytes s u a 8 ∧ u.shoots = s.shoots ++ [x] ∧ x.cid = cid ∧ x.va = va ∧ u.shootReq = s.shootReq + 1 ∧
        ∃ m, m ∈ u.migr ∧ m.cid = cid ∧ m.va = va ∧ m.page = page ∧ m.phase = 1) ∧
    (∀ m, found = some m → m.phase = 1 → shootOver s m.shoot = true → hostIn s m.page size = false → pteAddr e + size ≤ m.page ∨ m.page + size ≤ pteAddr e →
      ∃ u, exec (.pageMigration cid va page) s = .next u ∧ (∀ i, i < size → byteAt u.mem (m.page + i) = byteAt s.mem (pteAddr e + i)) ∧
        OnlyBytes s u m.page size ∧ { m with phase := 2 } ∈ u.migr) ∧
    (∀ m, found = some m → m.phase = 2 → hostIn s a 8 = false → m.page < 2 ^ 52 → m.page % 16 = 0 → ∃ u, exec (.pageMigration cid va page) s = .next u ∧
      bytesAt u.mem a 8 = e.toNat % 16 + m.page ∧ OnlyBytes s u a 8 ∧ u.shootReq = s.shootReq + 1 ∧
      ∃ n, n ∈ u.migr ∧ n.cid = cid ∧ n.va = va ∧ n.phase = 3) ∧
    (∀ m, found = some m → m.phase = 3 → shootOver s m.shoot = true → ∃ u, exec (.pageMigration cid va page) s = .next u ∧
      SameMemory s u ∧ ∀ n, n ∈ u.migr ↔ n ∈ s.migr ∧ ¬ (n.cid = cid ∧ n.va = va))) ∧
  (∀ s : State, readyBit s 1 = true → s.standby = true → ∃ u, exec .slateTakeover s = .next u ∧ u.standby = false ∧ u.slate = true ∧
    (∀ e, e ∈ u.queues → e.2.slot ≠ none → e.2.idle = false) ∧
    (s.migr = [] → u = { s with
      standby := false
      slate := true
      queues := s.queues.map fun e => if e.2.slot.isSome then (e.1, { e.2 with idle := false }) else e }) ∧
    (∀ m a level, s.migr = [m] → m.phase = 2 ∨ m.phase = 3 → leafOf s m.cid m.va = some (a, level) → m.va < 2 ^ 52 →
      thas s.ctxs m.cid = true → hostIn s a 8 = false → m.page % 2 ^ pageBits level = 0 → present s m.page = true →
      present s (m.page + 2 ^ pageBits level - 1) = true → ∃ n, u.migr = [n] ∧ n.cid = m.cid ∧ n.va = m.va ∧ n.page = m.page ∧ n.phase = 1))

/-- Tier 1. Queue mapping, fault service, page migration and Slate: the parts above.
It rests also on choices and readings of the model: log 8, 13 and 18. -/
def Obligations.UmberServices : Prop := Claims.QueuesAreMapped ∧ Claims.UmberServices

/-- R454 to R456: a notify of a send ring reads its descriptors, a descriptor that starts sends its local bytes or writes what a GET
brought, one whose device is lost faults, and one that is over completes its future and leaves. -/
def Claims.AxyelDescriptors : Prop :=
  (∀ (qid pa : Nat) (q : Queue) (s : State), tfind s.queues (qid % 2 ^ 12) = some q → q.send = true → q.dying = false →
    q.errOwed = none → qErr s q = 0 → AgentReads s q.cid (slotVa (qRbase s q) (qLog2n s q) (qRdidx s q)) 64 pa →
    let b := bytesFrom s pa 64
    (b.getD 7 0 ≠ 0xA5 → ∃ u, exec (.axlNotify qid) s = .next u ∧ SameMemory s u ∧ u.descs = s.descs ∧
      (u.queue (qid % 2 ^ 12)).idle = true) ∧
    (b.getD 7 0 = 0xA5 → descError b ≠ 0 → ∃ u, exec (.axlNotify qid) s = .next u ∧ u.descs = s.descs ∧
      (u.queue (qid % 2 ^ 12)).stopped = true) ∧
    (b.getD 7 0 = 0xA5 → descError b = 0 →
      (∃ pb pc, AgentWrites s q.cid (slotVa (qRbase s q) (qLog2n s q) (qRdidx s q)) 8 pb ∧ futureQuiet s pb = true ∧ AgentWrites s q.cid (q.qcb + 0x18) 8 pc) →
      ∃ u d x, exec (.axlNotify qid) s = .next u ∧ tfind u.descs d = some x ∧
      x.qid = qid % 2 ^ 12 ∧ x.cid = q.cid ∧ x.index = qRdidx s q ∧ x.bytes = b ∧ x.started = false)) ∧
  (∀ (d : Nat) (x : AxDesc) (s : State), tfind s.descs d = some x →
    let b := x.bytes
    let asks := fun (u : State) (data : List W8) => u.sent = s.sent ++ [{ dev := dDev b, kind := dKind b, raddr := dRaddr b, cause := 0, data := data, src := Config.devNum s.routeGen, dcid := dCid b, opc := dOpc b, count := dCount b, due := s.time }]
    (descStarts s d x = true →
      (∀ i, (dKind b = 1 ∧ i = Instr.axyelAppend d) ∨ (dKind b = 2 ∧ i = .axyelPut d) ∨ (dKind b = 4 ∧ i = .axyelLand d) →
        (s.lostDevs.contains (dDev b) = true → ∃ u y, exec i s = .next u ∧ SameMemory s u ∧ u.sent = s.sent ∧
          tfind u.descs d = some y ∧ y.done = true ∧ y.fault = some (0x22, 0)) ∧
        (∀ pa, s.lostDevs.contains (dDev b) = false → AgentReads s x.cid (dLaddr b) (dCount b) pa →
          ∃ u, exec i s = .next u ∧ SameMemory s u ∧ asks u (bytesFrom s pa (dCount b)) ∧
            tfind u.descs d = some { x with started := true })) ∧
      (∀ data, dKind b = 3 → x.asked = false → s.lostDevs.contains (dDev b) = false → ∃ u, exec (.axyelGet d data) s = .next u ∧
        SameMemory s u ∧ asks u [] ∧ tfind u.descs d = some { x with asked := true })) ∧
    (x.asked = true → x.started = false → x.done = false →
      (∀ pa data, s.lostDevs.contains (dDev b) = false → data.length = dCount b → x.purpose = 0 →
        exported s x = true → AgentWrites s x.cid (dLaddr b) data.length pa → Memory.wf 0 s.mem = true →
        ∃ u, exec (.axyelGet d data) s = .next u ∧ (∀ i, i < data.length → byteAt u.mem (pa + i) = data.getD i 0) ∧
          OnlyBytes s u pa data.length ∧ tfind u.descs d = some { x with started := true, gwct := gwctOf s pa })) ∧
    (x.gwct = 0 ∨ x.gwct < s.time → tsorted s.descs 0 = true → x.purpose = 0 → x.fault = none →
      ∀ cause, x.started = true ∨ (x.asked = true ∧ (cause ≠ 0 ∨ exported s x = false)) →
        let end_ : W8 := if exported s x then cause else 0x11
        (dFuture b = 0 → ∃ u, exec (.axyelDescriptorComplete d cause) s = .next u ∧ SameMemory s u ∧ tfind u.descs d = none) ∧
        (∀ pa, dFuture b ≠ 0 → walkAddr s x.cid (dFuture b) .write = .inl pa → homeGone s pa = false →
          poisoned s pa 1 = false → bytesAt s.mem pa 1 = 0 → futureQuiet s pa = true → Memory.wf 0 s.mem = true →
          ∃ u, exec (.axyelDescriptorComplete d cause) s = .next u ∧ tfind u.descs d = none ∧ OnlyBytes s u pa 32 ∧
            (end_ = 0 → bytesAt u.mem pa 1 = 1 ∧ bytesAt u.mem (pa + 8) 8 = dCount b % 2 ^ 64) ∧
            (end_ ≠ 0 → bytesAt u.mem pa 1 = 2 ∧ bytesAt u.mem (pa + 1) 1 = end_.toNat))))

/-- R454, R456, R457: what a peer may do is what an import binding allows; a lost device faults its descriptors and dumps the tasks of
contexts that are checkpointed to it. -/
def Claims.PeersAndLosses : Prop :=
  (∀ (dev pcid dcid raddr : Nat) (opc : BitVec 4) (data : List W8) (s : State),
    let answers := fun (u : State) (kind : Nat) (c : W8) (b : List W8) (due : Nat) =>
      u.sent = s.sent ++ [{ dev := dev, kind := 16 + kind, raddr := raddr, cause := c, data := b, src := Config.devNum s.routeGen,
                            count := b.length, due := due }]
    ((dcid, dev, pcid, true) ∉ s.peers → ∀ kind, ∃ u, exec (.axyelReceive dev pcid dcid kind raddr opc data) s = .next u ∧
      SameMemory s u ∧ u.queues = s.queues ∧ answers u kind 0x11 [] s.time) ∧
    ((dcid, dev, pcid, true) ∈ s.peers →
      (∀ pa, AgentWrites s dcid raddr data.length pa → Memory.wf 0 s.mem = true →
        ∃ u, exec (.axyelReceive dev pcid dcid 2 raddr opc data) s = .next u ∧ OnlyBytes s u pa data.length ∧
          (∀ i, i < data.length → byteAt u.mem (pa + i) = data.getD i 0) ∧ 
          answers u 2 0 [] (if gwctOf s pa = 0 then s.time else max s.time (gwctOf s pa + 1))) ∧
      (∀ pa, AgentReads s dcid raddr data.length pa →
        ∃ u, exec (.axyelReceive dev pcid dcid 3 raddr opc data) s = .next u ∧ SameMemory s u ∧
          answers u 3 0 (bytesFrom s pa data.length) s.time) ∧
      (∀ pa, raddr % data.length = 0 → data.length = 128 ∨ data.length = 256 → walkAddr s dcid raddr .write = .inl pa →
        homeGone s pa = false →
        ∃ u p, exec (.axyelReceive dev pcid dcid 4 raddr opc data) s = .next u ∧ SameMemory s u ∧
          u.landing = s.landing ++ [p] ∧ p.line = pa / 128 ∧ p.data = data ∧ p.opc = opc.toNat ∧
          p.mask = data.map (fun _ => true) ∧ p.tid = none ∧ p.peer = some (dev, raddr) ∧ u.sent = s.sent) ∧
      (data.length ≠ 128 → data.length ≠ 256 → ∃ u, exec (.axyelReceive dev pcid dcid 4 raddr opc data) s = .next u ∧ SameMemory s u ∧
        u.landing = s.landing ∧ ∃ c, c ≠ 0 ∧ answers u 4 c [] s.time))) ∧
  (∀ (dev : Nat) (s : State), dev ∉ s.lostDevs → s.recov = [] → ∃ u, exec (.linkLoss dev) s = .next u ∧ dev ∈ u.lostDevs ∧
    (s.ckpts = [] → SameMemory s u ∧ u.hostEvents.length = s.hostEvents.length + 2) ∧
    (s.ckpts = [] → ∀ d x, tfind s.descs d = some x → dDev x.bytes = dev → x.done = false → tsorted s.descs 0 = true →
      ∃ y, tfind u.descs d = some y ∧ y.done = true ∧ y.fault = some (0x22, 0)) ∧
    (∀ c p i k, s.ckpts = [c] → ((c.headD 0).toNat, dev, p, i) ∈ s.peers → thas s.tasks k = true →
      (s.task k).cid = (c.headD 0).toNat → (s.task k).st = .running → (s.task k).fatal = [] →
      ∃ f, (u.task k).fatal = [f] ∧ f.code = 0x22 ∧ f.unit = 8))

/-- Tier 1. Axyel descriptors, peers and lost devices: the parts above.
It rests also on choices and readings of the model: log 7, 19, 39, 40 and 41. -/
def Obligations.PeersOverAxyel : Prop := Claims.AxyelDescriptors ∧ Claims.PeersAndLosses

/-- Tier 1. R385, R445, R446, R472: the host's accesses over CXL, the return of a line that it holds, and a snoop of a line that the device
holds.
It rests also on choices and readings of the model: log 17 and 21. -/
def Obligations.HostAndDeviceCoherence : Prop :=
  (∀ (pa : Nat) (data : List W8) (keep write : Bool) (s : State), 0 < data.length → Memory.wf 0 s.mem = true →
    (pa < 2 ^ 40 → isHbm s pa = true → isHbm s (pa + data.length - 1) = true → (∀ l, l ∈ linesOf pa data.length → homeGone s (128 * l) = false) →
      ∃ u, exec (.hostCxlMemAccess pa write data keep) s = .next u ∧ OnlyBytes s u pa data.length ∧
        (write = true → ∀ i, i < data.length → byteAt u.mem (pa + i) = data.getD i 0) ∧ (write = false → SameMemory s u ∧
          u.hostReads = s.hostReads ++ [(pa, bytesFrom s pa data.length, poisoned s pa data.length)]) ∧
        (keep = true → ∀ l, l ∈ linesOf pa data.length → (u.l2line l).host = true)) ∧
    (pa < 2 ^ 40 → isHbm s pa = false → ∃ u, exec (.hostCxlMemAccess pa write data keep) s = .next u ∧ SameMemory s u ∧
      if write then u.life.ue = s.life.ue + 1 else ∃ b, b.length = data.length ∧ u.hostReads = s.hostReads ++ [(pa, b, true)]) ∧
    (hostBase ≤ pa → pa + data.length ≤ 2 ^ 52 → (∀ l, l ∈ linesOf pa data.length → (s.l2line l).inL2 = false) →
      ∃ u, exec (.hostCxlMemAccess pa true data keep) s = .next u ∧ OnlyBytes s u pa data.length ∧
        ∀ i, i < data.length → byteAt u.mem (pa + i) = data.getD i 0)) ∧
  (∀ (line : Nat) (s : State),
    ((s.l2line line).biWait = true → ∃ u, exec (.backInvalidateResponse line) s = .next u ∧ SameMemory s u ∧
      (u.l2line line).host = false ∧ (u.l2line line).biWait = false) ∧
    (hostBase ≤ 128 * line → (s.l2line line).inL2 = true → fwinAt s (128 * line) = none → Memory.wf {} s.l2 = true →
      ((s.l2line line).lease < s.time → ∃ u, exec (.cxlCacheSnoop line true) s = .next u ∧ SameMemory s u ∧
        (u.l2line line).inL2 = false) ∧
      (s.time ≤ (s.l2line line).lease → exec (.cxlCacheSnoop line true) s = .next s) ∧
      (∃ u, exec (.cxlCacheSnoop line false) s = .next u ∧ SameMemory s u ∧ (u.l2line line).inL2 = true ∧
        (u.l2line line).dirty = false)))

/-- Tier 1. R405 to R407, R409 to R413: a fabric header is corrected or dropped, an access without an answer faults, and a router, a die and a
bridge are lost and a re-stitch follows.
It rests also on choices and readings of the model: log 4, 7 and 19. -/
def Obligations.FabricLosses : Prop :=
  (∀ (die site link : Nat) (s : State),
    (∃ u, exec (.fabricHeaderCheck die site link 0) s = .next u ∧ SameMemory s u ∧ u.hcorr = s.hcorr + 1 ∧ u.hdrop = s.hdrop) ∧
    (∃ u, exec (.fabricHeaderCheck die site link 1) s = .next u ∧ SameMemory s u ∧ u.hdrop = s.hdrop + 1 ∧
      u.fabCount = s.fabCount + 1 ∧
      ((∀ p, tfind s.fabLog ((s.fabNext + 15) % 16) = some p → p.time = s.time → p.die ≤ die) →
        tfind u.fabLog s.fabNext = some ⟨s.time, die, site, link, 1⟩))) ∧
  (∀ (core unit idx tid : Nat) (a : Acc) (s : State), unit < 64 → unitTid s core unit = some tid →
    (s.thread tid).flight[idx]? = some a → (∀ x, x ∈ (s.thread tid).lanes → x.st = .parked → sameInst x a = false) →
    overdue s a = true → a.isLoad = true → a.blk = 0 → (∀ r, a.dst ≠ .s r) →
    (∃ x, (s.thread tid).lanes[a.lane]? = some x ∧ x.st ≠ .exited ∧ x.inHandler = false) → a.lane < 64 → isSeq tid = false →
    hasHandler s (taskOf tid) = true → isSpec s (taskOf tid) = false → (s.taskT tid).ending = false →
    ∃ u y, exec (.fabricOpTimeout core unit idx) s = .next u ∧ SameMemory s u ∧ u.timeouts = s.timeouts + 1 ∧
      (u.thread tid).lanes[a.lane]? = some y ∧ y.st = .parked ∧ y.frec = ⟨0x21, BitVec.ofNat 64 a.va, a.fpc, a.ilen, s.time⟩) ∧
  (∀ (die site : Nat) (s : State), die < 8 → site < 32 → bypassed s die site = false →
    ∃ u, exec (.routerFailure die site) s = .next u ∧ bypassed u die site = true ∧ (32 * die + site) ∈ u.lostSlices ∧
      (∀ c, coreAt s die site = some c → (u.core c).lost = true) ∧
      (4 ≤ bypassCount s die → die ∈ u.lostDies)) ∧
  (∀ (d : Nat) (s : State), d < 8 → ∃ u, exec (.dieLoss d) s = .next u ∧ d ∈ u.lostDies ∧
    (d ∉ s.lostDies → ∀ c, c / 28 = d → (u.core c).lost = true)) ∧
  (∀ (a b : Nat) (s : State),
    (bridged a b = true → bridgeKey a b ∉ s.lostBridges → ∃ u, exec (.bridgeLoss a b) s = .next u ∧ SameMemory s u ∧
      bridgeKey a b ∈ u.lostBridges ∧ u.stitching = true) ∧
    (bridgeKey a b ∈ s.lostBridges → ∃ u, exec (.bridgeReturn a b) s = .next u ∧ SameMemory s u ∧
      bridgeKey a b ∉ u.lostBridges ∧ u.stitching = true)) ∧
  (∀ s : State, s.stitching = true → ∃ u, exec .restitchComplete s = .next u ∧ SameMemory s u ∧ u.stitching = false ∧
    u.fabGen = s.fabGen + 1)

/-- R17, R18, R458, R459, R467 to R471: reset, bring-up, the power and current limits, scrubbing and the lifetime counters. -/
def Claims.ResetAndBringUp : Prop :=
  (∀ (lost : Bool) (s : State), ∃ u, exec (.reset (.start lost)) s = .next u ∧ u.fuses = false ∧ u.ctxs = [] ∧ u.queues = [] ∧ u.tasks = [] ∧
    u.threads = [] ∧ u.launches = [] ∧ u.cores = [] ∧ u.hbmMask = 0 ∧ u.links = 0 ∧ u.ready = 0 ∧ u.flash = s.flash ∧
    u.life.now.resets = (if lost then s.life.kept.resets else s.life.now.resets) + 1 ∧
    (lost = false → SameMemory s u ∧ u.life.ue = s.life.ue ∧ u.life.ceHbm = s.life.ceHbm) ∧ (lost = true → u.life.ue = 0 ∧ u.life.ceHbm = 0)) ∧
  (∀ s : State,
    (readyBit s 0 = false → ∃ u, exec (.reset .fuses) s = .next u ∧ SameMemory s u ∧ u.fuses = true ∧ readyBit u 0 = true) ∧
    (readyBit s 0 = true → mbxLive s = false → ∃ u, exec (.reset .firmware) s = .next u ∧ SameMemory s u ∧
      ∀ i, readyBit u i = if i = (if imageOk (runningImage s) then 1 else 8) then true else readyBit s i) ∧
    (bringingUp s = true →
      (s.hbmMask = 0 → ∃ u, exec (.reset .trained) s = .next u ∧ readyBit u 9 = true ∧ u.failcode = 4) ∧
      (readyBit s 3 = true → readyBit s 4 = false → ∃ u, exec (.reset (.routes false)) s = .next u ∧ readyBit u 9 = true ∧ u.failcode = 3) ∧
      (∀ i g, (i, g) ∈ [(2, ResetStage.trained), (4, .routes true), (5, .frontEnd), (6, .nearUnits)] → s.hbmMask ≠ 0 →
        (∀ j, j < i → readyBit s j = true) → readyBit s i = false → ∃ u, exec (.reset g) s = .next u ∧ SameMemory s u ∧ readyBit u i = true ∧
          ∀ j, j ≠ i → j ≠ 7 → readyBit u j = readyBit s j))) ∧
  (∀ (st : Nat) (s : State), st < 16 → bringingUp s = true → readyBit s 2 = false →
    ∃ u, exec (.stackTrained st) s = .next u ∧ SameMemory s u ∧ ∀ k, u.hbmMask.getLsbD k = (s.hbmMask.getLsbD k || k == st)) ∧
  (∀ s : State, bringingUp s = true → readyBit s 2 = true → readyBit s 3 = false →
    ∀ c, c < 3 → ∃ u, exec (.repairDone c) s = .next u ∧ SameMemory s u ∧
      let code := if (List.range 8).any fun d => (workingSites s d).length < 28 then 1 else c
      (code = 0 → ∀ i, readyBit u i = (readyBit s i || i == 3)) ∧
      (code ≠ 0 → readyBit u 9 = true ∧ readyBit u 3 = false ∧ u.failcode = code)) ∧
  (∀ (l : Nat) (s : State), l < 16 → readyBit s 0 = true → readyBit s 8 = false →
    ∃ u, exec (.linkTrained l) s = .next u ∧ SameMemory s u ∧ (∀ k, u.links.getLsbD k = (s.links.getLsbD k || k == l)) ∧
      (readyBit s 7 = false → (readyBit u 7 = true ↔ (∀ i, i < 7 → readyBit s i = true) ∧ u.links = BitVec.allOnes 16)))

/-- R465 to R470: the power cap, the current limit, patrol scrubbing and the counters that flash keeps. -/
def Claims.PowerAndErrors : Prop :=
  (∀ (w : Nat) (s : State),
    let ms := 1000 * mhzOf s.op
    (s.cap < w → ∃ u, exec (.powerOverCap w) s = .next u ∧ SameMemory s u ∧ u.watts = BitVec.ofNat 16 w ∧ u.underAt = none ∧
      ((∀ t, s.overAt = some t → t + ms ≤ s.time) → u.ppoint = min 7 (s.ppoint + 1) ∧ u.overAt = some s.time ∧
        (targetOp u ≠ s.op → u.settling = true)) ∧
      (∀ t, s.overAt = some t → s.time < t + ms → u.ppoint = s.ppoint ∧ u.overAt = some t)) ∧
    (w ≤ s.cap → exec (.powerOverCap w) s = .next s) ∧
    (w ≤ s.cap → ∃ u, exec (.powerUnderCap w) s = .next u ∧ SameMemory s u ∧ u.watts = BitVec.ofNat 16 w ∧ u.overAt = none ∧
      (95 * s.cap ≤ 100 * w → u.underAt = none ∧ u.ppoint = s.ppoint) ∧
      (100 * w < 95 * s.cap →
        (s.underAt = none → u.underAt = some s.time ∧ u.ppoint = s.ppoint) ∧
        (∀ t, s.underAt = some t → s.time < t + 10 * ms → u.underAt = some t ∧ u.ppoint = s.ppoint) ∧
        (∀ t, s.underAt = some t → t + 10 * ms ≤ s.time → u.underAt = some s.time ∧ u.ppoint = max s.oplim (s.ppoint - 1) ∧
          (targetOp u ≠ s.op → u.settling = true)))) ∧
    (s.cap < w → exec (.powerUnderCap w) s = .next s) ∧
    (6000 < w → ∃ u, exec (.currentLimit w) s = .next u ∧ SameMemory s u ∧ u.limited = true ∧
      ∀ core tid, issuable u core tid = false) ∧
    (w < 6000 → ∃ u, exec (.currentFallsBelowLimit w) s = .next u ∧ SameMemory s u ∧ u.limited = false)) ∧
  (∀ (row line : Nat) (s : State), Memory.wf 0 s.life.scrubRows = true →
    ((s.l2line line).inL2 = false → ∃ u, exec (.patrolScrub 0 row line .corrected) s = .next u ∧ SameMemory s u ∧
      u.life.ceHbm = s.life.ceHbm + 1 ∧ u.poison = s.poison ∧
      let passed := s.life.scrubAt + 24 * 3600 * 1000000 * mhzOf s.op ≤ s.time
      let n := (if passed then 0 else tget 0 s.life.scrubRows row) + 1
      tget 0 u.life.scrubRows row = n ∧ (n = 16 → row ∈ u.life.rowQueue) ∧ (n ≠ 16 → u.life.rowQueue = s.life.rowQueue)) ∧
    ((s.l2line line).inL2 = true → ∃ u, exec (.patrolScrub 0 row line .corrected) s = .next u ∧ SameMemory s u ∧
      u.life.ceL2 = s.life.ceL2 + 1 ∧ u.poison = s.poison) ∧
    (∃ u, exec (.patrolScrub 0 row line .uncorrectable) s = .next u ∧ SameMemory s u ∧ u.life.ue = s.life.ue + 1 ∧
      ∀ p, p ∈ u.poison ↔ p ∈ s.poison ∨ p / 128 = line) ∧
    (thas s.tasks row = true → 4 * line < (s.task row).size → ∃ u, exec (.patrolScrub 1 row line .uncorrectable) s = .next u ∧ SameMemory s u ∧
      u.life.ue = s.life.ue + 1 ∧ ∀ p, p ∈ (u.task row).spoison ↔ p ∈ (s.task row).spoison ∨ p / 4 = line) ∧
    (∀ k, 1 ≤ k → k ≤ 3 → ∃ u, exec (.patrolScrub k row line .corrected) s = .next u ∧ SameMemory s u ∧
      u.life.ceCore = s.life.ceCore + 1) ∧
    (row < 224 → 0 < freePool s row → ∃ u, exec (.patrolScrub 3 row line .uncorrectable) s = .next u ∧ SameMemory s u ∧
      (u.core row).retiredBlks = (s.core row).retiredBlks + 1)) ∧
  (∀ (x y : Nat) (i j : BitVec 4) (s : State), Memory.wf 0 s.life.now.opTicks = true → Memory.wf 0 s.life.now.tjhist = true →
    ∃ u, exec (.lifetimeCounterSave i x j y) s = .next u ∧ SameMemory s u ∧ u.life.kept = u.life.now ∧ u.life.since = s.time ∧
      u.life.now.resets = s.life.now.resets ∧
      (∀ k, tget 0 u.life.now.opTicks k = tget 0 s.life.now.opTicks k + (if k = s.op then s.time - s.life.since else 0)) ∧
      (∀ k, tget 0 u.life.now.tjhist k = tget 0 s.life.now.tjhist k + (if k = i.toNat then BitVec.ofNat 64 x else 0) +
        (if k = j.toNat then BitVec.ofNat 64 y else 0)))

/-- Tier 1. Reset, bring-up, power limits, scrubbing and lifetime counters: the parts above.
It rests also on choices and readings of the model: log 4, 9 and 10. -/
def Obligations.ResetPowerAndErrors : Prop := Claims.ResetAndBringUp ∧ Claims.PowerAndErrors

end
end

