-- ==== Sys2Proof/Laws/Encoding.lean ====
section
/-!
SUPPORT. What the decoder reads back from the words of an encoding: the head, the opcode, the function field and the operand
fields of R72 to R79.
-/
namespace Sys2Proof

/-- The operands of a base form: three five-bit fields and nothing else (R75). -/
def Fields.plain (f : Fields) : Bool :=
  f.d.toNat < 32 && f.a.toNat < 32 && f.b.toNat < 32 && f.c == 0 && !f.sa && !f.sb && !f.sc && f.rm == 0 && !f.sat &&
  f.ty == 0 && !f.x

/-- The form LEN holds exactly these operands (R70). -/
def formOk (len : BitVec 2) (fn : BitVec 8) (f : Fields) : Bool :=
  match len with
  | 0 => f.plain && f.lit == none && fn == 0
  | 1 => f.plain && f.lit.isSome && fn == 0
  | 2 => f.lit == none
  | _ => f.lit.isSome

theorem bits_eq (n lo w : Nat) (x : BitVec w) (h : n / 2 ^ lo % 2 ^ w = x.toNat) : bitsAt n lo w = x := by
  apply BitVec.eq_of_toNat_eq
  simp [bitsAt, h]

theorem flag_eq (n lo : Nat) (b : Bool) (h : n / 2 ^ lo % 2 = b2n b) : flagAt n lo = b := by
  cases b <;> simp_all [flagAt, b2n]

theorem b2n_lt (b : Bool) : b2n b < 2 := by cases b <;> simp [b2n]

theorem len_cases (l : BitVec 2) : l = 0 ∨ l = 1 ∨ l = 2 ∨ l = 3 := by
  have h := l.isLt
  have : l.toNat = 0 ∨ l.toNat = 1 ∨ l.toNat = 2 ∨ l.toNat = 3 := by omega
  rcases this with h | h | h | h
  · exact .inl (BitVec.eq_of_toNat_eq h)
  · exact .inr (.inl (BitVec.eq_of_toNat_eq h))
  · exact .inr (.inr (.inl (BitVec.eq_of_toNat_eq h)))
  · exact .inr (.inr (.inr (BitVec.eq_of_toNat_eq h)))

/-! The extension. -/

/-- The extension word of a non-memory form as a number. -/
def extReg (fn : BitVec 8) (f : Fields) : Nat :=
  fn.toNat + f.d.toNat * 2 ^ 8 + f.a.toNat * 2 ^ 19 + f.b.toNat * 2 ^ 30 + f.c.toNat * 2 ^ 41 + b2n f.sa * 2 ^ 52 +
  b2n f.sb * 2 ^ 53 + b2n f.sc * 2 ^ 54 + f.rm.toNat * 2 ^ 55 + b2n f.sat * 2 ^ 57 + f.ty.toNat * 2 ^ 58 + b2n f.x * 2 ^ 63

def extMem (fn : BitVec 8) (m : MemF) : Nat :=
  fn.toNat + m.data.toNat * 2 ^ 8 + m.base.toNat * 2 ^ 19 + m.off.toNat * 2 ^ 30 + b2n m.bk * 2 ^ 54 +
  m.ord.toNat * 2 ^ 55 + m.scope.toNat * 2 ^ 57 + m.var.toNat * 2 ^ 60

theorem extReg_bits (fn : BitVec 8) (f : Fields) (e : Nat) (he : e = extReg fn f) :
    e < 2 ^ 64 ∧ bitsAt e 0 8 = fn ∧ bitsAt e 8 11 = f.d ∧ bitsAt e 19 11 = f.a ∧ bitsAt e 30 11 = f.b ∧
    bitsAt e 41 11 = f.c ∧ flagAt e 52 = f.sa ∧ flagAt e 53 = f.sb ∧ flagAt e 54 = f.sc ∧ bitsAt e 55 2 = f.rm ∧
    flagAt e 57 = f.sat ∧ bitsAt e 58 5 = f.ty ∧ flagAt e 63 = f.x := by
  subst he
  have h0 := fn.isLt
  have h1 := f.d.isLt
  have h2 := f.a.isLt
  have h3 := f.b.isLt
  have h4 := f.c.isLt
  have h5 := b2n_lt f.sa
  have h6 := b2n_lt f.sb
  have h7 := b2n_lt f.sc
  have h8 := f.rm.isLt
  have h9 := b2n_lt f.sat
  have h10 := f.ty.isLt
  have h11 := b2n_lt f.x
  unfold extReg
  refine ⟨?_, ?_, ?_, ?_, ?_, ?_, ?_, ?_, ?_, ?_, ?_, ?_, ?_⟩ <;> first | omega | (apply bits_eq; omega) | (apply flag_eq; omega)

theorem extMem_bits (fn : BitVec 8) (m : MemF) (e : Nat) (he : e = extMem fn m) :
    e < 2 ^ 64 ∧ bitsAt e 0 8 = fn ∧ bitsAt e 8 11 = m.data ∧ bitsAt e 19 11 = m.base ∧ bitsAt e 30 24 = m.off ∧
    flagAt e 54 = m.bk ∧ bitsAt e 55 2 = m.ord ∧ bitsAt e 57 3 = m.scope ∧ bitsAt e 60 4 = m.var := by
  subst he
  have h0 := fn.isLt
  have h1 := m.data.isLt
  have h2 := m.base.isLt
  have h3 := m.off.isLt
  have h4 := b2n_lt m.bk
  have h5 := m.ord.isLt
  have h6 := m.scope.isLt
  have h7 := m.var.isLt
  unfold extMem
  refine ⟨?_, ?_, ?_, ?_, ?_, ?_, ?_, ?_, ?_⟩ <;> first | omega | (apply bits_eq; omega) | (apply flag_eq; omega)

/-! The base word. -/

/-- The head's part of the base word as a number. -/
def headN (h : Head) (op : BitVec 7) : Nat :=
  h.len.toNat + h.stall.toNat * 2 ^ 2 + op.toNat * 2 ^ 6 + h.g.toNat * 2 ^ 13 + b2n h.gn * 2 ^ 16

theorem headN_lt (h : Head) (op : BitVec 7) : headN h op < 2 ^ 17 := by
  have h0 := h.len.isLt
  have h1 := h.stall.isLt
  have h2 := op.isLt
  have h3 := h.g.isLt
  have h4 := b2n_lt h.gn
  unfold headN
  omega

theorem head_read (h : Head) (op : BitVec 7) (n x : Nat) (hn : n = headN h op + x * 2 ^ 17) :
    headOf n = h ∧ opOf n = op ∧ n % 4 = h.len.toNat := by
  have h0 := h.len.isLt
  have h1 := h.stall.isLt
  have h2 := op.isLt
  have h3 := h.g.isLt
  have h4 := b2n_lt h.gn
  obtain ⟨len, stall, g, gn⟩ := h
  simp only [headN] at *
  subst hn
  refine ⟨?_, ?_, ?_⟩
  · unfold headOf
    congr 1
    · apply bits_eq; omega
    · apply bits_eq; omega
    · apply bits_eq; omega
    · apply flag_eq; omega
  · apply bits_eq; omega
  · omega

/-! The parts of a word. -/

theorem pack_short (h d a b : Nat) :
    h + (d * 2 ^ 17 + a * 2 ^ 22 + b * 2 ^ 27) = h + (d + a * 2 ^ 5 + b * 2 ^ 10) * 2 ^ 17 := by omega
theorem pack_lit (h d a b v : Nat) : h + (d * 2 ^ 17 + a * 2 ^ 22 + b * 2 ^ 27) + v * 2 ^ 32 =
    h + (d + a * 2 ^ 5 + b * 2 ^ 10 + v * 2 ^ 15) * 2 ^ 17 := by omega
theorem pack_ext (h e : Nat) : h + e * 2 ^ 32 = h + (e * 2 ^ 15) * 2 ^ 17 := by omega
theorem pack_long (h e v : Nat) : h + e * 2 ^ 32 + v * 2 ^ 96 = h + (e * 2 ^ 15 + v * 2 ^ 79) * 2 ^ 17 := by omega


theorem len0_lt : (0 : BitVec 2).toNat < 2 := by decide
theorem len1_lt : (1 : BitVec 2).toNat < 2 := by decide
theorem len2_lt : ¬ (2 : BitVec 2).toNat < 2 := by decide
theorem len3_lt : ¬ (3 : BitVec 2).toNat < 2 := by decide

theorem word0 (r : Raw) (h : r.head.len = 0) : r.word = baseWord r := by
  unfold Raw.word
  rw [h]
  rfl

theorem word1 (r : Raw) (h : r.head.len = 1) : r.word = baseWord r + r.litN * 2 ^ 32 := by
  unfold Raw.word
  rw [h]
  rfl

theorem word2 (r : Raw) (h : r.head.len = 2) : r.word = baseWord r + extWord r * 2 ^ 32 := by
  unfold Raw.word
  rw [h]
  rfl

theorem word3 (r : Raw) (h : r.head.len = 3) : r.word = baseWord r + extWord r * 2 ^ 32 + r.litN * 2 ^ 96 := by
  unfold Raw.word
  rw [h]
  rfl

theorem base_short (r : Raw) (f : Fields) (h : r.head.len.toNat < 2) (hb : r.body = .reg f) :
    baseWord r = headN r.head r.op + (f.d.toNat * 2 ^ 17 + f.a.toNat * 2 ^ 22 + f.b.toNat * 2 ^ 27) := by
  unfold baseWord
  rw [if_pos h, hb]
  rfl

theorem base_long (r : Raw) (h : ¬ r.head.len.toNat < 2) : baseWord r = headN r.head r.op := by
  unfold baseWord
  rw [if_neg h]
  exact Nat.add_zero _

theorem lit_reg (r : Raw) (f : Fields) (hb : r.body = .reg f) : r.litN = (f.lit.getD 0).toNat := by
  unfold Raw.litN
  rw [hb]

/-! Reading an encoding back. -/

theorem fields_ext (f g : Fields) (h : f.d = g.d ∧ f.a = g.a ∧ f.b = g.b ∧ f.c = g.c ∧ f.sa = g.sa ∧ f.sb = g.sb ∧
    f.sc = g.sc ∧ f.rm = g.rm ∧ f.sat = g.sat ∧ f.ty = g.ty ∧ f.x = g.x ∧ f.lit = g.lit) : f = g := by
  cases f
  cases g
  simp_all

theorem small_bits (n lo : Nat) (x : BitVec 11) (hx : x.toNat < 32) (h : n / 2 ^ lo % 2 ^ 5 = x.toNat) :
    (bitsAt n lo 5).setWidth 11 = x := by
  apply BitVec.eq_of_toNat_eq
  simp [bitsAt, h]
  omega

theorem upper_ok (n : Nat) (h : n / 2 ^ 17 % 2 ^ 15 = 0) : upperClear n = true := by
  unfold upperClear
  rw [h]
  simp

/-- A register form reads back as its head, opcode, function field and operand fields. -/
theorem reg_read (h : Head) (op : BitVec 7) (fn : BitVec 8) (f : Fields) (ho : formOk h.len fn f = true) :
    let n := Raw.word ⟨h, op, fn, .reg f⟩
    headOf n = h ∧ opOf n = op ∧ n % 4 = h.len.toNat ∧ fnOf n = fn ∧ fieldsOf n = f ∧ upperClear n = true := by
  intro n
  obtain ⟨len, stall, g, gn⟩ := h
  have hh := headN_lt ⟨len, stall, g, gn⟩ op
  have hext : extWord ⟨⟨len, stall, g, gn⟩, op, fn, .reg f⟩ = extReg fn f := rfl
  have hb := extReg_bits fn f _ rfl
  rcases len_cases len with rfl | rfl | rfl | rfl
  · have ho : (f.plain && f.lit == none && fn == 0) = true := ho
    simp only [Fields.plain, Bool.and_eq_true, decide_eq_true_eq, beq_iff_eq, Bool.not_eq_true'] at ho
    obtain ⟨⟨⟨⟨⟨⟨⟨⟨⟨⟨⟨⟨hd, ha⟩, hbb⟩, hc⟩, hsa⟩, hsb⟩, hsc⟩, hrm⟩, hsat⟩, hty⟩, hx⟩, hl⟩, hfn⟩ := ho
    have hn : n = headN ⟨0, stall, g, gn⟩ op + (f.d.toNat + f.a.toNat * 2 ^ 5 + f.b.toNat * 2 ^ 10) * 2 ^ 17 := by
      exact ((word0 ⟨⟨0, stall, g, gn⟩, op, fn, .reg f⟩ rfl).trans (base_short _ f len0_lt rfl)).trans (pack_short ..)
    obtain ⟨r1, r2, r3⟩ := head_read _ _ _ _ hn
    have h4 : n % 4 = 0 := r3
    have hlong : isLong n = false := by simp [isLong, h4]
    refine ⟨r1, r2, r3, ?_, ?_, ?_⟩
    · simp [fnOf, hlong, hfn]
    · apply fields_ext
      simp only [fieldsOf, hlong]
      refine ⟨?_, ?_, ?_, hc.symm, hsa.symm, hsb.symm, hsc.symm, hrm.symm, hsat.symm, hty.symm, hx.symm, ?_⟩
      · apply small_bits _ _ _ hd; omega
      · apply small_bits _ _ _ ha; omega
      · apply small_bits _ _ _ hbb; omega
      · simp [litOfWord, h4, hl]
    · simp [upperClear, hlong]
  · have ho : (f.plain && f.lit.isSome && fn == 0) = true := ho
    simp only [Fields.plain, Bool.and_eq_true, decide_eq_true_eq, beq_iff_eq, Bool.not_eq_true'] at ho
    obtain ⟨⟨⟨⟨⟨⟨⟨⟨⟨⟨⟨⟨hd, ha⟩, hbb⟩, hc⟩, hsa⟩, hsb⟩, hsc⟩, hrm⟩, hsat⟩, hty⟩, hx⟩, hl⟩, hfn⟩ := ho
    obtain ⟨v, hv⟩ := Option.isSome_iff_exists.mp hl
    have hv' := v.isLt
    have hn : n = headN ⟨1, stall, g, gn⟩ op +
        (f.d.toNat + f.a.toNat * 2 ^ 5 + f.b.toNat * 2 ^ 10 + v.toNat * 2 ^ 15) * 2 ^ 17 := by
      have e := word1 ⟨⟨1, stall, g, gn⟩, op, fn, .reg f⟩ rfl
      rw [base_short _ f len1_lt rfl, lit_reg _ f rfl, hv] at e
      exact e.trans (pack_lit ..)
    obtain ⟨r1, r2, r3⟩ := head_read _ _ _ _ hn
    have h4 : n % 4 = 1 := r3
    have hlong : isLong n = false := by simp [isLong, h4]
    refine ⟨r1, r2, r3, ?_, ?_, ?_⟩
    · simp [fnOf, hlong, hfn]
    · apply fields_ext
      simp only [fieldsOf, hlong]
      refine ⟨?_, ?_, ?_, hc.symm, hsa.symm, hsb.symm, hsc.symm, hrm.symm, hsat.symm, hty.symm, hx.symm, ?_⟩
      · apply small_bits _ _ _ hd; omega
      · apply small_bits _ _ _ ha; omega
      · apply small_bits _ _ _ hbb; omega
      · have hlit : bitsAt n 32 64 = v := by apply bits_eq; omega
        simp [litOfWord, h4, hv, hlit]
    · simp [upperClear, hlong]
  · have hl : f.lit = none := by simpa [formOk] using ho
    have hn : n = headN ⟨2, stall, g, gn⟩ op + (extReg fn f * 2 ^ 15) * 2 ^ 17 := by
      have e := word2 ⟨⟨2, stall, g, gn⟩, op, fn, .reg f⟩ rfl
      rw [base_long _ len2_lt, hext] at e
      exact e.trans (pack_ext ..)
    obtain ⟨r1, r2, r3⟩ := head_read _ _ _ _ hn
    have h4 : n % 4 = 2 := r3
    have hlong : isLong n = true := by simp [isLong, h4]
    have hx : extOf n = extReg fn f := by unfold extOf; omega
    refine ⟨r1, r2, r3, ?_, ?_, ?_⟩
    · simp only [fnOf, hlong, if_true, hx, hb]
    · apply fields_ext
      simp only [fieldsOf, hlong, if_true, hx, hb, litOfWord, h4, hl, and_self]
    · have h0 : n / 2 ^ 17 % 2 ^ 15 = 0 := by omega
      exact upper_ok n h0
  · obtain ⟨v, hv⟩ := Option.isSome_iff_exists.mp (show f.lit.isSome = true from ho)
    have hv' := v.isLt
    have hn : n = headN ⟨3, stall, g, gn⟩ op + (extReg fn f * 2 ^ 15 + v.toNat * 2 ^ 79) * 2 ^ 17 := by
      have e := word3 ⟨⟨3, stall, g, gn⟩, op, fn, .reg f⟩ rfl
      rw [base_long _ len3_lt, hext, lit_reg _ f rfl, hv] at e
      exact e.trans (pack_long ..)
    obtain ⟨r1, r2, r3⟩ := head_read _ _ _ _ hn
    have h4 : n % 4 = 3 := r3
    have hlong : isLong n = true := by simp [isLong, h4]
    have hx : extOf n = extReg fn f := by unfold extOf; omega
    refine ⟨r1, r2, r3, ?_, ?_, ?_⟩
    · simp only [fnOf, hlong, if_true, hx, hb]
    · apply fields_ext
      have hlit : bitsAt n 96 64 = v := by apply bits_eq; omega
      simp only [fieldsOf, hlong, if_true, hx, hb, litOfWord, h4, hv, hlit, and_self]
    · have h0 : n / 2 ^ 17 % 2 ^ 15 = 0 := by omega
      exact upper_ok n h0

theorem add_zero_mul (a b : Nat) : a + 0 * b = a := by omega

/-- The words of `nop` hold its head alone. -/
theorem nop_word (h : Head) : Raw.word ⟨h, 0, 0, .reg {}⟩ = headN h 0 + 0 * 2 ^ 17 := by
  have b : baseWord ⟨h, 0, 0, .reg {}⟩ = headN h 0 := by
    by_cases c : h.len.toNat < 2
    · rw [base_short ⟨h, 0, 0, .reg {}⟩ {} c rfl]
      simp
    · exact base_long ⟨h, 0, 0, .reg {}⟩ c
  have e : extWord ⟨h, 0, 0, .reg {}⟩ = 0 := by simp [extWord, b2n]
  have l : Raw.litN ⟨h, 0, 0, .reg {}⟩ = 0 := rfl
  rw [add_zero_mul]
  rcases len_cases h.len with c | c | c | c
  · rw [word0 _ c, b]
  · rw [word1 _ c, b, l, add_zero_mul]
  · rw [word2 _ c, b, e, add_zero_mul]
  · rw [word3 _ c, b, e, l]
    exact (add_zero_mul _ _).trans (add_zero_mul _ _)

/-- A memory form reads back. -/
theorem mem_read (h : Head) (op : BitVec 7) (fn : BitVec 8) (m : MemF) (hl : h.len = 2) :
    let n := Raw.word ⟨h, op, fn, .mem m⟩
    headOf n = h ∧ opOf n = op ∧ n % 4 = 2 ∧ fnOf n = fn ∧ memOf n = m ∧ upperClear n = true := by
  intro n
  obtain ⟨len, stall, g, gn⟩ := h
  subst hl
  have hh := headN_lt ⟨2, stall, g, gn⟩ op
  have hext : extWord ⟨⟨2, stall, g, gn⟩, op, fn, .mem m⟩ = extMem fn m := rfl
  have hb := extMem_bits fn m _ rfl
  have hn : n = headN ⟨2, stall, g, gn⟩ op + (extMem fn m * 2 ^ 15) * 2 ^ 17 := by
    have e := word2 ⟨⟨2, stall, g, gn⟩, op, fn, .mem m⟩ rfl
    rw [base_long _ len2_lt, hext] at e
    exact e.trans (pack_ext ..)
  obtain ⟨r1, r2, r3⟩ := head_read _ _ _ _ hn
  have h4 : n % 4 = 2 := r3
  have hlong : isLong n = true := by simp [isLong, h4]
  have hx : extOf n = extMem fn m := by unfold extOf; omega
  refine ⟨r1, r2, h4, ?_, ?_, ?_⟩
  · simp only [fnOf, hlong, if_true, hx, hb]
  · simp only [memOf, hx, hb]
  · have h0 : n / 2 ^ 17 % 2 ^ 15 = 0 := by omega
    exact upper_ok n h0

/-- A register form of opcode `op` that its own candidate returns decodes to its instruction. -/
theorem decode_reg (i : Instr) (h : Head) (op : BitVec 7) (fn : BitVec 8) (f : Fields)
    (hr : i.raw = some ⟨h, op, fn, .reg f⟩) (hw : i.wf = true) (ho : formOk h.len fn f = true)
    (h0 : (op.toNat == 0) = false) (hm : (decide (0x50 ≤ op.toNat) && decide (op.toNat ≤ 0x5e)) = false)
    (hres : opReserved op.toNat = false) (hlen : lenOk op.toNat h.len.toNat = true) (hfn : fnOk op.toNat fn.toNat = true)
    (hc : regCandidate h op.toNat fn f = some i) (n : Nat) (hn : encode i = some n) : decode n = .ok i := by
  have hn' : Raw.word ⟨h, op, fn, .reg f⟩ = n := by
    unfold encode at hn
    rw [hr] at hn
    exact Option.some.inj hn
  obtain ⟨r1, r2, r3, r4, r5, r6⟩ := reg_read h op fn f ho
  rw [hn'] at r1 r2 r3 r4 r5 r6
  have hacc : f.accepts (opDflt op.toNat (f.c.toNat % 8)) f = true := by simp [Fields.accepts]
  have hops : operands n = some i := by
    unfold operands
    simp only [r1, r2, r4, r5, h0, hm, hc, hr, hw, r6, hacc, Bool.and_self, if_true, Bool.false_eq_true, if_false]
  unfold decode
  simp only [r2, r3, r4, hres, hlen, hfn, hops, Bool.not_true, Bool.or_self, Bool.false_eq_true, if_false]

theorem decode_mem (i : Instr) (h : Head) (op : BitVec 7) (fn : BitVec 8) (m : MemF)
    (hr : i.raw = some ⟨h, op, fn, .mem m⟩) (hw : i.wf = true) (hl : h.len = 2) (h0 : (op.toNat == 0) = false)
    (hm : (decide (0x50 ≤ op.toNat) && decide (op.toNat ≤ 0x5e)) = true) (hres : opReserved op.toNat = false)
    (hlen : lenOk op.toNat 2 = true) (hfn : fnOk op.toNat fn.toNat = true)
    (hc : memCandidate h op.toNat fn m = some i) (n : Nat) (hn : encode i = some n) : decode n = .ok i := by
  have hn' : Raw.word ⟨h, op, fn, .mem m⟩ = n := by
    unfold encode at hn
    rw [hr] at hn
    exact Option.some.inj hn
  obtain ⟨r1, r2, r3, r4, r5, r6⟩ := mem_read h op fn m hl
  rw [hn'] at r1 r2 r3 r4 r5 r6
  have hops : operands n = some i := by
    unfold operands
    simp only [r1, r2, r4, r5, h0, hm, hc, hw, r6, Bool.and_self, if_true, Bool.false_eq_true, if_false]
  unfold decode
  simp only [r2, r3, r4, hres, hlen, hfn, hops, Bool.not_true, Bool.or_self, Bool.false_eq_true, if_false]

end Sys2Proof
end

