-- ==== Sys2Proof/Laws/State.lean ====
section
/-!
SUPPORT. One lemma per field of State and per update of a table of State: what the update leaves, and reading back what it
wrote.
-/
namespace Sys2Proof.Machine

/-! Tables: reading after writing. -/

@[simp] theorem tget_tput_same {α : Type} (d : α) (m : SMap α) (a : Nat) (x : α) : tget d (tput m a x) a = x := by
  induction m with
  | nil => simp [tput, tget]
  | cons c l ih =>
    obtain ⟨k, v⟩ := c
    simp only [tput]
    split
    · simp [tget]
    · split
      · simp [tget]
      · rename_i h1 h2
        simp [tget, Ne.symm h2, ih]

theorem tget_tput_other {α : Type} (d : α) (m : SMap α) (a b : Nat) (x : α) (h : a ≠ b) :
    tget d (tput m a x) b = tget d m b := by
  induction m with
  | nil => simp [tput, tget, h]
  | cons c l ih =>
    obtain ⟨k, v⟩ := c
    simp only [tput]
    split
    · simp [tget, h]
    · split
      · rename_i h2
        subst h2
        simp [tget, h]
      · simp [tget, ih]

/-! `setThread`. -/

@[simp] theorem State.setThread_time (s : State) (i : Nat) (t : Thread) : (s.setThread i t).time = s.time := rfl
@[simp] theorem State.setThread_agenda (s : State) (i : Nat) (t : Thread) : (s.setThread i t).agenda = s.agenda := rfl
@[simp] theorem State.setThread_free (s : State) (i : Nat) (t : Thread) : (s.setThread i t).free = s.free := rfl
@[simp] theorem State.setThread_issue (s : State) (i : Nat) (t : Thread) : (s.setThread i t).issue = s.issue := rfl
@[simp] theorem State.setThread_nextId (s : State) (i : Nat) (t : Thread) : (s.setThread i t).nextId = s.nextId := rfl
@[simp] theorem State.setThread_mem (s : State) (i : Nat) (t : Thread) : (s.setThread i t).mem = s.mem := rfl
@[simp] theorem State.setThread_poison (s : State) (i : Nat) (t : Thread) : (s.setThread i t).poison = s.poison := rfl
@[simp] theorem State.setThread_l2 (s : State) (i : Nat) (t : Thread) : (s.setThread i t).l2 = s.l2 := rfl
@[simp] theorem State.setThread_spec (s : State) (i : Nat) (t : Thread) : (s.setThread i t).spec = s.spec := rfl
@[simp] theorem State.setThread_specFut (s : State) (i : Nat) (t : Thread) : (s.setThread i t).specFut = s.specFut := rfl
@[simp] theorem State.setThread_ctxs (s : State) (i : Nat) (t : Thread) : (s.setThread i t).ctxs = s.ctxs := rfl
@[simp] theorem State.setThread_cores (s : State) (i : Nat) (t : Thread) : (s.setThread i t).cores = s.cores := rfl
@[simp] theorem State.setThread_threads (s : State) (i : Nat) (t : Thread) : (s.setThread i t).threads = tput s.threads i t := rfl
@[simp] theorem State.setThread_tasks (s : State) (i : Nat) (t : Thread) : (s.setThread i t).tasks = s.tasks := rfl
@[simp] theorem State.setThread_gangs (s : State) (i : Nat) (t : Thread) : (s.setThread i t).gangs = s.gangs := rfl
@[simp] theorem State.setThread_launches (s : State) (i : Nat) (t : Thread) : (s.setThread i t).launches = s.launches := rfl
@[simp] theorem State.setThread_packets (s : State) (i : Nat) (t : Thread) : (s.setThread i t).packets = s.packets := rfl
@[simp] theorem State.setThread_queues (s : State) (i : Nat) (t : Thread) : (s.setThread i t).queues = s.queues := rfl
@[simp] theorem State.setThread_slots (s : State) (i : Nat) (t : Thread) : (s.setThread i t).slots = s.slots := rfl
@[simp] theorem State.setThread_doorbell (s : State) (i : Nat) (t : Thread) : (s.setThread i t).doorbell = s.doorbell := rfl
@[simp] theorem State.setThread_msgs (s : State) (i : Nat) (t : Thread) : (s.setThread i t).msgs = s.msgs := rfl
@[simp] theorem State.setThread_nb (s : State) (i : Nat) (t : Thread) : (s.setThread i t).nb = s.nb := rfl
@[simp] theorem State.setThread_landing (s : State) (i : Nat) (t : Thread) : (s.setThread i t).landing = s.landing := rfl
@[simp] theorem State.setThread_queries (s : State) (i : Nat) (t : Thread) : (s.setThread i t).queries = s.queries := rfl
@[simp] theorem State.setThread_fuses (s : State) (i : Nat) (t : Thread) : (s.setThread i t).fuses = s.fuses := rfl
@[simp] theorem State.setThread_hbmMask (s : State) (i : Nat) (t : Thread) : (s.setThread i t).hbmMask = s.hbmMask := rfl
@[simp] theorem State.setThread_regpoolMin (s : State) (i : Nat) (t : Thread) : (s.setThread i t).regpoolMin = s.regpoolMin := rfl
@[simp] theorem State.setThread_ready (s : State) (i : Nat) (t : Thread) : (s.setThread i t).ready = s.ready := rfl
@[simp] theorem State.setThread_links (s : State) (i : Nat) (t : Thread) : (s.setThread i t).links = s.links := rfl
@[simp] theorem State.setThread_failcode (s : State) (i : Nat) (t : Thread) : (s.setThread i t).failcode = s.failcode := rfl
@[simp] theorem State.setThread_ageq (s : State) (i : Nat) (t : Thread) : (s.setThread i t).ageq = s.ageq := rfl
@[simp] theorem State.setThread_errslot (s : State) (i : Nat) (t : Thread) : (s.setThread i t).errslot = s.errslot := rfl
@[simp] theorem State.setThread_doneFail (s : State) (i : Nat) (t : Thread) : (s.setThread i t).doneFail = s.doneFail := rfl
@[simp] theorem State.setThread_futFail (s : State) (i : Nat) (t : Thread) : (s.setThread i t).futFail = s.futFail := rfl
@[simp] theorem State.setThread_lastSlot (s : State) (i : Nat) (t : Thread) : (s.setThread i t).lastSlot = s.lastSlot := rfl
@[simp] theorem State.setThread_tags (s : State) (i : Nat) (t : Thread) : (s.setThread i t).tags = s.tags := rfl
@[simp] theorem State.setThread_scommit (s : State) (i : Nat) (t : Thread) : (s.setThread i t).scommit = s.scommit := rfl
@[simp] theorem State.setThread_ssquash (s : State) (i : Nat) (t : Thread) : (s.setThread i t).ssquash = s.ssquash := rfl
@[simp] theorem State.setThread_stail (s : State) (i : Nat) (t : Thread) : (s.setThread i t).stail = s.stail := rfl
@[simp] theorem State.setThread_stmo (s : State) (i : Nat) (t : Thread) : (s.setThread i t).stmo = s.stmo := rfl
@[simp] theorem State.setThread_sinval (s : State) (i : Nat) (t : Thread) : (s.setThread i t).sinval = s.sinval := rfl
@[simp] theorem State.setThread_secstall (s : State) (i : Nat) (t : Thread) : (s.setThread i t).secstall = s.secstall := rfl
@[simp] theorem State.setThread_waystall (s : State) (i : Nat) (t : Thread) : (s.setThread i t).waystall = s.waystall := rfl
@[simp] theorem State.setThread_predhit (s : State) (i : Nat) (t : Thread) : (s.setThread i t).predhit = s.predhit := rfl
@[simp] theorem State.setThread_predfall (s : State) (i : Nat) (t : Thread) : (s.setThread i t).predfall = s.predfall := rfl
@[simp] theorem State.setThread_xsEnable (s : State) (i : Nat) (t : Thread) : (s.setThread i t).xsEnable = s.xsEnable := rfl
@[simp] theorem State.setThread_xsMinvictim (s : State) (i : Nat) (t : Thread) : (s.setThread i t).xsMinvictim = s.xsMinvictim := rfl
@[simp] theorem State.setThread_xsIdle (s : State) (i : Nat) (t : Thread) : (s.setThread i t).xsIdle = s.xsIdle := rfl
@[simp] theorem State.setThread_xsSwap (s : State) (i : Nat) (t : Thread) : (s.setThread i t).xsSwap = s.xsSwap := rfl
@[simp] theorem State.setThread_xsLocal (s : State) (i : Nat) (t : Thread) : (s.setThread i t).xsLocal = s.xsLocal := rfl
@[simp] theorem State.setThread_xsRemote (s : State) (i : Nat) (t : Thread) : (s.setThread i t).xsRemote = s.xsRemote := rfl
@[simp] theorem State.setThread_xsFail (s : State) (i : Nat) (t : Thread) : (s.setThread i t).xsFail = s.xsFail := rfl
@[simp] theorem State.setThread_xsRestage (s : State) (i : Nat) (t : Thread) : (s.setThread i t).xsRestage = s.xsRestage := rfl
@[simp] theorem State.setThread_xsSpill (s : State) (i : Nat) (t : Thread) : (s.setThread i t).xsSpill = s.xsSpill := rfl
@[simp] theorem State.setThread_xsSwaps (s : State) (i : Nat) (t : Thread) : (s.setThread i t).xsSwaps = s.xsSwaps := rfl
@[simp] theorem State.setThread_fwin (s : State) (i : Nat) (t : Thread) : (s.setThread i t).fwin = s.fwin := rfl
@[simp] theorem State.setThread_lwin (s : State) (i : Nat) (t : Thread) : (s.setThread i t).lwin = s.lwin := rfl
@[simp] theorem State.setThread_lwinDrop (s : State) (i : Nat) (t : Thread) : (s.setThread i t).lwinDrop = s.lwinDrop := rfl
@[simp] theorem State.setThread_ctxBase (s : State) (i : Nat) (t : Thread) : (s.setThread i t).ctxBase = s.ctxBase := rfl
@[simp] theorem State.setThread_shootVa (s : State) (i : Nat) (t : Thread) : (s.setThread i t).shootVa = s.shootVa := rfl
@[simp] theorem State.setThread_shootReq (s : State) (i : Nat) (t : Thread) : (s.setThread i t).shootReq = s.shootReq := rfl
@[simp] theorem State.setThread_shootDone (s : State) (i : Nat) (t : Thread) : (s.setThread i t).shootDone = s.shootDone := rfl
@[simp] theorem State.setThread_shoots (s : State) (i : Nat) (t : Thread) : (s.setThread i t).shoots = s.shoots := rfl
@[simp] theorem State.setThread_tlbMiss (s : State) (i : Nat) (t : Thread) : (s.setThread i t).tlbMiss = s.tlbMiss := rfl
@[simp] theorem State.setThread_tlbCoal (s : State) (i : Nat) (t : Thread) : (s.setThread i t).tlbCoal = s.tlbCoal := rfl
@[simp] theorem State.setThread_badPte (s : State) (i : Nat) (t : Thread) : (s.setThread i t).badPte = s.badPte := rfl
@[simp] theorem State.setThread_dieTlb (s : State) (i : Nat) (t : Thread) : (s.setThread i t).dieTlb = s.dieTlb := rfl
@[simp] theorem State.setThread_walkCache (s : State) (i : Nat) (t : Thread) : (s.setThread i t).walkCache = s.walkCache := rfl
@[simp] theorem State.setThread_migr (s : State) (i : Nat) (t : Thread) : (s.setThread i t).migr = s.migr := rfl
@[simp] theorem State.setThread_faultq (s : State) (i : Nat) (t : Thread) : (s.setThread i t).faultq = s.faultq := rfl
@[simp] theorem State.setThread_nbWindow (s : State) (i : Nat) (t : Thread) : (s.setThread i t).nbWindow = s.nbWindow := rfl
@[simp] theorem State.setThread_nbMaxsusp (s : State) (i : Nat) (t : Thread) : (s.setThread i t).nbMaxsusp = s.nbMaxsusp := rfl
@[simp] theorem State.setThread_nbCnt (s : State) (i : Nat) (t : Thread) : (s.setThread i t).nbCnt = s.nbCnt := rfl
@[simp] theorem State.setThread_opTimeout (s : State) (i : Nat) (t : Thread) : (s.setThread i t).opTimeout = s.opTimeout := rfl
@[simp] theorem State.setThread_stitching (s : State) (i : Nat) (t : Thread) : (s.setThread i t).stitching = s.stitching := rfl
@[simp] theorem State.setThread_fabGen (s : State) (i : Nat) (t : Thread) : (s.setThread i t).fabGen = s.fabGen := rfl
@[simp] theorem State.setThread_bypass (s : State) (i : Nat) (t : Thread) : (s.setThread i t).bypass = s.bypass := rfl
@[simp] theorem State.setThread_hcorr (s : State) (i : Nat) (t : Thread) : (s.setThread i t).hcorr = s.hcorr := rfl
@[simp] theorem State.setThread_hdrop (s : State) (i : Nat) (t : Thread) : (s.setThread i t).hdrop = s.hdrop := rfl
@[simp] theorem State.setThread_timeouts (s : State) (i : Nat) (t : Thread) : (s.setThread i t).timeouts = s.timeouts := rfl
@[simp] theorem State.setThread_fabNext (s : State) (i : Nat) (t : Thread) : (s.setThread i t).fabNext = s.fabNext := rfl
@[simp] theorem State.setThread_fabCount (s : State) (i : Nat) (t : Thread) : (s.setThread i t).fabCount = s.fabCount := rfl
@[simp] theorem State.setThread_fabLog (s : State) (i : Nat) (t : Thread) : (s.setThread i t).fabLog = s.fabLog := rfl
@[simp] theorem State.setThread_lostBridges (s : State) (i : Nat) (t : Thread) : (s.setThread i t).lostBridges = s.lostBridges := rfl
@[simp] theorem State.setThread_lostDies (s : State) (i : Nat) (t : Thread) : (s.setThread i t).lostDies = s.lostDies := rfl
@[simp] theorem State.setThread_lostSlices (s : State) (i : Nat) (t : Thread) : (s.setThread i t).lostSlices = s.lostSlices := rfl
@[simp] theorem State.setThread_mbxOpc (s : State) (i : Nat) (t : Thread) : (s.setThread i t).mbxOpc = s.mbxOpc := rfl
@[simp] theorem State.setThread_mbxRun (s : State) (i : Nat) (t : Thread) : (s.setThread i t).mbxRun = s.mbxRun := rfl
@[simp] theorem State.setThread_mbxResult (s : State) (i : Nat) (t : Thread) : (s.setThread i t).mbxResult = s.mbxResult := rfl
@[simp] theorem State.setThread_mbxArg (s : State) (i : Nat) (t : Thread) : (s.setThread i t).mbxArg = s.mbxArg := rfl
@[simp] theorem State.setThread_quantum (s : State) (i : Nat) (t : Thread) : (s.setThread i t).quantum = s.quantum := rfl
@[simp] theorem State.setThread_lastQuantum (s : State) (i : Nat) (t : Thread) : (s.setThread i t).lastQuantum = s.lastQuantum := rfl
@[simp] theorem State.setThread_standby (s : State) (i : Nat) (t : Thread) : (s.setThread i t).standby = s.standby := rfl
@[simp] theorem State.setThread_slate (s : State) (i : Nat) (t : Thread) : (s.setThread i t).slate = s.slate := rfl
@[simp] theorem State.setThread_maps (s : State) (i : Nat) (t : Thread) : (s.setThread i t).maps = s.maps := rfl
@[simp] theorem State.setThread_journal (s : State) (i : Nat) (t : Thread) : (s.setThread i t).journal = s.journal := rfl
@[simp] theorem State.setThread_jseq (s : State) (i : Nat) (t : Thread) : (s.setThread i t).jseq = s.jseq := rfl
@[simp] theorem State.setThread_hostEvents (s : State) (i : Nat) (t : Thread) : (s.setThread i t).hostEvents = s.hostEvents := rfl
@[simp] theorem State.setThread_ranges (s : State) (i : Nat) (t : Thread) : (s.setThread i t).ranges = s.ranges := rfl
@[simp] theorem State.setThread_peers (s : State) (i : Nat) (t : Thread) : (s.setThread i t).peers = s.peers := rfl
@[simp] theorem State.setThread_ckpts (s : State) (i : Nat) (t : Thread) : (s.setThread i t).ckpts = s.ckpts := rfl
@[simp] theorem State.setThread_descs (s : State) (i : Nat) (t : Thread) : (s.setThread i t).descs = s.descs := rfl
@[simp] theorem State.setThread_sent (s : State) (i : Nat) (t : Thread) : (s.setThread i t).sent = s.sent := rfl
@[simp] theorem State.setThread_lostDevs (s : State) (i : Nat) (t : Thread) : (s.setThread i t).lostDevs = s.lostDevs := rfl
@[simp] theorem State.setThread_recov (s : State) (i : Nat) (t : Thread) : (s.setThread i t).recov = s.recov := rfl
@[simp] theorem State.setThread_flash (s : State) (i : Nat) (t : Thread) : (s.setThread i t).flash = s.flash := rfl
@[simp] theorem State.setThread_cap (s : State) (i : Nat) (t : Thread) : (s.setThread i t).cap = s.cap := rfl
@[simp] theorem State.setThread_oplim (s : State) (i : Nat) (t : Thread) : (s.setThread i t).oplim = s.oplim := rfl
@[simp] theorem State.setThread_ppoint (s : State) (i : Nat) (t : Thread) : (s.setThread i t).ppoint = s.ppoint := rfl
@[simp] theorem State.setThread_op (s : State) (i : Nat) (t : Thread) : (s.setThread i t).op = s.op := rfl
@[simp] theorem State.setThread_settling (s : State) (i : Nat) (t : Thread) : (s.setThread i t).settling = s.settling := rfl
@[simp] theorem State.setThread_watts (s : State) (i : Nat) (t : Thread) : (s.setThread i t).watts = s.watts := rfl
@[simp] theorem State.setThread_amps (s : State) (i : Nat) (t : Thread) : (s.setThread i t).amps = s.amps := rfl
@[simp] theorem State.setThread_skips (s : State) (i : Nat) (t : Thread) : (s.setThread i t).skips = s.skips := rfl
@[simp] theorem State.setThread_limited (s : State) (i : Nat) (t : Thread) : (s.setThread i t).limited = s.limited := rfl
@[simp] theorem State.setThread_life (s : State) (i : Nat) (t : Thread) : (s.setThread i t).life = s.life := rfl
@[simp] theorem State.setThread_deadSites (s : State) (i : Nat) (t : Thread) : (s.setThread i t).deadSites = s.deadSites := rfl
@[simp] theorem State.setThread_siteMap (s : State) (i : Nat) (t : Thread) : (s.setThread i t).siteMap = s.siteMap := rfl
@[simp] theorem State.setThread_hostReads (s : State) (i : Nat) (t : Thread) : (s.setThread i t).hostReads = s.hostReads := rfl
@[simp] theorem State.setThread_routeGen (s : State) (i : Nat) (t : Thread) : (s.setThread i t).routeGen = s.routeGen := rfl
@[simp] theorem State.setThread_overAt (s : State) (i : Nat) (t : Thread) : (s.setThread i t).overAt = s.overAt := rfl
@[simp] theorem State.setThread_underAt (s : State) (i : Nat) (t : Thread) : (s.setThread i t).underAt = s.underAt := rfl

/-! `setTask`. -/

@[simp] theorem State.setTask_time (s : State) (k : Nat) (t : Task) : (s.setTask k t).time = s.time := rfl
@[simp] theorem State.setTask_agenda (s : State) (k : Nat) (t : Task) : (s.setTask k t).agenda = s.agenda := rfl
@[simp] theorem State.setTask_free (s : State) (k : Nat) (t : Task) : (s.setTask k t).free = s.free := rfl
@[simp] theorem State.setTask_issue (s : State) (k : Nat) (t : Task) : (s.setTask k t).issue = s.issue := rfl
@[simp] theorem State.setTask_nextId (s : State) (k : Nat) (t : Task) : (s.setTask k t).nextId = s.nextId := rfl
@[simp] theorem State.setTask_mem (s : State) (k : Nat) (t : Task) : (s.setTask k t).mem = s.mem := rfl
@[simp] theorem State.setTask_poison (s : State) (k : Nat) (t : Task) : (s.setTask k t).poison = s.poison := rfl
@[simp] theorem State.setTask_l2 (s : State) (k : Nat) (t : Task) : (s.setTask k t).l2 = s.l2 := rfl
@[simp] theorem State.setTask_spec (s : State) (k : Nat) (t : Task) : (s.setTask k t).spec = s.spec := rfl
@[simp] theorem State.setTask_specFut (s : State) (k : Nat) (t : Task) : (s.setTask k t).specFut = s.specFut := rfl
@[simp] theorem State.setTask_ctxs (s : State) (k : Nat) (t : Task) : (s.setTask k t).ctxs = s.ctxs := rfl
@[simp] theorem State.setTask_cores (s : State) (k : Nat) (t : Task) : (s.setTask k t).cores = s.cores := rfl
@[simp] theorem State.setTask_threads (s : State) (k : Nat) (t : Task) : (s.setTask k t).threads = s.threads := rfl
@[simp] theorem State.setTask_tasks (s : State) (k : Nat) (t : Task) : (s.setTask k t).tasks = tput s.tasks k t := rfl
@[simp] theorem State.setTask_gangs (s : State) (k : Nat) (t : Task) : (s.setTask k t).gangs = s.gangs := rfl
@[simp] theorem State.setTask_launches (s : State) (k : Nat) (t : Task) : (s.setTask k t).launches = s.launches := rfl
@[simp] theorem State.setTask_packets (s : State) (k : Nat) (t : Task) : (s.setTask k t).packets = s.packets := rfl
@[simp] theorem State.setTask_queues (s : State) (k : Nat) (t : Task) : (s.setTask k t).queues = s.queues := rfl
@[simp] theorem State.setTask_slots (s : State) (k : Nat) (t : Task) : (s.setTask k t).slots = s.slots := rfl
@[simp] theorem State.setTask_doorbell (s : State) (k : Nat) (t : Task) : (s.setTask k t).doorbell = s.doorbell := rfl
@[simp] theorem State.setTask_msgs (s : State) (k : Nat) (t : Task) : (s.setTask k t).msgs = s.msgs := rfl
@[simp] theorem State.setTask_nb (s : State) (k : Nat) (t : Task) : (s.setTask k t).nb = s.nb := rfl
@[simp] theorem State.setTask_landing (s : State) (k : Nat) (t : Task) : (s.setTask k t).landing = s.landing := rfl
@[simp] theorem State.setTask_queries (s : State) (k : Nat) (t : Task) : (s.setTask k t).queries = s.queries := rfl
@[simp] theorem State.setTask_fuses (s : State) (k : Nat) (t : Task) : (s.setTask k t).fuses = s.fuses := rfl
@[simp] theorem State.setTask_hbmMask (s : State) (k : Nat) (t : Task) : (s.setTask k t).hbmMask = s.hbmMask := rfl
@[simp] theorem State.setTask_regpoolMin (s : State) (k : Nat) (t : Task) : (s.setTask k t).regpoolMin = s.regpoolMin := rfl
@[simp] theorem State.setTask_ready (s : State) (k : Nat) (t : Task) : (s.setTask k t).ready = s.ready := rfl
@[simp] theorem State.setTask_links (s : State) (k : Nat) (t : Task) : (s.setTask k t).links = s.links := rfl
@[simp] theorem State.setTask_failcode (s : State) (k : Nat) (t : Task) : (s.setTask k t).failcode = s.failcode := rfl
@[simp] theorem State.setTask_ageq (s : State) (k : Nat) (t : Task) : (s.setTask k t).ageq = s.ageq := rfl
@[simp] theorem State.setTask_errslot (s : State) (k : Nat) (t : Task) : (s.setTask k t).errslot = s.errslot := rfl
@[simp] theorem State.setTask_doneFail (s : State) (k : Nat) (t : Task) : (s.setTask k t).doneFail = s.doneFail := rfl
@[simp] theorem State.setTask_futFail (s : State) (k : Nat) (t : Task) : (s.setTask k t).futFail = s.futFail := rfl
@[simp] theorem State.setTask_lastSlot (s : State) (k : Nat) (t : Task) : (s.setTask k t).lastSlot = s.lastSlot := rfl
@[simp] theorem State.setTask_tags (s : State) (k : Nat) (t : Task) : (s.setTask k t).tags = s.tags := rfl
@[simp] theorem State.setTask_scommit (s : State) (k : Nat) (t : Task) : (s.setTask k t).scommit = s.scommit := rfl
@[simp] theorem State.setTask_ssquash (s : State) (k : Nat) (t : Task) : (s.setTask k t).ssquash = s.ssquash := rfl
@[simp] theorem State.setTask_stail (s : State) (k : Nat) (t : Task) : (s.setTask k t).stail = s.stail := rfl
@[simp] theorem State.setTask_stmo (s : State) (k : Nat) (t : Task) : (s.setTask k t).stmo = s.stmo := rfl
@[simp] theorem State.setTask_sinval (s : State) (k : Nat) (t : Task) : (s.setTask k t).sinval = s.sinval := rfl
@[simp] theorem State.setTask_secstall (s : State) (k : Nat) (t : Task) : (s.setTask k t).secstall = s.secstall := rfl
@[simp] theorem State.setTask_waystall (s : State) (k : Nat) (t : Task) : (s.setTask k t).waystall = s.waystall := rfl
@[simp] theorem State.setTask_predhit (s : State) (k : Nat) (t : Task) : (s.setTask k t).predhit = s.predhit := rfl
@[simp] theorem State.setTask_predfall (s : State) (k : Nat) (t : Task) : (s.setTask k t).predfall = s.predfall := rfl
@[simp] theorem State.setTask_xsEnable (s : State) (k : Nat) (t : Task) : (s.setTask k t).xsEnable = s.xsEnable := rfl
@[simp] theorem State.setTask_xsMinvictim (s : State) (k : Nat) (t : Task) : (s.setTask k t).xsMinvictim = s.xsMinvictim := rfl
@[simp] theorem State.setTask_xsIdle (s : State) (k : Nat) (t : Task) : (s.setTask k t).xsIdle = s.xsIdle := rfl
@[simp] theorem State.setTask_xsSwap (s : State) (k : Nat) (t : Task) : (s.setTask k t).xsSwap = s.xsSwap := rfl
@[simp] theorem State.setTask_xsLocal (s : State) (k : Nat) (t : Task) : (s.setTask k t).xsLocal = s.xsLocal := rfl
@[simp] theorem State.setTask_xsRemote (s : State) (k : Nat) (t : Task) : (s.setTask k t).xsRemote = s.xsRemote := rfl
@[simp] theorem State.setTask_xsFail (s : State) (k : Nat) (t : Task) : (s.setTask k t).xsFail = s.xsFail := rfl
@[simp] theorem State.setTask_xsRestage (s : State) (k : Nat) (t : Task) : (s.setTask k t).xsRestage = s.xsRestage := rfl
@[simp] theorem State.setTask_xsSpill (s : State) (k : Nat) (t : Task) : (s.setTask k t).xsSpill = s.xsSpill := rfl
@[simp] theorem State.setTask_xsSwaps (s : State) (k : Nat) (t : Task) : (s.setTask k t).xsSwaps = s.xsSwaps := rfl
@[simp] theorem State.setTask_fwin (s : State) (k : Nat) (t : Task) : (s.setTask k t).fwin = s.fwin := rfl
@[simp] theorem State.setTask_lwin (s : State) (k : Nat) (t : Task) : (s.setTask k t).lwin = s.lwin := rfl
@[simp] theorem State.setTask_lwinDrop (s : State) (k : Nat) (t : Task) : (s.setTask k t).lwinDrop = s.lwinDrop := rfl
@[simp] theorem State.setTask_ctxBase (s : State) (k : Nat) (t : Task) : (s.setTask k t).ctxBase = s.ctxBase := rfl
@[simp] theorem State.setTask_shootVa (s : State) (k : Nat) (t : Task) : (s.setTask k t).shootVa = s.shootVa := rfl
@[simp] theorem State.setTask_shootReq (s : State) (k : Nat) (t : Task) : (s.setTask k t).shootReq = s.shootReq := rfl
@[simp] theorem State.setTask_shootDone (s : State) (k : Nat) (t : Task) : (s.setTask k t).shootDone = s.shootDone := rfl
@[simp] theorem State.setTask_shoots (s : State) (k : Nat) (t : Task) : (s.setTask k t).shoots = s.shoots := rfl
@[simp] theorem State.setTask_tlbMiss (s : State) (k : Nat) (t : Task) : (s.setTask k t).tlbMiss = s.tlbMiss := rfl
@[simp] theorem State.setTask_tlbCoal (s : State) (k : Nat) (t : Task) : (s.setTask k t).tlbCoal = s.tlbCoal := rfl
@[simp] theorem State.setTask_badPte (s : State) (k : Nat) (t : Task) : (s.setTask k t).badPte = s.badPte := rfl
@[simp] theorem State.setTask_dieTlb (s : State) (k : Nat) (t : Task) : (s.setTask k t).dieTlb = s.dieTlb := rfl
@[simp] theorem State.setTask_walkCache (s : State) (k : Nat) (t : Task) : (s.setTask k t).walkCache = s.walkCache := rfl
@[simp] theorem State.setTask_migr (s : State) (k : Nat) (t : Task) : (s.setTask k t).migr = s.migr := rfl
@[simp] theorem State.setTask_faultq (s : State) (k : Nat) (t : Task) : (s.setTask k t).faultq = s.faultq := rfl
@[simp] theorem State.setTask_nbWindow (s : State) (k : Nat) (t : Task) : (s.setTask k t).nbWindow = s.nbWindow := rfl
@[simp] theorem State.setTask_nbMaxsusp (s : State) (k : Nat) (t : Task) : (s.setTask k t).nbMaxsusp = s.nbMaxsusp := rfl
@[simp] theorem State.setTask_nbCnt (s : State) (k : Nat) (t : Task) : (s.setTask k t).nbCnt = s.nbCnt := rfl
@[simp] theorem State.setTask_opTimeout (s : State) (k : Nat) (t : Task) : (s.setTask k t).opTimeout = s.opTimeout := rfl
@[simp] theorem State.setTask_stitching (s : State) (k : Nat) (t : Task) : (s.setTask k t).stitching = s.stitching := rfl
@[simp] theorem State.setTask_fabGen (s : State) (k : Nat) (t : Task) : (s.setTask k t).fabGen = s.fabGen := rfl
@[simp] theorem State.setTask_bypass (s : State) (k : Nat) (t : Task) : (s.setTask k t).bypass = s.bypass := rfl
@[simp] theorem State.setTask_hcorr (s : State) (k : Nat) (t : Task) : (s.setTask k t).hcorr = s.hcorr := rfl
@[simp] theorem State.setTask_hdrop (s : State) (k : Nat) (t : Task) : (s.setTask k t).hdrop = s.hdrop := rfl
@[simp] theorem State.setTask_timeouts (s : State) (k : Nat) (t : Task) : (s.setTask k t).timeouts = s.timeouts := rfl
@[simp] theorem State.setTask_fabNext (s : State) (k : Nat) (t : Task) : (s.setTask k t).fabNext = s.fabNext := rfl
@[simp] theorem State.setTask_fabCount (s : State) (k : Nat) (t : Task) : (s.setTask k t).fabCount = s.fabCount := rfl
@[simp] theorem State.setTask_fabLog (s : State) (k : Nat) (t : Task) : (s.setTask k t).fabLog = s.fabLog := rfl
@[simp] theorem State.setTask_lostBridges (s : State) (k : Nat) (t : Task) : (s.setTask k t).lostBridges = s.lostBridges := rfl
@[simp] theorem State.setTask_lostDies (s : State) (k : Nat) (t : Task) : (s.setTask k t).lostDies = s.lostDies := rfl
@[simp] theorem State.setTask_lostSlices (s : State) (k : Nat) (t : Task) : (s.setTask k t).lostSlices = s.lostSlices := rfl
@[simp] theorem State.setTask_mbxOpc (s : State) (k : Nat) (t : Task) : (s.setTask k t).mbxOpc = s.mbxOpc := rfl
@[simp] theorem State.setTask_mbxRun (s : State) (k : Nat) (t : Task) : (s.setTask k t).mbxRun = s.mbxRun := rfl
@[simp] theorem State.setTask_mbxResult (s : State) (k : Nat) (t : Task) : (s.setTask k t).mbxResult = s.mbxResult := rfl
@[simp] theorem State.setTask_mbxArg (s : State) (k : Nat) (t : Task) : (s.setTask k t).mbxArg = s.mbxArg := rfl
@[simp] theorem State.setTask_quantum (s : State) (k : Nat) (t : Task) : (s.setTask k t).quantum = s.quantum := rfl
@[simp] theorem State.setTask_lastQuantum (s : State) (k : Nat) (t : Task) : (s.setTask k t).lastQuantum = s.lastQuantum := rfl
@[simp] theorem State.setTask_standby (s : State) (k : Nat) (t : Task) : (s.setTask k t).standby = s.standby := rfl
@[simp] theorem State.setTask_slate (s : State) (k : Nat) (t : Task) : (s.setTask k t).slate = s.slate := rfl
@[simp] theorem State.setTask_maps (s : State) (k : Nat) (t : Task) : (s.setTask k t).maps = s.maps := rfl
@[simp] theorem State.setTask_journal (s : State) (k : Nat) (t : Task) : (s.setTask k t).journal = s.journal := rfl
@[simp] theorem State.setTask_jseq (s : State) (k : Nat) (t : Task) : (s.setTask k t).jseq = s.jseq := rfl
@[simp] theorem State.setTask_hostEvents (s : State) (k : Nat) (t : Task) : (s.setTask k t).hostEvents = s.hostEvents := rfl
@[simp] theorem State.setTask_ranges (s : State) (k : Nat) (t : Task) : (s.setTask k t).ranges = s.ranges := rfl
@[simp] theorem State.setTask_peers (s : State) (k : Nat) (t : Task) : (s.setTask k t).peers = s.peers := rfl
@[simp] theorem State.setTask_ckpts (s : State) (k : Nat) (t : Task) : (s.setTask k t).ckpts = s.ckpts := rfl
@[simp] theorem State.setTask_descs (s : State) (k : Nat) (t : Task) : (s.setTask k t).descs = s.descs := rfl
@[simp] theorem State.setTask_sent (s : State) (k : Nat) (t : Task) : (s.setTask k t).sent = s.sent := rfl
@[simp] theorem State.setTask_lostDevs (s : State) (k : Nat) (t : Task) : (s.setTask k t).lostDevs = s.lostDevs := rfl
@[simp] theorem State.setTask_recov (s : State) (k : Nat) (t : Task) : (s.setTask k t).recov = s.recov := rfl
@[simp] theorem State.setTask_flash (s : State) (k : Nat) (t : Task) : (s.setTask k t).flash = s.flash := rfl
@[simp] theorem State.setTask_cap (s : State) (k : Nat) (t : Task) : (s.setTask k t).cap = s.cap := rfl
@[simp] theorem State.setTask_oplim (s : State) (k : Nat) (t : Task) : (s.setTask k t).oplim = s.oplim := rfl
@[simp] theorem State.setTask_ppoint (s : State) (k : Nat) (t : Task) : (s.setTask k t).ppoint = s.ppoint := rfl
@[simp] theorem State.setTask_op (s : State) (k : Nat) (t : Task) : (s.setTask k t).op = s.op := rfl
@[simp] theorem State.setTask_settling (s : State) (k : Nat) (t : Task) : (s.setTask k t).settling = s.settling := rfl
@[simp] theorem State.setTask_watts (s : State) (k : Nat) (t : Task) : (s.setTask k t).watts = s.watts := rfl
@[simp] theorem State.setTask_amps (s : State) (k : Nat) (t : Task) : (s.setTask k t).amps = s.amps := rfl
@[simp] theorem State.setTask_skips (s : State) (k : Nat) (t : Task) : (s.setTask k t).skips = s.skips := rfl
@[simp] theorem State.setTask_limited (s : State) (k : Nat) (t : Task) : (s.setTask k t).limited = s.limited := rfl
@[simp] theorem State.setTask_life (s : State) (k : Nat) (t : Task) : (s.setTask k t).life = s.life := rfl
@[simp] theorem State.setTask_deadSites (s : State) (k : Nat) (t : Task) : (s.setTask k t).deadSites = s.deadSites := rfl
@[simp] theorem State.setTask_siteMap (s : State) (k : Nat) (t : Task) : (s.setTask k t).siteMap = s.siteMap := rfl
@[simp] theorem State.setTask_hostReads (s : State) (k : Nat) (t : Task) : (s.setTask k t).hostReads = s.hostReads := rfl
@[simp] theorem State.setTask_routeGen (s : State) (k : Nat) (t : Task) : (s.setTask k t).routeGen = s.routeGen := rfl
@[simp] theorem State.setTask_overAt (s : State) (k : Nat) (t : Task) : (s.setTask k t).overAt = s.overAt := rfl
@[simp] theorem State.setTask_underAt (s : State) (k : Nat) (t : Task) : (s.setTask k t).underAt = s.underAt := rfl

/-! `setCore`. -/

@[simp] theorem State.setCore_time (s : State) (c : Nat) (x : Core) : (s.setCore c x).time = s.time := rfl
@[simp] theorem State.setCore_agenda (s : State) (c : Nat) (x : Core) : (s.setCore c x).agenda = s.agenda := rfl
@[simp] theorem State.setCore_free (s : State) (c : Nat) (x : Core) : (s.setCore c x).free = s.free := rfl
@[simp] theorem State.setCore_issue (s : State) (c : Nat) (x : Core) : (s.setCore c x).issue = s.issue := rfl
@[simp] theorem State.setCore_nextId (s : State) (c : Nat) (x : Core) : (s.setCore c x).nextId = s.nextId := rfl
@[simp] theorem State.setCore_mem (s : State) (c : Nat) (x : Core) : (s.setCore c x).mem = s.mem := rfl
@[simp] theorem State.setCore_poison (s : State) (c : Nat) (x : Core) : (s.setCore c x).poison = s.poison := rfl
@[simp] theorem State.setCore_l2 (s : State) (c : Nat) (x : Core) : (s.setCore c x).l2 = s.l2 := rfl
@[simp] theorem State.setCore_spec (s : State) (c : Nat) (x : Core) : (s.setCore c x).spec = s.spec := rfl
@[simp] theorem State.setCore_specFut (s : State) (c : Nat) (x : Core) : (s.setCore c x).specFut = s.specFut := rfl
@[simp] theorem State.setCore_ctxs (s : State) (c : Nat) (x : Core) : (s.setCore c x).ctxs = s.ctxs := rfl
@[simp] theorem State.setCore_cores (s : State) (c : Nat) (x : Core) : (s.setCore c x).cores = tput s.cores c x := rfl
@[simp] theorem State.setCore_threads (s : State) (c : Nat) (x : Core) : (s.setCore c x).threads = s.threads := rfl
@[simp] theorem State.setCore_tasks (s : State) (c : Nat) (x : Core) : (s.setCore c x).tasks = s.tasks := rfl
@[simp] theorem State.setCore_gangs (s : State) (c : Nat) (x : Core) : (s.setCore c x).gangs = s.gangs := rfl
@[simp] theorem State.setCore_launches (s : State) (c : Nat) (x : Core) : (s.setCore c x).launches = s.launches := rfl
@[simp] theorem State.setCore_packets (s : State) (c : Nat) (x : Core) : (s.setCore c x).packets = s.packets := rfl
@[simp] theorem State.setCore_queues (s : State) (c : Nat) (x : Core) : (s.setCore c x).queues = s.queues := rfl
@[simp] theorem State.setCore_slots (s : State) (c : Nat) (x : Core) : (s.setCore c x).slots = s.slots := rfl
@[simp] theorem State.setCore_doorbell (s : State) (c : Nat) (x : Core) : (s.setCore c x).doorbell = s.doorbell := rfl
@[simp] theorem State.setCore_msgs (s : State) (c : Nat) (x : Core) : (s.setCore c x).msgs = s.msgs := rfl
@[simp] theorem State.setCore_nb (s : State) (c : Nat) (x : Core) : (s.setCore c x).nb = s.nb := rfl
@[simp] theorem State.setCore_landing (s : State) (c : Nat) (x : Core) : (s.setCore c x).landing = s.landing := rfl
@[simp] theorem State.setCore_queries (s : State) (c : Nat) (x : Core) : (s.setCore c x).queries = s.queries := rfl
@[simp] theorem State.setCore_fuses (s : State) (c : Nat) (x : Core) : (s.setCore c x).fuses = s.fuses := rfl
@[simp] theorem State.setCore_hbmMask (s : State) (c : Nat) (x : Core) : (s.setCore c x).hbmMask = s.hbmMask := rfl
@[simp] theorem State.setCore_regpoolMin (s : State) (c : Nat) (x : Core) : (s.setCore c x).regpoolMin = s.regpoolMin := rfl
@[simp] theorem State.setCore_ready (s : State) (c : Nat) (x : Core) : (s.setCore c x).ready = s.ready := rfl
@[simp] theorem State.setCore_links (s : State) (c : Nat) (x : Core) : (s.setCore c x).links = s.links := rfl
@[simp] theorem State.setCore_failcode (s : State) (c : Nat) (x : Core) : (s.setCore c x).failcode = s.failcode := rfl
@[simp] theorem State.setCore_ageq (s : State) (c : Nat) (x : Core) : (s.setCore c x).ageq = s.ageq := rfl
@[simp] theorem State.setCore_errslot (s : State) (c : Nat) (x : Core) : (s.setCore c x).errslot = s.errslot := rfl
@[simp] theorem State.setCore_doneFail (s : State) (c : Nat) (x : Core) : (s.setCore c x).doneFail = s.doneFail := rfl
@[simp] theorem State.setCore_futFail (s : State) (c : Nat) (x : Core) : (s.setCore c x).futFail = s.futFail := rfl
@[simp] theorem State.setCore_lastSlot (s : State) (c : Nat) (x : Core) : (s.setCore c x).lastSlot = s.lastSlot := rfl
@[simp] theorem State.setCore_tags (s : State) (c : Nat) (x : Core) : (s.setCore c x).tags = s.tags := rfl
@[simp] theorem State.setCore_scommit (s : State) (c : Nat) (x : Core) : (s.setCore c x).scommit = s.scommit := rfl
@[simp] theorem State.setCore_ssquash (s : State) (c : Nat) (x : Core) : (s.setCore c x).ssquash = s.ssquash := rfl
@[simp] theorem State.setCore_stail (s : State) (c : Nat) (x : Core) : (s.setCore c x).stail = s.stail := rfl
@[simp] theorem State.setCore_stmo (s : State) (c : Nat) (x : Core) : (s.setCore c x).stmo = s.stmo := rfl
@[simp] theorem State.setCore_sinval (s : State) (c : Nat) (x : Core) : (s.setCore c x).sinval = s.sinval := rfl
@[simp] theorem State.setCore_secstall (s : State) (c : Nat) (x : Core) : (s.setCore c x).secstall = s.secstall := rfl
@[simp] theorem State.setCore_waystall (s : State) (c : Nat) (x : Core) : (s.setCore c x).waystall = s.waystall := rfl
@[simp] theorem State.setCore_predhit (s : State) (c : Nat) (x : Core) : (s.setCore c x).predhit = s.predhit := rfl
@[simp] theorem State.setCore_predfall (s : State) (c : Nat) (x : Core) : (s.setCore c x).predfall = s.predfall := rfl
@[simp] theorem State.setCore_xsEnable (s : State) (c : Nat) (x : Core) : (s.setCore c x).xsEnable = s.xsEnable := rfl
@[simp] theorem State.setCore_xsMinvictim (s : State) (c : Nat) (x : Core) : (s.setCore c x).xsMinvictim = s.xsMinvictim := rfl
@[simp] theorem State.setCore_xsIdle (s : State) (c : Nat) (x : Core) : (s.setCore c x).xsIdle = s.xsIdle := rfl
@[simp] theorem State.setCore_xsSwap (s : State) (c : Nat) (x : Core) : (s.setCore c x).xsSwap = s.xsSwap := rfl
@[simp] theorem State.setCore_xsLocal (s : State) (c : Nat) (x : Core) : (s.setCore c x).xsLocal = s.xsLocal := rfl
@[simp] theorem State.setCore_xsRemote (s : State) (c : Nat) (x : Core) : (s.setCore c x).xsRemote = s.xsRemote := rfl
@[simp] theorem State.setCore_xsFail (s : State) (c : Nat) (x : Core) : (s.setCore c x).xsFail = s.xsFail := rfl
@[simp] theorem State.setCore_xsRestage (s : State) (c : Nat) (x : Core) : (s.setCore c x).xsRestage = s.xsRestage := rfl
@[simp] theorem State.setCore_xsSpill (s : State) (c : Nat) (x : Core) : (s.setCore c x).xsSpill = s.xsSpill := rfl
@[simp] theorem State.setCore_xsSwaps (s : State) (c : Nat) (x : Core) : (s.setCore c x).xsSwaps = s.xsSwaps := rfl
@[simp] theorem State.setCore_fwin (s : State) (c : Nat) (x : Core) : (s.setCore c x).fwin = s.fwin := rfl
@[simp] theorem State.setCore_lwin (s : State) (c : Nat) (x : Core) : (s.setCore c x).lwin = s.lwin := rfl
@[simp] theorem State.setCore_lwinDrop (s : State) (c : Nat) (x : Core) : (s.setCore c x).lwinDrop = s.lwinDrop := rfl
@[simp] theorem State.setCore_ctxBase (s : State) (c : Nat) (x : Core) : (s.setCore c x).ctxBase = s.ctxBase := rfl
@[simp] theorem State.setCore_shootVa (s : State) (c : Nat) (x : Core) : (s.setCore c x).shootVa = s.shootVa := rfl
@[simp] theorem State.setCore_shootReq (s : State) (c : Nat) (x : Core) : (s.setCore c x).shootReq = s.shootReq := rfl
@[simp] theorem State.setCore_shootDone (s : State) (c : Nat) (x : Core) : (s.setCore c x).shootDone = s.shootDone := rfl
@[simp] theorem State.setCore_shoots (s : State) (c : Nat) (x : Core) : (s.setCore c x).shoots = s.shoots := rfl
@[simp] theorem State.setCore_tlbMiss (s : State) (c : Nat) (x : Core) : (s.setCore c x).tlbMiss = s.tlbMiss := rfl
@[simp] theorem State.setCore_tlbCoal (s : State) (c : Nat) (x : Core) : (s.setCore c x).tlbCoal = s.tlbCoal := rfl
@[simp] theorem State.setCore_badPte (s : State) (c : Nat) (x : Core) : (s.setCore c x).badPte = s.badPte := rfl
@[simp] theorem State.setCore_dieTlb (s : State) (c : Nat) (x : Core) : (s.setCore c x).dieTlb = s.dieTlb := rfl
@[simp] theorem State.setCore_walkCache (s : State) (c : Nat) (x : Core) : (s.setCore c x).walkCache = s.walkCache := rfl
@[simp] theorem State.setCore_migr (s : State) (c : Nat) (x : Core) : (s.setCore c x).migr = s.migr := rfl
@[simp] theorem State.setCore_faultq (s : State) (c : Nat) (x : Core) : (s.setCore c x).faultq = s.faultq := rfl
@[simp] theorem State.setCore_nbWindow (s : State) (c : Nat) (x : Core) : (s.setCore c x).nbWindow = s.nbWindow := rfl
@[simp] theorem State.setCore_nbMaxsusp (s : State) (c : Nat) (x : Core) : (s.setCore c x).nbMaxsusp = s.nbMaxsusp := rfl
@[simp] theorem State.setCore_nbCnt (s : State) (c : Nat) (x : Core) : (s.setCore c x).nbCnt = s.nbCnt := rfl
@[simp] theorem State.setCore_opTimeout (s : State) (c : Nat) (x : Core) : (s.setCore c x).opTimeout = s.opTimeout := rfl
@[simp] theorem State.setCore_stitching (s : State) (c : Nat) (x : Core) : (s.setCore c x).stitching = s.stitching := rfl
@[simp] theorem State.setCore_fabGen (s : State) (c : Nat) (x : Core) : (s.setCore c x).fabGen = s.fabGen := rfl
@[simp] theorem State.setCore_bypass (s : State) (c : Nat) (x : Core) : (s.setCore c x).bypass = s.bypass := rfl
@[simp] theorem State.setCore_hcorr (s : State) (c : Nat) (x : Core) : (s.setCore c x).hcorr = s.hcorr := rfl
@[simp] theorem State.setCore_hdrop (s : State) (c : Nat) (x : Core) : (s.setCore c x).hdrop = s.hdrop := rfl
@[simp] theorem State.setCore_timeouts (s : State) (c : Nat) (x : Core) : (s.setCore c x).timeouts = s.timeouts := rfl
@[simp] theorem State.setCore_fabNext (s : State) (c : Nat) (x : Core) : (s.setCore c x).fabNext = s.fabNext := rfl
@[simp] theorem State.setCore_fabCount (s : State) (c : Nat) (x : Core) : (s.setCore c x).fabCount = s.fabCount := rfl
@[simp] theorem State.setCore_fabLog (s : State) (c : Nat) (x : Core) : (s.setCore c x).fabLog = s.fabLog := rfl
@[simp] theorem State.setCore_lostBridges (s : State) (c : Nat) (x : Core) : (s.setCore c x).lostBridges = s.lostBridges := rfl
@[simp] theorem State.setCore_lostDies (s : State) (c : Nat) (x : Core) : (s.setCore c x).lostDies = s.lostDies := rfl
@[simp] theorem State.setCore_lostSlices (s : State) (c : Nat) (x : Core) : (s.setCore c x).lostSlices = s.lostSlices := rfl
@[simp] theorem State.setCore_mbxOpc (s : State) (c : Nat) (x : Core) : (s.setCore c x).mbxOpc = s.mbxOpc := rfl
@[simp] theorem State.setCore_mbxRun (s : State) (c : Nat) (x : Core) : (s.setCore c x).mbxRun = s.mbxRun := rfl
@[simp] theorem State.setCore_mbxResult (s : State) (c : Nat) (x : Core) : (s.setCore c x).mbxResult = s.mbxResult := rfl
@[simp] theorem State.setCore_mbxArg (s : State) (c : Nat) (x : Core) : (s.setCore c x).mbxArg = s.mbxArg := rfl
@[simp] theorem State.setCore_quantum (s : State) (c : Nat) (x : Core) : (s.setCore c x).quantum = s.quantum := rfl
@[simp] theorem State.setCore_lastQuantum (s : State) (c : Nat) (x : Core) : (s.setCore c x).lastQuantum = s.lastQuantum := rfl
@[simp] theorem State.setCore_standby (s : State) (c : Nat) (x : Core) : (s.setCore c x).standby = s.standby := rfl
@[simp] theorem State.setCore_slate (s : State) (c : Nat) (x : Core) : (s.setCore c x).slate = s.slate := rfl
@[simp] theorem State.setCore_maps (s : State) (c : Nat) (x : Core) : (s.setCore c x).maps = s.maps := rfl
@[simp] theorem State.setCore_journal (s : State) (c : Nat) (x : Core) : (s.setCore c x).journal = s.journal := rfl
@[simp] theorem State.setCore_jseq (s : State) (c : Nat) (x : Core) : (s.setCore c x).jseq = s.jseq := rfl
@[simp] theorem State.setCore_hostEvents (s : State) (c : Nat) (x : Core) : (s.setCore c x).hostEvents = s.hostEvents := rfl
@[simp] theorem State.setCore_ranges (s : State) (c : Nat) (x : Core) : (s.setCore c x).ranges = s.ranges := rfl
@[simp] theorem State.setCore_peers (s : State) (c : Nat) (x : Core) : (s.setCore c x).peers = s.peers := rfl
@[simp] theorem State.setCore_ckpts (s : State) (c : Nat) (x : Core) : (s.setCore c x).ckpts = s.ckpts := rfl
@[simp] theorem State.setCore_descs (s : State) (c : Nat) (x : Core) : (s.setCore c x).descs = s.descs := rfl
@[simp] theorem State.setCore_sent (s : State) (c : Nat) (x : Core) : (s.setCore c x).sent = s.sent := rfl
@[simp] theorem State.setCore_lostDevs (s : State) (c : Nat) (x : Core) : (s.setCore c x).lostDevs = s.lostDevs := rfl
@[simp] theorem State.setCore_recov (s : State) (c : Nat) (x : Core) : (s.setCore c x).recov = s.recov := rfl
@[simp] theorem State.setCore_flash (s : State) (c : Nat) (x : Core) : (s.setCore c x).flash = s.flash := rfl
@[simp] theorem State.setCore_cap (s : State) (c : Nat) (x : Core) : (s.setCore c x).cap = s.cap := rfl
@[simp] theorem State.setCore_oplim (s : State) (c : Nat) (x : Core) : (s.setCore c x).oplim = s.oplim := rfl
@[simp] theorem State.setCore_ppoint (s : State) (c : Nat) (x : Core) : (s.setCore c x).ppoint = s.ppoint := rfl
@[simp] theorem State.setCore_op (s : State) (c : Nat) (x : Core) : (s.setCore c x).op = s.op := rfl
@[simp] theorem State.setCore_settling (s : State) (c : Nat) (x : Core) : (s.setCore c x).settling = s.settling := rfl
@[simp] theorem State.setCore_watts (s : State) (c : Nat) (x : Core) : (s.setCore c x).watts = s.watts := rfl
@[simp] theorem State.setCore_amps (s : State) (c : Nat) (x : Core) : (s.setCore c x).amps = s.amps := rfl
@[simp] theorem State.setCore_skips (s : State) (c : Nat) (x : Core) : (s.setCore c x).skips = s.skips := rfl
@[simp] theorem State.setCore_limited (s : State) (c : Nat) (x : Core) : (s.setCore c x).limited = s.limited := rfl
@[simp] theorem State.setCore_life (s : State) (c : Nat) (x : Core) : (s.setCore c x).life = s.life := rfl
@[simp] theorem State.setCore_deadSites (s : State) (c : Nat) (x : Core) : (s.setCore c x).deadSites = s.deadSites := rfl
@[simp] theorem State.setCore_siteMap (s : State) (c : Nat) (x : Core) : (s.setCore c x).siteMap = s.siteMap := rfl
@[simp] theorem State.setCore_hostReads (s : State) (c : Nat) (x : Core) : (s.setCore c x).hostReads = s.hostReads := rfl
@[simp] theorem State.setCore_routeGen (s : State) (c : Nat) (x : Core) : (s.setCore c x).routeGen = s.routeGen := rfl
@[simp] theorem State.setCore_overAt (s : State) (c : Nat) (x : Core) : (s.setCore c x).overAt = s.overAt := rfl
@[simp] theorem State.setCore_underAt (s : State) (c : Nat) (x : Core) : (s.setCore c x).underAt = s.underAt := rfl

/-! `setLaunch`. -/

@[simp] theorem State.setLaunch_time (s : State) (l : Nat) (x : Launch) : (s.setLaunch l x).time = s.time := rfl
@[simp] theorem State.setLaunch_agenda (s : State) (l : Nat) (x : Launch) : (s.setLaunch l x).agenda = s.agenda := rfl
@[simp] theorem State.setLaunch_free (s : State) (l : Nat) (x : Launch) : (s.setLaunch l x).free = s.free := rfl
@[simp] theorem State.setLaunch_issue (s : State) (l : Nat) (x : Launch) : (s.setLaunch l x).issue = s.issue := rfl
@[simp] theorem State.setLaunch_nextId (s : State) (l : Nat) (x : Launch) : (s.setLaunch l x).nextId = s.nextId := rfl
@[simp] theorem State.setLaunch_mem (s : State) (l : Nat) (x : Launch) : (s.setLaunch l x).mem = s.mem := rfl
@[simp] theorem State.setLaunch_poison (s : State) (l : Nat) (x : Launch) : (s.setLaunch l x).poison = s.poison := rfl
@[simp] theorem State.setLaunch_l2 (s : State) (l : Nat) (x : Launch) : (s.setLaunch l x).l2 = s.l2 := rfl
@[simp] theorem State.setLaunch_spec (s : State) (l : Nat) (x : Launch) : (s.setLaunch l x).spec = s.spec := rfl
@[simp] theorem State.setLaunch_specFut (s : State) (l : Nat) (x : Launch) : (s.setLaunch l x).specFut = s.specFut := rfl
@[simp] theorem State.setLaunch_ctxs (s : State) (l : Nat) (x : Launch) : (s.setLaunch l x).ctxs = s.ctxs := rfl
@[simp] theorem State.setLaunch_cores (s : State) (l : Nat) (x : Launch) : (s.setLaunch l x).cores = s.cores := rfl
@[simp] theorem State.setLaunch_threads (s : State) (l : Nat) (x : Launch) : (s.setLaunch l x).threads = s.threads := rfl
@[simp] theorem State.setLaunch_tasks (s : State) (l : Nat) (x : Launch) : (s.setLaunch l x).tasks = s.tasks := rfl
@[simp] theorem State.setLaunch_gangs (s : State) (l : Nat) (x : Launch) : (s.setLaunch l x).gangs = s.gangs := rfl
@[simp] theorem State.setLaunch_launches (s : State) (l : Nat) (x : Launch) : (s.setLaunch l x).launches = tput s.launches l x := rfl
@[simp] theorem State.setLaunch_packets (s : State) (l : Nat) (x : Launch) : (s.setLaunch l x).packets = s.packets := rfl
@[simp] theorem State.setLaunch_queues (s : State) (l : Nat) (x : Launch) : (s.setLaunch l x).queues = s.queues := rfl
@[simp] theorem State.setLaunch_slots (s : State) (l : Nat) (x : Launch) : (s.setLaunch l x).slots = s.slots := rfl
@[simp] theorem State.setLaunch_doorbell (s : State) (l : Nat) (x : Launch) : (s.setLaunch l x).doorbell = s.doorbell := rfl
@[simp] theorem State.setLaunch_msgs (s : State) (l : Nat) (x : Launch) : (s.setLaunch l x).msgs = s.msgs := rfl
@[simp] theorem State.setLaunch_nb (s : State) (l : Nat) (x : Launch) : (s.setLaunch l x).nb = s.nb := rfl
@[simp] theorem State.setLaunch_landing (s : State) (l : Nat) (x : Launch) : (s.setLaunch l x).landing = s.landing := rfl
@[simp] theorem State.setLaunch_queries (s : State) (l : Nat) (x : Launch) : (s.setLaunch l x).queries = s.queries := rfl
@[simp] theorem State.setLaunch_fuses (s : State) (l : Nat) (x : Launch) : (s.setLaunch l x).fuses = s.fuses := rfl
@[simp] theorem State.setLaunch_hbmMask (s : State) (l : Nat) (x : Launch) : (s.setLaunch l x).hbmMask = s.hbmMask := rfl
@[simp] theorem State.setLaunch_regpoolMin (s : State) (l : Nat) (x : Launch) : (s.setLaunch l x).regpoolMin = s.regpoolMin := rfl
@[simp] theorem State.setLaunch_ready (s : State) (l : Nat) (x : Launch) : (s.setLaunch l x).ready = s.ready := rfl
@[simp] theorem State.setLaunch_links (s : State) (l : Nat) (x : Launch) : (s.setLaunch l x).links = s.links := rfl
@[simp] theorem State.setLaunch_failcode (s : State) (l : Nat) (x : Launch) : (s.setLaunch l x).failcode = s.failcode := rfl
@[simp] theorem State.setLaunch_ageq (s : State) (l : Nat) (x : Launch) : (s.setLaunch l x).ageq = s.ageq := rfl
@[simp] theorem State.setLaunch_errslot (s : State) (l : Nat) (x : Launch) : (s.setLaunch l x).errslot = s.errslot := rfl
@[simp] theorem State.setLaunch_doneFail (s : State) (l : Nat) (x : Launch) : (s.setLaunch l x).doneFail = s.doneFail := rfl
@[simp] theorem State.setLaunch_futFail (s : State) (l : Nat) (x : Launch) : (s.setLaunch l x).futFail = s.futFail := rfl
@[simp] theorem State.setLaunch_lastSlot (s : State) (l : Nat) (x : Launch) : (s.setLaunch l x).lastSlot = s.lastSlot := rfl
@[simp] theorem State.setLaunch_tags (s : State) (l : Nat) (x : Launch) : (s.setLaunch l x).tags = s.tags := rfl
@[simp] theorem State.setLaunch_scommit (s : State) (l : Nat) (x : Launch) : (s.setLaunch l x).scommit = s.scommit := rfl
@[simp] theorem State.setLaunch_ssquash (s : State) (l : Nat) (x : Launch) : (s.setLaunch l x).ssquash = s.ssquash := rfl
@[simp] theorem State.setLaunch_stail (s : State) (l : Nat) (x : Launch) : (s.setLaunch l x).stail = s.stail := rfl
@[simp] theorem State.setLaunch_stmo (s : State) (l : Nat) (x : Launch) : (s.setLaunch l x).stmo = s.stmo := rfl
@[simp] theorem State.setLaunch_sinval (s : State) (l : Nat) (x : Launch) : (s.setLaunch l x).sinval = s.sinval := rfl
@[simp] theorem State.setLaunch_secstall (s : State) (l : Nat) (x : Launch) : (s.setLaunch l x).secstall = s.secstall := rfl
@[simp] theorem State.setLaunch_waystall (s : State) (l : Nat) (x : Launch) : (s.setLaunch l x).waystall = s.waystall := rfl
@[simp] theorem State.setLaunch_predhit (s : State) (l : Nat) (x : Launch) : (s.setLaunch l x).predhit = s.predhit := rfl
@[simp] theorem State.setLaunch_predfall (s : State) (l : Nat) (x : Launch) : (s.setLaunch l x).predfall = s.predfall := rfl
@[simp] theorem State.setLaunch_xsEnable (s : State) (l : Nat) (x : Launch) : (s.setLaunch l x).xsEnable = s.xsEnable := rfl
@[simp] theorem State.setLaunch_xsMinvictim (s : State) (l : Nat) (x : Launch) : (s.setLaunch l x).xsMinvictim = s.xsMinvictim := rfl
@[simp] theorem State.setLaunch_xsIdle (s : State) (l : Nat) (x : Launch) : (s.setLaunch l x).xsIdle = s.xsIdle := rfl
@[simp] theorem State.setLaunch_xsSwap (s : State) (l : Nat) (x : Launch) : (s.setLaunch l x).xsSwap = s.xsSwap := rfl
@[simp] theorem State.setLaunch_xsLocal (s : State) (l : Nat) (x : Launch) : (s.setLaunch l x).xsLocal = s.xsLocal := rfl
@[simp] theorem State.setLaunch_xsRemote (s : State) (l : Nat) (x : Launch) : (s.setLaunch l x).xsRemote = s.xsRemote := rfl
@[simp] theorem State.setLaunch_xsFail (s : State) (l : Nat) (x : Launch) : (s.setLaunch l x).xsFail = s.xsFail := rfl
@[simp] theorem State.setLaunch_xsRestage (s : State) (l : Nat) (x : Launch) : (s.setLaunch l x).xsRestage = s.xsRestage := rfl
@[simp] theorem State.setLaunch_xsSpill (s : State) (l : Nat) (x : Launch) : (s.setLaunch l x).xsSpill = s.xsSpill := rfl
@[simp] theorem State.setLaunch_xsSwaps (s : State) (l : Nat) (x : Launch) : (s.setLaunch l x).xsSwaps = s.xsSwaps := rfl
@[simp] theorem State.setLaunch_fwin (s : State) (l : Nat) (x : Launch) : (s.setLaunch l x).fwin = s.fwin := rfl
@[simp] theorem State.setLaunch_lwin (s : State) (l : Nat) (x : Launch) : (s.setLaunch l x).lwin = s.lwin := rfl
@[simp] theorem State.setLaunch_lwinDrop (s : State) (l : Nat) (x : Launch) : (s.setLaunch l x).lwinDrop = s.lwinDrop := rfl
@[simp] theorem State.setLaunch_ctxBase (s : State) (l : Nat) (x : Launch) : (s.setLaunch l x).ctxBase = s.ctxBase := rfl
@[simp] theorem State.setLaunch_shootVa (s : State) (l : Nat) (x : Launch) : (s.setLaunch l x).shootVa = s.shootVa := rfl
@[simp] theorem State.setLaunch_shootReq (s : State) (l : Nat) (x : Launch) : (s.setLaunch l x).shootReq = s.shootReq := rfl
@[simp] theorem State.setLaunch_shootDone (s : State) (l : Nat) (x : Launch) : (s.setLaunch l x).shootDone = s.shootDone := rfl
@[simp] theorem State.setLaunch_shoots (s : State) (l : Nat) (x : Launch) : (s.setLaunch l x).shoots = s.shoots := rfl
@[simp] theorem State.setLaunch_tlbMiss (s : State) (l : Nat) (x : Launch) : (s.setLaunch l x).tlbMiss = s.tlbMiss := rfl
@[simp] theorem State.setLaunch_tlbCoal (s : State) (l : Nat) (x : Launch) : (s.setLaunch l x).tlbCoal = s.tlbCoal := rfl
@[simp] theorem State.setLaunch_badPte (s : State) (l : Nat) (x : Launch) : (s.setLaunch l x).badPte = s.badPte := rfl
@[simp] theorem State.setLaunch_dieTlb (s : State) (l : Nat) (x : Launch) : (s.setLaunch l x).dieTlb = s.dieTlb := rfl
@[simp] theorem State.setLaunch_walkCache (s : State) (l : Nat) (x : Launch) : (s.setLaunch l x).walkCache = s.walkCache := rfl
@[simp] theorem State.setLaunch_migr (s : State) (l : Nat) (x : Launch) : (s.setLaunch l x).migr = s.migr := rfl
@[simp] theorem State.setLaunch_faultq (s : State) (l : Nat) (x : Launch) : (s.setLaunch l x).faultq = s.faultq := rfl
@[simp] theorem State.setLaunch_nbWindow (s : State) (l : Nat) (x : Launch) : (s.setLaunch l x).nbWindow = s.nbWindow := rfl
@[simp] theorem State.setLaunch_nbMaxsusp (s : State) (l : Nat) (x : Launch) : (s.setLaunch l x).nbMaxsusp = s.nbMaxsusp := rfl
@[simp] theorem State.setLaunch_nbCnt (s : State) (l : Nat) (x : Launch) : (s.setLaunch l x).nbCnt = s.nbCnt := rfl
@[simp] theorem State.setLaunch_opTimeout (s : State) (l : Nat) (x : Launch) : (s.setLaunch l x).opTimeout = s.opTimeout := rfl
@[simp] theorem State.setLaunch_stitching (s : State) (l : Nat) (x : Launch) : (s.setLaunch l x).stitching = s.stitching := rfl
@[simp] theorem State.setLaunch_fabGen (s : State) (l : Nat) (x : Launch) : (s.setLaunch l x).fabGen = s.fabGen := rfl
@[simp] theorem State.setLaunch_bypass (s : State) (l : Nat) (x : Launch) : (s.setLaunch l x).bypass = s.bypass := rfl
@[simp] theorem State.setLaunch_hcorr (s : State) (l : Nat) (x : Launch) : (s.setLaunch l x).hcorr = s.hcorr := rfl
@[simp] theorem State.setLaunch_hdrop (s : State) (l : Nat) (x : Launch) : (s.setLaunch l x).hdrop = s.hdrop := rfl
@[simp] theorem State.setLaunch_timeouts (s : State) (l : Nat) (x : Launch) : (s.setLaunch l x).timeouts = s.timeouts := rfl
@[simp] theorem State.setLaunch_fabNext (s : State) (l : Nat) (x : Launch) : (s.setLaunch l x).fabNext = s.fabNext := rfl
@[simp] theorem State.setLaunch_fabCount (s : State) (l : Nat) (x : Launch) : (s.setLaunch l x).fabCount = s.fabCount := rfl
@[simp] theorem State.setLaunch_fabLog (s : State) (l : Nat) (x : Launch) : (s.setLaunch l x).fabLog = s.fabLog := rfl
@[simp] theorem State.setLaunch_lostBridges (s : State) (l : Nat) (x : Launch) : (s.setLaunch l x).lostBridges = s.lostBridges := rfl
@[simp] theorem State.setLaunch_lostDies (s : State) (l : Nat) (x : Launch) : (s.setLaunch l x).lostDies = s.lostDies := rfl
@[simp] theorem State.setLaunch_lostSlices (s : State) (l : Nat) (x : Launch) : (s.setLaunch l x).lostSlices = s.lostSlices := rfl
@[simp] theorem State.setLaunch_mbxOpc (s : State) (l : Nat) (x : Launch) : (s.setLaunch l x).mbxOpc = s.mbxOpc := rfl
@[simp] theorem State.setLaunch_mbxRun (s : State) (l : Nat) (x : Launch) : (s.setLaunch l x).mbxRun = s.mbxRun := rfl
@[simp] theorem State.setLaunch_mbxResult (s : State) (l : Nat) (x : Launch) : (s.setLaunch l x).mbxResult = s.mbxResult := rfl
@[simp] theorem State.setLaunch_mbxArg (s : State) (l : Nat) (x : Launch) : (s.setLaunch l x).mbxArg = s.mbxArg := rfl
@[simp] theorem State.setLaunch_quantum (s : State) (l : Nat) (x : Launch) : (s.setLaunch l x).quantum = s.quantum := rfl
@[simp] theorem State.setLaunch_lastQuantum (s : State) (l : Nat) (x : Launch) : (s.setLaunch l x).lastQuantum = s.lastQuantum := rfl
@[simp] theorem State.setLaunch_standby (s : State) (l : Nat) (x : Launch) : (s.setLaunch l x).standby = s.standby := rfl
@[simp] theorem State.setLaunch_slate (s : State) (l : Nat) (x : Launch) : (s.setLaunch l x).slate = s.slate := rfl
@[simp] theorem State.setLaunch_maps (s : State) (l : Nat) (x : Launch) : (s.setLaunch l x).maps = s.maps := rfl
@[simp] theorem State.setLaunch_journal (s : State) (l : Nat) (x : Launch) : (s.setLaunch l x).journal = s.journal := rfl
@[simp] theorem State.setLaunch_jseq (s : State) (l : Nat) (x : Launch) : (s.setLaunch l x).jseq = s.jseq := rfl
@[simp] theorem State.setLaunch_hostEvents (s : State) (l : Nat) (x : Launch) : (s.setLaunch l x).hostEvents = s.hostEvents := rfl
@[simp] theorem State.setLaunch_ranges (s : State) (l : Nat) (x : Launch) : (s.setLaunch l x).ranges = s.ranges := rfl
@[simp] theorem State.setLaunch_peers (s : State) (l : Nat) (x : Launch) : (s.setLaunch l x).peers = s.peers := rfl
@[simp] theorem State.setLaunch_ckpts (s : State) (l : Nat) (x : Launch) : (s.setLaunch l x).ckpts = s.ckpts := rfl
@[simp] theorem State.setLaunch_descs (s : State) (l : Nat) (x : Launch) : (s.setLaunch l x).descs = s.descs := rfl
@[simp] theorem State.setLaunch_sent (s : State) (l : Nat) (x : Launch) : (s.setLaunch l x).sent = s.sent := rfl
@[simp] theorem State.setLaunch_lostDevs (s : State) (l : Nat) (x : Launch) : (s.setLaunch l x).lostDevs = s.lostDevs := rfl
@[simp] theorem State.setLaunch_recov (s : State) (l : Nat) (x : Launch) : (s.setLaunch l x).recov = s.recov := rfl
@[simp] theorem State.setLaunch_flash (s : State) (l : Nat) (x : Launch) : (s.setLaunch l x).flash = s.flash := rfl
@[simp] theorem State.setLaunch_cap (s : State) (l : Nat) (x : Launch) : (s.setLaunch l x).cap = s.cap := rfl
@[simp] theorem State.setLaunch_oplim (s : State) (l : Nat) (x : Launch) : (s.setLaunch l x).oplim = s.oplim := rfl
@[simp] theorem State.setLaunch_ppoint (s : State) (l : Nat) (x : Launch) : (s.setLaunch l x).ppoint = s.ppoint := rfl
@[simp] theorem State.setLaunch_op (s : State) (l : Nat) (x : Launch) : (s.setLaunch l x).op = s.op := rfl
@[simp] theorem State.setLaunch_settling (s : State) (l : Nat) (x : Launch) : (s.setLaunch l x).settling = s.settling := rfl
@[simp] theorem State.setLaunch_watts (s : State) (l : Nat) (x : Launch) : (s.setLaunch l x).watts = s.watts := rfl
@[simp] theorem State.setLaunch_amps (s : State) (l : Nat) (x : Launch) : (s.setLaunch l x).amps = s.amps := rfl
@[simp] theorem State.setLaunch_skips (s : State) (l : Nat) (x : Launch) : (s.setLaunch l x).skips = s.skips := rfl
@[simp] theorem State.setLaunch_limited (s : State) (l : Nat) (x : Launch) : (s.setLaunch l x).limited = s.limited := rfl
@[simp] theorem State.setLaunch_life (s : State) (l : Nat) (x : Launch) : (s.setLaunch l x).life = s.life := rfl
@[simp] theorem State.setLaunch_deadSites (s : State) (l : Nat) (x : Launch) : (s.setLaunch l x).deadSites = s.deadSites := rfl
@[simp] theorem State.setLaunch_siteMap (s : State) (l : Nat) (x : Launch) : (s.setLaunch l x).siteMap = s.siteMap := rfl
@[simp] theorem State.setLaunch_hostReads (s : State) (l : Nat) (x : Launch) : (s.setLaunch l x).hostReads = s.hostReads := rfl
@[simp] theorem State.setLaunch_routeGen (s : State) (l : Nat) (x : Launch) : (s.setLaunch l x).routeGen = s.routeGen := rfl
@[simp] theorem State.setLaunch_overAt (s : State) (l : Nat) (x : Launch) : (s.setLaunch l x).overAt = s.overAt := rfl
@[simp] theorem State.setLaunch_underAt (s : State) (l : Nat) (x : Launch) : (s.setLaunch l x).underAt = s.underAt := rfl

/-! `setGang`. -/

@[simp] theorem State.setGang_time (s : State) (g : Nat) (x : Gang) : (s.setGang g x).time = s.time := rfl
@[simp] theorem State.setGang_agenda (s : State) (g : Nat) (x : Gang) : (s.setGang g x).agenda = s.agenda := rfl
@[simp] theorem State.setGang_free (s : State) (g : Nat) (x : Gang) : (s.setGang g x).free = s.free := rfl
@[simp] theorem State.setGang_issue (s : State) (g : Nat) (x : Gang) : (s.setGang g x).issue = s.issue := rfl
@[simp] theorem State.setGang_nextId (s : State) (g : Nat) (x : Gang) : (s.setGang g x).nextId = s.nextId := rfl
@[simp] theorem State.setGang_mem (s : State) (g : Nat) (x : Gang) : (s.setGang g x).mem = s.mem := rfl
@[simp] theorem State.setGang_poison (s : State) (g : Nat) (x : Gang) : (s.setGang g x).poison = s.poison := rfl
@[simp] theorem State.setGang_l2 (s : State) (g : Nat) (x : Gang) : (s.setGang g x).l2 = s.l2 := rfl
@[simp] theorem State.setGang_spec (s : State) (g : Nat) (x : Gang) : (s.setGang g x).spec = s.spec := rfl
@[simp] theorem State.setGang_specFut (s : State) (g : Nat) (x : Gang) : (s.setGang g x).specFut = s.specFut := rfl
@[simp] theorem State.setGang_ctxs (s : State) (g : Nat) (x : Gang) : (s.setGang g x).ctxs = s.ctxs := rfl
@[simp] theorem State.setGang_cores (s : State) (g : Nat) (x : Gang) : (s.setGang g x).cores = s.cores := rfl
@[simp] theorem State.setGang_threads (s : State) (g : Nat) (x : Gang) : (s.setGang g x).threads = s.threads := rfl
@[simp] theorem State.setGang_tasks (s : State) (g : Nat) (x : Gang) : (s.setGang g x).tasks = s.tasks := rfl
@[simp] theorem State.setGang_gangs (s : State) (g : Nat) (x : Gang) : (s.setGang g x).gangs = tput s.gangs g x := rfl
@[simp] theorem State.setGang_launches (s : State) (g : Nat) (x : Gang) : (s.setGang g x).launches = s.launches := rfl
@[simp] theorem State.setGang_packets (s : State) (g : Nat) (x : Gang) : (s.setGang g x).packets = s.packets := rfl
@[simp] theorem State.setGang_queues (s : State) (g : Nat) (x : Gang) : (s.setGang g x).queues = s.queues := rfl
@[simp] theorem State.setGang_slots (s : State) (g : Nat) (x : Gang) : (s.setGang g x).slots = s.slots := rfl
@[simp] theorem State.setGang_doorbell (s : State) (g : Nat) (x : Gang) : (s.setGang g x).doorbell = s.doorbell := rfl
@[simp] theorem State.setGang_msgs (s : State) (g : Nat) (x : Gang) : (s.setGang g x).msgs = s.msgs := rfl
@[simp] theorem State.setGang_nb (s : State) (g : Nat) (x : Gang) : (s.setGang g x).nb = s.nb := rfl
@[simp] theorem State.setGang_landing (s : State) (g : Nat) (x : Gang) : (s.setGang g x).landing = s.landing := rfl
@[simp] theorem State.setGang_queries (s : State) (g : Nat) (x : Gang) : (s.setGang g x).queries = s.queries := rfl
@[simp] theorem State.setGang_fuses (s : State) (g : Nat) (x : Gang) : (s.setGang g x).fuses = s.fuses := rfl
@[simp] theorem State.setGang_hbmMask (s : State) (g : Nat) (x : Gang) : (s.setGang g x).hbmMask = s.hbmMask := rfl
@[simp] theorem State.setGang_regpoolMin (s : State) (g : Nat) (x : Gang) : (s.setGang g x).regpoolMin = s.regpoolMin := rfl
@[simp] theorem State.setGang_ready (s : State) (g : Nat) (x : Gang) : (s.setGang g x).ready = s.ready := rfl
@[simp] theorem State.setGang_links (s : State) (g : Nat) (x : Gang) : (s.setGang g x).links = s.links := rfl
@[simp] theorem State.setGang_failcode (s : State) (g : Nat) (x : Gang) : (s.setGang g x).failcode = s.failcode := rfl
@[simp] theorem State.setGang_ageq (s : State) (g : Nat) (x : Gang) : (s.setGang g x).ageq = s.ageq := rfl
@[simp] theorem State.setGang_errslot (s : State) (g : Nat) (x : Gang) : (s.setGang g x).errslot = s.errslot := rfl
@[simp] theorem State.setGang_doneFail (s : State) (g : Nat) (x : Gang) : (s.setGang g x).doneFail = s.doneFail := rfl
@[simp] theorem State.setGang_futFail (s : State) (g : Nat) (x : Gang) : (s.setGang g x).futFail = s.futFail := rfl
@[simp] theorem State.setGang_lastSlot (s : State) (g : Nat) (x : Gang) : (s.setGang g x).lastSlot = s.lastSlot := rfl
@[simp] theorem State.setGang_tags (s : State) (g : Nat) (x : Gang) : (s.setGang g x).tags = s.tags := rfl
@[simp] theorem State.setGang_scommit (s : State) (g : Nat) (x : Gang) : (s.setGang g x).scommit = s.scommit := rfl
@[simp] theorem State.setGang_ssquash (s : State) (g : Nat) (x : Gang) : (s.setGang g x).ssquash = s.ssquash := rfl
@[simp] theorem State.setGang_stail (s : State) (g : Nat) (x : Gang) : (s.setGang g x).stail = s.stail := rfl
@[simp] theorem State.setGang_stmo (s : State) (g : Nat) (x : Gang) : (s.setGang g x).stmo = s.stmo := rfl
@[simp] theorem State.setGang_sinval (s : State) (g : Nat) (x : Gang) : (s.setGang g x).sinval = s.sinval := rfl
@[simp] theorem State.setGang_secstall (s : State) (g : Nat) (x : Gang) : (s.setGang g x).secstall = s.secstall := rfl
@[simp] theorem State.setGang_waystall (s : State) (g : Nat) (x : Gang) : (s.setGang g x).waystall = s.waystall := rfl
@[simp] theorem State.setGang_predhit (s : State) (g : Nat) (x : Gang) : (s.setGang g x).predhit = s.predhit := rfl
@[simp] theorem State.setGang_predfall (s : State) (g : Nat) (x : Gang) : (s.setGang g x).predfall = s.predfall := rfl
@[simp] theorem State.setGang_xsEnable (s : State) (g : Nat) (x : Gang) : (s.setGang g x).xsEnable = s.xsEnable := rfl
@[simp] theorem State.setGang_xsMinvictim (s : State) (g : Nat) (x : Gang) : (s.setGang g x).xsMinvictim = s.xsMinvictim := rfl
@[simp] theorem State.setGang_xsIdle (s : State) (g : Nat) (x : Gang) : (s.setGang g x).xsIdle = s.xsIdle := rfl
@[simp] theorem State.setGang_xsSwap (s : State) (g : Nat) (x : Gang) : (s.setGang g x).xsSwap = s.xsSwap := rfl
@[simp] theorem State.setGang_xsLocal (s : State) (g : Nat) (x : Gang) : (s.setGang g x).xsLocal = s.xsLocal := rfl
@[simp] theorem State.setGang_xsRemote (s : State) (g : Nat) (x : Gang) : (s.setGang g x).xsRemote = s.xsRemote := rfl
@[simp] theorem State.setGang_xsFail (s : State) (g : Nat) (x : Gang) : (s.setGang g x).xsFail = s.xsFail := rfl
@[simp] theorem State.setGang_xsRestage (s : State) (g : Nat) (x : Gang) : (s.setGang g x).xsRestage = s.xsRestage := rfl
@[simp] theorem State.setGang_xsSpill (s : State) (g : Nat) (x : Gang) : (s.setGang g x).xsSpill = s.xsSpill := rfl
@[simp] theorem State.setGang_xsSwaps (s : State) (g : Nat) (x : Gang) : (s.setGang g x).xsSwaps = s.xsSwaps := rfl
@[simp] theorem State.setGang_fwin (s : State) (g : Nat) (x : Gang) : (s.setGang g x).fwin = s.fwin := rfl
@[simp] theorem State.setGang_lwin (s : State) (g : Nat) (x : Gang) : (s.setGang g x).lwin = s.lwin := rfl
@[simp] theorem State.setGang_lwinDrop (s : State) (g : Nat) (x : Gang) : (s.setGang g x).lwinDrop = s.lwinDrop := rfl
@[simp] theorem State.setGang_ctxBase (s : State) (g : Nat) (x : Gang) : (s.setGang g x).ctxBase = s.ctxBase := rfl
@[simp] theorem State.setGang_shootVa (s : State) (g : Nat) (x : Gang) : (s.setGang g x).shootVa = s.shootVa := rfl
@[simp] theorem State.setGang_shootReq (s : State) (g : Nat) (x : Gang) : (s.setGang g x).shootReq = s.shootReq := rfl
@[simp] theorem State.setGang_shootDone (s : State) (g : Nat) (x : Gang) : (s.setGang g x).shootDone = s.shootDone := rfl
@[simp] theorem State.setGang_shoots (s : State) (g : Nat) (x : Gang) : (s.setGang g x).shoots = s.shoots := rfl
@[simp] theorem State.setGang_tlbMiss (s : State) (g : Nat) (x : Gang) : (s.setGang g x).tlbMiss = s.tlbMiss := rfl
@[simp] theorem State.setGang_tlbCoal (s : State) (g : Nat) (x : Gang) : (s.setGang g x).tlbCoal = s.tlbCoal := rfl
@[simp] theorem State.setGang_badPte (s : State) (g : Nat) (x : Gang) : (s.setGang g x).badPte = s.badPte := rfl
@[simp] theorem State.setGang_dieTlb (s : State) (g : Nat) (x : Gang) : (s.setGang g x).dieTlb = s.dieTlb := rfl
@[simp] theorem State.setGang_walkCache (s : State) (g : Nat) (x : Gang) : (s.setGang g x).walkCache = s.walkCache := rfl
@[simp] theorem State.setGang_migr (s : State) (g : Nat) (x : Gang) : (s.setGang g x).migr = s.migr := rfl
@[simp] theorem State.setGang_faultq (s : State) (g : Nat) (x : Gang) : (s.setGang g x).faultq = s.faultq := rfl
@[simp] theorem State.setGang_nbWindow (s : State) (g : Nat) (x : Gang) : (s.setGang g x).nbWindow = s.nbWindow := rfl
@[simp] theorem State.setGang_nbMaxsusp (s : State) (g : Nat) (x : Gang) : (s.setGang g x).nbMaxsusp = s.nbMaxsusp := rfl
@[simp] theorem State.setGang_nbCnt (s : State) (g : Nat) (x : Gang) : (s.setGang g x).nbCnt = s.nbCnt := rfl
@[simp] theorem State.setGang_opTimeout (s : State) (g : Nat) (x : Gang) : (s.setGang g x).opTimeout = s.opTimeout := rfl
@[simp] theorem State.setGang_stitching (s : State) (g : Nat) (x : Gang) : (s.setGang g x).stitching = s.stitching := rfl
@[simp] theorem State.setGang_fabGen (s : State) (g : Nat) (x : Gang) : (s.setGang g x).fabGen = s.fabGen := rfl
@[simp] theorem State.setGang_bypass (s : State) (g : Nat) (x : Gang) : (s.setGang g x).bypass = s.bypass := rfl
@[simp] theorem State.setGang_hcorr (s : State) (g : Nat) (x : Gang) : (s.setGang g x).hcorr = s.hcorr := rfl
@[simp] theorem State.setGang_hdrop (s : State) (g : Nat) (x : Gang) : (s.setGang g x).hdrop = s.hdrop := rfl
@[simp] theorem State.setGang_timeouts (s : State) (g : Nat) (x : Gang) : (s.setGang g x).timeouts = s.timeouts := rfl
@[simp] theorem State.setGang_fabNext (s : State) (g : Nat) (x : Gang) : (s.setGang g x).fabNext = s.fabNext := rfl
@[simp] theorem State.setGang_fabCount (s : State) (g : Nat) (x : Gang) : (s.setGang g x).fabCount = s.fabCount := rfl
@[simp] theorem State.setGang_fabLog (s : State) (g : Nat) (x : Gang) : (s.setGang g x).fabLog = s.fabLog := rfl
@[simp] theorem State.setGang_lostBridges (s : State) (g : Nat) (x : Gang) : (s.setGang g x).lostBridges = s.lostBridges := rfl
@[simp] theorem State.setGang_lostDies (s : State) (g : Nat) (x : Gang) : (s.setGang g x).lostDies = s.lostDies := rfl
@[simp] theorem State.setGang_lostSlices (s : State) (g : Nat) (x : Gang) : (s.setGang g x).lostSlices = s.lostSlices := rfl
@[simp] theorem State.setGang_mbxOpc (s : State) (g : Nat) (x : Gang) : (s.setGang g x).mbxOpc = s.mbxOpc := rfl
@[simp] theorem State.setGang_mbxRun (s : State) (g : Nat) (x : Gang) : (s.setGang g x).mbxRun = s.mbxRun := rfl
@[simp] theorem State.setGang_mbxResult (s : State) (g : Nat) (x : Gang) : (s.setGang g x).mbxResult = s.mbxResult := rfl
@[simp] theorem State.setGang_mbxArg (s : State) (g : Nat) (x : Gang) : (s.setGang g x).mbxArg = s.mbxArg := rfl
@[simp] theorem State.setGang_quantum (s : State) (g : Nat) (x : Gang) : (s.setGang g x).quantum = s.quantum := rfl
@[simp] theorem State.setGang_lastQuantum (s : State) (g : Nat) (x : Gang) : (s.setGang g x).lastQuantum = s.lastQuantum := rfl
@[simp] theorem State.setGang_standby (s : State) (g : Nat) (x : Gang) : (s.setGang g x).standby = s.standby := rfl
@[simp] theorem State.setGang_slate (s : State) (g : Nat) (x : Gang) : (s.setGang g x).slate = s.slate := rfl
@[simp] theorem State.setGang_maps (s : State) (g : Nat) (x : Gang) : (s.setGang g x).maps = s.maps := rfl
@[simp] theorem State.setGang_journal (s : State) (g : Nat) (x : Gang) : (s.setGang g x).journal = s.journal := rfl
@[simp] theorem State.setGang_jseq (s : State) (g : Nat) (x : Gang) : (s.setGang g x).jseq = s.jseq := rfl
@[simp] theorem State.setGang_hostEvents (s : State) (g : Nat) (x : Gang) : (s.setGang g x).hostEvents = s.hostEvents := rfl
@[simp] theorem State.setGang_ranges (s : State) (g : Nat) (x : Gang) : (s.setGang g x).ranges = s.ranges := rfl
@[simp] theorem State.setGang_peers (s : State) (g : Nat) (x : Gang) : (s.setGang g x).peers = s.peers := rfl
@[simp] theorem State.setGang_ckpts (s : State) (g : Nat) (x : Gang) : (s.setGang g x).ckpts = s.ckpts := rfl
@[simp] theorem State.setGang_descs (s : State) (g : Nat) (x : Gang) : (s.setGang g x).descs = s.descs := rfl
@[simp] theorem State.setGang_sent (s : State) (g : Nat) (x : Gang) : (s.setGang g x).sent = s.sent := rfl
@[simp] theorem State.setGang_lostDevs (s : State) (g : Nat) (x : Gang) : (s.setGang g x).lostDevs = s.lostDevs := rfl
@[simp] theorem State.setGang_recov (s : State) (g : Nat) (x : Gang) : (s.setGang g x).recov = s.recov := rfl
@[simp] theorem State.setGang_flash (s : State) (g : Nat) (x : Gang) : (s.setGang g x).flash = s.flash := rfl
@[simp] theorem State.setGang_cap (s : State) (g : Nat) (x : Gang) : (s.setGang g x).cap = s.cap := rfl
@[simp] theorem State.setGang_oplim (s : State) (g : Nat) (x : Gang) : (s.setGang g x).oplim = s.oplim := rfl
@[simp] theorem State.setGang_ppoint (s : State) (g : Nat) (x : Gang) : (s.setGang g x).ppoint = s.ppoint := rfl
@[simp] theorem State.setGang_op (s : State) (g : Nat) (x : Gang) : (s.setGang g x).op = s.op := rfl
@[simp] theorem State.setGang_settling (s : State) (g : Nat) (x : Gang) : (s.setGang g x).settling = s.settling := rfl
@[simp] theorem State.setGang_watts (s : State) (g : Nat) (x : Gang) : (s.setGang g x).watts = s.watts := rfl
@[simp] theorem State.setGang_amps (s : State) (g : Nat) (x : Gang) : (s.setGang g x).amps = s.amps := rfl
@[simp] theorem State.setGang_skips (s : State) (g : Nat) (x : Gang) : (s.setGang g x).skips = s.skips := rfl
@[simp] theorem State.setGang_limited (s : State) (g : Nat) (x : Gang) : (s.setGang g x).limited = s.limited := rfl
@[simp] theorem State.setGang_life (s : State) (g : Nat) (x : Gang) : (s.setGang g x).life = s.life := rfl
@[simp] theorem State.setGang_deadSites (s : State) (g : Nat) (x : Gang) : (s.setGang g x).deadSites = s.deadSites := rfl
@[simp] theorem State.setGang_siteMap (s : State) (g : Nat) (x : Gang) : (s.setGang g x).siteMap = s.siteMap := rfl
@[simp] theorem State.setGang_hostReads (s : State) (g : Nat) (x : Gang) : (s.setGang g x).hostReads = s.hostReads := rfl
@[simp] theorem State.setGang_routeGen (s : State) (g : Nat) (x : Gang) : (s.setGang g x).routeGen = s.routeGen := rfl
@[simp] theorem State.setGang_overAt (s : State) (g : Nat) (x : Gang) : (s.setGang g x).overAt = s.overAt := rfl
@[simp] theorem State.setGang_underAt (s : State) (g : Nat) (x : Gang) : (s.setGang g x).underAt = s.underAt := rfl

/-! What is read back after an update. -/

@[simp] theorem State.thread_setThread (s : State) (i : Nat) (t : Thread) : (s.setThread i t).thread i = t := by
  simp [State.thread]

theorem State.thread_setThread_other (s : State) (i j : Nat) (t : Thread) (h : i ≠ j) :
    (s.setThread i t).thread j = s.thread j := by
  simp [State.thread, tget_tput_other _ _ _ _ _ h]

@[simp] theorem State.task_setTask (s : State) (k : Nat) (t : Task) : (s.setTask k t).task k = t := by
  simp [State.task]

theorem State.task_setTask_other (s : State) (i j : Nat) (t : Task) (h : i ≠ j) : (s.setTask i t).task j = s.task j := by
  simp [State.task, tget_tput_other _ _ _ _ _ h]

@[simp] theorem State.core_setCore (s : State) (c : Nat) (x : Core) : (s.setCore c x).core c = x := by
  simp [State.core]

theorem State.core_setCore_other (s : State) (i j : Nat) (x : Core) (h : i ≠ j) : (s.setCore i x).core j = s.core j := by
  simp [State.core, tget_tput_other _ _ _ _ _ h]

@[simp] theorem State.launch_setLaunch (s : State) (l : Nat) (x : Launch) : (s.setLaunch l x).launch l = x := by
  simp [State.launch]

@[simp] theorem State.thread_setTask (s : State) (k i : Nat) (t : Task) : (s.setTask k t).thread i = s.thread i := rfl
@[simp] theorem State.thread_setCore (s : State) (c i : Nat) (x : Core) : (s.setCore c x).thread i = s.thread i := rfl
@[simp] theorem State.thread_setLaunch (s : State) (l i : Nat) (x : Launch) : (s.setLaunch l x).thread i = s.thread i := rfl
@[simp] theorem State.task_setThread (s : State) (i k : Nat) (t : Thread) : (s.setThread i t).task k = s.task k := rfl
@[simp] theorem State.task_setCore (s : State) (c k : Nat) (x : Core) : (s.setCore c x).task k = s.task k := rfl
@[simp] theorem State.task_setLaunch (s : State) (l k : Nat) (x : Launch) : (s.setLaunch l x).task k = s.task k := rfl
@[simp] theorem State.core_setThread (s : State) (i c : Nat) (t : Thread) : (s.setThread i t).core c = s.core c := rfl
@[simp] theorem State.core_setTask (s : State) (k c : Nat) (t : Task) : (s.setTask k t).core c = s.core c := rfl
@[simp] theorem State.core_setLaunch (s : State) (l c : Nat) (x : Launch) : (s.setLaunch l x).core c = s.core c := rfl
@[simp] theorem State.launch_setThread (s : State) (i l : Nat) (t : Thread) : (s.setThread i t).launch l = s.launch l := rfl
@[simp] theorem State.launch_setTask (s : State) (k l : Nat) (t : Task) : (s.setTask k t).launch l = s.launch l := rfl
@[simp] theorem State.launch_setCore (s : State) (c l : Nat) (x : Core) : (s.setCore c x).launch l = s.launch l := rfl

@[simp] theorem State.cur_setCur (s : State) (t : Thread) : (s.setCur t).cur = t := by
  simp [State.cur, State.setCur]

@[simp] theorem State.setCur_issue (s : State) (t : Thread) : (s.setCur t).issue = s.issue := rfl

end Sys2Proof.Machine
end

