-- ==== Sys2Proof/Laws/Memory.lean ====
section
/-!
SUPPORT. Byte memory: every operation keeps the canonical form, and a read gives what was written there last.
-/
namespace Sys2Proof.Machine

variable {α : Type}

/-! Rising keys. -/

theorem tsorted_mono (m : SMap α) (a b : Nat) (h : b ≤ a) (hm : tsorted m a = true) : tsorted m b = true := by
  cases m with
  | nil => rfl
  | cons c l =>
    obtain ⟨k, v⟩ := c
    simp only [tsorted, Bool.and_eq_true, decide_eq_true_eq] at *
    exact ⟨by omega, hm.2⟩

theorem tsorted_tput (m : SMap α) (a b : Nat) (x : α) (hb : b ≤ a) (hm : tsorted m b = true) :
    tsorted (tput m a x) b = true := by
  induction m generalizing b with
  | nil => simp [tput, tsorted, hb]
  | cons c l ih =>
    obtain ⟨k, v⟩ := c
    simp only [tsorted, Bool.and_eq_true, decide_eq_true_eq] at hm
    simp only [tput]
    split
    · rename_i h
      simp only [tsorted, Bool.and_eq_true, decide_eq_true_eq]
      exact ⟨hb, by omega, hm.2⟩
    · split
      · rename_i h h'
        subst h'
        simpa [tsorted, hb] using hm.2
      · rename_i h h'
        simp only [tsorted, Bool.and_eq_true, decide_eq_true_eq]
        exact ⟨hm.1, ih _ (by omega) hm.2⟩

theorem tsorted_tdel (m : SMap α) (a b : Nat) (hm : tsorted m b = true) : tsorted (tdel m a) b = true := by
  induction m generalizing b with
  | nil => rfl
  | cons c l ih =>
    obtain ⟨k, v⟩ := c
    simp only [tsorted, Bool.and_eq_true, decide_eq_true_eq] at hm
    simp only [tdel]
    split
    · exact tsorted_mono l (k + 1) b (by omega) hm.2
    · simp only [tsorted, Bool.and_eq_true, decide_eq_true_eq]
      exact ⟨hm.1, ih _ hm.2⟩

/-! No default entry. -/

/-! Reading a table back. -/

theorem tget_below (d : α) (m : SMap α) (a b : Nat) (hm : tsorted m b = true) (h : a < b) : tget d m a = d := by
  induction m generalizing b with
  | nil => rfl
  | cons c l ih =>
    obtain ⟨k, v⟩ := c
    simp only [tsorted, Bool.and_eq_true, decide_eq_true_eq] at hm
    simp only [tget]
    rw [if_neg (by omega)]
    exact ih (k + 1) hm.2 (by omega)

theorem tget_tdel_same (d : α) (m : SMap α) (a b : Nat) (hm : tsorted m b = true) : tget d (tdel m a) a = d := by
  induction m generalizing b with
  | nil => rfl
  | cons c l ih =>
    obtain ⟨k, v⟩ := c
    simp only [tsorted, Bool.and_eq_true, decide_eq_true_eq] at hm
    simp only [tdel]
    split
    · rename_i h
      exact tget_below d l a (k + 1) hm.2 (by omega)
    · rename_i h
      simp only [tget, if_neg h]
      exact ih (k + 1) hm.2

theorem tget_tdel_other (d : α) (m : SMap α) (a b : Nat) (h : a ≠ b) : tget d (tdel m a) b = tget d m b := by
  induction m with
  | nil => rfl
  | cons c l ih =>
    obtain ⟨k, v⟩ := c
    simp only [tdel]
    split
    · rename_i hk
      subst hk
      simp [tget, h]
    · simp [tget, ih]

variable [DecidableEq α]

theorem tput_listed (d : α) (m : SMap α) (a : Nat) (x : α) (hx : x ≠ d) (h : (m.all fun c => c.2 != d) = true) :
    ((tput m a x).all fun c => c.2 != d) = true := by
  induction m with
  | nil => simp [tput, hx]
  | cons c l ih =>
    obtain ⟨k, v⟩ := c
    simp only [List.all_cons, Bool.and_eq_true, bne_iff_ne, ne_eq] at h
    simp only [tput]
    split
    · simp only [List.all_cons, Bool.and_eq_true, bne_iff_ne, ne_eq]
      exact ⟨hx, h⟩
    · split
      · simp only [List.all_cons, Bool.and_eq_true, bne_iff_ne, ne_eq]
        exact ⟨hx, h.2⟩
      · simp only [List.all_cons, Bool.and_eq_true, bne_iff_ne, ne_eq]
        exact ⟨h.1, ih h.2⟩

theorem tdel_listed (d : α) (m : SMap α) (a : Nat) (h : (m.all fun c => c.2 != d) = true) :
    ((tdel m a).all fun c => c.2 != d) = true := by
  induction m with
  | nil => rfl
  | cons c l ih =>
    obtain ⟨k, v⟩ := c
    simp only [List.all_cons, Bool.and_eq_true, bne_iff_ne, ne_eq] at h
    simp only [tdel]
    split
    · exact h.2
    · simp only [List.all_cons, Bool.and_eq_true, bne_iff_ne, ne_eq]
      exact ⟨h.1, ih h.2⟩

theorem wf_tputD (d : α) (m : SMap α) (a : Nat) (x : α) (h : Memory.wf d m = true) : Memory.wf d (tputD d m a x) = true := by
  simp only [Memory.wf, Bool.and_eq_true] at *
  unfold tputD
  split
  · exact ⟨tsorted_tdel m a 0 h.1, tdel_listed d m a h.2⟩
  · rename_i hx
    exact ⟨tsorted_tput m a 0 x (by omega) h.1, tput_listed d m a x hx h.2⟩

/-! The operations on bytes keep the canonical form. -/

theorem wf_byteSet (m : List Host.Cell) (a : Nat) (v : W8) (h : Memory.wf 0 m = true) : Memory.wf 0 (byteSet m a v) = true :=
  wf_tputD 0 m a v h

theorem wf_bytesSet (m : List Host.Cell) (a n v : Nat) (h : Memory.wf 0 m = true) : Memory.wf 0 (bytesSet m a n v) = true := by
  induction n generalizing m a v with
  | zero => exact h
  | succ n ih => exact ih _ _ _ (wf_byteSet m a _ h)

theorem wf_listSet (m : List Host.Cell) (a : Nat) (l : List W8) (h : Memory.wf 0 m = true) : Memory.wf 0 (listSet m a l) = true := by
  induction l generalizing m a with
  | nil => exact h
  | cons b l ih => exact ih _ _ (wf_byteSet m a b h)

theorem wf_reset : Memory.wf 0 State.reset.mem = true := rfl

/-! Reading after writing. -/

theorem byteAt_byteSet (m : List Host.Cell) (a b : Nat) (v : W8) (h : Memory.wf 0 m = true) :
    byteAt (byteSet m a v) b = if a = b then v else byteAt m b := by
  simp only [Memory.wf, Bool.and_eq_true] at h
  unfold byteAt byteSet tputD
  by_cases hab : a = b
  · subst hab
    split
    · rename_i hv
      rw [tget_tdel_same 0 m a 0 h.1, hv, if_pos rfl]
    · simp
  · rw [if_neg hab]
    split
    · exact tget_tdel_other 0 m a b hab
    · exact tget_tput_other 0 m a b v hab

theorem byteAt_byteSet_other (m : List Host.Cell) (a b : Nat) (v : W8) (h : a ≠ b) :
    byteAt (byteSet m a v) b = byteAt m b := by
  unfold byteAt byteSet tputD
  split
  · exact tget_tdel_other 0 m a b h
  · exact tget_tput_other 0 m a b v h

theorem byteAt_bytesSet_outside (m : List Host.Cell) (a n v b : Nat) (h : b < a ∨ a + n ≤ b) :
    byteAt (bytesSet m a n v) b = byteAt m b := by
  induction n generalizing m a v with
  | zero => rfl
  | succ n ih =>
    simp only [bytesSet]
    rw [ih _ _ _ (by omega)]
    exact byteAt_byteSet_other m a b _ (by omega)

theorem bytesAt_bytesSet (m : List Host.Cell) (a n v : Nat) (h : Memory.wf 0 m = true) :
    bytesAt (bytesSet m a n v) a n = v % 256 ^ n := by
  induction n generalizing m a v with
  | zero => simp [bytesAt, Nat.mod_one]
  | succ n ih =>
    have hw := wf_byteSet m a (BitVec.ofNat 8 v) h
    simp only [bytesAt, bytesSet]
    rw [ih _ _ _ hw, byteAt_bytesSet_outside _ _ _ _ _ (by omega), byteAt_byteSet m a a _ h]
    simp only [if_true, BitVec.toNat_ofNat]
    have e : 256 ^ (n + 1) = 256 * 256 ^ n := by rw [Nat.pow_succ, Nat.mul_comm]
    rw [e, Nat.mod_mul]

end Sys2Proof.Machine
end

