-- ==== Sys2Proof/Laws/Operands.lean ====
section
/-!
SUPPORT. The operand records read back from their fields, for well-formed operands, and the one lemma from which every
instruction's round trip follows.
-/
namespace Sys2Proof

/-! Fields. -/

@[simp] theorem sr_s11 (r : SReg) : sr (s11 r) = r := by simp [sr, s11]
@[simp] theorem pr_setWidth (p : Pred) : pr (p.setWidth 11) = p := by simp [pr]
theorem append_zero (w n : Nat) (k : BitVec w) : (k ++ (0 : BitVec n)).toNat = k.toNat * 2 ^ n := by
  rw [BitVec.toNat_append]
  simp [Nat.shiftLeft_eq]
@[simp] theorem blk_blk11 (k : BitVec 4) : blk (blk11 k) = k := by
  apply BitVec.eq_of_toNat_eq
  have h := k.isLt
  simp only [blk, blk11, BitVec.extractLsb'_toNat, Nat.shiftRight_eq_div_pow]
  rw [append_zero 4 7 k]
  omega
@[simp] theorem oct_oct11 (k : BitVec 3) : oct (oct11 k) = k := by
  apply BitVec.eq_of_toNat_eq
  have h := k.isLt
  simp only [oct, oct11, BitVec.extractLsb'_toNat, Nat.shiftRight_eq_div_pow, BitVec.toNat_setWidth]
  rw [append_zero 3 3 k]
  omega
@[simp] theorem fifoA_eq (b : Bool) : (fifoA b == 1#11) = b := by cases b <;> rfl
@[simp] theorem fifoB_eq (b : Bool) : (fifoB b == 3#11) = b := by cases b <;> rfl
@[simp] theorem Rm.ofCode_code (r : Rm) : Rm.ofCode r.code = r := by cases r <;> rfl
@[simp] theorem Tile.dec_fld (t : Tile) : Tile.dec t.fld t.ind? = t := by
  cases t <;> simp [Tile.dec, Tile.fld, Tile.ind?]
@[simp] theorem Quad.dec_fld (q : Quad) : Quad.dec q.fld q.sca? = q := by
  cases q with
  | vec q =>
    have h := q.isLt
    show Quad.vec _ = _
    congr 1
    apply BitVec.eq_of_toNat_eq
    simp only [Quad.fld, BitVec.extractLsb'_toNat, Nat.shiftRight_eq_div_pow]
    rw [append_zero 9 2 q]
    omega
  | sca q =>
    have h := q.isLt
    show Quad.sca _ = _
    congr 1
    apply BitVec.eq_of_toNat_eq
    simp only [Quad.fld, BitVec.extractLsb'_toNat, Nat.shiftRight_eq_div_pow, BitVec.toNat_setWidth]
    rw [append_zero 4 2 q]
    omega

theorem bv3_cases (k : BitVec 3) : k = 0 ∨ k = 1 ∨ k = 2 ∨ k = 3 ∨ k = 4 ∨ k = 5 ∨ k = 6 ∨ k = 7 := by
  have h := k.isLt
  have e : k = BitVec.ofNat 3 k.toNat := by simp
  generalize k.toNat = n at h e
  subst e
  have : n = 0 ∨ n = 1 ∨ n = 2 ∨ n = 3 ∨ n = 4 ∨ n = 5 ∨ n = 6 ∨ n = 7 := by omega
  rcases this with rfl | rfl | rfl | rfl | rfl | rfl | rfl | rfl <;> decide

theorem Ty.ofCode_code (t : Ty) (h : t ≠ .bfp 7) : Ty.ofCode t.code = some t := by
  cases t with
  | bfp k =>
    rcases bv3_cases k with rfl | rfl | rfl | rfl | rfl | rfl | rfl | rfl <;> first | rfl | exact absurd rfl h
  | _ => rfl

theorem Ty.code_ne (t : Ty) : t.code ≠ 0 := by
  cases t with
  | bfp k =>
    have hk := k.isLt
    intro e
    have := congrArg BitVec.toNat e
    simp [Ty.code] at this
    omega
  | _ => decide

theorem Ty.dec_enc (d t : Ty) (h : t ≠ .bfp 7) : Ty.dec d (t.enc d) = some t := by
  unfold Ty.dec Ty.enc
  by_cases hd : t = d
  · simp [hd]
  · rw [if_neg hd, if_neg (Ty.code_ne t), Ty.ofCode_code t h]

theorem ty_ok (l : List Ty) (t : Ty) (h : l.contains t = true) (hl : l.contains (.bfp 7) = false) : t ≠ .bfp 7 := by
  intro e
  subst e
  simp_all

theorem enc_head (t d : Ty) (h : t = d) : t.enc d = 0 := by simp [Ty.enc, h]

/-! Sources. -/

theorem litOf_fits (wide : Bool) (v : W64) (h : litFits wide v = true) : litOf wide v = v := by
  cases wide with
  | true => rfl
  | false =>
    have h : v.toNat < 2 ^ 32 := by simpa [litFits] using h
    apply BitVec.eq_of_toNat_eq
    simp [litOf]
    omega

/-- A scalar source in the B position reads back. -/
theorem ssrc_read (w : Bool) (b : SSrc) (f : Fields) (hb : b.ok w = true) (h1 : f.b = b.fld) (h2 : f.lit = b.lit?) :
    f.sbW w = b := by
  cases b with
  | reg r => simp [Fields.sbW, h1, h2, SSrc.fld, SSrc.lit?]
  | lit v => simp [Fields.sbW, h2, SSrc.lit?, litOf_fits w v hb]

theorem vsrc_read (w : Bool) (b : VSrc) (f : Fields) (hb : b.ok w = true) (h1 : f.b = b.fld) (h2 : f.lit = b.lit?)
    (h3 : f.sb = b.sca?) : f.vbW w = b := by
  cases b with
  | vec r => simp [Fields.vbW, h1, h2, h3, VSrc.fld, VSrc.lit?, VSrc.sca?]
  | sca r => simp [Fields.vbW, h1, h2, h3, VSrc.fld, VSrc.lit?, VSrc.sca?]
  | lit v => simp [Fields.vbW, h2, VSrc.lit?, litOf_fits w v hb]

theorem va_read (w : Bool) (a : VSrc) (f : Fields) (h : a.okReg w = true) (h1 : f.a = a.fld) (h2 : f.sa = a.sca?) :
    f.va = a := by
  cases a <;> simp_all [Fields.va, VSrc.fld, VSrc.sca?, VSrc.okReg, VSrc.isLit]

theorem vc_read (w : Bool) (a : VSrc) (f : Fields) (h : a.okReg w = true) (h1 : f.c = a.fld) (h2 : f.sc = a.sca?) :
    f.vc = a := by
  cases a <;> simp_all [Fields.vc, VSrc.fld, VSrc.sca?, VSrc.okReg, VSrc.isLit]

theorem SSrc.lit_isSome (b : SSrc) : b.lit?.isSome = b.isLit := by cases b <;> rfl
theorem VSrc.lit_isSome (b : VSrc) : b.lit?.isSome = b.isLit := by cases b <;> rfl
theorem s11_small (r : SReg) (h : r.toNat < 32) : (s11 r).toNat < 32 := by
  have := r.isLt
  simp [s11]
  omega
theorem SSrc.fld_small (b : SSrc) (h : b.short = true) : b.fld.toNat < 32 := by
  cases b with
  | reg r => exact s11_small r (by simpa [SSrc.short] using h)
  | lit v => simp [SSrc.fld]
theorem VSrc.fld_small (b : VSrc) (h : b.short = true) : b.fld.toNat < 32 ∧ b.sca? = false := by
  cases b with
  | vec r => exact ⟨by simpa [VSrc.short, VSrc.fld] using h, rfl⟩
  | sca r => simp [VSrc.short] at h
  | lit v => simp [VSrc.fld, VSrc.sca?]

/-! The form. -/

theorem fits_form (h : Head) (short lit : Bool) (fn : BitVec 8) (f : Fields) (hf : h.fits short lit = true)
    (hp : short = true → f.plain = true ∧ fn = 0) (hl : f.lit.isSome = lit) : formOk h.len fn f = true := by
  obtain ⟨len, stall, g, gn⟩ := h
  have hn : lit = false → f.lit = none := fun e => by
    rw [e] at hl
    simpa using hl
  rcases len_cases len with rfl | rfl | rfl | rfl
  · have hf : (short && !lit) = true := hf
    simp only [Bool.and_eq_true, Bool.not_eq_true'] at hf
    obtain ⟨h1, h2⟩ := hp hf.1
    show (f.plain && f.lit == none && fn == 0) = true
    simp [h1, h2, hn hf.2]
  · have hf : (short && lit) = true := hf
    simp only [Bool.and_eq_true] at hf
    obtain ⟨h1, h2⟩ := hp hf.1
    show (f.plain && f.lit.isSome && fn == 0) = true
    simp [h1, h2, hl, hf.2]
  · have hf : (!lit) = true := hf
    show (f.lit == none) = true
    simp [hn (by simpa using hf)]
  · have hf : lit = true := hf
    show f.lit.isSome = true
    rw [hl, hf]

/-- The literal use of R81 agrees with the operands. -/
def litUseOk (u : LitUse) (lit : Bool) : Bool :=
  match u with
  | .none => !lit
  | .required => lit
  | _ => true

theorem fits_len (op : Nat) (h : Head) (short lit : Bool) (hf : h.fits short lit = true)
    (hb : short = true → opBase op = true) (hl : litUseOk (opLit op) lit = true) : lenOk op h.len.toNat = true := by
  obtain ⟨len, stall, g, gn⟩ := h
  unfold lenOk
  rcases len_cases len with rfl | rfl | rfl | rfl
  · have hf : (short && !lit) = true := hf
    simp only [Bool.and_eq_true, Bool.not_eq_true'] at hf
    have h1 := hb hf.1
    cases e : opLit op <;> simp_all [litUseOk]
  · have hf : (short && lit) = true := hf
    simp only [Bool.and_eq_true] at hf
    have h1 := hb hf.1
    cases e : opLit op <;> simp_all [litUseOk]
  · have hf : (!lit) = true := hf
    cases e : opLit op <;> simp_all [litUseOk]
  · have hf : lit = true := hf
    cases e : opLit op <;> simp_all [litUseOk]

/-- What the opcode must be for the register path of the decoder. -/
def regOp (op : BitVec 7) (fn : BitVec 8) : Bool :=
  op.toNat != 0 && !(decide (0x50 ≤ op.toNat) && decide (op.toNat ≤ 0x5e)) && !opReserved op.toNat && fnOk op.toNat fn.toNat

theorem decode_fits (i : Instr) (h : Head) (op : BitVec 7) (fn : BitVec 8) (f : Fields) (short lit : Bool)
    (hr : i.raw = some ⟨h, op, fn, .reg f⟩) (hop : regOp op fn = true) (hu : litUseOk (opLit op.toNat) lit = true)
    (hb : short = true → opBase op.toNat = true) (hw : i.wf = true) (hf : h.fits short lit = true)
    (hp : short = true → f.plain = true ∧ fn = 0) (hl : f.lit.isSome = lit)
    (hc : regCandidate h op.toNat fn f = some i) (n : Nat) (hn : encode i = some n) : decode n = .ok i := by
  simp only [regOp, Bool.and_eq_true, Bool.not_eq_true', bne] at hop
  exact decode_reg i h op fn f hr hw (fits_form h short lit fn f hf hp hl) hop.1.1.1 hop.1.1.2 hop.1.2
    (fits_len op.toNat h short lit hf hb hu) hop.2 hc n hn

/-! Operand records. -/

theorem SBin.good (base satOk xOk : Bool) (tys : List Ty) (dflt : Ty) (h : Head) (o : SBin)
    (hw : o.wf base tys satOk xOk h = true) (ht : tys.contains (.bfp 7) = false) (hd : base = true → tys.head? = some dflt) :
    ∃ short, (short = true → base = true) ∧ h.fits short o.b.isLit = true ∧ (short = true → (o.enc dflt).plain = true) ∧
      (o.enc dflt).lit.isSome = o.b.isLit ∧ SBin.dec dflt (o.enc dflt) = some o := by
  simp only [SBin.wf, Bool.and_eq_true] at hw
  obtain ⟨⟨⟨⟨⟨w1, w2⟩, w3⟩, w4⟩, w5⟩, w6⟩ := hw
  refine ⟨_, ?_, w6, ?_, SSrc.lit_isSome o.b, ?_⟩
  · intro e
    simp only [Bool.and_eq_true] at e
    exact e.1.1.1.1.1.1
  · intro e
    simp only [Bool.and_eq_true, decide_eq_true_eq, beq_iff_eq, Bool.not_eq_true'] at e
    obtain ⟨⟨⟨⟨⟨⟨e1, e2⟩, e3⟩, e4⟩, e5⟩, e6⟩, e7⟩ := e
    have ht' : o.ty = dflt := by
      have := hd e1
      rw [e5] at this
      simpa using this
    simp [Fields.plain, SBin.enc, s11_small _ e2, s11_small _ e3, SSrc.fld_small _ e4, e6, e7, enc_head _ _ ht']
  · simp [SBin.dec, SBin.enc, Ty.dec_enc _ _ (ty_ok tys o.ty w1 ht)]
    rw [ssrc_read _ o.b _ w5 rfl rfl]

theorem SCmp.good (h : Head) (o : SCmp) (hw : o.wf h = true) :
    h.fits false o.b.isLit = true ∧ o.enc.lit.isSome = o.b.isLit ∧ SCmp.dec o.enc = some o := by
  simp only [SCmp.wf, Bool.and_eq_true] at hw
  obtain ⟨⟨⟨⟨w1, w2⟩, w3⟩, w4⟩, w5⟩ := hw
  refine ⟨w5, SSrc.lit_isSome o.b, ?_⟩
  simp [SCmp.dec, SCmp.enc, Ty.dec_enc _ _ (ty_ok _ o.ty w1 (by decide))]
  rw [ssrc_read _ o.b _ w4 rfl rfl]

theorem SSel.good (h : Head) (o : SSel) (hw : o.wf h = true) :
    h.fits false o.b.isLit = true ∧ o.enc.lit.isSome = o.b.isLit ∧ SSel.dec o.enc = some o := by
  simp only [SSel.wf, Bool.and_eq_true] at hw
  obtain ⟨⟨⟨w1, w2⟩, w3⟩, w4⟩ := hw
  refine ⟨w4, SSrc.lit_isSome o.b, ?_⟩
  simp [SSel.dec, SSel.enc, Ty.dec_enc _ _ (ty_ok _ o.ty w1 (by decide))]
  rw [ssrc_read _ o.b _ w3 rfl rfl]

theorem SMov.good (l : Bool) (h : Head) (o : SMov) (hw : o.wf l h = true) :
    ∃ short, h.fits short o.b.isLit = true ∧ (short = true → o.enc.plain = true) ∧ o.enc.lit.isSome = o.b.isLit ∧
      SMov.dec o.enc = some o ∧ (l = true → o.b.isLit = true) := by
  simp only [SMov.wf, Bool.and_eq_true] at hw
  obtain ⟨⟨⟨⟨w1, w2⟩, w3⟩, w4⟩, w5⟩ := hw
  refine ⟨_, w5, ?_, SSrc.lit_isSome o.b, ?_, ?_⟩
  · intro e
    simp only [Bool.and_eq_true, decide_eq_true_eq, beq_iff_eq] at e
    obtain ⟨⟨e1, e2⟩, e3⟩ := e
    simp [Fields.plain, SMov.enc, s11_small _ e1, SSrc.fld_small _ e2, enc_head _ _ e3]
  · simp [SMov.dec, SMov.enc, Ty.dec_enc _ _ (ty_ok _ o.ty w1 (by decide))]
    rw [ssrc_read _ o.b _ w3 rfl rfl]
  · intro e
    simpa [e] using w4

theorem SBit.good (h : Head) (o : SBit) (hw : o.wf h = true) :
    h.fits false o.b.isLit = true ∧ o.enc.lit.isSome = o.b.isLit ∧ SBit.dec o.enc = o := by
  simp only [SBit.wf, Bool.and_eq_true] at hw
  obtain ⟨⟨⟨w1, w2⟩, w3⟩, w4⟩ := hw
  refine ⟨w4, SSrc.lit_isSome o.b, ?_⟩
  simp only [SBit.dec]
  rw [ssrc_read _ o.b _ w3 rfl rfl]
  simp [SBit.enc]

theorem POp.good (h : Head) (o : POp) (hw : o.wf h = true) :
    h.fits false (match o.b with | .pred _ => false | .lit _ => true) = true ∧
    o.enc.lit.isSome = (match o.b with | .pred _ => false | .lit _ => true) ∧ POp.dec o.enc = o := by
  simp only [POp.wf, Bool.and_eq_true] at hw
  obtain ⟨⟨w1, w2⟩, w3⟩ := hw
  obtain ⟨d, a, b, f⟩ := o
  cases b with
  | pred p => exact ⟨w3, rfl, by simp [POp.dec, POp.enc, PSrc.lit?, PSrc.fld]⟩
  | lit v => exact ⟨w3, rfl, by simp [POp.dec, POp.enc, PSrc.lit?]⟩

/-! Fields packed into C. -/

theorem mul_pow_small (w : BitVec 11) (lo : Nat) (h : w.toNat * 2 ^ lo < 2048) :
    (w * BitVec.ofNat 11 (2 ^ lo)).toNat = w.toNat * 2 ^ lo := by
  simp only [BitVec.toNat_mul, BitVec.toNat_ofNat]
  rw [Nat.mul_mod, Nat.mod_mod, ← Nat.mul_mod]
  exact Nat.mod_eq_of_lt h

theorem pack2 (m w : BitVec 11) (lo : Nat) (h : m.toNat + w.toNat * 2 ^ lo < 2048) :
    (m + w * BitVec.ofNat 11 (2 ^ lo)).toNat = m.toNat + w.toNat * 2 ^ lo := by
  rw [BitVec.toNat_add, mul_pow_small w lo (by omega)]
  exact Nat.mod_eq_of_lt h

theorem pack3 (m w v : BitVec 11) (lo hi : Nat) (h : m.toNat + w.toNat * 2 ^ lo + v.toNat * 2 ^ hi < 2048) :
    (m + w * BitVec.ofNat 11 (2 ^ lo) + v * BitVec.ofNat 11 (2 ^ hi)).toNat = m.toNat + w.toNat * 2 ^ lo + v.toNat * 2 ^ hi := by
  rw [BitVec.toNat_add, pack2 m w lo (by omega), mul_pow_small v hi (by omega)]
  exact Nat.mod_eq_of_lt h

theorem shfl_c (m : BitVec 2) (w : BitVec 3) :
    (m.setWidth 11 + w.setWidth 11 * 8).setWidth 2 = m ∧ (m.setWidth 11 + w.setWidth 11 * 8).extractLsb' 3 3 = w := by
  have h1 := m.isLt
  have h2 := w.isLt
  have e : (m.setWidth 11 + w.setWidth 11 * 8).toNat = m.toNat + w.toNat * 8 := by
    rw [show (8 : BitVec 11) = BitVec.ofNat 11 (2 ^ 3) from rfl, pack2]
    · simp; omega
    · simp; omega
  constructor
  · apply BitVec.eq_of_toNat_eq
    rw [BitVec.toNat_setWidth, e]
    omega
  · apply BitVec.eq_of_toNat_eq
    rw [BitVec.extractLsb'_toNat, e, Nat.shiftRight_eq_div_pow]
    omega

theorem scan_c (m w : BitVec 3) :
    (m.setWidth 11 + w.setWidth 11 * 8).setWidth 3 = m ∧ (m.setWidth 11 + w.setWidth 11 * 8).extractLsb' 3 3 = w := by
  have h1 := m.isLt
  have h2 := w.isLt
  have e : (m.setWidth 11 + w.setWidth 11 * 8).toNat = m.toNat + w.toNat * 8 := by
    rw [show (8 : BitVec 11) = BitVec.ofNat 11 (2 ^ 3) from rfl, pack2]
    · simp; omega
    · simp; omega
  constructor
  · apply BitVec.eq_of_toNat_eq
    rw [BitVec.toNat_setWidth, e]
    omega
  · apply BitVec.eq_of_toNat_eq
    rw [BitVec.extractLsb'_toNat, e, Nat.shiftRight_eq_div_pow]
    omega

theorem cvt_c (d : BitVec 5) (s p : BitVec 2) :
    let c := d.setWidth 11 + s.setWidth 11 * 32 + p.setWidth 11 * 128
    c.setWidth 5 = d ∧ c.extractLsb' 5 2 = s ∧ c.extractLsb' 7 2 = p := by
  intro c
  have h1 := d.isLt
  have h2 := s.isLt
  have h3 := p.isLt
  have e : c.toNat = d.toNat + s.toNat * 32 + p.toNat * 128 := by
    simp only [c]
    rw [show (32 : BitVec 11) = BitVec.ofNat 11 (2 ^ 5) from rfl, show (128 : BitVec 11) = BitVec.ofNat 11 (2 ^ 7) from rfl, pack3]
    · simp; omega
    · simp; omega
  refine ⟨?_, ?_, ?_⟩
  · apply BitVec.eq_of_toNat_eq
    rw [BitVec.toNat_setWidth, e]
    omega
  · apply BitVec.eq_of_toNat_eq
    rw [BitVec.extractLsb'_toNat, e, Nat.shiftRight_eq_div_pow]
    omega
  · apply BitVec.eq_of_toNat_eq
    rw [BitVec.extractLsb'_toNat, e, Nat.shiftRight_eq_div_pow]
    omega

theorem srt_c (j k : BitVec 4) (r : BitVec 3) :
    let c := j.setWidth 11 + k.setWidth 11 * 16 + r.setWidth 11 * 256
    c.setWidth 4 = j ∧ c.extractLsb' 4 4 = k ∧ c.extractLsb' 8 3 = r := by
  intro c
  have h1 := j.isLt
  have h2 := k.isLt
  have h3 := r.isLt
  have e : c.toNat = j.toNat + k.toNat * 16 + r.toNat * 256 := by
    simp only [c]
    rw [show (16 : BitVec 11) = BitVec.ofNat 11 (2 ^ 4) from rfl, show (256 : BitVec 11) = BitVec.ofNat 11 (2 ^ 8) from rfl, pack3]
    · simp; omega
    · simp; omega
  refine ⟨?_, ?_, ?_⟩
  · apply BitVec.eq_of_toNat_eq
    rw [BitVec.toNat_setWidth, e]
    omega
  · apply BitVec.eq_of_toNat_eq
    rw [BitVec.extractLsb'_toNat, e, Nat.shiftRight_eq_div_pow]
    omega
  · apply BitVec.eq_of_toNat_eq
    rw [BitVec.extractLsb'_toNat, e, Nat.shiftRight_eq_div_pow]
    omega

/-! Vector operand records. -/

theorem VShfl.good (h : Head) (o : VShfl) (hw : o.wf h = true) :
    h.fits false o.b.isLit = true ∧ o.enc.lit.isSome = o.b.isLit ∧ VShfl.dec o.enc = o := by
  simp only [VShfl.wf, Bool.and_eq_true] at hw
  obtain ⟨⟨⟨w1, w2⟩, w3⟩, w4⟩ := hw
  refine ⟨w4, VSrc.lit_isSome o.b, ?_⟩
  obtain ⟨c1, c2⟩ := shfl_c o.m o.w
  simp only [VShfl.dec]
  rw [va_read false o.a _ w1 rfl rfl, show Fields.vb o.enc = o.b from vsrc_read false o.b _ w2 rfl rfl rfl]
  simp only [VShfl.enc, c1, c2]

theorem VScan.good (x : Bool) (h : Head) (o : VScan) (hw : o.wf x h = true) :
    h.fits false false = true ∧ VScan.dec o.enc = some o := by
  simp only [VScan.wf, Bool.and_eq_true] at hw
  obtain ⟨⟨⟨⟨⟨w1, w2⟩, w3⟩, w4⟩, w5⟩, w6⟩ := hw
  refine ⟨w6, ?_⟩
  obtain ⟨c1, c2⟩ := scan_c o.op o.w
  have ht : o.ty ≠ .bfp 7 := by
    refine ty_ok _ o.ty w3 ?_
    unfold scanTys
    split <;> rfl
  have hv := va_read false o.a o.enc w1 rfl rfl
  simp only [VScan.dec]
  rw [hv]
  simp only [VScan.enc, c1, c2, Ty.dec_enc _ _ ht, Rm.ofCode_code]
  rfl

theorem VBin.good (base rmOk satOk xOk : Bool) (tys : List Ty) (dflt : Ty) (h : Head) (o : VBin)
    (hw : o.wf base tys rmOk satOk xOk h = true) (ht : tys.contains (.bfp 7) = false)
    (hd : base = true → tys.head? = some dflt) :
    ∃ short, (short = true → base = true) ∧ h.fits short o.b.isLit = true ∧ (short = true → (o.enc dflt).plain = true) ∧
      (o.enc dflt).lit.isSome = o.b.isLit ∧ VBin.dec dflt (o.enc dflt) = some o := by
  simp only [VBin.wf, Bool.and_eq_true] at hw
  obtain ⟨⟨⟨⟨⟨⟨⟨w1, w2⟩, w3⟩, w4⟩, w5⟩, w6⟩, w7⟩, w8⟩ := hw
  refine ⟨_, ?_, w8, ?_, VSrc.lit_isSome o.b, ?_⟩
  · intro e
    simp only [Bool.and_eq_true] at e
    exact e.1.1.1.1.1.1.1
  · intro e
    simp only [Bool.and_eq_true, decide_eq_true_eq, beq_iff_eq, Bool.not_eq_true'] at e
    obtain ⟨⟨⟨⟨⟨⟨⟨e1, e2⟩, e3⟩, e4⟩, e5⟩, e6⟩, e7⟩, e8⟩ := e
    have ht' : o.ty = dflt := by
      have := hd e1
      rw [e5] at this
      simpa using this
    obtain ⟨a1, a2⟩ := VSrc.fld_small _ e3
    obtain ⟨b1, b2⟩ := VSrc.fld_small _ e4
    simp [Fields.plain, VBin.enc, e2, a1, a2, b1, b2, e6, e7, e8, enc_head _ _ ht', Rm.code]
  · have hv := va_read _ o.a (o.enc dflt) w6 rfl rfl
    have hb := vsrc_read _ o.b (o.enc dflt) w7 rfl rfl rfl
    simp only [VBin.dec]
    rw [show (o.enc dflt).ty = o.ty.enc dflt from rfl, Ty.dec_enc _ _ (ty_ok tys o.ty w1 ht)]
    simp only [Option.map_some, hv, hb]
    simp [VBin.enc]

theorem VTri.good (rmOk satOk xOk : Bool) (tys : List Ty) (dflt : Ty) (h : Head) (o : VTri)
    (hw : o.wf tys rmOk satOk xOk h = true) (ht : tys.contains (.bfp 7) = false) :
    h.fits false o.b.isLit = true ∧ (o.enc dflt).lit.isSome = o.b.isLit ∧ VTri.dec dflt (o.enc dflt) = some o := by
  simp only [VTri.wf, Bool.and_eq_true] at hw
  obtain ⟨⟨⟨⟨⟨⟨⟨w1, w2⟩, w3⟩, w4⟩, w5⟩, w6⟩, w7⟩, w8⟩ := hw
  refine ⟨w8, VSrc.lit_isSome o.b, ?_⟩
  have hv := va_read _ o.a (o.enc dflt) w5 rfl rfl
  have hb : (o.enc dflt).vb = o.b := vsrc_read _ o.b (o.enc dflt) w6 rfl rfl rfl
  have hc := vc_read _ o.c (o.enc dflt) w7 rfl rfl
  simp only [VTri.dec]
  rw [show (o.enc dflt).ty = o.ty.enc dflt from rfl, Ty.dec_enc _ _ (ty_ok tys o.ty w1 ht)]
  simp only [Option.map_some, hv, hb, hc]
  simp [VTri.enc]

theorem VBitF.good (h : Head) (o : VBitF) (hw : o.wf h = true) :
    h.fits false o.b.isLit = true ∧ o.enc.lit.isSome = o.b.isLit ∧ VBitF.dec o.enc = o := by
  simp only [VBitF.wf, Bool.and_eq_true] at hw
  obtain ⟨⟨⟨⟨w1, w2⟩, w3⟩, w4⟩, w5⟩ := hw
  refine ⟨w5, VSrc.lit_isSome o.b, ?_⟩
  have hv := va_read _ o.a o.enc w3 rfl rfl
  have hb : o.enc.vb = o.b := vsrc_read _ o.b o.enc w4 rfl rfl rfl
  simp only [VBitF.dec, hv, hb]
  simp [VBitF.enc]

theorem VSel.good (h : Head) (o : VSel) (hw : o.wf h = true) :
    h.fits false o.b.isLit = true ∧ o.enc.lit.isSome = o.b.isLit ∧ VSel.dec o.enc = some o := by
  simp only [VSel.wf, Bool.and_eq_true] at hw
  obtain ⟨⟨⟨⟨w1, w2⟩, w3⟩, w4⟩, w5⟩ := hw
  refine ⟨w5, VSrc.lit_isSome o.b, ?_⟩
  have hv := va_read _ o.a o.enc w3 rfl rfl
  have hb := vsrc_read _ o.b o.enc w4 rfl rfl rfl
  simp only [VSel.dec]
  rw [show o.enc.ty = o.ty.enc .b32 from rfl, Ty.dec_enc _ _ (ty_ok _ o.ty w1 (by decide))]
  simp only [Option.map_some, hv, hb]
  simp [VSel.enc]

theorem VCmp.good (ccs : Nat) (tys : List Ty) (dflt : Ty) (h : Head) (o : VCmp) (hw : o.wf tys ccs h = true)
    (ht : tys.contains (.bfp 7) = false) :
    h.fits false o.b.isLit = true ∧ (o.enc dflt).lit.isSome = o.b.isLit ∧ VCmp.dec dflt (o.enc dflt) = some o := by
  simp only [VCmp.wf, Bool.and_eq_true] at hw
  obtain ⟨⟨⟨⟨w1, w2⟩, w3⟩, w4⟩, w5⟩ := hw
  refine ⟨w5, VSrc.lit_isSome o.b, ?_⟩
  have hv := va_read _ o.a (o.enc dflt) w3 rfl rfl
  have hb := vsrc_read _ o.b (o.enc dflt) w4 rfl rfl rfl
  simp only [VCmp.dec]
  rw [show (o.enc dflt).ty = o.ty.enc dflt from rfl, Ty.dec_enc _ _ (ty_ok tys o.ty w1 ht)]
  simp only [Option.map_some, hv, hb]
  simp [VCmp.enc]

theorem VUn.good (rmOk : Bool) (h : Head) (o : VUn) (hw : o.wf rmOk h = true) :
    h.fits false false = true ∧ VUn.dec o.enc = o := by
  simp only [VUn.wf, Bool.and_eq_true] at hw
  obtain ⟨⟨w1, w2⟩, w3⟩ := hw
  refine ⟨w3, ?_⟩
  have hv := va_read _ o.a o.enc w2 rfl rfl
  simp only [VUn.dec, hv]
  simp [VUn.enc]

theorem cvt_types (s d : Ty) (h : cvtPair s d = true) : s ≠ .bfp 7 ∧ d ≠ .bfp 7 := by
  constructor
  · intro e
    subst e
    simp [cvtPair, Ty.isInt] at h
  · intro e
    subst e
    cases s <;> simp [cvtPair, Ty.isInt, Ty.isSmallFp] at h

theorem VCvt.good (h : Head) (o : VCvt) (hw : o.wf h = true) : h.fits false false = true ∧ VCvt.dec o.enc = some o := by
  simp only [VCvt.wf, Bool.and_eq_true] at hw
  obtain ⟨⟨⟨⟨⟨w1, w2⟩, w3⟩, w4⟩, w5⟩, w6⟩ := hw
  refine ⟨w6, ?_⟩
  obtain ⟨t1, t2⟩ := cvt_types _ _ w1
  obtain ⟨c1, c2, c3⟩ := cvt_c o.dst.code o.sp o.dp
  have hv := va_read _ o.a o.enc w5 rfl rfl
  simp only [VCvt.dec, hv]
  simp only [VCvt.enc, c1, c2, c3, Ty.dec_enc _ _ t1, Ty.ofCode_code _ t2, Rm.ofCode_code]

theorem VSrt.good (h : Head) (o : VSrt) (hw : o.wf h = true) : h.fits false false = true ∧ VSrt.dec o.enc = some o := by
  simp only [VSrt.wf, Bool.and_eq_true] at hw
  obtain ⟨⟨⟨⟨⟨⟨⟨w1, w2⟩, w3⟩, w4⟩, w5⟩, w6⟩, w7⟩, w8⟩ := hw
  refine ⟨w8, ?_⟩
  obtain ⟨c1, c2, c3⟩ := srt_c o.lj o.lk o.lr
  simp only [VSrt.dec, VSrt.enc, c1, c2, c3, Ty.dec_enc _ _ (ty_ok _ o.ty w1 (by decide)), Option.map_some]

theorem VMrg.good (h : Head) (o : VMrg) (hw : o.wf h = true) : h.fits false false = true ∧ VMrg.dec o.enc = some o := by
  simp only [VMrg.wf, Bool.and_eq_true] at hw
  obtain ⟨⟨⟨⟨w1, w2⟩, w3⟩, w4⟩, w5⟩ := hw
  refine ⟨w5, ?_⟩
  simp only [VMrg.dec, VMrg.enc, Ty.dec_enc _ _ (ty_ok _ o.ty w1 (by decide)), Option.map_some]
  obtain ⟨d, a, b, lo, ty, dn⟩ := o
  cases lo <;> rfl

theorem VTopk.good (h : Head) (o : VTopk) (hw : o.wf h = true) : h.fits false false = true ∧ VTopk.dec o.enc = some o := by
  simp only [VTopk.wf, Bool.and_eq_true] at hw
  obtain ⟨⟨⟨⟨⟨w1, w2⟩, w3⟩, w4⟩, w5⟩, w6⟩ := hw
  refine ⟨w6, ?_⟩
  simp [VTopk.dec, VTopk.enc, Ty.dec_enc _ _ (ty_ok _ o.ty w1 (by decide))]

theorem Adrn.good (o : Adrn) (hw : adrnTys.contains o.ty = true) : Adrn.dec o.enc = some o := by
  simp [Adrn.dec, Adrn.enc, Ty.dec_enc _ _ (ty_ok _ o.ty hw (by decide))]

theorem Ardv.good (o : Ardv) : Ardv.dec o.enc = o := by simp [Ardv.dec, Ardv.enc]

theorem AtmFn.good (f : AtmFn) : AtmFn.dec f.enc = f ∧ f.enc.toNat = f.aop.toNat + 16 * b2n f.glb + 32 * b2n f.ret := by
  obtain ⟨op, g, r⟩ := f
  have h := op.isLt
  have e : (AtmFn.enc ⟨op, g, r⟩).toNat = op.toNat + 16 * b2n g + 32 * b2n r := by
    cases g <;> cases r <;> simp [AtmFn.enc, b2n] <;> omega
  refine ⟨?_, e⟩
  simp only [AtmFn.dec]
  congr 1
  · apply BitVec.eq_of_toNat_eq
    rw [BitVec.toNat_setWidth, e]
    cases g <;> cases r <;> simp [b2n] <;> omega
  · simp only [BitVec.getLsbD, e, Nat.testBit_eq_decide_div_mod_eq]
    cases g <;> cases r <;> simp [b2n] <;> omega
  · simp only [BitVec.getLsbD, e, Nat.testBit_eq_decide_div_mod_eq]
    cases g <;> cases r <;> simp [b2n] <;> omega

end Sys2Proof
end

