-- ==== Sys2Proof/Laws/Ops.lean ====
section
/-!
SUPPORT. What the shared operations do, said once: lanes and masks, the issuing thread, control transfer, a result with a
latency, taking a fault, translation, a write at the home, and the forms that a step takes.
-/
namespace Sys2Proof.Machine

/-! Masks and lanes. -/

theorem mem_lanesOf (m : Mask) (l : Nat) : l ∈ lanesOf m ↔ l < 64 ∧ bit m l = true := by
  simp [lanesOf, laneIds]

theorem lanesOf_nodup (m : Mask) : (lanesOf m).Nodup := List.nodup_range.sublist List.filter_sublist

@[simp] theorem length_mapMask {α : Type} (m : Mask) (f : Nat → α → α) (ls : List α) : (mapMask m f ls).length = ls.length := by
  simp [mapMask]

theorem getElem?_mapMask {α : Type} (m : Mask) (f : Nat → α → α) (ls : List α) (l : Nat) :
    (mapMask m f ls)[l]? = (ls[l]?).map fun x => if bit m l then f l x else x := by
  simp only [mapMask, List.getElem?_map, List.getElem?_zipIdx]
  cases ls[l]? <;> simp

/-- A lane in `exec` is a lane of the run (R74). -/
theorem run_of_exec (h : Head) (s : State) (l : Nat) (he : bit (execMask h s) l = true) : bit s.issue.run l = true := by
  simp only [bit, execMask, BitVec.getLsbD_and, Bool.and_eq_true] at *
  exact he.1

/-! Uniform instructions. -/

theorem uniform_empty (h : Head) (f : State → State) (s : State) (he : execMask h s = 0) : uniform h f s = .next (advance h s) :=
  congrArg Host.Outcome.next (if_pos he)

theorem uniform_run (h : Head) (f : State → State) (s : State) (he : execMask h s ≠ 0) : uniform h f s = .next (f s) :=
  congrArg Host.Outcome.next (if_neg he)

theorem plain_run (h : Head) (f : State → State) (s : State) (he : execMask h s ≠ 0) : plain h f s = .next (advance h (f s)) :=
  uniform_run h _ s he

/-! The issuing thread. -/

@[simp] theorem cur_onCur (s : State) (f : Thread → Thread) : (s.onCur f).cur = f s.cur := by
  show tget {} (tput s.threads s.issue.tid _) s.issue.tid = _
  rw [tget_tput_same]

theorem thread_onCur_other (s : State) (f : Thread → Thread) (i : Nat) (hi : i ≠ s.issue.tid) :
    (s.onCur f).thread i = s.thread i := by
  show tget {} (tput s.threads s.issue.tid _) i = _
  rw [tget_tput_other _ _ _ _ _ (Ne.symm hi)]
  rfl

theorem cur_setPcs (m : Mask) (pc : W64) (s : State) :
    (setPcs m pc s).cur = { s.cur with lanes := mapMask m (fun _ x => { x with pc := pc }) s.cur.lanes } := cur_onCur _ _

theorem cur_advance (h : Head) (s : State) :
    (advance h s).cur = { s.cur with lanes := mapMask s.issue.run (fun _ x => { x with pc := nextPc h s }) s.cur.lanes } :=
  cur_onCur _ _

theorem onlyLanes_onCur (s : State) (f : Thread → Thread) (hf : ∀ t, f t = { t with lanes := (f t).lanes }) :
    OnlyLanes s (s.onCur f) := by
  refine ⟨rfl, thread_onCur_other s f, ?_⟩
  rw [cur_onCur]
  exact hf _

theorem OnlyLanes.trans {s t u : State} (h1 : OnlyLanes s t) (h2 : OnlyLanes t u) : OnlyLanes s u := by
  obtain ⟨a1, b1, c1⟩ := h1
  obtain ⟨a2, b2, c2⟩ := h2
  have ei : t.issue = s.issue := by rw [a1]
  refine ⟨?_, fun i hi => ?_, ?_⟩
  · unfold OnlyThreads at *
    rw [a2, a1]
  · rw [b2 i (by rw [ei]; exact hi), b1 i hi]
  · rw [c2, c1]

theorem onlyLanes_setPcs (m : Mask) (pc : W64) (s : State) : OnlyLanes s (setPcs m pc s) :=
  onlyLanes_onCur s (fun t => { t with lanes := mapMask m (fun _ x => { x with pc := pc }) t.lanes }) fun _ => rfl

theorem onlyLanes_advance (h : Head) (s : State) : OnlyLanes s (advance h s) := onlyLanes_setPcs _ _ _

/-- A run that moves on: each of its lanes is at the next instruction (R184). -/
theorem lanesBecome_advance (h : Head) (s : State) : LanesBecome s (advance h s) (toNext h s) := by
  refine ⟨by rw [cur_advance]; simp, fun l x hl => ?_⟩
  rw [cur_advance]
  simp only [getElem?_mapMask, hl, Option.map_some]
  rfl

theorem onlyLanes_memory {s t : State} (h : OnlyLanes s t) : SameMemory s t := by
  intro a
  rw [h.1]

/-! A result with a latency (R188, R191). -/

theorem writeFixed_warp (lat : Nat) (w : RegW) (s : State) (h : isSeq s.issue.tid = false) :
    writeFixed lat w s = s.onCur fun t => { t with pending := insertPend ⟨s.time + lat, w⟩ t.pending } := by
  simp [writeFixed, h]

theorem writeFixed_context (lat : Nat) (w : RegW) (s : State) (h : isSeq s.issue.tid = true) :
    writeFixed lat w s = s.onCur fun t => t.land1 w := by
  simp [writeFixed, h]

/-- Landing a result changes the register files, the staging copies and the flags, and nothing else of the thread. -/
theorem land1_frame (t : Thread) (w : RegW) :
    t.land1 w = { t with s := (t.land1 w).s, p := (t.land1 w).p, v := (t.land1 w).v, stage := (t.land1 w).stage
                         written := (t.land1 w).written, fpflags := (t.land1 w).fpflags } := by
  cases w with
  | s r v => rfl
  | flags f => rfl
  | p r m v =>
    simp only [Thread.land1, Thread.pset]
    split <;> rfl
  | v r m row =>
    simp only [Thread.land1, Thread.vset, Thread.vput]
    split
    · split <;> rfl
    · rfl

/-! What the body of an instruction leaves alone. -/

/-- The lanes of the issuing thread, the issue and memory are the same. -/
def Keeps (s t : State) : Prop := t.cur.lanes = s.cur.lanes ∧ t.issue = s.issue ∧ t.mem = s.mem

theorem Keeps.trans {s t u : State} (h1 : Keeps s t) (h2 : Keeps t u) : Keeps s u :=
  ⟨h2.1.trans h1.1, h2.2.1.trans h1.2.1, h2.2.2.trans h1.2.2⟩

theorem keeps_onCur (s : State) (f : Thread → Thread) (hf : (f s.cur).lanes = s.cur.lanes) : Keeps s (s.onCur f) :=
  ⟨by rw [cur_onCur, hf], rfl, rfl⟩

theorem keeps_writeFixed (lat : Nat) (w : RegW) (s : State) : Keeps s (writeFixed lat w s) := by
  unfold writeFixed
  split
  · exact keeps_onCur s _ (by rw [land1_frame])
  · exact keeps_onCur s _ rfl

theorem keeps_putF (lat : Nat) (h : Head) (d : Nat) (f : Nat → W32 × W32) (s : State) : Keeps s (putF lat h d f s) :=
  (keeps_writeFixed lat _ s).trans (keeps_writeFixed lat _ _)

/-- A plain instruction whose body keeps the lanes completes, and its run moves on. -/
theorem plain_completes (h : Head) (f : State → State) (s : State) (he : execMask h s ≠ 0) (hk : Keeps s (f s)) :
    ∃ t, plain h f s = .next t ∧ LanesBecome s t (toNext h s) ∧ SameMemory s t := by
  refine ⟨_, plain_run h f s he, ⟨?_, fun l x hl => ?_⟩, fun a => ?_⟩
  · rw [(lanesBecome_advance h (f s)).1, hk.1]
  · have := (lanesBecome_advance h (f s)).2 l x (by rw [hk.1]; exact hl)
    simpa only [toNext, hk.2.1] using this
  · rw [onlyLanes_memory (onlyLanes_advance h (f s)) a, hk.2.2]

/-! Taking a fault (R417 to R425). -/

theorem endTask_frame (k : Nat) (cause : W8) (aux : W64) (s : State) :
    endTask k cause aux s = { s with threads := (endTask k cause aux s).threads, tasks := (endTask k cause aux s).tasks } := by
  have key : ∀ (l : List Nat) (f : Nat → Thread → Thread) (s : State),
      l.foldl (fun s i => s.onThread i (f i)) s = { s with threads := (l.foldl (fun s i => s.onThread i (f i)) s).threads } := by
    intro l f
    induction l with
    | nil => intro s; rfl
    | cons a l ih =>
      intro s
      rw [List.foldl_cons, ih]
      rfl
  unfold endTask
  simp only
  split
  · rfl
  · rw [key]
    rfl

theorem reportFault_frame (tid : Nat) (m : Mask) (s : State) :
    reportFault tid m s =
      { s with threads := (reportFault tid m s).threads, tasks := (reportFault tid m s).tasks } := by
  unfold reportFault
  simp only
  split
  · split
    · rfl
    · rw [endTask_frame]
      rfl
  · split
    · rfl
    · split
      · rfl
      · split
        · rfl
        · simp only [State.onThread]
          rw [endTask_frame]
          rfl

/-- What taking a fault may change: threads and tasks, the count of lost homes, and Umber's queue (R417, R290). -/
def FaultFrame (s u : State) : Prop :=
  u = { s with threads := u.threads, tasks := u.tasks, timeouts := u.timeouts, faultq := u.faultq }

theorem FaultFrame.trans {s t u : State} (h1 : FaultFrame s t) (h2 : FaultFrame t u) : FaultFrame s u := by
  unfold FaultFrame at *
  rw [h2, h1]

theorem FaultFrame.ite (c : Prop) [Decidable c] {s t u : State} (h1 : FaultFrame s t) (h2 : FaultFrame s u) :
    FaultFrame s (if c then t else u) := by
  split
  · exact h1
  · exact h2

theorem park_frame (tid : Nat) (fs : List LFault) (fpc : W64) (ilen : Nat) (s : State) :
    FaultFrame s (park tid fs fpc ilen s) := by
  unfold park
  refine FaultFrame.ite _ rfl ?_
  extract_lets old s1 s2 held s3 now
  have h2 : FaultFrame s s2 := FaultFrame.ite _ rfl rfl
  have h3 : FaultFrame s s3 := FaultFrame.trans h2 (FaultFrame.ite _ rfl rfl)
  refine FaultFrame.ite _ h3 (FaultFrame.trans h3 ?_)
  unfold FaultFrame
  rw [reportFault_frame]

theorem park_memory (tid : Nat) (fs : List LFault) (fpc : W64) (ilen : Nat) (s : State) :
    SameMemory s (park tid fs fpc ilen s) := by
  intro a
  rw [park_frame]

theorem faultAll_memory (h : Head) (cause : W8) (faddr : W64) (tr : Bool) (s : State) :
    SameMemory s (faultAll h cause faddr tr s) := by
  intro a
  show byteAt (park _ _ _ _ _).mem a = _
  rw [park_memory]
  rfl

/-! Translation (R285 to R289). -/

/-- What translating may change: the TLBs, the walkers' caches, the counters, and the requests of the instruction. -/
def OnlyTranslates (s u : State) : Prop :=
  u = { s with cores := u.cores, dieTlb := u.dieTlb, walkCache := u.walkCache, tlbMiss := u.tlbMiss, tlbCoal := u.tlbCoal
               badPte := u.badPte, issue := u.issue }

theorem dieLookup_frame (die cid va : Nat) (s : State) : OnlyTranslates s (dieLookup die cid va s).1 := by
  unfold dieLookup OnlyTranslates
  split
  · rfl
  · simp only
    split
    · rfl
    · split <;> rfl

theorem noteMiss_frame (cid va : Nat) (s : State) : OnlyTranslates s (noteMiss cid va s) := by
  unfold noteMiss OnlyTranslates
  split <;> rfl

theorem OnlyTranslates.trans {s t u : State} (h : OnlyTranslates s t) (k : OnlyTranslates t u) : OnlyTranslates s u := by
  unfold OnlyTranslates at *
  rw [k, h]

theorem lookup_frame (core cid va : Nat) (s : State) : OnlyTranslates s (lookup core cid va s).1 := by
  unfold lookup
  split
  · exact rfl
  · split
    · exact rfl
    · have key := (noteMiss_frame cid va s).trans (dieLookup_frame (dieOfCore core) cid va (noteMiss cid va s))
      cases hl : dieLookup (dieOfCore core) cid va (noteMiss cid va s) with
      | mk s1 r =>
        rw [hl] at key
        cases r with
        | inl e => exact key.trans rfl
        | inr c => exact key

/-- Translating fills the TLBs and counts, and changes nothing else. -/
theorem translate_frame (core cid va : Nat) (need : Need) (s : State) : OnlyTranslates s (translate core cid va need s).1 := by
  have look := lookup_frame core cid va s
  unfold translate
  cases hl : lookup core cid va s with
  | mk s1 r =>
    rw [hl] at look
    split
    · exact rfl
    · cases r with
      | inl e =>
        dsimp only
        cases permitted need e
        · exact look
        · dsimp only
          split
          · exact look
          · exact rfl
      | inr c => exact look

/-! A write at the home (R384). -/

theorem onL2_mem (l : Nat) (f : L2Line → L2Line) (s : State) : (s.onL2 l f).mem = s.mem := rfl

theorem onUnit_mem (u : Nat) (f : NbUnit → NbUnit) (s : State) : (s.onUnit u f).mem = s.mem := rfl
theorem suspendNb_mem (u : Nat) (s : State) : (suspendNb u s).mem = s.mem := rfl

/-- An access that reaches a stack changes no byte. -/
theorem readUnit_mem (l m : Nat) (s : State) : (readUnit l m s).mem = s.mem := by
  simp only [readUnit]
  split
  · rfl
  · split
    · rfl
    · rw [onUnit_mem]
      split <;> rfl

theorem writeUnit_mem (l m : Nat) (s : State) : (writeUnit l m s).mem = s.mem := by
  unfold writeUnit
  split <;> rfl

theorem fillL2_mem (l : Nat) (s : State) : (fillL2 l s).mem = s.mem := by
  unfold fillL2
  split
  · exact readUnit_mem l _ s
  · split
    · rfl
    · exact readUnit_mem l _ s

/-- A write at the home leaves memory with its bytes set, and clears their poison. -/
theorem homeWriteOf_mem (own : Option Nat) (pa n v : Nat) (s : State) : (homeWriteOf own pa n v s).mem = bytesSet s.mem pa n v := by
  have key : ∀ (ls : List Nat) (s : State),
      (ls.foldl (fun s l => if landsAt s (128 * l) then writeUnit l (maskIn l pa n) s else (fillL2 l s).onL2 l fun x => { x with dirty := true }) s).mem = s.mem := by
    intro ls
    induction ls with
    | nil => intro s; rfl
    | cons a l ih =>
      intro s
      rw [List.foldl_cons, ih]
      split
      · exact writeUnit_mem a _ s
      · rw [onL2_mem, fillL2_mem]
  show bytesSet (List.foldl _ s (linesOf pa n)).mem pa n v = _
  rw [key]

theorem homeWriteOf_wf (own : Option Nat) (pa n v : Nat) (s : State) (h : Memory.wf 0 s.mem = true) :
    Memory.wf 0 (homeWriteOf own pa n v s).mem = true := by
  rw [homeWriteOf_mem]
  exact wf_bytesSet _ _ _ _ h

theorem homeWriteOf_read (own : Option Nat) (pa n v : Nat) (s : State) (h : Memory.wf 0 s.mem = true) :
    bytesAt (homeWriteOf own pa n v s).mem pa n = v % 256 ^ n := by
  rw [homeWriteOf_mem]
  exact bytesAt_bytesSet _ _ _ _ h

theorem homeWriteOf_outside (own : Option Nat) (pa n v b : Nat) (s : State) (h : b < pa ∨ pa + n ≤ b) :
    byteAt (homeWriteOf own pa n v s).mem b = byteAt s.mem b := by
  rw [homeWriteOf_mem]
  exact byteAt_bytesSet_outside _ _ _ _ _ h

/-! The forms of a step (log 1). -/

theorem step_cases {s u : State} (h : step s = .next u) :
    (s.agenda = [] ∧ u = stepAlone s) ∨
    (∃ t rest, s.agenda = t :: rest ∧ t.wait ≠ 0 ∧ u = stepWait t rest s) ∨
    (∃ core unit rest, s.agenda = ⟨0, .issue core unit⟩ :: rest ∧ u = issueUnit core unit runInstr { s with agenda := rest }) ∨
    (∃ i rest, s.agenda = ⟨0, .event i⟩ :: rest ∧ i.raw.isNone = true ∧ exec i { s with agenda := rest } = .next u) ∨
    (∃ i rest, s.agenda = ⟨0, .event i⟩ :: rest ∧ i.raw.isNone = false ∧ u = { s with agenda := rest }) := by
  unfold step at h
  split at h
  · rename_i e
    exact .inl ⟨e, (Host.Outcome.next.inj h).symm⟩
  · rename_i t rest e
    split at h
    · rename_i hw
      obtain ⟨w, a⟩ := t
      simp only at hw
      subst hw
      cases a with
      | issue core unit => exact .inr (.inr (.inl ⟨core, unit, rest, e, (Host.Outcome.next.inj h).symm⟩))
      | event i =>
        simp only [act] at h
        split at h
        · rename_i hi
          exact .inr (.inr (.inr (.inl ⟨i, rest, e, hi, h⟩)))
        · rename_i hi
          exact .inr (.inr (.inr (.inr ⟨i, rest, e, Bool.eq_false_iff.mpr hi, (Host.Outcome.next.inj h).symm⟩)))
    · rename_i hw
      exact .inr (.inl ⟨t, rest, e, hw, (Host.Outcome.next.inj h).symm⟩)

end Sys2Proof.Machine
end

