-- ==== Sys2Proof/Laws/PerInstr.lean ====
section
/-!
SUPPORT. Per instruction: the words of a well-formed instruction decode to it, with every operand. An event has no words.
-/
namespace Sys2Proof.Laws.RoundTrip

/-- The encoding of a well-formed instruction decodes to it. -/
def Statement (i : Instr) : Prop := ∀ n, i.wf = true → encode i = some n → decode n = .ok i

/-- What has no words has nothing to decode. -/
theorem of_event (i : Instr) (h : i.raw = none) : Statement i := by
  intro n _ hn
  simp [encode, h] at hn

theorem nop (h : Head) : Statement (.nop h) := by
  intro n _ hn
  have hn' : Raw.word ⟨h, 0, 0, .reg {}⟩ = n := Option.some.inj hn
  have key : n = headN h 0 + 0 * 2 ^ 17 := hn'.symm.trans (nop_word h)
  obtain ⟨r1, r2, _⟩ := head_read _ _ _ _ key
  have ho : operands n = some (.nop h) := by
    unfold operands
    rw [r2, r1]
    exact if_pos (show ((0 : BitVec 7).toNat == 0) = true from rfl)
  simp only [decode, r2, ho]
  simp [opReserved, lenOk, opLit, fnOk]
theorem sadd (h : Head) (o : SBin) : Statement (.sadd h o) := by
  intro wd hw hn
  have hw' : (o.wf true arithTys (o.ty != .b32) false h) = true := hw
  obtain ⟨short, e1, e2, e3, e4, e5⟩ := SBin.good _ _ _ _ .b32 h o hw' (by decide) (fun _ => by decide)
  exact decode_fits _ h 1 0 _ short o.b.isLit rfl rfl (by cases o.b.isLit <;> rfl) (fun _ => rfl) hw e2 (fun e => ⟨e3 e, rfl⟩) e4
    (congrArg (Option.map (Instr.sadd h)) e5) wd hn
theorem ssub (h : Head) (o : SBin) : Statement (.ssub h o) := by
  intro wd hw hn
  have hw' : (o.wf true arithTys (o.ty != .b32) false h) = true := hw
  obtain ⟨short, e1, e2, e3, e4, e5⟩ := SBin.good _ _ _ _ .b32 h o hw' (by decide) (fun _ => by decide)
  exact decode_fits _ h 2 0 _ short o.b.isLit rfl rfl (by cases o.b.isLit <;> rfl) (fun _ => rfl) hw e2 (fun e => ⟨e3 e, rfl⟩) e4
    (congrArg (Option.map (Instr.ssub h)) e5) wd hn
theorem smul (h : Head) (o : SBin) : Statement (.smul h o) := by
  intro wd hw hn
  have hw' : (o.wf true arithTys (!o.x && o.ty != .b32) (is32 o.ty) h) = true := hw
  obtain ⟨short, e1, e2, e3, e4, e5⟩ := SBin.good _ _ _ _ .b32 h o hw' (by decide) (fun _ => by decide)
  exact decode_fits _ h 3 0 _ short o.b.isLit rfl rfl (by cases o.b.isLit <;> rfl) (fun _ => rfl) hw e2 (fun e => ⟨e3 e, rfl⟩) e4
    (congrArg (Option.map (Instr.smul h)) e5) wd hn
theorem sdiv (h : Head) (o : SBin) : Statement (.sdiv h o) := by
  intro wd hw hn
  have hw' : (o.wf true orderTys false true h) = true := hw
  obtain ⟨short, e1, e2, e3, e4, e5⟩ := SBin.good _ _ _ _ .i32 h o hw' (by decide) (fun _ => by decide)
  exact decode_fits _ h 4 0 _ short o.b.isLit rfl rfl (by cases o.b.isLit <;> rfl) (fun _ => rfl) hw e2 (fun e => ⟨e3 e, rfl⟩) e4
    (congrArg (Option.map (Instr.sdiv h)) e5) wd hn
theorem sand (h : Head) (o : SBin) : Statement (.sand h o) := by
  intro wd hw hn
  have hw' : (o.wf true [.b32] false false h) = true := hw
  obtain ⟨short, e1, e2, e3, e4, e5⟩ := SBin.good _ _ _ _ .b32 h o hw' (by decide) (fun _ => by decide)
  exact decode_fits _ h 5 0 _ short o.b.isLit rfl rfl (by cases o.b.isLit <;> rfl) (fun _ => rfl) hw e2 (fun e => ⟨e3 e, rfl⟩) e4
    (congrArg (Option.map (Instr.sand h)) e5) wd hn
theorem sor (h : Head) (o : SBin) : Statement (.sor h o) := by
  intro wd hw hn
  have hw' : (o.wf true [.b32] false false h) = true := hw
  obtain ⟨short, e1, e2, e3, e4, e5⟩ := SBin.good _ _ _ _ .b32 h o hw' (by decide) (fun _ => by decide)
  exact decode_fits _ h 6 0 _ short o.b.isLit rfl rfl (by cases o.b.isLit <;> rfl) (fun _ => rfl) hw e2 (fun e => ⟨e3 e, rfl⟩) e4
    (congrArg (Option.map (Instr.sor h)) e5) wd hn
theorem sxor (h : Head) (o : SBin) : Statement (.sxor h o) := by
  intro wd hw hn
  have hw' : (o.wf true [.b32] false false h) = true := hw
  obtain ⟨short, e1, e2, e3, e4, e5⟩ := SBin.good _ _ _ _ .b32 h o hw' (by decide) (fun _ => by decide)
  exact decode_fits _ h 7 0 _ short o.b.isLit rfl rfl (by cases o.b.isLit <;> rfl) (fun _ => rfl) hw e2 (fun e => ⟨e3 e, rfl⟩) e4
    (congrArg (Option.map (Instr.sxor h)) e5) wd hn
theorem sshl (h : Head) (o : SBin) : Statement (.sshl h o) := by
  intro wd hw hn
  have hw' : (o.wf true [.b32] false false h) = true := hw
  obtain ⟨short, e1, e2, e3, e4, e5⟩ := SBin.good _ _ _ _ .b32 h o hw' (by decide) (fun _ => by decide)
  exact decode_fits _ h 8 0 _ short o.b.isLit rfl rfl (by cases o.b.isLit <;> rfl) (fun _ => rfl) hw e2 (fun e => ⟨e3 e, rfl⟩) e4
    (congrArg (Option.map (Instr.sshl h)) e5) wd hn
theorem sshr (h : Head) (o : SBin) : Statement (.sshr h o) := by
  intro wd hw hn
  have hw' : (o.wf true [.n32, .i32] false false h) = true := hw
  obtain ⟨short, e1, e2, e3, e4, e5⟩ := SBin.good _ _ _ _ .n32 h o hw' (by decide) (fun _ => by decide)
  exact decode_fits _ h 9 0 _ short o.b.isLit rfl rfl (by cases o.b.isLit <;> rfl) (fun _ => rfl) hw e2 (fun e => ⟨e3 e, rfl⟩) e4
    (congrArg (Option.map (Instr.sshr h)) e5) wd hn
theorem smin (h : Head) (o : SBin) : Statement (.smin h o) := by
  intro wd hw hn
  have hw' : (o.wf true orderTys false false h) = true := hw
  obtain ⟨short, e1, e2, e3, e4, e5⟩ := SBin.good _ _ _ _ .i32 h o hw' (by decide) (fun _ => by decide)
  exact decode_fits _ h 10 0 _ short o.b.isLit rfl rfl (by cases o.b.isLit <;> rfl) (fun _ => rfl) hw e2 (fun e => ⟨e3 e, rfl⟩) e4
    (congrArg (Option.map (Instr.smin h)) e5) wd hn
theorem smax (h : Head) (o : SBin) : Statement (.smax h o) := by
  intro wd hw hn
  have hw' : (o.wf true orderTys false false h) = true := hw
  obtain ⟨short, e1, e2, e3, e4, e5⟩ := SBin.good _ _ _ _ .i32 h o hw' (by decide) (fun _ => by decide)
  exact decode_fits _ h 11 0 _ short o.b.isLit rfl rfl (by cases o.b.isLit <;> rfl) (fun _ => rfl) hw e2 (fun e => ⟨e3 e, rfl⟩) e4
    (congrArg (Option.map (Instr.smax h)) e5) wd hn
theorem scmp (h : Head) (o : SCmp) : Statement (.scmp h o) := by
  intro wd hw hn
  obtain ⟨e1, e2, e3⟩ := SCmp.good h o hw
  exact decode_fits _ h 12 0 _ false o.b.isLit rfl rfl (by cases o.b.isLit <;> rfl) nofun hw e1 nofun e2
    (congrArg (Option.map (Instr.scmp h)) e3) wd hn
theorem ssel (h : Head) (o : SSel) : Statement (.ssel h o) := by
  intro wd hw hn
  obtain ⟨e1, e2, e3⟩ := SSel.good h o hw
  exact decode_fits _ h 13 0 _ false o.b.isLit rfl rfl (by cases o.b.isLit <;> rfl) nofun hw e1 nofun e2
    (congrArg (Option.map (Instr.ssel h)) e3) wd hn
theorem smov (h : Head) (o : SMov) : Statement (.smov h o) := by
  intro wd hw hn
  obtain ⟨short, e1, e2, e3, e4, e5⟩ := SMov.good false h o hw
  exact decode_fits _ h 14 0 _ short o.b.isLit rfl rfl (by cases o.b.isLit <;> rfl) (fun _ => rfl) hw e1 (fun e => ⟨e2 e, rfl⟩) e3
    (congrArg (Option.map (Instr.smov h)) e4) wd hn
theorem sli (h : Head) (o : SMov) : Statement (.sli h o) := by
  intro wd hw hn
  obtain ⟨short, e1, e2, e3, e4, e5⟩ := SMov.good true h o hw
  exact decode_fits _ h 15 0 _ short o.b.isLit rfl rfl (by rw [e5 rfl]; rfl) (fun _ => rfl) hw e1 (fun e => ⟨e2 e, rfl⟩) e3
    (congrArg (Option.map (Instr.sli h)) e4) wd hn
theorem sbfe (h : Head) (o : SBin) : Statement (.sbfe h o) := by
  intro wd hw hn
  have hw' : (o.wf false [.n32, .i32] false false h) = true := hw
  obtain ⟨short, e1, e2, e3, e4, e5⟩ := SBin.good _ _ _ _ .n32 h o hw' (by decide) nofun
  exact decode_fits _ h 16 0 _ short o.b.isLit rfl rfl (by cases o.b.isLit <;> rfl) (fun e => nomatch e1 e) hw e2 (fun e => ⟨e3 e, rfl⟩) e4
    (congrArg (Option.map (Instr.sbfe h)) e5) wd hn
theorem sbit (h : Head) (o : SBit) : Statement (.sbit h o) := by
  intro wd hw hn
  obtain ⟨e1, e2, e3⟩ := SBit.good h o hw
  exact decode_fits _ h 17 0 _ false o.b.isLit rfl rfl (by cases o.b.isLit <;> rfl) nofun hw e1 nofun e2
    (congrArg (fun x => some (Instr.sbit h x)) e3) wd hn
theorem swide (h : Head) (o : SBin) : Statement (.swide h o) := by
  intro wd hw hn
  have hw' : (o.wf false [.x64, .i32, .n32] false true h && evenS o.d && evenS o.a) = true := hw
  simp only [Bool.and_eq_true] at hw'
  obtain ⟨short, e1, e2, e3, e4, e5⟩ := SBin.good _ _ _ _ .x64 h o hw'.1.1 (by decide) nofun
  exact decode_fits _ h 18 0 _ short o.b.isLit rfl rfl (by cases o.b.isLit <;> rfl) (fun e => nomatch e1 e) hw e2 (fun e => ⟨e3 e, rfl⟩) e4
    (congrArg (Option.map (Instr.swide h)) e5) wd hn
theorem qsub (h : Head) (a : SReg) : Statement (.qsub h a) := by
  intro wd hw hn
  have hf : h.fits false false = true := by
    have hw' : (evenS a && h.fits false false) = true := hw
    simp only [Bool.and_eq_true] at hw'
    simp_all
  exact decode_fits _ h 19 0 _ false false rfl rfl rfl nofun hw hf nofun rfl
    (by refine congrArg some (?_ : _ = (Instr.qsub h a)); simp) wd hn
theorem cland (h : Head) (d : VReg) (a : SReg) (op : BitVec 2) (ty : Ty) : Statement (.cland h d a op ty) := by
  intro wd hw hn
  have hw' : (evenS a && op.toNat < 3 && (ty == .f32 || ((ty == .bf16 || ty == .i32) && op == 0)) && h.fits false false) = true := hw
  simp only [Bool.and_eq_true] at hw'
  have ht : ty ≠ .bfp 7 := by
    intro e
    subst e
    simp at hw'
  exact decode_fits _ h 20 0 _ false false rfl rfl rfl nofun hw hw'.2 nofun rfl
    (by
      show (Ty.dec .f32 (ty.enc .f32)).map _ = _
      rw [Ty.dec_enc _ _ ht]
      simp) wd hn
theorem nbrun (h : Head) (a : SReg) : Statement (.nbrun h a) := by
  intro wd hw hn
  have hf : h.fits false false = true := by
    have hw' : (evenS a && h.fits false false) = true := hw
    simp only [Bool.and_eq_true] at hw'
    simp_all
  exact decode_fits _ h 21 0 _ false false rfl rfl rfl nofun hw hf nofun rfl
    (by refine congrArg some (?_ : _ = (Instr.nbrun h a)); simp) wd hn
theorem trapShort (h : Head) (a : SReg) : Statement (.trapShort h a) := by
  intro wd hw hn
  have hw' : (evenS a && a.toNat < 32 && h.len == 0) = true := hw
  simp only [Bool.and_eq_true, beq_iff_eq, decide_eq_true_eq] at hw'
  have hf : h.fits true false = true := by
    obtain ⟨len, stall, g, gn⟩ := h
    obtain rfl : len = 0 := hw'.2
    rfl
  exact decode_fits _ h 0x16 0 _ true false rfl rfl rfl (fun _ => rfl) hw hf
    (fun _ => ⟨by simp [Fields.plain, s11_small _ hw'.1.2], rfl⟩) rfl
    (by
      show (if (h.len == 0) = true then some (Instr.trapShort h (sr (s11 a))) else _) = _
      simp [hw'.2]) wd hn
theorem trap (h : Head) (c : BitVec 7) (a : SReg) : Statement (.trap h c a) := by
  intro wd hw hn
  have hl : h.len = 2 := by
    have hw' : (evenS a && h.len == 2) = true := hw
    simp only [Bool.and_eq_true, beq_iff_eq] at hw'
    simp_all
  have hf : h.fits false false = true := by
    obtain ⟨len, stall, g, gn⟩ := h
    obtain rfl : len = 2 := hl
    rfl
  exact decode_fits _ h 0x16 0 _ false false rfl rfl rfl nofun hw hf nofun rfl
    (by show (if (h.len == 0) = true then _ else some (Instr.trap h _ _)) = _; simp [hl]) wd hn
theorem tret (h : Head) : Statement (.tret h) := by
  intro wd hw hn
  have hl : h.len = 2 := by
    have hw' : (h.len == 2) = true := hw
    simp only [beq_iff_eq] at hw'
    simp_all
  have hf : h.fits false false = true := by
    obtain ⟨len, stall, g, gn⟩ := h
    obtain rfl : len = 2 := hl
    rfl
  exact decode_fits _ h 0x16 1 _ false false rfl rfl rfl nofun hw hf nofun rfl
    rfl wd hn
theorem tretSkip (h : Head) : Statement (.tretSkip h) := by
  intro wd hw hn
  have hl : h.len = 2 := by
    have hw' : (h.len == 2) = true := hw
    simp only [beq_iff_eq] at hw'
    simp_all
  have hf : h.fits false false = true := by
    obtain ⟨len, stall, g, gn⟩ := h
    obtain rfl : len = 2 := hl
    rfl
  exact decode_fits _ h 0x16 1 _ false false rfl rfl rfl nofun hw hf nofun rfl
    rfl wd hn
theorem brkpt (h : Head) (n : W8) : Statement (.brkpt h n) := by
  intro wd hw hn
  have hl : h.len = 2 := by
    have hw' : (h.len == 2) = true := hw
    simp only [beq_iff_eq] at hw'
    simp_all
  have hf : h.fits false false = true := by
    obtain ⟨len, stall, g, gn⟩ := h
    obtain rfl : len = 2 := hl
    rfl
  exact decode_fits _ h 22 2 _ false false rfl rfl rfl nofun hw hf nofun rfl
    (by refine congrArg some (?_ : _ = (Instr.brkpt h n)); simp) wd hn
theorem sregRead (h : Head) (d : SReg) (i : W8) : Statement (.sregRead h d i) := by
  intro wd hw hn
  have hl : h.len = 2 := by
    have hw' : (sregDefined i && h.len == 2) = true := hw
    simp only [Bool.and_eq_true, beq_iff_eq] at hw'
    simp_all
  have hf : h.fits false false = true := by
    obtain ⟨len, stall, g, gn⟩ := h
    obtain rfl : len = 2 := hl
    rfl
  exact decode_fits _ h 23 0 _ false false rfl rfl rfl nofun hw hf nofun rfl
    (by refine congrArg some (?_ : _ = (Instr.sregRead h d i)); simp) wd hn
theorem sregWrite (h : Head) (a : SReg) (i : W8) : Statement (.sregWrite h a i) := by
  intro wd hw hn
  have hl : h.len = 2 := by
    have hw' : (sregDefined i && h.len == 2) = true := hw
    simp only [Bool.and_eq_true, beq_iff_eq] at hw'
    simp_all
  have hf : h.fits false false = true := by
    obtain ⟨len, stall, g, gn⟩ := h
    obtain rfl : len = 2 := hl
    rfl
  exact decode_fits _ h 23 1 _ false false rfl rfl rfl nofun hw hf nofun rfl
    (by refine congrArg some (?_ : _ = (Instr.sregWrite h a i)); simp) wd hn
theorem sregSwap (h : Head) (d a : SReg) (i : W8) : Statement (.sregSwap h d a i) := by
  intro wd hw hn
  have hl : h.len = 2 := by
    have hw' : (sregDefined i && h.len == 2) = true := hw
    simp only [Bool.and_eq_true, beq_iff_eq] at hw'
    simp_all
  have hf : h.fits false false = true := by
    obtain ⟨len, stall, g, gn⟩ := h
    obtain rfl : len = 2 := hl
    rfl
  exact decode_fits _ h 23 2 _ false false rfl rfl rfl nofun hw hf nofun rfl
    (by refine congrArg some (?_ : _ = (Instr.sregSwap h d a i)); simp) wd hn
theorem br (h : Head) (t : W32) : Statement (.br h t) := by
  intro wd hw hn
  have hf : h.fits true true = true := by
    have hw' : (distOk t && h.fits true true) = true := hw
    simp only [Bool.and_eq_true] at hw'
    simp_all
  exact decode_fits _ h 24 0 _ true true rfl rfl rfl (fun _ => rfl) hw hf (fun _ => ⟨by simp [Fields.plain], rfl⟩) rfl
    (by refine congrArg some (?_ : _ = (Instr.br h t)); simp [Fields.lit32]) wd hn
theorem brpAny (h : Head) (p : Pred) (t : W32) : Statement (.brpAny h p t) := by
  intro wd hw hn
  have hf : h.fits true true = true := by
    have hw' : (distOk t && h.fits true true) = true := hw
    simp only [Bool.and_eq_true] at hw'
    simp_all
  exact decode_fits _ h 0x19 0 _ true true rfl rfl rfl (fun _ => rfl) hw hf (fun _ => ⟨by simp [Fields.plain] <;> omega, rfl⟩) rfl
    (by refine congrArg some (?_ : _ = (Instr.brpAny h p t)); simp [Fields.lit32]) wd hn
theorem brpAll (h : Head) (p : Pred) (t : W32) : Statement (.brpAll h p t) := by
  intro wd hw hn
  have hf : h.fits false true = true := by
    have hw' : (distOk t && h.fits false true) = true := hw
    simp only [Bool.and_eq_true] at hw'
    simp_all
  exact decode_fits _ h 0x19 0 _ false true rfl rfl rfl nofun hw hf nofun rfl
    (by refine congrArg some (?_ : _ = (Instr.brpAll h p t)); simp [Fields.lit32]) wd hn
theorem jmp (h : Head) (t : W32) : Statement (.jmp h t) := by
  intro wd hw hn
  have hf : h.fits true true = true := by
    have hw' : (distOk t && h.fits true true) = true := hw
    simp only [Bool.and_eq_true] at hw'
    simp_all
  exact decode_fits _ h 26 0 _ true true rfl rfl rfl (fun _ => rfl) hw hf (fun _ => ⟨by simp [Fields.plain], rfl⟩) rfl
    (by refine congrArg some (?_ : _ = (Instr.jmp h t)); simp [Fields.lit32]) wd hn
theorem jmpi (h : Head) (a : SReg) : Statement (.jmpi h a) := by
  intro wd hw hn
  have hf : h.fits (a.toNat < 32) false = true := by
    have hw' : (evenS a && h.fits (a.toNat < 32) false) = true := hw
    simp only [Bool.and_eq_true] at hw'
    simp_all
  exact decode_fits _ h 27 0 _ (a.toNat < 32) false rfl rfl rfl (fun _ => rfl) hw hf (fun e => ⟨by have := a.isLt; simp_all [Fields.plain, s11] <;> omega, rfl⟩) rfl
    (by refine congrArg some (?_ : _ = (Instr.jmpi h a)); simp) wd hn
theorem call (h : Head) (d : VReg) (t : W32) : Statement (.call h d t) := by
  intro wd hw hn
  have hf : h.fits (d.toNat < 32) true = true := by
    have hw' : (evenV d && distOk t && h.fits (d.toNat < 32) true) = true := hw
    simp only [Bool.and_eq_true] at hw'
    simp_all
  exact decode_fits _ h 28 0 _ (d.toNat < 32) true rfl rfl rfl (fun _ => rfl) hw hf (fun e => ⟨by simp_all [Fields.plain], rfl⟩) rfl
    (by refine congrArg some (?_ : _ = (Instr.call h d t)); simp [Fields.lit32]) wd hn
theorem ret (h : Head) (a : VReg) : Statement (.ret h a) := by
  intro wd hw hn
  have hf : h.fits (a.toNat < 32) false = true := by
    have hw' : (evenV a && h.fits (a.toNat < 32) false) = true := hw
    simp only [Bool.and_eq_true] at hw'
    simp_all
  exact decode_fits _ h 29 0 _ (a.toNat < 32) false rfl rfl rfl (fun _ => rfl) hw hf (fun e => ⟨by simp_all [Fields.plain], rfl⟩) rfl
    (by refine congrArg some (?_ : _ = (Instr.ret h a)); simp) wd hn
theorem rcv (h : Head) : Statement (.rcv h) := by
  intro wd hw hn
  have hf : h.fits true false = true := by
    have hw' : (h.fits true false) = true := hw
    simp_all
  exact decode_fits _ h 30 0 _ true false rfl rfl rfl (fun _ => rfl) hw hf (fun _ => ⟨by simp [Fields.plain], rfl⟩) rfl
    rfl wd hn
theorem yld (h : Head) : Statement (.yld h) := by
  intro wd hw hn
  have hf : h.fits true false = true := by
    have hw' : (h.fits true false) = true := hw
    simp_all
  exact decode_fits _ h 31 0 _ true false rfl rfl rfl (fun _ => rfl) hw hf (fun _ => ⟨by simp [Fields.plain], rfl⟩) rfl
    rfl wd hn
theorem pop (h : Head) (o : POp) : Statement (.pop h o) := by
  intro wd hw hn
  obtain ⟨e1, e2, e3⟩ := POp.good h o hw
  exact decode_fits _ h 32 0 _ false _ rfl rfl (by cases o.b <;> rfl) nofun hw e1 nofun e2
    (congrArg (fun x => some (Instr.pop h x)) e3) wd hn
theorem pvote (h : Head) (d : SReg) (a : Pred) (m : BitVec 2) : Statement (.pvote h d a m) := by
  intro wd hw hn
  have hf : h.fits false false = true := by
    have hw' : (m != 3 && h.fits false false) = true := hw
    simp only [Bool.and_eq_true] at hw'
    simp_all
  exact decode_fits _ h 33 0 _ false false rfl rfl rfl nofun hw hf nofun rfl
    (by refine congrArg some (?_ : _ = (Instr.pvote h d a m)); simp) wd hn
theorem pball (h : Head) (d : SReg) (a : Pred) : Statement (.pball h d a) := by
  intro wd hw hn
  have hf : h.fits false false = true := by
    have hw' : (evenS d && h.fits false false) = true := hw
    simp only [Bool.and_eq_true] at hw'
    simp_all
  exact decode_fits _ h 0x22 0 _ false false rfl rfl rfl nofun hw hf nofun rfl
    (by refine congrArg some (?_ : _ = (Instr.pball h d a)); simp) wd hn
theorem pballPopc (h : Head) (d : SReg) (a : Pred) : Statement (.pballPopc h d a) := by
  intro wd hw hn
  have hf : h.fits false false = true := by
    have hw' : (h.fits false false) = true := hw
    simp_all
  exact decode_fits _ h 0x22 0 _ false false rfl rfl rfl nofun hw hf nofun rfl
    (by refine congrArg some (?_ : _ = (Instr.pballPopc h d a)); simp) wd hn
theorem vshfl (h : Head) (o : VShfl) : Statement (.vshfl h o) := by
  intro wd hw hn
  obtain ⟨e1, e2, e3⟩ := VShfl.good h o hw
  exact decode_fits _ h 35 0 _ false o.b.isLit rfl rfl (by cases o.b.isLit <;> rfl) nofun hw e1 nofun e2
    (congrArg (fun x => some (Instr.vshfl h x)) e3) wd hn
theorem vscan (h : Head) (o : VScan) : Statement (.vscan h o) := by
  intro wd hw hn
  obtain ⟨e1, e2⟩ := VScan.good _ h o hw
  exact decode_fits _ h 36 0 _ false false rfl rfl rfl nofun hw e1 nofun rfl
    (congrArg (Option.map (Instr.vscan h)) e2) wd hn
theorem vred (h : Head) (o : VScan) : Statement (.vred h o) := by
  intro wd hw hn
  obtain ⟨e1, e2⟩ := VScan.good _ h o hw
  exact decode_fits _ h 37 0 _ false false rfl rfl rfl nofun hw e1 nofun rfl
    (congrArg (Option.map (Instr.vred h)) e2) wd hn
theorem vid (h : Head) (d : VReg) (b : Option VSrc) : Statement (.vid h d b) := by
  intro wd hw hn
  have hw' : (sOpt b && h.fits false (optLit b)) = true := by
    cases b with
    | none => exact hw
    | some v => cases v <;> exact hw
  simp only [Bool.and_eq_true] at hw'
  cases b with
  | none => exact decode_fits _ h 38 0 _ false false rfl rfl rfl nofun hw hw'.2 nofun rfl rfl wd hn
  | some v =>
    have hv : v.ok false = true := by
      have := hw'.1
      cases v <;> simp_all [sOpt]
    have e := vsrc_read false v (optEnc { d := d } (some v)) hv rfl rfl rfl
    exact decode_fits _ h 38 0 _ false v.isLit rfl rfl (by cases v.isLit <;> rfl) nofun hw hw'.2 nofun (VSrc.lit_isSome v)
      (congrArg (fun x => some (Instr.vid h d (some x))) e) wd hn
theorem vbcst (h : Head) (d : VReg) (a : VSrc) (b : Option VSrc) : Statement (.vbcst h d a b) := by
  intro wd hw hn
  have hw' : (a.okReg false && sOpt b && h.fits false (optLit b)) = true := hw
  simp only [Bool.and_eq_true] at hw'
  cases b with
  | none =>
    have ea := va_read false a (bcstEnc d a none) hw'.1.1 rfl rfl
    exact decode_fits _ h 39 0 _ false false rfl rfl rfl nofun hw hw'.2 nofun rfl
      (congrArg (fun x => some (Instr.vbcst h d x none)) ea) wd hn
  | some v =>
    have hv : v.ok false = true := by
      have := hw'.1.2
      cases v <;> simp_all [sOpt]
    have ea := va_read false a (bcstEnc d a (some v)) hw'.1.1 rfl rfl
    have e := vsrc_read false v (bcstEnc d a (some v)) hv rfl rfl rfl
    have hc : regCandidate h 39 0 (bcstEnc d a (some v)) = some (.vbcst h d a (some v)) := by
      show some (Instr.vbcst h d (bcstEnc d a (some v)).va (some ((bcstEnc d a (some v)).vbW false))) = _
      rw [ea, e]
    exact decode_fits _ h 39 0 _ false v.isLit rfl rfl (by cases v.isLit <;> rfl) nofun hw hw'.2 nofun (VSrc.lit_isSome v)
      hc wd hn
theorem vadd (h : Head) (o : VBin) : Statement (.vadd h o) := by
  intro wd hw hn
  have hw' : (o.wf true (arithTys ++ [.x64]) false (o.ty != .b32 && o.ty != .x64) false h) = true := hw
  obtain ⟨short, e1, e2, e3, e4, e5⟩ := VBin.good _ _ _ _ _ .b32 h o hw' (by decide) (fun _ => by decide)
  exact decode_fits _ h 40 0 _ short o.b.isLit rfl rfl (by cases o.b.isLit <;> rfl) (fun _ => rfl) hw e2 (fun e => ⟨e3 e, rfl⟩) e4
    (congrArg (Option.map (Instr.vadd h)) e5) wd hn
theorem vsub (h : Head) (o : VBin) : Statement (.vsub h o) := by
  intro wd hw hn
  have hw' : (o.wf true (arithTys ++ [.x64]) false (o.ty != .b32 && o.ty != .x64) false h) = true := hw
  obtain ⟨short, e1, e2, e3, e4, e5⟩ := VBin.good _ _ _ _ _ .b32 h o hw' (by decide) (fun _ => by decide)
  exact decode_fits _ h 41 0 _ short o.b.isLit rfl rfl (by cases o.b.isLit <;> rfl) (fun _ => rfl) hw e2 (fun e => ⟨e3 e, rfl⟩) e4
    (congrArg (Option.map (Instr.vsub h)) e5) wd hn
theorem vmul (h : Head) (o : VBin) : Statement (.vmul h o) := by
  intro wd hw hn
  have hw' : (o.wf true arithTys false (!o.x && o.ty != .b32) (is32 o.ty) h) = true := hw
  obtain ⟨short, e1, e2, e3, e4, e5⟩ := VBin.good _ _ _ _ _ .b32 h o hw' (by decide) (fun _ => by decide)
  exact decode_fits _ h 42 0 _ short o.b.isLit rfl rfl (by cases o.b.isLit <;> rfl) (fun _ => rfl) hw e2 (fun e => ⟨e3 e, rfl⟩) e4
    (congrArg (Option.map (Instr.vmul h)) e5) wd hn
theorem vmad (h : Head) (o : VTri) : Statement (.vmad h o) := by
  intro wd hw hn
  obtain ⟨e1, e2, e3⟩ := VTri.good _ _ _ _ .b32 h o hw rfl
  exact decode_fits _ h 43 0 _ false o.b.isLit rfl rfl (by cases o.b.isLit <;> rfl) nofun hw e1 nofun e2
    (congrArg (Option.map (Instr.vmad h)) e3) wd hn
theorem vmin (h : Head) (o : VBin) : Statement (.vmin h o) := by
  intro wd hw hn
  have hw' : (o.wf true orderTys false false false h) = true := hw
  obtain ⟨short, e1, e2, e3, e4, e5⟩ := VBin.good _ _ _ _ _ .i32 h o hw' (by decide) (fun _ => by decide)
  exact decode_fits _ h 44 0 _ short o.b.isLit rfl rfl (by cases o.b.isLit <;> rfl) (fun _ => rfl) hw e2 (fun e => ⟨e3 e, rfl⟩) e4
    (congrArg (Option.map (Instr.vmin h)) e5) wd hn
theorem vmax (h : Head) (o : VBin) : Statement (.vmax h o) := by
  intro wd hw hn
  have hw' : (o.wf true orderTys false false false h) = true := hw
  obtain ⟨short, e1, e2, e3, e4, e5⟩ := VBin.good _ _ _ _ _ .i32 h o hw' (by decide) (fun _ => by decide)
  exact decode_fits _ h 45 0 _ short o.b.isLit rfl rfl (by cases o.b.isLit <;> rfl) (fun _ => rfl) hw e2 (fun e => ⟨e3 e, rfl⟩) e4
    (congrArg (Option.map (Instr.vmax h)) e5) wd hn
theorem vand (h : Head) (o : VBin) : Statement (.vand h o) := by
  intro wd hw hn
  have hw' : (o.wf true [.b32] false false false h) = true := hw
  obtain ⟨short, e1, e2, e3, e4, e5⟩ := VBin.good _ _ _ _ _ .b32 h o hw' (by decide) (fun _ => by decide)
  exact decode_fits _ h 46 0 _ short o.b.isLit rfl rfl (by cases o.b.isLit <;> rfl) (fun _ => rfl) hw e2 (fun e => ⟨e3 e, rfl⟩) e4
    (congrArg (Option.map (Instr.vand h)) e5) wd hn
theorem vor (h : Head) (o : VBin) : Statement (.vor h o) := by
  intro wd hw hn
  have hw' : (o.wf true [.b32] false false false h) = true := hw
  obtain ⟨short, e1, e2, e3, e4, e5⟩ := VBin.good _ _ _ _ _ .b32 h o hw' (by decide) (fun _ => by decide)
  exact decode_fits _ h 47 0 _ short o.b.isLit rfl rfl (by cases o.b.isLit <;> rfl) (fun _ => rfl) hw e2 (fun e => ⟨e3 e, rfl⟩) e4
    (congrArg (Option.map (Instr.vor h)) e5) wd hn
theorem vxor (h : Head) (o : VBin) : Statement (.vxor h o) := by
  intro wd hw hn
  have hw' : (o.wf true [.b32] false false false h) = true := hw
  obtain ⟨short, e1, e2, e3, e4, e5⟩ := VBin.good _ _ _ _ _ .b32 h o hw' (by decide) (fun _ => by decide)
  exact decode_fits _ h 48 0 _ short o.b.isLit rfl rfl (by cases o.b.isLit <;> rfl) (fun _ => rfl) hw e2 (fun e => ⟨e3 e, rfl⟩) e4
    (congrArg (Option.map (Instr.vxor h)) e5) wd hn
theorem vshl (h : Head) (o : VBin) : Statement (.vshl h o) := by
  intro wd hw hn
  have hw' : (o.wf true [.b32] false false false h) = true := hw
  obtain ⟨short, e1, e2, e3, e4, e5⟩ := VBin.good _ _ _ _ _ .b32 h o hw' (by decide) (fun _ => by decide)
  exact decode_fits _ h 49 0 _ short o.b.isLit rfl rfl (by cases o.b.isLit <;> rfl) (fun _ => rfl) hw e2 (fun e => ⟨e3 e, rfl⟩) e4
    (congrArg (Option.map (Instr.vshl h)) e5) wd hn
theorem vshr (h : Head) (o : VBin) : Statement (.vshr h o) := by
  intro wd hw hn
  have hw' : (o.wf true [.n32, .i32] false false false h) = true := hw
  obtain ⟨short, e1, e2, e3, e4, e5⟩ := VBin.good _ _ _ _ _ .n32 h o hw' (by decide) (fun _ => by decide)
  exact decode_fits _ h 50 0 _ short o.b.isLit rfl rfl (by cases o.b.isLit <;> rfl) (fun _ => rfl) hw e2 (fun e => ⟨e3 e, rfl⟩) e4
    (congrArg (Option.map (Instr.vshr h)) e5) wd hn
theorem vbit (h : Head) (o : VBitF) : Statement (.vbit h o) := by
  intro wd hw hn
  obtain ⟨e1, e2, e3⟩ := VBitF.good h o hw
  exact decode_fits _ h 51 0 _ false o.b.isLit rfl rfl (by cases o.b.isLit <;> rfl) nofun hw e1 nofun e2
    (congrArg (fun x => some (Instr.vbit h x)) e3) wd hn
theorem vbfe (h : Head) (o : VBin) : Statement (.vbfe h o) := by
  intro wd hw hn
  have hw' : (o.wf false [.n32, .i32] false false false h) = true := hw
  obtain ⟨short, e1, e2, e3, e4, e5⟩ := VBin.good _ _ _ _ _ .n32 h o hw' (by decide) nofun
  exact decode_fits _ h 52 0 _ short o.b.isLit rfl rfl (by cases o.b.isLit <;> rfl) (fun e => nomatch e1 e) hw e2 (fun e => ⟨e3 e, rfl⟩) e4
    (congrArg (Option.map (Instr.vbfe h)) e5) wd hn
theorem vbfi (h : Head) (o : VTri) : Statement (.vbfi h o) := by
  intro wd hw hn
  obtain ⟨e1, e2, e3⟩ := VTri.good _ _ _ _ .b32 h o hw rfl
  exact decode_fits _ h 53 0 _ false o.b.isLit rfl rfl (by cases o.b.isLit <;> rfl) nofun hw e1 nofun e2
    (congrArg (Option.map (Instr.vbfi h)) e3) wd hn
theorem vsel (h : Head) (o : VSel) : Statement (.vsel h o) := by
  intro wd hw hn
  obtain ⟨e1, e2, e3⟩ := VSel.good h o hw
  exact decode_fits _ h 54 0 _ false o.b.isLit rfl rfl (by cases o.b.isLit <;> rfl) nofun hw e1 nofun e2
    (congrArg (Option.map (Instr.vsel h)) e3) wd hn
theorem vcmp (h : Head) (o : VCmp) : Statement (.vcmp h o) := by
  intro wd hw hn
  obtain ⟨e1, e2, e3⟩ := VCmp.good _ _ .i32 h o hw rfl
  exact decode_fits _ h 55 0 _ false o.b.isLit rfl rfl (by cases o.b.isLit <;> rfl) nofun hw e1 nofun e2
    (congrArg (Option.map (Instr.vcmp h)) e3) wd hn
theorem vfadd (h : Head) (o : VBin) : Statement (.vfadd h o) := by
  intro wd hw hn
  have hw' : (o.wf true [.f32] true false false h) = true := hw
  obtain ⟨short, e1, e2, e3, e4, e5⟩ := VBin.good _ _ _ _ _ .f32 h o hw' (by decide) (fun _ => by decide)
  exact decode_fits _ h 56 0 _ short o.b.isLit rfl rfl (by cases o.b.isLit <;> rfl) (fun _ => rfl) hw e2 (fun e => ⟨e3 e, rfl⟩) e4
    (congrArg (Option.map (Instr.vfadd h)) e5) wd hn
theorem vfsub (h : Head) (o : VBin) : Statement (.vfsub h o) := by
  intro wd hw hn
  have hw' : (o.wf true [.f32] true false false h) = true := hw
  obtain ⟨short, e1, e2, e3, e4, e5⟩ := VBin.good _ _ _ _ _ .f32 h o hw' (by decide) (fun _ => by decide)
  exact decode_fits _ h 57 0 _ short o.b.isLit rfl rfl (by cases o.b.isLit <;> rfl) (fun _ => rfl) hw e2 (fun e => ⟨e3 e, rfl⟩) e4
    (congrArg (Option.map (Instr.vfsub h)) e5) wd hn
theorem vfmul (h : Head) (o : VBin) : Statement (.vfmul h o) := by
  intro wd hw hn
  have hw' : (o.wf true [.f32] true false false h) = true := hw
  obtain ⟨short, e1, e2, e3, e4, e5⟩ := VBin.good _ _ _ _ _ .f32 h o hw' (by decide) (fun _ => by decide)
  exact decode_fits _ h 58 0 _ short o.b.isLit rfl rfl (by cases o.b.isLit <;> rfl) (fun _ => rfl) hw e2 (fun e => ⟨e3 e, rfl⟩) e4
    (congrArg (Option.map (Instr.vfmul h)) e5) wd hn
theorem vffma (h : Head) (o : VTri) : Statement (.vffma h o) := by
  intro wd hw hn
  obtain ⟨e1, e2, e3⟩ := VTri.good _ _ _ _ .f32 h o hw rfl
  exact decode_fits _ h 59 0 _ false o.b.isLit rfl rfl (by cases o.b.isLit <;> rfl) nofun hw e1 nofun e2
    (congrArg (Option.map (Instr.vffma h)) e3) wd hn
theorem vfmin (h : Head) (o : VBin) : Statement (.vfmin h o) := by
  intro wd hw hn
  have hw' : (o.wf true [.f32] false false true h) = true := hw
  obtain ⟨short, e1, e2, e3, e4, e5⟩ := VBin.good _ _ _ _ _ .f32 h o hw' (by decide) (fun _ => by decide)
  exact decode_fits _ h 60 0 _ short o.b.isLit rfl rfl (by cases o.b.isLit <;> rfl) (fun _ => rfl) hw e2 (fun e => ⟨e3 e, rfl⟩) e4
    (congrArg (Option.map (Instr.vfmin h)) e5) wd hn
theorem vfmax (h : Head) (o : VBin) : Statement (.vfmax h o) := by
  intro wd hw hn
  have hw' : (o.wf true [.f32] false false true h) = true := hw
  obtain ⟨short, e1, e2, e3, e4, e5⟩ := VBin.good _ _ _ _ _ .f32 h o hw' (by decide) (fun _ => by decide)
  exact decode_fits _ h 61 0 _ short o.b.isLit rfl rfl (by cases o.b.isLit <;> rfl) (fun _ => rfl) hw e2 (fun e => ⟨e3 e, rfl⟩) e4
    (congrArg (Option.map (Instr.vfmax h)) e5) wd hn
theorem vfcmp (h : Head) (o : VCmp) : Statement (.vfcmp h o) := by
  intro wd hw hn
  obtain ⟨e1, e2, e3⟩ := VCmp.good _ _ .f32 h o hw rfl
  exact decode_fits _ h 62 0 _ false o.b.isLit rfl rfl (by cases o.b.isLit <;> rfl) nofun hw e1 nofun e2
    (congrArg (Option.map (Instr.vfcmp h)) e3) wd hn
theorem vfcls (h : Head) (d : Pred) (a : VSrc) (m : BitVec 9) : Statement (.vfcls h d a m) := by
  intro wd hw hn
  have hw' : (a.okReg false && h.fits false false) = true := hw
  simp only [Bool.and_eq_true] at hw'
  exact decode_fits _ h 63 0 _ false false rfl rfl rfl nofun hw hw'.2 nofun rfl
    (by
      show some (Instr.vfcls h _ _ _) = _
      rw [va_read false a _ hw'.1 rfl rfl]
      simp) wd hn
theorem vfrcp (h : Head) (o : VUn) : Statement (.vfrcp h o) := by
  intro wd hw hn
  obtain ⟨e1, e2⟩ := VUn.good _ h o hw
  exact decode_fits _ h 64 0 _ false false rfl rfl rfl nofun hw e1 nofun rfl
    (congrArg (fun x => some (Instr.vfrcp h x)) e2) wd hn
theorem vfrsq (h : Head) (o : VUn) : Statement (.vfrsq h o) := by
  intro wd hw hn
  obtain ⟨e1, e2⟩ := VUn.good _ h o hw
  exact decode_fits _ h 64 1 _ false false rfl rfl rfl nofun hw e1 nofun rfl
    (congrArg (fun x => some (Instr.vfrsq h x)) e2) wd hn
theorem vfsqrt (h : Head) (o : VUn) : Statement (.vfsqrt h o) := by
  intro wd hw hn
  obtain ⟨e1, e2⟩ := VUn.good _ h o hw
  exact decode_fits _ h 64 2 _ false false rfl rfl rfl nofun hw e1 nofun rfl
    (congrArg (fun x => some (Instr.vfsqrt h x)) e2) wd hn
theorem vfexp (h : Head) (o : VUn) : Statement (.vfexp h o) := by
  intro wd hw hn
  obtain ⟨e1, e2⟩ := VUn.good _ h o hw
  exact decode_fits _ h 64 3 _ false false rfl rfl rfl nofun hw e1 nofun rfl
    (congrArg (fun x => some (Instr.vfexp h x)) e2) wd hn
theorem vflog (h : Head) (o : VUn) : Statement (.vflog h o) := by
  intro wd hw hn
  obtain ⟨e1, e2⟩ := VUn.good _ h o hw
  exact decode_fits _ h 64 4 _ false false rfl rfl rfl nofun hw e1 nofun rfl
    (congrArg (fun x => some (Instr.vflog h x)) e2) wd hn
theorem vftanh (h : Head) (o : VUn) : Statement (.vftanh h o) := by
  intro wd hw hn
  obtain ⟨e1, e2⟩ := VUn.good _ h o hw
  exact decode_fits _ h 64 5 _ false false rfl rfl rfl nofun hw e1 nofun rfl
    (congrArg (fun x => some (Instr.vftanh h x)) e2) wd hn
theorem vfsinpi (h : Head) (o : VUn) : Statement (.vfsinpi h o) := by
  intro wd hw hn
  obtain ⟨e1, e2⟩ := VUn.good _ h o hw
  exact decode_fits _ h 64 6 _ false false rfl rfl rfl nofun hw e1 nofun rfl
    (congrArg (fun x => some (Instr.vfsinpi h x)) e2) wd hn
theorem vfcospi (h : Head) (o : VUn) : Statement (.vfcospi h o) := by
  intro wd hw hn
  obtain ⟨e1, e2⟩ := VUn.good _ h o hw
  exact decode_fits _ h 64 7 _ false false rfl rfl rfl nofun hw e1 nofun rfl
    (congrArg (fun x => some (Instr.vfcospi h x)) e2) wd hn
theorem vcvt (h : Head) (o : VCvt) : Statement (.vcvt h o) := by
  intro wd hw hn
  obtain ⟨e1, e2⟩ := VCvt.good h o hw
  exact decode_fits _ h 71 0 _ false false rfl rfl rfl nofun hw e1 nofun rfl
    (congrArg (Option.map (Instr.vcvt h)) e2) wd hn
theorem vfrnd (h : Head) (o : VUn) : Statement (.vfrnd h o) := by
  intro wd hw hn
  obtain ⟨e1, e2⟩ := VUn.good _ h o hw
  exact decode_fits _ h 72 0 _ false false rfl rfl rfl nofun hw e1 nofun rfl
    (congrArg (fun x => some (Instr.vfrnd h x)) e2) wd hn
theorem vdot2 (h : Head) (o : VTri) : Statement (.vdot2 h o) := by
  intro wd hw hn
  obtain ⟨e1, e2, e3⟩ := VTri.good _ _ _ _ .bf16 h o hw rfl
  exact decode_fits _ h 73 0 _ false o.b.isLit rfl rfl (by cases o.b.isLit <;> rfl) nofun hw e1 nofun e2
    (congrArg (Option.map (Instr.vdot2 h)) e3) wd hn
theorem vdot4 (h : Head) (o : VTri) : Statement (.vdot4 h o) := by
  intro wd hw hn
  obtain ⟨e1, e2, e3⟩ := VTri.good _ _ _ _ .i8 h o hw rfl
  exact decode_fits _ h 74 0 _ false o.b.isLit rfl rfl (by cases o.b.isLit <;> rfl) nofun hw e1 nofun e2
    (congrArg (Option.map (Instr.vdot4 h)) e3) wd hn
theorem vmov (h : Head) (d : VReg) (b : VSrc) (ty : Ty) : Statement (.vmov h d b ty) := by
  intro wd hw hn
  have hw' : ([Ty.b32, .x64].contains ty && (ty != .x64 || evenV d) && b.ok (ty == .x64) && h.fits false b.isLit) = true := hw
  simp only [Bool.and_eq_true] at hw'
  obtain ⟨⟨⟨w1, w2⟩, w3⟩, w4⟩ := hw'
  have e := vsrc_read _ b { d := d, b := b.fld, sb := b.sca?, lit := b.lit?, ty := ty.enc .b32 } w3 rfl rfl rfl
  exact decode_fits _ h 75 0 _ false b.isLit rfl rfl (by cases b.isLit <;> rfl) nofun hw w4 nofun (VSrc.lit_isSome b)
    (by
      show (Ty.dec .b32 (ty.enc .b32)).map _ = _
      rw [Ty.dec_enc _ _ (ty_ok _ ty w1 (by decide))]
      exact congrArg (fun x => some (Instr.vmov h d x ty)) e) wd hn
theorem vfscl (h : Head) (o : VBin) : Statement (.vfscl h o) := by
  intro wd hw hn
  have hw' : (o.wf false [.f32] true false false h) = true := hw
  obtain ⟨short, e1, e2, e3, e4, e5⟩ := VBin.good _ _ _ _ _ .f32 h o hw' (by decide) nofun
  exact decode_fits _ h 76 0 _ short o.b.isLit rfl rfl (by cases o.b.isLit <;> rfl) (fun e => nomatch e1 e) hw e2 (fun e => ⟨e3 e, rfl⟩) e4
    (congrArg (Option.map (Instr.vfscl h)) e5) wd hn
theorem vsrt (h : Head) (o : VSrt) : Statement (.vsrt h o) := by
  intro wd hw hn
  obtain ⟨e1, e2⟩ := VSrt.good h o hw
  exact decode_fits _ h 77 0 _ false false rfl rfl rfl nofun hw e1 nofun rfl
    (congrArg (Option.map (Instr.vsrt h)) e2) wd hn
theorem vmrg (h : Head) (o : VMrg) : Statement (.vmrg h o) := by
  intro wd hw hn
  obtain ⟨e1, e2⟩ := VMrg.good h o hw
  exact decode_fits _ h 78 0 _ false false rfl rfl rfl nofun hw e1 nofun rfl
    (congrArg (Option.map (Instr.vmrg h)) e2) wd hn
theorem vtopk (h : Head) (o : VTopk) : Statement (.vtopk h o) := by
  intro wd hw hn
  obtain ⟨e1, e2⟩ := VTopk.good h o hw
  exact decode_fits _ h 79 0 _ false false rfl rfl rfl nofun hw e1 nofun rfl
    (congrArg (Option.map (Instr.vtopk h)) e2) wd hn
theorem sld (h : Head) (o : MemF) : Statement (.sld h o) := by
  intro wd hw hn
  have hl : h.len = 2 := by
    have hw' : (o.wfAcc true true false false 5 [false] [0, 1, 2] h) = true := hw
    simp only [MemF.wfAcc, Bool.and_eq_true] at hw'
    rcases len_cases h.len with e | e | e | e <;> simp_all [Head.fits]
  exact decode_mem _ h 80 0 o rfl hw hl rfl rfl rfl rfl rfl rfl wd hn
theorem sst (h : Head) (o : MemF) : Statement (.sst h o) := by
  intro wd hw hn
  have hl : h.len = 2 := by
    have hw' : (o.wfAcc true true false false 5 [false] [0, 1, 3] h) = true := hw
    simp only [MemF.wfAcc, Bool.and_eq_true] at hw'
    rcases len_cases h.len with e | e | e | e <;> simp_all [Head.fits]
  exact decode_mem _ h 81 0 o rfl hw hl rfl rfl rfl rfl rfl rfl wd hn
theorem vld (h : Head) (o : MemF) : Statement (.vld h o) := by
  intro wd hw hn
  have hl : h.len = 2 := by
    have hw' : (o.wfAcc false true true false 6 [false, true] [0, 1, 2] h) = true := hw
    simp only [MemF.wfAcc, Bool.and_eq_true] at hw'
    rcases len_cases h.len with e | e | e | e <;> simp_all [Head.fits]
  exact decode_mem _ h 82 0 o rfl hw hl rfl rfl rfl rfl rfl rfl wd hn
theorem vst (h : Head) (o : MemF) : Statement (.vst h o) := by
  intro wd hw hn
  have hl : h.len = 2 := by
    have hw' : (o.wfAcc false true true false 6 [false, true] [0, 1, 3] h) = true := hw
    simp only [MemF.wfAcc, Bool.and_eq_true] at hw'
    rcases len_cases h.len with e | e | e | e <;> simp_all [Head.fits]
  exact decode_mem _ h 83 0 o rfl hw hl rfl rfl rfl rfl rfl rfl wd hn
theorem vgth (h : Head) (o : MemF) : Statement (.vgth h o) := by
  intro wd hw hn
  have hl : h.len = 2 := by
    have hw' : (o.wfGth h) = true := hw
    simp only [MemF.wfGth, Bool.and_eq_true] at hw'
    rcases len_cases h.len with e | e | e | e <;> simp_all [Head.fits]
  exact decode_mem _ h 84 0 o rfl hw hl rfl rfl rfl rfl rfl rfl wd hn
theorem vsct (h : Head) (o : MemF) : Statement (.vsct h o) := by
  intro wd hw hn
  have hl : h.len = 2 := by
    have hw' : (o.wfGth h) = true := hw
    simp only [MemF.wfGth, Bool.and_eq_true] at hw'
    rcases len_cases h.len with e | e | e | e <;> simp_all [Head.fits]
  exact decode_mem _ h 85 0 o rfl hw hl rfl rfl rfl rfl rfl rfl wd hn
theorem lds (h : Head) (o : MemF) : Statement (.lds h o) := by
  intro wd hw hn
  have hl : h.len = 2 := by
    have hw' : (o.wfAcc false false true false 6 [false, true] [0] h) = true := hw
    simp only [MemF.wfAcc, Bool.and_eq_true] at hw'
    rcases len_cases h.len with e | e | e | e <;> simp_all [Head.fits]
  exact decode_mem _ h 86 0 o rfl hw hl rfl rfl rfl rfl rfl rfl wd hn
theorem sts (h : Head) (o : MemF) : Statement (.sts h o) := by
  intro wd hw hn
  have hl : h.len = 2 := by
    have hw' : (o.wfAcc false false true false 6 [false, true] [0] h) = true := hw
    simp only [MemF.wfAcc, Bool.and_eq_true] at hw'
    rcases len_cases h.len with e | e | e | e <;> simp_all [Head.fits]
  exact decode_mem _ h 87 0 o rfl hw hl rfl rfl rfl rfl rfl rfl wd hn
theorem gld (h : Head) (o : MemF) : Statement (.gld h o) := by
  intro wd hw hn
  have hl : h.len = 2 := by
    have hw' : (o.wfGang h) = true := hw
    simp only [MemF.wfGang, Bool.and_eq_true] at hw'
    rcases len_cases h.len with e | e | e | e <;> simp_all [Head.fits]
  exact decode_mem _ h 88 0 o rfl hw hl rfl rfl rfl rfl rfl rfl wd hn
theorem gst (h : Head) (o : MemF) : Statement (.gst h o) := by
  intro wd hw hn
  have hl : h.len = 2 := by
    have hw' : (o.wfGang h) = true := hw
    simp only [MemF.wfGang, Bool.and_eq_true] at hw'
    rcases len_cases h.len with e | e | e | e <;> simp_all [Head.fits]
  exact decode_mem _ h 89 0 o rfl hw hl rfl rfl rfl rfl rfl rfl wd hn
theorem mst (h : Head) (o : MemF) : Statement (.mst h o) := by
  intro wd hw hn
  have hl : h.len = 2 := by
    have hw' : (o.wfAcc false false false true 6 [false, true] [0] h) = true := hw
    simp only [MemF.wfAcc, Bool.and_eq_true] at hw'
    rcases len_cases h.len with e | e | e | e <;> simp_all [Head.fits]
  exact decode_mem _ h 90 0 o rfl hw hl rfl rfl rfl rfl rfl rfl wd hn
theorem ldx (h : Head) (o : MemF) : Statement (.ldx h o) := by
  intro wd hw hn
  have hl : h.len = 2 := by
    have hw' : (o.wfLdx h) = true := hw
    simp only [MemF.wfLdx, Bool.and_eq_true] at hw'
    rcases len_cases h.len with e | e | e | e <;> simp_all [Head.fits]
  exact decode_mem _ h 91 0 o rfl hw hl rfl rfl rfl rfl rfl rfl wd hn
theorem cpf (h : Head) (o : MemF) : Statement (.cpf h o) := by
  intro wd hw hn
  have hl : h.len = 2 := by
    have hw' : (o.wfLine [0, 1] h) = true := hw
    simp only [MemF.wfLine, Bool.and_eq_true] at hw'
    rcases len_cases h.len with e | e | e | e <;> simp_all [Head.fits]
  exact decode_mem _ h 92 0 o rfl hw hl rfl rfl rfl rfl rfl rfl wd hn
theorem copInv (h : Head) (o : MemF) : Statement (.copInv h o) := by
  intro wd hw hn
  have hl : h.len = 2 := by
    have hw' : (o.wfLine [0] h) = true := hw
    simp only [MemF.wfLine, Bool.and_eq_true] at hw'
    rcases len_cases h.len with e | e | e | e <;> simp_all [Head.fits]
  have hv : o.var = 0 := by
    have hw' : (o.wfLine [0] h) = true := hw
    simp only [MemF.wfLine, Bool.and_eq_true] at hw'
    simp_all
  exact decode_mem _ h 0x5d 0 o rfl hw hl rfl rfl rfl rfl rfl (by show some (if o.var == 0 then Instr.copInv h o else if o.var == 1 then .copInvall h o else if o.var == 2 then .copWb h o else .copWbinv h o) = _; rw [hv]; rfl) wd hn
theorem copInvall (h : Head) (o : MemF) : Statement (.copInvall h o) := by
  intro wd hw hn
  have hl : h.len = 2 := by
    have hw' : (o.wfLine [1] h && o.base == 0 && o.off == 0 && !o.bk) = true := hw
    simp only [MemF.wfLine, Bool.and_eq_true] at hw'
    rcases len_cases h.len with e | e | e | e <;> simp_all [Head.fits]
  have hv : o.var = 1 := by
    have hw' : (o.wfLine [1] h && o.base == 0 && o.off == 0 && !o.bk) = true := hw
    simp only [MemF.wfLine, Bool.and_eq_true] at hw'
    simp_all
  exact decode_mem _ h 0x5d 0 o rfl hw hl rfl rfl rfl rfl rfl (by show some (if o.var == 0 then Instr.copInv h o else if o.var == 1 then .copInvall h o else if o.var == 2 then .copWb h o else .copWbinv h o) = _; rw [hv]; rfl) wd hn
theorem copWb (h : Head) (o : MemF) : Statement (.copWb h o) := by
  intro wd hw hn
  have hl : h.len = 2 := by
    have hw' : (o.wfLine [2] h) = true := hw
    simp only [MemF.wfLine, Bool.and_eq_true] at hw'
    rcases len_cases h.len with e | e | e | e <;> simp_all [Head.fits]
  have hv : o.var = 2 := by
    have hw' : (o.wfLine [2] h) = true := hw
    simp only [MemF.wfLine, Bool.and_eq_true] at hw'
    simp_all
  exact decode_mem _ h 0x5d 0 o rfl hw hl rfl rfl rfl rfl rfl (by show some (if o.var == 0 then Instr.copInv h o else if o.var == 1 then .copInvall h o else if o.var == 2 then .copWb h o else .copWbinv h o) = _; rw [hv]; rfl) wd hn
theorem copWbinv (h : Head) (o : MemF) : Statement (.copWbinv h o) := by
  intro wd hw hn
  have hl : h.len = 2 := by
    have hw' : (o.wfLine [3] h) = true := hw
    simp only [MemF.wfLine, Bool.and_eq_true] at hw'
    rcases len_cases h.len with e | e | e | e <;> simp_all [Head.fits]
  have hv : o.var = 3 := by
    have hw' : (o.wfLine [3] h) = true := hw
    simp only [MemF.wfLine, Bool.and_eq_true] at hw'
    simp_all
  exact decode_mem _ h 0x5d 0 o rfl hw hl rfl rfl rfl rfl rfl (by show some (if o.var == 0 then Instr.copInv h o else if o.var == 1 then .copInvall h o else if o.var == 2 then .copWb h o else .copWbinv h o) = _; rw [hv]; rfl) wd hn
theorem atm (h : Head) (f : AtmFn) (o : MemF) : Statement (.atm h f o) := by
  intro wd hw hn
  have hl : h.len = 2 := by
    have hw : o.wfAtm h f = true := hw
    simp only [MemF.wfAtm, Bool.and_eq_true] at hw
    rcases len_cases h.len with e | e | e | e <;> simp_all [Head.fits]
  obtain ⟨g1, g2⟩ := AtmFn.good f
  have hfn : fnOk 0x5e f.enc.toNat = true := by
    have ha : f.aop.toNat ≤ 9 := by
      have hw : o.wfAtm h f = true := hw
      simp only [MemF.wfAtm, Bool.and_eq_true] at hw
      have := hw.1.1.1.1.1.2
      simp only [atmOk] at this
      split at this
      · omega
      · split at this
        · omega
        · simp at this
    have h1 := b2n_lt f.glb
    have h2 := b2n_lt f.ret
    simp only [fnOk]
    simp
    omega
  exact decode_mem _ h 0x5e f.enc o rfl hw hl rfl rfl rfl rfl hfn (congrArg (fun x => some (Instr.atm h x o)) g1) wd hn
theorem fenceRel (h : Head) (sc : BitVec 3) : Statement (.fenceRel h sc) := by
  intro wd hw hn
  have hf : h.fits false false = true := by
    have hw' : (sc.toNat < 6 && h.fits false false) = true := hw
    simp only [Bool.and_eq_true] at hw'
    simp_all
  exact decode_fits _ h 96 0 _ false false rfl rfl rfl nofun hw hf nofun rfl
    (by refine congrArg some (?_ : _ = (Instr.fenceRel h sc)); simp) wd hn
theorem fenceAcq (h : Head) (sc : BitVec 3) : Statement (.fenceAcq h sc) := by
  intro wd hw hn
  have hf : h.fits false false = true := by
    have hw' : (sc.toNat < 6 && h.fits false false) = true := hw
    simp only [Bool.and_eq_true] at hw'
    simp_all
  exact decode_fits _ h 96 1 _ false false rfl rfl rfl nofun hw hf nofun rfl
    (by refine congrArg some (?_ : _ = (Instr.fenceAcq h sc)); simp) wd hn
theorem fenceSc (h : Head) (sc : BitVec 3) : Statement (.fenceSc h sc) := by
  intro wd hw hn
  have hf : h.fits false false = true := by
    have hw' : (sc.toNat < 6 && h.fits false false) = true := hw
    simp only [Bool.and_eq_true] at hw'
    simp_all
  exact decode_fits _ h 96 2 _ false false rfl rfl rfl nofun hw hf nofun rfl
    (by refine congrArg some (?_ : _ = (Instr.fenceSc h sc)); simp) wd hn
theorem wcnt (h : Head) (m t : BitVec 6) : Statement (.wcnt h m t) := by
  intro wd hw hn
  have hf : h.fits false false = true := by
    have hw' : (m != 0 && h.fits false false) = true := hw
    simp only [Bool.and_eq_true] at hw'
    simp_all
  exact decode_fits _ h 97 0 _ false false rfl rfl rfl nofun hw hf nofun rfl
    (by refine congrArg some (?_ : _ = (Instr.wcnt h m t)); simp) wd hn
theorem bar (h : Head) : Statement (.bar h) := by
  intro wd hw hn
  have hf : h.fits false false = true := by
    have hw' : (h.fits false false) = true := hw
    simp_all
  exact decode_fits _ h 98 0 _ false false rfl rfl rfl nofun hw hf nofun rfl
    rfl wd hn
theorem gbar (h : Head) (d : SReg) : Statement (.gbar h d) := by
  intro wd hw hn
  have hf : h.fits false false = true := by
    have hw' : (h.fits false false) = true := hw
    simp_all
  exact decode_fits _ h 99 0 _ false false rfl rfl rfl nofun hw hf nofun rfl
    (by refine congrArg some (?_ : _ = (Instr.gbar h d)); simp) wd hn
theorem mon (h : Head) (d a : SReg) : Statement (.mon h d a) := by
  intro wd hw hn
  have hf : h.fits false false = true := by
    have hw' : (evenS d && evenS a && h.fits false false) = true := hw
    simp only [Bool.and_eq_true] at hw'
    simp_all
  exact decode_fits _ h 0x64 0 _ false false rfl rfl rfl nofun hw hf nofun rfl
    (by refine congrArg some (?_ : _ = (Instr.mon h d a)); simp) wd hn
theorem monSp (h : Head) (d a : SReg) : Statement (.monSp h d a) := by
  intro wd hw hn
  have hf : h.fits false false = true := by
    have hw' : (evenS d && h.fits false false) = true := hw
    simp only [Bool.and_eq_true] at hw'
    simp_all
  exact decode_fits _ h 0x64 0 _ false false rfl rfl rfl nofun hw hf nofun rfl
    (by refine congrArg some (?_ : _ = (Instr.monSp h d a)); simp) wd hn
theorem mwait (h : Head) (d b : SReg) : Statement (.mwait h d b) := by
  intro wd hw hn
  have hf : h.fits false false = true := by
    have hw' : (evenS d && h.fits false false) = true := hw
    simp only [Bool.and_eq_true] at hw'
    simp_all
  exact decode_fits _ h 101 0 _ false false rfl rfl rfl nofun hw hf nofun rfl
    (by refine congrArg some (?_ : _ = (Instr.mwait h d b)); simp) wd hn
theorem mwaitWake (core unit : Nat) : Statement (.mwaitWake core unit) := of_event _ rfl
theorem mwaitDeadline (core unit : Nat) : Statement (.mwaitDeadline core unit) := of_event _ rfl
theorem watchTableFullReread (core unit : Nat) : Statement (.watchTableFullReread core unit) := of_event _ rfl
theorem parkedWatchSpuriousWake (task unit : Nat) : Statement (.parkedWatchSpuriousWake task unit) := of_event _ rfl
theorem sgacqE (h : Head) (d : SReg) (r : BitVec 3) : Statement (.sgacqE h d r) := by
  intro wd hw hn
  have hf : h.fits false false = true := by
    have hw' : (h.fits false false) = true := hw
    simp_all
  exact decode_fits _ h 0x66 0 _ false false rfl rfl rfl nofun hw hf nofun rfl
    (by refine congrArg some (?_ : _ = (Instr.sgacqE h d r)); simp) wd hn
theorem sgacqF (h : Head) (d : SReg) (r : BitVec 3) : Statement (.sgacqF h d r) := by
  intro wd hw hn
  have hf : h.fits false false = true := by
    have hw' : (h.fits false false) = true := hw
    simp_all
  exact decode_fits _ h 0x66 0 _ false false rfl rfl rfl nofun hw hf nofun rfl
    (by refine congrArg some (?_ : _ = (Instr.sgacqF h d r)); simp) wd hn
theorem sgrel (h : Head) (r : BitVec 3) (b : SReg) : Statement (.sgrel h r b) := by
  intro wd hw hn
  have hf : h.fits false false = true := by
    have hw' : (h.fits false false) = true := hw
    simp_all
  exact decode_fits _ h 0x67 0 _ false false rfl rfl rfl nofun hw hf nofun rfl
    (by refine congrArg some (?_ : _ = (Instr.sgrel h r b)); simp) wd hn
theorem sgrelInit (h : Head) (r : BitVec 3) (n : BitVec 5) : Statement (.sgrelInit h r n) := by
  intro wd hw hn
  have hf : h.fits false false = true := by
    have hw' : (1 ≤ n.toNat && n.toNat ≤ 16 && h.fits false false) = true := hw
    simp only [Bool.and_eq_true] at hw'
    simp_all
  exact decode_fits _ h 0x67 0 _ false false rfl rfl rfl nofun hw hf nofun rfl
    (by refine congrArg some (?_ : _ = (Instr.sgrelInit h r n)); simp) wd hn
theorem rgn (h : Head) (w : W64) : Statement (.rgn h w) := by
  intro wd hw hn
  have hf : h.fits false true = true := by
    have hw' : (h.fits false true) = true := hw
    simp_all
  exact decode_fits _ h 104 0 _ false true rfl rfl rfl nofun hw hf nofun rfl
    (by refine congrArg some (?_ : _ = (Instr.rgn h w)); simp) wd hn
theorem rgnend (h : Head) : Statement (.rgnend h) := by
  intro wd hw hn
  have hf : h.fits false false = true := by
    have hw' : (h.fits false false) = true := hw
    simp_all
  exact decode_fits _ h 105 0 _ false false rfl rfl rfl nofun hw hf nofun rfl
    rfl wd hn
theorem xacq (h : Head) (k : BitVec 4) : Statement (.xacq h k) := by
  intro wd hw hn
  have hf : h.fits false false = true := by
    have hw' : (k != 0 && h.fits false false) = true := hw
    simp only [Bool.and_eq_true] at hw'
    simp_all
  exact decode_fits _ h 106 0 _ false false rfl rfl rfl nofun hw hf nofun rfl
    (by refine congrArg some (?_ : _ = (Instr.xacq h k)); simp) wd hn
theorem xacqTry (h : Head) (d : SReg) (k : BitVec 4) : Statement (.xacqTry h d k) := by
  intro wd hw hn
  have hf : h.fits false false = true := by
    have hw' : (k != 0 && h.fits false false) = true := hw
    simp only [Bool.and_eq_true] at hw'
    simp_all
  exact decode_fits _ h 106 1 _ false false rfl rfl rfl nofun hw hf nofun rfl
    (by refine congrArg some (?_ : _ = (Instr.xacqTry h d k)); simp) wd hn
theorem xrel (h : Head) (k : BitVec 4) : Statement (.xrel h k) := by
  intro wd hw hn
  have hf : h.fits false false = true := by
    have hw' : (k != 0 && h.fits false false) = true := hw
    simp only [Bool.and_eq_true] at hw'
    simp_all
  exact decode_fits _ h 107 0 _ false false rfl rfl rfl nofun hw hf nofun rfl
    (by refine congrArg some (?_ : _ = (Instr.xrel h k)); simp) wd hn
theorem spawn (h : Head) (a : SReg) : Statement (.spawn h a) := by
  intro wd hw hn
  have hf : h.fits false false = true := by
    have hw' : (evenS a && h.fits false false) = true := hw
    simp only [Bool.and_eq_true] at hw'
    simp_all
  exact decode_fits _ h 108 0 _ false false rfl rfl rfl nofun hw hf nofun rfl
    (by refine congrArg some (?_ : _ = (Instr.spawn h a)); simp) wd hn
theorem spawnr (h : Head) (a : VReg) (b : SReg) : Statement (.spawnr h a b) := by
  intro wd hw hn
  have hf : h.fits false false = true := by
    have hw' : (evenS b && h.fits false false) = true := hw
    simp only [Bool.and_eq_true] at hw'
    simp_all
  exact decode_fits _ h 109 0 _ false false rfl rfl rfl nofun hw hf nofun rfl
    (by refine congrArg some (?_ : _ = (Instr.spawnr h a b)); simp) wd hn
theorem join (h : Head) (d a b : SReg) : Statement (.join h d a b) := by
  intro wd hw hn
  have hf : h.fits false false = true := by
    have hw' : (evenS d && evenS a && h.fits false false) = true := hw
    simp only [Bool.and_eq_true] at hw'
    simp_all
  exact decode_fits _ h 110 0 _ false false rfl rfl rfl nofun hw hf nofun rfl
    (by refine congrArg some (?_ : _ = (Instr.join h d a b)); simp) wd hn
theorem joinerWake (core unit : Nat) : Statement (.joinerWake core unit) := of_event _ rfl
theorem fset (h : Head) (a : SReg) : Statement (.fset h a) := by
  intro wd hw hn
  have hf : h.fits false false = true := by
    have hw' : (evenS a && h.fits false false) = true := hw
    simp only [Bool.and_eq_true] at hw'
    simp_all
  exact decode_fits _ h 0x6f 0 _ false false rfl rfl rfl nofun hw hf nofun rfl
    (by refine congrArg some (?_ : _ = (Instr.fset h a)); simp) wd hn
theorem fsetAt (h : Head) (d a b : SReg) : Statement (.fsetAt h d a b) := by
  intro wd hw hn
  have hf : h.fits false false = true := by
    have hw' : (evenS a && evenS b && h.fits false false) = true := hw
    simp only [Bool.and_eq_true] at hw'
    simp_all
  exact decode_fits _ h 0x6f 0 _ false false rfl rfl rfl nofun hw hf nofun rfl
    (by refine congrArg some (?_ : _ = (Instr.fsetAt h d a b)); simp) wd hn
theorem fflt (h : Head) (a b : SReg) : Statement (.fflt h a b) := by
  intro wd hw hn
  have hf : h.fits false false = true := by
    have hw' : (evenS b && h.fits false false) = true := hw
    simp only [Bool.and_eq_true] at hw'
    simp_all
  exact decode_fits _ h 0x70 0 _ false false rfl rfl rfl nofun hw hf nofun rfl
    (by refine congrArg some (?_ : _ = (Instr.fflt h a b)); simp) wd hn
theorem ffltAt (h : Head) (d a b c : SReg) : Statement (.ffltAt h d a b c) := by
  intro wd hw hn
  have hf : h.fits false false = true := by
    have hw' : (evenS b && evenS c && h.fits false false) = true := hw
    simp only [Bool.and_eq_true] at hw'
    simp_all
  exact decode_fits _ h 0x70 0 _ false false rfl rfl rfl nofun hw hf nofun rfl
    (by refine congrArg some (?_ : _ = (Instr.ffltAt h d a b c)); simp) wd hn
theorem fpoll (h : Head) (d a b : SReg) : Statement (.fpoll h d a b) := by
  intro wd hw hn
  have hf : h.fits false false = true := by
    have hw' : (evenS d && evenS a && h.fits false false) = true := hw
    simp only [Bool.and_eq_true] at hw'
    simp_all
  exact decode_fits _ h 113 0 _ false false rfl rfl rfl nofun hw hf nofun rfl
    (by refine congrArg some (?_ : _ = (Instr.fpoll h d a b)); simp) wd hn
theorem texit (h : Head) : Statement (.texit h) := by
  intro wd hw hn
  have hf : h.fits false false = true := by
    have hw' : (h.fits false false) = true := hw
    simp_all
  exact decode_fits _ h 114 0 _ false false rfl rfl rfl nofun hw hf nofun rfl
    rfl wd hn
theorem tmark (h : Head) (a : SReg) : Statement (.tmark h a) := by
  intro wd hw hn
  have hf : h.fits false false = true := by
    have hw' : (h.fits false false) = true := hw
    simp_all
  exact decode_fits _ h 115 0 _ false false rfl rfl rfl nofun hw hf nofun rfl
    (by refine congrArg some (?_ : _ = (Instr.tmark h a)); simp) wd hn
theorem cpy (h : Head) (a : BitVec 3) : Statement (.cpy h a) := by
  intro wd hw hn
  have hf : h.fits false false = true := by
    have hw' : (h.fits false false) = true := hw
    simp_all
  exact decode_fits _ h 116 0 _ false false rfl rfl rfl nofun hw hf nofun rfl
    (by refine congrArg some (?_ : _ = (Instr.cpy h a)); simp) wd hn
theorem qput (h : Head) (d a b : SReg) : Statement (.qput h d a b) := by
  intro wd hw hn
  have hf : h.fits false false = true := by
    have hw' : (evenS d && evenS a && h.fits false false) = true := hw
    simp only [Bool.and_eq_true] at hw'
    simp_all
  exact decode_fits _ h 0x75 0 _ false false rfl rfl rfl nofun hw hf nofun rfl
    (by refine congrArg some (?_ : _ = (Instr.qput h d a b)); simp) wd hn
theorem qputX2 (h : Head) (d a b : SReg) : Statement (.qputX2 h d a b) := by
  intro wd hw hn
  have hf : h.fits false false = true := by
    have hw' : (evenS d && evenS a && h.fits false false) = true := hw
    simp only [Bool.and_eq_true] at hw'
    simp_all
  exact decode_fits _ h 0x75 0 _ false false rfl rfl rfl nofun hw hf nofun rfl
    (by refine congrArg some (?_ : _ = (Instr.qputX2 h d a b)); simp) wd hn
theorem strm (h : Head) (f : BitVec 2) (a : BitVec 3) : Statement (.strm h f a) := by
  intro wd hw hn
  have hf : h.fits false false = true := by
    have hw' : (h.fits false false) = true := hw
    simp_all
  exact decode_fits _ h 118 0 _ false false rfl rfl rfl nofun hw hf nofun rfl
    (by refine congrArg some (?_ : _ = (Instr.strm h f a)); simp) wd hn
theorem strmend (h : Head) (f : BitVec 2) : Statement (.strmend h f) := by
  intro wd hw hn
  have hf : h.fits false false = true := by
    have hw' : (h.fits false false) = true := hw
    simp_all
  exact decode_fits _ h 119 0 _ false false rfl rfl rfl nofun hw hf nofun rfl
    (by refine congrArg some (?_ : _ = (Instr.strmend h f)); simp) wd hn
theorem lbind (h : Head) (a b : SReg) : Statement (.lbind h a b) := by
  intro wd hw hn
  have hf : h.fits false false = true := by
    have hw' : (evenS b && h.fits false false) = true := hw
    simp only [Bool.and_eq_true] at hw'
    simp_all
  exact decode_fits _ h 120 0 _ false false rfl rfl rfl nofun hw hf nofun rfl
    (by refine congrArg some (?_ : _ = (Instr.lbind h a b)); simp) wd hn
theorem laddr (h : Head) (d : VReg) (c : Pred) (a : SReg) (b : Quad) : Statement (.laddr h d c a b) := by
  intro wd hw hn
  have hf : h.fits false false = true := by
    have hw' : (evenV d && h.fits false false) = true := hw
    simp only [Bool.and_eq_true] at hw'
    simp_all
  exact decode_fits _ h 121 0 _ false false rfl rfl rfl nofun hw hf nofun rfl
    (by refine congrArg some (?_ : _ = (Instr.laddr h d c a b)); simp) wd hn
theorem mma (h : Head) (t : Tile) (fa fb : Bool) (n : BitVec 11) : Statement (.mma h t fa fb n) := by
  intro wd hw hn
  have hf : h.fits false false = true := by
    have hw' : (n != 0 && h.fits false false) = true := hw
    simp only [Bool.and_eq_true] at hw'
    simp_all
  exact decode_fits _ h 122 0 _ false false rfl rfl rfl nofun hw hf nofun rfl
    (by refine congrArg some (?_ : _ = (Instr.mma h t fa fb n)); simp) wd hn
theorem mmaSh (h : Head) (t : Tile) (fa fb : Bool) (n : BitVec 11) : Statement (.mmaSh h t fa fb n) := by
  intro wd hw hn
  have hf : h.fits false false = true := by
    have hw' : (n != 0 && h.fits false false) = true := hw
    simp only [Bool.and_eq_true] at hw'
    simp_all
  exact decode_fits _ h 122 1 _ false false rfl rfl rfl nofun hw hf nofun rfl
    (by refine congrArg some (?_ : _ = (Instr.mmaSh h t fa fb n)); simp) wd hn
theorem accZero (h : Head) (t : Tile) (m : BitVec 11) : Statement (.accZero h t m) := by
  intro wd hw hn
  have hf : h.fits false false = true := by
    have hw' : (1 ≤ m.toNat && m.toNat ≤ 1024 && h.fits false false) = true := hw
    simp only [Bool.and_eq_true] at hw'
    simp_all
  exact decode_fits _ h 123 0 _ false false rfl rfl rfl nofun hw hf nofun rfl
    (by refine congrArg some (?_ : _ = (Instr.accZero h t m)); simp) wd hn
theorem accCommit (h : Head) (t : Tile) (m : BitVec 11) : Statement (.accCommit h t m) := by
  intro wd hw hn
  have hf : h.fits false false = true := by
    have hw' : (1 ≤ m.toNat && m.toNat ≤ 1024 && h.fits false false) = true := hw
    simp only [Bool.and_eq_true] at hw'
    simp_all
  exact decode_fits _ h 123 1 _ false false rfl rfl rfl nofun hw hf nofun rfl
    (by refine congrArg some (?_ : _ = (Instr.accCommit h t m)); simp) wd hn
theorem accDiscard (h : Head) (t : Tile) (m : BitVec 11) : Statement (.accDiscard h t m) := by
  intro wd hw hn
  have hf : h.fits false false = true := by
    have hw' : (1 ≤ m.toNat && m.toNat ≤ 1024 && h.fits false false) = true := hw
    simp only [Bool.and_eq_true] at hw'
    simp_all
  exact decode_fits _ h 123 2 _ false false rfl rfl rfl nofun hw hf nofun rfl
    (by refine congrArg some (?_ : _ = (Instr.accDiscard h t m)); simp) wd hn
theorem accMove (h : Head) (t u : Tile) (m : BitVec 11) : Statement (.accMove h t u m) := by
  intro wd hw hn
  have hw' : (1 ≤ m.toNat && m.toNat ≤ 1024 && h.fits false false) = true ∧ t.ind? = u.ind? := by
    cases t <;> cases u
    · have h1 : (1 ≤ m.toNat && m.toNat ≤ 1024 && h.fits false false && true) = true := hw
      exact ⟨by simpa using h1, rfl⟩
    · have h1 : (1 ≤ m.toNat && m.toNat ≤ 1024 && h.fits false false && false) = true := hw
      simp at h1
    · have h1 : (1 ≤ m.toNat && m.toNat ≤ 1024 && h.fits false false && false) = true := hw
      simp at h1
    · have h1 : (1 ≤ m.toNat && m.toNat ≤ 1024 && h.fits false false && true) = true := hw
      exact ⟨by simpa using h1, rfl⟩
  obtain ⟨hf, hu⟩ := hw'
  simp only [Bool.and_eq_true] at hf
  have hc : regCandidate h 123 3 { d := t.fld, a := u.fld, c := m, x := t.ind? } = some (.accMove h t u m) := by
    show some (Instr.accMove h (Tile.dec t.fld t.ind?) (Tile.dec u.fld t.ind?) m) = _
    rw [Tile.dec_fld, hu, Tile.dec_fld]
  exact decode_fits _ h 123 3 _ false false rfl rfl rfl nofun hw hf.2 nofun rfl hc wd hn
theorem ardv (h : Head) (o : Ardv) : Statement (.ardv h o) := by
  intro wd hw hn
  exact decode_fits _ h 0x7c 0 _ false false rfl rfl rfl nofun hw hw nofun rfl
    (congrArg (fun x => some (Instr.ardv h x)) (Ardv.good o)) wd hn
theorem ardvRaw (h : Head) (o : Ardv) : Statement (.ardvRaw h o) := by
  intro wd hw hn
  have hw' : (evenV o.d && o.rm == .rne && !o.sat && h.fits false false) = true := hw
  simp only [Bool.and_eq_true] at hw'
  exact decode_fits _ h 0x7c 0 _ false false rfl rfl rfl nofun hw hw'.2 nofun rfl
    (congrArg (fun x => some (Instr.ardvRaw h x)) (Ardv.good o)) wd hn
theorem adrn (h : Head) (o : Adrn) : Statement (.adrn h o) := by
  intro wd hw hn
  have hw' : (adrnTys.contains o.ty && (!o.sat || o.ty == .f32 || o.ty.isSmallFp) && h.fits false false) = true := hw
  simp only [Bool.and_eq_true] at hw'
  exact decode_fits _ h 125 0 _ false false rfl rfl rfl nofun hw hw'.2 nofun rfl
    (congrArg (Option.map (Instr.adrn h)) (Adrn.good o hw'.1.1)) wd hn
theorem fskip (h : Head) (f : BitVec 2) (n : BitVec 11) : Statement (.fskip h f n) := by
  intro wd hw hn
  have hf : h.fits false false = true := by
    have hw' : (n != 0 && h.fits false false) = true := hw
    simp only [Bool.and_eq_true] at hw'
    simp_all
  exact decode_fits _ h 126 0 _ false false rfl rfl rfl nofun hw hf nofun rfl
    (by refine congrArg some (?_ : _ = (Instr.fskip h f n)); simp) wd hn
theorem loadResultArrives (core unit idx : Nat) : Statement (.loadResultArrives core unit idx) := of_event _ rfl
theorem fixedLatencyWriteback (core unit : Nat) : Statement (.fixedLatencyWriteback core unit) := of_event _ rfl
theorem storePerformed (core unit idx : Nat) : Statement (.storePerformed core unit idx) := of_event _ rfl
theorem leaseExpiry (core line : Nat) : Statement (.leaseExpiry core line) := of_event _ rfl
theorem tlbWalk (core cid va : Nat) : Statement (.tlbWalk core cid va) := of_event _ rfl
theorem tileArrival (task desc n : Nat) : Statement (.tileArrival task desc n) := of_event _ rfl
theorem dequePop (core : Nat) : Statement (.dequePop core) := of_event _ rfl
theorem taskStart (core : Nat) : Statement (.taskStart core) := of_event _ rfl
theorem gangStart (gang : Nat) : Statement (.gangStart gang) := of_event _ rfl
theorem stealAttempt (core : Nat) : Statement (.stealAttempt core) := of_event _ rfl
theorem stealAttemptReceived (msg : Nat) : Statement (.stealAttemptReceived msg) := of_event _ rfl
theorem stealOfferReceived (msg : Nat) : Statement (.stealOfferReceived msg) := of_event _ rfl
theorem stealAckReceived (msg : Nat) : Statement (.stealAckReceived msg) := of_event _ rfl
theorem stealConfirmReceived (msg : Nat) : Statement (.stealConfirmReceived msg) := of_event _ rfl
theorem stealKeepReceived (msg : Nat) : Statement (.stealKeepReceived msg) := of_event _ rfl
theorem stealOfferTimeout (core : Nat) : Statement (.stealOfferTimeout core) := of_event _ rfl
theorem stealLendTimeout (core thief : Nat) : Statement (.stealLendTimeout core thief) := of_event _ rfl
theorem stealAnswerTimeout (core : Nat) : Statement (.stealAnswerTimeout core) := of_event _ rfl
theorem forwardProgressSwap (core : Nat) : Statement (.forwardProgressSwap core) := of_event _ rfl
theorem teamRestore (task : Nat) : Statement (.teamRestore task) := of_event _ rfl
theorem handlerEntry (core unit : Nat) : Statement (.handlerEntry core unit) := of_event _ rfl
theorem fatalFault (task : Nat) (ecc : Bool) : Statement (.fatalFault task ecc) := of_event _ rfl
theorem warpRetire (core unit : Nat) : Statement (.warpRetire core unit) := of_event _ rfl
theorem taskRetire (task : Nat) : Statement (.taskRetire task) := of_event _ rfl
theorem cpyTransfer (core idx : Nat) : Statement (.cpyTransfer core idx) := of_event _ rfl
theorem cpyComplete (core idx : Nat) : Statement (.cpyComplete core idx) := of_event _ rfl
theorem streamSliceEnter (core idx : Nat) : Statement (.streamSliceEnter core idx) := of_event _ rfl
theorem mmaSliceApply (core unit : Nat) : Statement (.mmaSliceApply core unit) := of_event _ rfl
theorem mtxOpComplete (core unit : Nat) : Statement (.mtxOpComplete core unit) := of_event _ rfl
theorem adrnComplete (core unit : Nat) : Statement (.adrnComplete core unit) := of_event _ rfl
theorem gthComplete (core unit idx : Nat) : Statement (.gthComplete core unit idx) := of_event _ rfl
theorem mstDelivery (core unit idx member : Nat) : Statement (.mstDelivery core unit idx member) := of_event _ rfl
theorem nbProgramStart (u : Nat) : Statement (.nbProgramStart u) := of_event _ rfl
theorem nbRowOperation (u : Nat) : Statement (.nbRowOperation u) := of_event _ rfl
theorem nbWindowResume (u : Nat) : Statement (.nbWindowResume u) := of_event _ rfl
theorem nbForcedRowOperation (u : Nat) : Statement (.nbForcedRowOperation u) := of_event _ rfl
theorem nbProgramComplete (u : Nat) : Statement (.nbProgramComplete u) := of_event _ rfl
theorem hbmRefreshDue (u bank : Nat) : Statement (.hbmRefreshDue u bank) := of_event _ rfl
theorem hbmControllerRequest (u kind off len : Nat) : Statement (.hbmControllerRequest u kind off len) := of_event _ rfl
theorem landingPacketApply (idx : Nat) : Statement (.landingPacketApply idx) := of_event _ rfl
theorem queryDistance (q idx : Nat) : Statement (.queryDistance q idx) := of_event _ rfl
theorem queryRound (q : Nat) : Statement (.queryRound q) := of_event _ rfl
theorem queryComplete (q : Nat) : Statement (.queryComplete q) := of_event _ rfl
theorem shapeResolution (l : Nat) : Statement (.shapeResolution l) := of_event _ rfl
theorem shapeTimeout (l : Nat) : Statement (.shapeTimeout l) := of_event _ rfl
theorem speculationTagFree (l : Nat) : Statement (.speculationTagFree l) := of_event _ rfl
theorem qsNotify (qid : Nat) : Statement (.qsNotify qid) := of_event _ rfl
theorem queueConsume (slot : Nat) : Statement (.queueConsume slot) := of_event _ rfl
theorem nopPacket (p : Nat) : Statement (.nopPacket p) := of_event _ rfl
theorem launchPacket (p : Nat) : Statement (.launchPacket p) := of_event _ rfl
theorem copyPacket (p core : Nat) : Statement (.copyPacket p core) := of_event _ rfl
theorem fillPacket (p : Nat) : Statement (.fillPacket p) := of_event _ rfl
theorem signalStore (p : Nat) : Statement (.signalStore p) := of_event _ rfl
theorem signalAtomicAdd (p : Nat) : Statement (.signalAtomicAdd p) := of_event _ rfl
theorem signalCompleteFuture (p : Nat) : Statement (.signalCompleteFuture p) := of_event _ rfl
theorem waitPacket (p : Nat) : Statement (.waitPacket p) := of_event _ rfl
theorem waitReevaluate (p : Nat) : Statement (.waitReevaluate p) := of_event _ rfl
theorem waitTimeout (p : Nat) : Statement (.waitTimeout p) := of_event _ rfl
theorem fencePacket (p : Nat) : Statement (.fencePacket p) := of_event _ rfl
theorem packetComplete (p : Nat) : Statement (.packetComplete p) := of_event _ rfl
theorem launchComplete (l : Nat) : Statement (.launchComplete l) := of_event _ rfl
theorem vfSettle : Statement .vfSettle := of_event _ rfl
theorem qsErrslotClear (m : W32) : Statement (.qsErrslotClear m) := of_event _ rfl
theorem tlbShoot (cid : BitVec 12) (size : BitVec 2) : Statement (.tlbShoot cid size) := of_event _ rfl
theorem shootdownComplete : Statement .shootdownComplete := of_event _ rfl
theorem fwinWrite (i reg : Nat) (v : W64) : Statement (.fwinWrite i reg v) := of_event _ rfl
theorem lwinWrite (i reg : Nat) (v : W64) : Statement (.lwinWrite i reg v) := of_event _ rfl
theorem registerWrite (off : Nat) (v : W64) : Statement (.registerWrite off v) := of_event _ rfl
theorem ctxCreate : Statement .ctxCreate := of_event _ rfl
theorem ctxDestroy : Statement .ctxDestroy := of_event _ rfl
theorem qCreate : Statement .qCreate := of_event _ rfl
theorem qDestroy : Statement .qDestroy := of_event _ rfl
theorem rangesFree : Statement .rangesFree := of_event _ rfl
theorem peerBind : Statement .peerBind := of_event _ rfl
theorem ckptReg : Statement .ckptReg := of_event _ rfl
theorem attest : Statement .attest := of_event _ rfl
theorem fwLoad (u : Unit) : Statement (.fwLoad u) := of_event _ rfl
theorem mbxUnknownOpc : Statement .mbxUnknownOpc := of_event _ rfl
theorem umberQuantum : Statement .umberQuantum := of_event _ rfl
theorem queueIdleSwap (qid : Nat) : Statement (.queueIdleSwap qid) := of_event _ rfl
theorem queueReadyMap (qid : Nat) : Statement (.queueReadyMap qid) := of_event _ rfl
theorem umberFaultService (core unit : Nat) (replay : Bool) : Statement (.umberFaultService core unit replay) := of_event _ rfl
theorem pageMigration (cid va page : Nat) : Statement (.pageMigration cid va page) := of_event _ rfl
theorem umberPreemptRequest (task : Nat) : Statement (.umberPreemptRequest task) := of_event _ rfl
theorem slateTakeover : Statement .slateTakeover := of_event _ rfl
theorem axlNotify (qid : Nat) : Statement (.axlNotify qid) := of_event _ rfl
theorem axyelAppend (d : Nat) : Statement (.axyelAppend d) := of_event _ rfl
theorem axyelPut (d : Nat) : Statement (.axyelPut d) := of_event _ rfl
theorem axyelGet (d : Nat) (data : List W8) : Statement (.axyelGet d data) := of_event _ rfl
theorem axyelLand (d : Nat) : Statement (.axyelLand d) := of_event _ rfl
theorem axyelReceive (dev pcid dcid kind : Nat) (raddr : Nat) (opc : BitVec 4) (data : List W8) : Statement (.axyelReceive dev pcid dcid kind raddr opc data) := of_event _ rfl
theorem axyelDescriptorComplete (d : Nat) (cause : W8) : Statement (.axyelDescriptorComplete d cause) := of_event _ rfl
theorem linkLoss (dev : Nat) : Statement (.linkLoss dev) := of_event _ rfl
theorem hostCxlMemAccess (pa : Nat) (write : Bool) (data : List W8) (keep : Bool) : Statement (.hostCxlMemAccess pa write data keep) := of_event _ rfl
theorem backInvalidateResponse (line : Nat) : Statement (.backInvalidateResponse line) := of_event _ rfl
theorem fabricHeaderCheck (die site link kind : Nat) : Statement (.fabricHeaderCheck die site link kind) := of_event _ rfl
theorem fabricOpTimeout (core unit idx : Nat) : Statement (.fabricOpTimeout core unit idx) := of_event _ rfl
theorem routerFailure (die site : Nat) : Statement (.routerFailure die site) := of_event _ rfl
theorem bridgeLoss (a b : Nat) : Statement (.bridgeLoss a b) := of_event _ rfl
theorem restitchComplete : Statement .restitchComplete := of_event _ rfl
theorem dieLoss (d : Nat) : Statement (.dieLoss d) := of_event _ rfl
theorem reset (stage : ResetStage) : Statement (.reset stage) := of_event _ rfl
theorem stackTrained (st : Nat) : Statement (.stackTrained st) := of_event _ rfl
theorem repairDone (code : Nat) : Statement (.repairDone code) := of_event _ rfl
theorem linkTrained (l : Nat) : Statement (.linkTrained l) := of_event _ rfl
theorem powerOverCap (watts : Nat) : Statement (.powerOverCap watts) := of_event _ rfl
theorem powerUnderCap (watts : Nat) : Statement (.powerUnderCap watts) := of_event _ rfl
theorem currentLimit (amps : Nat) : Statement (.currentLimit amps) := of_event _ rfl
theorem patrolScrub (unit row line : Nat) (e : EccReport) : Statement (.patrolScrub unit row line e) := of_event _ rfl
theorem lifetimeCounterSave (tj : BitVec 4) (secs : Nat) (tj' : BitVec 4) (secs' : Nat) :
    Statement (.lifetimeCounterSave tj secs tj' secs') := of_event _ rfl
theorem bridgeReturn (a b : Nat) : Statement (.bridgeReturn a b) := of_event _ rfl
theorem currentFallsBelowLimit (amps : Nat) : Statement (.currentFallsBelowLimit amps) := of_event _ rfl
theorem cxlCacheSnoop (line : Nat) (inv : Bool) : Statement (.cxlCacheSnoop line inv) := of_event _ rfl

end Sys2Proof.Laws.RoundTrip
end

