-- ==== Sys2Proof/Tests/Slice0.lean ====
section
/-!
SUPPORT. Tests: words of the spec decoded, ill-formed terms refused, the spec's worked examples run, and for each statement
states and operands that meet its hypotheses.
-/
namespace Sys2Proof.Tests
open Sys2Proof Sys2Proof.Machine
set_option maxRecDepth 8192

/-! Heads, and a small machine: task 1 of context 1 runs one warp, thread 16, on unit 0 of core 0, with one page. -/

def h0 : Head := ⟨0, 0, 7, false⟩
def h1 : Head := ⟨1, 0, 7, false⟩
def h2 : Head := ⟨2, 0, 7, false⟩
def h3 : Head := ⟨3, 0, 7, false⟩

def warp : Thread := { lanes := List.replicate 64 { pc := 0x10000 } }
def task1 : Task := { cid := 1, st := .running, size := 65536 }
def core0 : Core := { ctx := some 1, slots := [(0, 16)], tlb := [⟨1, 0x10000, 16, 0x10000, true, true, false⟩] }
def base (t : Thread) : State :=
  { hbmMask := 0xFFFF, ready := 0xFF, time := 1000, ctxs := [(1, { cores := [0] })], cores := [(0, core0)]
    tasks := [(1, task1)], threads := [(16, t)], issue := { tid := 16, run := 1, pc := 0x10000, ilen := 12 } }
/-- The same with another task record. -/
def withTask (k : Task) (t : Thread) : State := { base t with tasks := [(1, k)] }
/-- The same in a sequencer context, thread 24. -/
def context (t : Thread) : State :=
  { base t with threads := [(24, t)], cores := [(0, { core0 with slots := [(32, 24)] })]
                issue := { tid := 24, unit := 32, run := 1, pc := 0x10000, ilen := 12 } }
/-- What an instruction or an event leaves. -/
def after (i : Instr) (s : State) : State := match exec i s with
  | .next u => u
  | _ => s

def sregs (l : List (Nat × W32)) : Thread := { warp with s := l }
/-- A vector register whose first lanes hold the list and whose other lanes read 0. -/
def row (l : List W32) : List W32 := l ++ List.replicate (64 - l.length) 0

/-! Decoding: words written out from R72, R76, R77, R79 and the encodings of each instruction's description. -/

theorem test_word_nop : decode 0xE000 = .ok (.nop h0) := rfl
theorem test_word_sadd : decode 0x1046_E048 = .ok (.sadd ⟨0, 2, 7, false⟩ ⟨3, 1, .reg 2, .b32, false, false⟩) := rfl
theorem test_word_sadd_literal :
    decode 0x0000_0000_0000_1234_0046_E049 = .ok (.sadd ⟨1, 2, 7, false⟩ ⟨3, 1, .lit 0x1234, .b32, false, false⟩) := rfl
theorem test_word_sli : decode 0x0000_0020_0000_0000_3000_0000_0000_0400_0000_E3C3 =
    .ok (.sli h3 ⟨4, .lit 0x0000_0020_0000_0000, .x64⟩) := rfl
theorem test_word_scmp : decode 0x1800_0400_C010_0100_0000_E302 = .ok (.scmp h2 ⟨1, 2, .reg 3, 2, .n32⟩) := rfl
theorem test_word_sreg : decode 0x0000_3000_0000_0700_0000_E5C2 = .ok (.sregRead h2 7 0x18) := rfl
theorem test_word_trap : decode 0x0100_E580 = .ok (.trapShort h0 4) := rfl
theorem test_word_ret : decode 0x0500_E740 = .ok (.ret h0 20) := rfl
theorem test_word_rcv : decode 0xE780 = .ok (.rcv h0) := rfl
theorem test_word_yld : decode 0xE7C0 = .ok (.yld h0) := rfl
theorem test_word_vfadd : decode 0x0080_0002_C050_0C00_0001_4E1A =
    .ok (.vfadd ⟨2, 6, 2, true⟩ ⟨12, .vec 10, .vec 11, .f32, .rtz, false, false⟩) := rfl
theorem test_word_vfmax : decode 0x8000_0001_C030_0800_0000_EF42 =
    .ok (.vfmax h2 ⟨8, .vec 6, .vec 7, .f32, .rne, false, true⟩) := rfl
theorem test_word_vred : decode 0x0000_0C00_0020_0500_0000_6942 =
    .ok (.vred ⟨2, 0, 3, false⟩ ⟨5, .vec 4, 6, 0, .f32, .rne, false⟩) := rfl
theorem test_word_vscan : decode 0x0000_0C00_0020_0600_0000_6902 =
    .ok (.vscan ⟨2, 0, 3, false⟩ ⟨6, .vec 4, 6, 0, .f32, .rne, false⟩) := rfl
theorem test_word_vcvt : decode 0x1E02_1200_0010_0900_0000_F1C2 =
    .ok (.vcvt h2 ⟨9, .vec 2, .f32, .e4m3, 0, 2, .rne, true⟩) := rfl
theorem test_word_vsrt : decode 0x0000_C600_0000_3C00_0000_F342 = .ok (.vsrt h2 ⟨60, 3, 6, 0, .f32, false⟩) := rfl
theorem test_word_vmrg : decode 0x0000_0201_0000_0800_0000_F382 = .ok (.vmrg h2 ⟨8, 0, 4, true, .f32, false⟩) := rfl
theorem test_word_vtopk : decode 0x8000_0800_0190_2800_0000_33C2 =
    .ok (.vtopk ⟨2, 0, 1, false⟩ ⟨40, 50, 4, .f32, true⟩) := rfl
theorem test_word_xacq : decode 0x0C00_0000_0000_FA82 = .ok (.xacq h2 3) := rfl
theorem test_word_lbind : decode 0x0000_0001_8020_0000_0000_FE02 = .ok (.lbind h2 4 6) := rfl
theorem test_word_cpy : decode 0x0000_0000_0040_0000_0000_FD02 = .ok (.cpy h2 1) := rfl
theorem test_word_strm : decode 0x0000_0000_0080_0200_0000_FD82 = .ok (.strm h2 2 2) := rfl
theorem test_word_laddr : decode 0x0000_0406_0020_1400_0000_FE42 = .ok (.laddr h2 20 2 4 (.vec 6)) := rfl
theorem test_word_mma : decode 0x0000_0800_8000_0000_0000_FE82 = .ok (.mma h2 (.imm 0) false false 4) := rfl
theorem test_word_sgacq : decode 0x0000_0000_0000_0800_0000_F982 = .ok (.sgacqE h2 8 0) := rfl
theorem test_word_sgrel : decode 0x0000_0002_0000_0000_0000_F9C2 = .ok (.sgrel h2 0 8) := rfl
theorem test_word_adrn : decode 0x2000_0000_0080_0000_0000_FF42 = .ok (.adrn h2 ⟨.imm 0, 2, .bf16, .rne, false⟩) := rfl
theorem test_word_nbrun : decode 0x0000_0000_0030_0000_0000_E542 = .ok (.nbrun h2 6) := rfl
theorem test_word_cland : decode 0x2000_0000_0020_0800_0000_E502 = .ok (.cland h2 8 4 0 .bf16) := rfl
theorem test_word_qsub : decode 0x0000_0000_0020_0000_0000_E4C2 = .ok (.qsub h2 4) := rfl
theorem test_word_bar : decode 0x0000_0000_0000_0000_0000_F882 = .ok (.bar h2) := rfl
theorem test_word_gbar : decode 0x0000_0000_0000_0800_0000_F8C2 = .ok (.gbar h2 8) := rfl
theorem test_word_trap_long : decode 0x0000_0A00_0020_0000_0000_E582 = .ok (.trap h2 5 4) := rfl
theorem test_word_vld : decode 0x0000_0010_0020_1400_0000_F482 = .ok (.vld h2 ⟨20, 4, 0x40, false, 0, 0, 0⟩) := rfl
theorem test_word_gld : decode 0x3040_0004_0030_0800_0000_F602 = .ok (.gld h2 ⟨8, 6, 16, true, 0, 0, 3⟩) := rfl
theorem test_word_ldx : decode 0x0000_0000_0020_2800_0000_F6C2 = .ok (.ldx h2 ⟨40, 4, 0, false, 0, 0, 0⟩) := rfl
theorem test_word_wcnt : decode 0x0000_0200_0000_0000_0000_F842 = .ok (.wcnt h2 1 0) := rfl
theorem test_word_mon : decode 0x0000_0000_0080_0A00_0000_F902 = .ok (.mon h2 10 16) := rfl
theorem test_word_mwait : decode 0x0000_0003_8000_0A00_0000_F942 = .ok (.mwait h2 10 14) := rfl
theorem test_word_qput : decode 0x8000_0001_8020_0A00_0000_FD42 = .ok (.qputX2 h2 10 4 6) := rfl
theorem test_word_join : decode 0x0000_0003_0020_0A00_0000_FB82 = .ok (.join h2 10 4 12) := rfl
theorem test_word_sst : decode 0x0980_0006_0040_0F00_0000_F442 = .ok (.sst h2 ⟨15, 8, 0x18, false, 3, 4, 0⟩) := rfl
theorem test_word_fset : decode 0x0000_0000_0070_0000_0000_FBC2 = .ok (.fset h2 14) := rfl
theorem test_word_fence : decode 0x0000_0800_0000_0002_0000_F802 = .ok (.fenceSc h2 4) := rfl
theorem test_word_sld : decode 0x0880_0000_0070_1400_0000_F402 = .ok (.sld h2 ⟨20, 14, 0, false, 1, 4, 0⟩) := rfl
theorem test_word_xrel : decode 0x0000_0000_0C00_0000_0000_FAC2 = .ok (.xrel h2 3) := rfl
/-- A reserved opcode, a literal form that `nop`'s neighbour has not, and a nonzero unused field, by their causes (R83). -/
theorem test_word_reserved : decode (0x7F * 64 + 0xE000) = .error 0x01 ∧ decode 0xE783 = .error 0x01 ∧
    decode 0x0000_0000_0000_0100_0000_F882 = .error 0x02 := ⟨rfl, rfl, rfl⟩
/-- The matrix role refuses a vector instruction by ILLEGAL_INSTR, the copy role by ROLE_VIOLATION (R83). -/
theorem test_roles : decodeFor .matrix 0x8000_0001_C030_0800_0000_EF42 = .error 0x01 ∧
    decodeFor .copy 0x8000_0001_C030_0800_0000_EF42 = .error 0x03 := ⟨rfl, rfl⟩
theorem test_encode_bytes : encodeBytes (.vfadd ⟨2, 6, 2, true⟩ ⟨12, .vec 10, .vec 11, .f32, .rtz, false, false⟩) =
    [0x1A, 0x4E, 0x01, 0x00, 0x00, 0x0C, 0x50, 0xC0, 0x02, 0x00, 0x80, 0x00] := by decide
theorem test_table_word : decodeTableWord 32 0xE000 = some (.nop h0) ∧ decodeTableWord 32 0x1FC0 = none := ⟨rfl, rfl⟩

/-! Ill-formed terms, one for each check of WellFormed. -/

theorem smoke_form : (Instr.sadd h0 ⟨32, 1, .reg 2, .b32, false, false⟩).wf = false ∧
    (Instr.sadd h1 ⟨3, 1, .reg 2, .b32, false, false⟩).wf = false ∧ (Instr.bar h3).wf = false ∧
    (Instr.sadd h2 ⟨3, 1, .lit 5, .b32, false, false⟩).wf = false := by decide
theorem smoke_types : (Instr.sadd h2 ⟨3, 1, .reg 2, .f32, false, false⟩).wf = false ∧
    (Instr.sadd h2 ⟨3, 1, .reg 2, .b32, true, false⟩).wf = false ∧ (Instr.sdiv h2 ⟨3, 1, .reg 2, .i32, true, false⟩).wf = false ∧
    (Instr.sadd h2 ⟨3, 1, .reg 2, .i32, false, true⟩).wf = false := by decide
theorem smoke_pairs : (Instr.swide h2 ⟨3, 2, .reg 4, .x64, false, false⟩).wf = false ∧
    (Instr.smov h2 ⟨2, .reg 3, .x64⟩).wf = false ∧ (Instr.vmov h2 3 (.vec 4) .x64).wf = false ∧ (Instr.fset h2 3).wf = false := by
  decide
theorem smoke_literals : (Instr.sadd h3 ⟨3, 1, .lit 0x1_0000_0000, .b32, false, false⟩).wf = false ∧
    (Instr.vadd h3 ⟨3, .lit 1, .vec 2, .b32, .rne, false, false⟩).wf = false ∧ (Instr.sli h2 ⟨2, .reg 3, .b32⟩).wf = false := by decide
theorem smoke_codes : (Instr.scmp h2 ⟨1, 2, .reg 3, 6, .n32⟩).wf = false ∧ (Instr.sbit h2 ⟨1, 2, .reg 0, 7⟩).wf = false ∧
    (Instr.sbit h2 ⟨1, 2, .reg 3, 1⟩).wf = false ∧ (Instr.pvote h2 1 2 3).wf = false ∧ (Instr.sregRead h2 1 0x14).wf = false ∧
    (Instr.pop h2 ⟨1, 1, .pred 0, 6⟩).wf = false := by decide
theorem smoke_vector : (Instr.vfadd h2 ⟨3, .vec 1, .vec 2, .f32, .rne, true, false⟩).wf = false ∧
    (Instr.vadd h2 ⟨3, .vec 1, .vec 2, .b32, .rtz, false, false⟩).wf = false ∧
    (Instr.vshfl h2 ⟨3, .vec 1, .vec 2, 0, 6⟩).wf = false ∧ (Instr.vscan h2 ⟨3, .vec 1, 1, 0, .b32, .rne, false⟩).wf = false ∧
    (Instr.vred h2 ⟨3, .vec 1, 0, 0, .b32, .rne, true⟩).wf = false ∧ (Instr.vfrsq h2 ⟨3, .vec 1, .rtz⟩).wf = false ∧
    (Instr.vcvt h2 ⟨3, .vec 1, .i8, .e4m3, 0, 0, .rne, false⟩).wf = false ∧
    (Instr.vcvt h2 ⟨3, .vec 1, .f32, .i8, 1, 0, .rne, false⟩).wf = false ∧ (Instr.vid h2 3 (some (.vec 1))).wf = false := by decide
theorem smoke_sorts : (Instr.vsrt h2 ⟨60, 6, 6, 0, .f32, false⟩).wf = false ∧ (Instr.vsrt h2 ⟨61, 3, 6, 0, .f32, false⟩).wf = false ∧
    (Instr.vsrt h2 ⟨2040, 3, 6, 4, .f32, false⟩).wf = false ∧ (Instr.vmrg h2 ⟨6, 0, 4, false, .f32, false⟩).wf = false ∧
    (Instr.vtopk h2 ⟨40, 50, 65, .f32, true⟩).wf = false := by decide
theorem smoke_memory : (Instr.sld h2 ⟨20, 15, 0, false, 0, 0, 0⟩).wf = false ∧ (Instr.sld h2 ⟨64, 14, 0, false, 0, 0, 0⟩).wf = false ∧
    (Instr.sld h2 ⟨20, 14, 0, false, 0, 1, 0⟩).wf = false ∧ (Instr.sst h2 ⟨20, 14, 0, false, 2, 0, 0⟩).wf = false ∧
    (Instr.vld h2 ⟨2, 14, 0, true, 0, 0, 8⟩).wf = false ∧ (Instr.vld h2 ⟨2, 14, 0, false, 0, 0, 6⟩).wf = false ∧
    (Instr.vgth h2 ⟨2, 14, 0, false, 0, 0, 0⟩).wf = false ∧ (Instr.ldx h2 ⟨2, 14, 0, true, 0, 0, 0⟩).wf = false ∧
    (Instr.cpf h2 ⟨2, 14, 0, false, 0, 0, 0⟩).wf = false ∧ (Instr.mst h2 ⟨2, 14, 0, false, 0, 0, 3⟩).wf = false ∧
    (Instr.gld h2 ⟨8, 6, 0, true, 1, 0, 3⟩).wf = false ∧ (Instr.copInvall h2 ⟨0, 2, 0, false, 0, 0, 1⟩).wf = false := by decide
theorem smoke_atomics : (Instr.atm h2 ⟨8, true, false⟩ ⟨2, 14, 0, false, 0, 0, 0⟩).wf = false ∧
    (Instr.atm h2 ⟨7, true, false⟩ ⟨3, 14, 0, false, 0, 0, 0⟩).wf = false ∧
    (Instr.atm h2 ⟨0, false, false⟩ ⟨2, 14, 0, false, 1, 0, 0⟩).wf = false ∧
    (Instr.atm h2 ⟨10, true, false⟩ ⟨2, 14, 0, false, 0, 0, 0⟩).wf = false := by decide
theorem smoke_others : (Instr.fenceSc h2 6).wf = false ∧ (Instr.wcnt h2 0 0).wf = false ∧ (Instr.sgrelInit h2 0 17).wf = false ∧
    (Instr.xacq h2 0).wf = false ∧ (Instr.rgn h2 0).wf = false ∧ (Instr.br h1 2).wf = false ∧ (Instr.trapShort h0 33).wf = false ∧
    (Instr.cland h2 8 4 1 .i32).wf = false ∧ (Instr.accZero h2 (.imm 0) 0).wf = false ∧
    (Instr.accMove h2 (.imm 0) (.ind 1) 1).wf = false ∧ (Instr.mma h2 (.imm 0) false false 0).wf = false ∧
    (Instr.adrn h2 ⟨.imm 0, 2, .i8, .rne, false⟩).wf = false ∧ (Instr.ardvRaw h2 ⟨8, .imm 0, 0, .rtz, false⟩).wf = false ∧
    (Instr.fskip h2 0 0).wf = false ∧ (Instr.laddr h2 21 2 4 (.vec 6)).wf = false ∧ (Instr.pball h2 3 1).wf = false := by decide

/-! The spec's worked examples, one instruction at a time. -/

def ss (a b : W32) : State := base (sregs [(1, a), (2, b)])
def sOut (i : Instr) (s : State) : List W32 := (after i s).cur.holds (.s 3)

/-- The table of results at the edges (R206 to R214). -/
theorem test_sadd_sat : sOut (.sadd h2 ⟨3, 1, .reg 2, .i8, true, false⟩) (ss 0x70 0x20) = [0x7F] := by decide
theorem test_sadd_wrap : sOut (.sadd h2 ⟨3, 1, .reg 2, .i8, false, false⟩) (ss 0x70 0x20) = [0xFFFFFF90] := by decide
theorem test_sdiv_min : sOut (.sdiv h2 ⟨3, 1, .reg 2, .i32, false, false⟩) (ss 0x80000000 0xFFFFFFFF) = [0x80000000] := by decide
theorem test_sdiv_rem_min : sOut (.sdiv h2 ⟨3, 1, .reg 2, .i32, false, true⟩) (ss 0x80000000 0xFFFFFFFF) = [0] := by decide
theorem test_sdiv_zero : sOut (.sdiv h2 ⟨3, 1, .reg 2, .n32, false, false⟩) (ss 7 0) = [0xFFFFFFFF] ∧
    sOut (.sdiv h2 ⟨3, 1, .reg 2, .n32, false, true⟩) (ss 7 0) = [7] := by decide
theorem test_sshr_long : sOut (.sshr h3 ⟨3, 1, .lit 40, .i32, false, false⟩) (ss 0x80000000 0) = [0xFFFFFFFF] := by decide
theorem test_sshl_long : sOut (.sshl h3 ⟨3, 1, .lit 32, .b32, false, false⟩) (ss 1 0) = [0] := by decide
theorem test_smul_hi_unsigned : sOut (.smul h2 ⟨3, 1, .reg 2, .n32, false, true⟩) (ss 0xFFFFFFFF 0xFFFFFFFF) = [0xFFFFFFFE] := by decide
theorem test_smul_hi_signed : sOut (.smul h2 ⟨3, 1, .reg 2, .i32, false, true⟩) (ss 0xFFFFFFFF 0xFFFFFFFF) = [0] := by decide
theorem test_sbfe_signed : sOut (.sbfe h3 ⟨3, 1, .lit 0x0408, .i32, false, false⟩) (ss 0xF00 0) = [0xFFFFFFFF] := by decide
theorem test_sbit_clz : sOut (.sbit h2 ⟨3, 1, .reg 0, 1⟩) (ss 0 0) = [0x20] := by decide
theorem test_sbit_rank : sOut (.sbit h3 ⟨3, 1, .lit 5, 6⟩) (ss 0xB6 0) = [3] := by decide
theorem test_swide_signed :
    let u := after (.swide h2 ⟨4, 6, .reg 8, .i32, false, false⟩) (base (sregs [(6, 0x10), (7, 1), (8, 0xFFFFFFF0)]))
    u.cur.holds (.s 4) = [0] ∧ u.cur.holds (.s 5) = [1] := by decide
/-- A warp's result is pending until its latency has passed (R188). -/
theorem test_latency : let u := after (.sadd h2 ⟨3, 1, .reg 2, .b32, false, false⟩) (ss 1 2)
    u.cur.sget 3 = 0 ∧ (u.cur.land 1001).sget 3 = 0 ∧ (u.cur.land 1002).sget 3 = 3 := by decide

/-- The conversions of 300, 500 and 2^-10 (R58, R61). -/
theorem test_convert_300 : convert .f32 .e4m3 .rne false 0x43960000 = (0x79, 0x10) ∧
    convert .f32 .e4m3 .rup false 0x43960000 = (0x7A, 0x10) ∧ convert .f32 .e5m2 .rne false 0x43960000 = (0x5D, 0x10) ∧
    convert .f32 .bf16 .rne false 0x43960000 = (0x4396, 0) := by decide
theorem test_convert_500 : convert .f32 .e4m3 .rne false 0x43FA0000 = (0x7F, 0x14) ∧
    convert .f32 .e4m3 .rne true 0x43FA0000 = (0x7E, 0x34) ∧ convert .f32 .e4m3 .rtz false 0x43FA0000 = (0x7E, 0x14) := by decide
theorem test_convert_tiny : convert .f32 .e4m3 .rne false 0x3A800000 = (0, 0x18) ∧
    convert .f32 .e4m3 .rup false 0x3A800000 = (1, 0x18) := by decide
/-- Two lanes converted into byte 2 (R248): the bytes outside the part are kept, and the flags of both are collected. -/
theorem test_vcvt_part :
    let s := { base { warp with v := [(2, row [0x43FA0000, 0x43960000]), (9, row [0x11223344, 0x11223344])] } with
      issue := { tid := 16, run := 3, pc := 0x10000, ilen := 12 } }
    let u := (after (.vcvt h2 ⟨9, .vec 2, .f32, .e4m3, 0, 2, .rne, true⟩) s).cur.settled
    u.vlane 9 0 = 0x117E3344 ∧ u.vlane 9 1 = 0x11793344 ∧ u.fpflags = 0x34 := by decide
/-- The four values reduced and scanned: the reduction is 1.0 with NX, and the last scanned lane 0 (R233, R234). -/
def four : State := { base { warp with v := [(4, row [0x4B800000, 0x3F800000, 0x3F800000, 0xCB800000])], p := [(3, 0xF)] } with
  issue := { tid := 16, run := BitVec.allOnes 64, pc := 0x10000, ilen := 12 } }
theorem test_vred_tree : let u := (after (.vred ⟨2, 0, 3, false⟩ ⟨5, .vec 4, 6, 0, .f32, .rne, false⟩) four).cur.settled
    u.vlane 5 0 = 0x3F800000 ∧ u.vlane 5 3 = 0x3F800000 ∧ u.vlane 5 4 = 0 ∧ u.fpflags = 0x10 := by decide
theorem test_vscan_order : let u := (after (.vscan ⟨2, 0, 3, false⟩ ⟨6, .vec 4, 6, 0, .f32, .rne, false⟩) four).cur.settled
    u.vlane 6 0 = 0x4B800000 ∧ u.vlane 6 3 = 0 := by decide
/-- Ties and NaN in a descending top-4 (R336, R343). -/
theorem test_vtopk :
    let s := { base { warp with
      v := [(40, row [0x41100000, 0x40A00000, 0x40A00000, 0x7FC00000]), (41, row [12, 3, 40, 0xFFFFFFFF]),
            (50, row [0x40E00000, 0x40A00000, 0x7FC00000, 0x41100000]), (51, row [100, 20, 101, 8])], p := [(1, 0xF)] } with
      issue := { tid := 16, run := BitVec.allOnes 64, pc := 0x10000, ilen := 12 } }
    let u := (after (.vtopk ⟨2, 0, 1, false⟩ ⟨40, 50, 4, .f32, true⟩) s).cur.settled
    (List.range 4).map (fun l => (u.vlane 40 l, u.vlane 41 l)) =
      [(0x41100000, 8), (0x41100000, 12), (0x40E00000, 100), (0x40A00000, 3)] := by decide

/-- The divergent branch: lanes 0 to 31 go to 0x11C and the rest to 0x10C (R219). -/
theorem test_br_diverges :
    let s := { base { warp with p := [(1, 0xFFFFFFFF)] } with
      issue := { tid := 16, run := 0x0FFF_FFFF_FFFF_FFFF, pc := 0x100, ilen := 12 } }
    let u := (after (.br ⟨1, 0, 1, false⟩ 0x1C) s).cur
    ((u.lanes.map Lane.pc).drop 31).take 2 = [0x11C, 0x10C] ∧ (u.lanes.getD 60 {}).pc = 0x10000 := by decide
/-- The assertion: lanes 5 and 9 trap with cause 0x85 and the scalar pair as address, the others move on (R422, R423). -/
def asserting : State :=
  { withTask { task1 with flags := 1 } { warp with p := [(1, 0x220)], s := [(4, 0x1234)] } with
    ctxs := [(1, { cores := [0], hpc := 0x33C : Ctx })], issue := { tid := 16, run := BitVec.allOnes 64, pc := 0x314, ilen := 12 } }
theorem test_trap_parks : let u := (after (.trap ⟨2, 0, 1, false⟩ 5 4) asserting).cur
    ((u.lanes.getD 5 {}).st, (u.lanes.getD 5 {}).frec) = (.parked, ⟨0x85, 0x1234, 0x314, 12, 1000⟩) ∧
    ((u.lanes.getD 6 {}).st, (u.lanes.getD 6 {}).pc) = (.active, 0x320) := by decide
/-- The sub-warp enters the handler at HPC, and `tret.skip` returns it past the trap (R419, R423). -/
theorem test_handler_entry : let u := (after (.handlerEntry 0 0) (after (.trap ⟨2, 0, 1, false⟩ 5 4) asserting)).cur
    ((u.lanes.getD 9 {}).st, (u.lanes.getD 9 {}).pc, (u.lanes.getD 9 {}).inHandler) = (.active, 0x33C, true) := by decide

/-- The walk to a 32 MiB page (R285 to R287), and the store's physical address. -/
def walkMem : List Host.Cell :=
  bytesSet (bytesSet (bytesSet (bytesSet [] 0x10002018 8 0x0000001206000007) 0x10001010 8 0x10002001) 0x10000008 8 0x10001001)
    (8 * 0x2A7) 8 0x10000001
theorem test_walk : (match walk { base warp with mem := walkMem, ctxs := [(0x2A7, {})] } 0x2A7 0x0000080806123456 with
    | .leaf e => (e.pa, e.bits, e.w, e.wpm)
    | .bad .. => (0, 0, false, true)) = (0x1206000000, 25, true, false) := by decide
/-- The identifier of index 457 of the three-level launch (R26). -/
theorem test_identifier : wordOfIndex { widths := [6, 4, 8], box := [40, 3, 5] } 457 = 0xC91 ∧
    wordOfIndex { widths := [6, 4, 8], box := [40, 3, 5] } 599 = 0x10A7 := by decide
/-- The headers of a LAUNCHX and a LAUNCH that `qput.x2` writes (R101, R114). -/
theorem test_packet_header : packetHeader [0x02, 0x00] 0x2A7 0x10014 = 0xA5E9001402A70002 ∧
    packetHeader [0x01, 0x05] 0x2A7 0x10013 = 0xA5E8001302A70501 := by decide
/-- FP32 sums of landing packets (R56, R363). -/
theorem test_landing_sums : (fadd .rne 0x3F800000 0x33800000).1 = 0x3F800000 ∧ (fadd .rne 0x7F7FFFFF 0x7F7FFFFF).1 = 0x7F800000 ∧
    (fadd .rne 0x7FC00001 0x3F800000).1 = 0x7FC00000 := by decide
/-- The BFP-4 elements of the decoded load (R54, R278). -/
theorem test_bfp4 : (List.range 3).map (fun i => rne32 (bfpVal 4 0x80 (bfpMant 4 (0x087F / 2 ^ (4 * i)) 0))) =
    [0xBF000000, 0x40600000, 0xC0800000] := by decide

/-! The step and the load. -/

/-- Placed from reset, `nop` is what the very next step runs: the run moves on by its four bytes. -/
theorem test_load_runs : (match step (State.reset.withFetchWord 32 0xE000) with
    | .next u => ((u.thread 16).lanes.getD 0 {}).pc
    | _ => 0) = 0x10004 := by decide

/-! WITNESSES: for each statement, states and operands that meet its hypotheses together; for a statement of several clauses, for
each clause at the ends of its range. -/

/-- The bytes of a word at an address. -/
def withBytes (a n v : Nat) (s : State) : State := { s with mem := bytesSet s.mem a n v }
/-- A table that maps the first 32 MiB of context 1 onto themselves. -/
def pages : List Host.Cell :=
  [(8, 0x01), (9, 0x10), (0x1000, 0x01), (0x1001, 0x20), (0x2000, 0x01), (0x2001, 0x30), (0x3000, 0x0F)]
def paged (t : Thread) : State := { base t with mem := pages }
def one : State := base warp
/-- A word at the PC, and unit 0 of core 0 about to issue. -/
def fetching (n : Nat) : State := withBytes 0x10000 20 n { one with agenda := [⟨0, .issue 0 0⟩] }
def landed_ (n : Nat) : State := clean 16 ({ fetching n with agenda := [] }.onThread 16 fun t => t.land 1000)
def fetched (n : Nat) : State := (fetch 0 16 0x10000 ((landed_ n).setThread 16 ((landed_ n).thread 16).choose.1)).1

theorem wit_DecodeEncode : (Instr.sadd ⟨1, 2, 7, false⟩ ⟨3, 1, .lit 0x1234, .b32, false, false⟩).wf = true ∧
    encode (.sadd ⟨1, 2, 7, false⟩ ⟨3, 1, .lit 0x1234, .b32, false, false⟩) = some 0x0000_0000_0000_1234_0046_E049 := by decide
theorem wit_MemoryStaysCanonical : Memory.wf 0 (fetching 0xE000).mem = true ∧ ∃ u, step (fetching 0xE000) = .next u :=
  ⟨by decide, _, rfl⟩
/-- A `sadd` that issues, and a word that the decoder rejects. -/
theorem wit_StepRunsDecoded_issue (n : Nat) (hn : n = 0x1046_E048 ∨ n = 0xE783) :
    TurnsTo (fetching n) { fetching n with agenda := [] } 0 0 ∧
    (let s0 := { fetching n with agenda := [] }
     unitTid s0 0 0 = some 16 ∧ issuable s0 0 16 = true ∧ picked s0 0 0 = true ∧
     (let s1 := clean 16 (s0.onThread 16 fun t => t.land s0.time)
      let r := (s1.thread 16).choose
      (fetch 0 16 (r.1.lanes.getD (r.2.headD 0) {}).pc.toNat (s1.setThread 16 r.1)).2 = .inl n)) := by
  rcases hn with rfl | rfl <;> exact ⟨.inl ⟨[], rfl, rfl⟩, by decide⟩
/-- A unit that is ready while the agenda waits and with none, and a turn that waits with no unit ready. -/
theorem wit_StepRunsDecoded_ready (l : List Turn) (h : l = [] ∨ l = [⟨1, .event (.leaseExpiry 0 0)⟩]) :
    let s := { fetching 0xE000 with agenda := l }
    TurnsTo s s 0 0 ∧ unitTid s 0 0 = some 16 ∧ issuable s 0 16 = true ∧ picked s 0 0 = true := by
  rcases h with rfl | rfl
  · exact ⟨.inr ⟨.inl rfl, by decide, rfl⟩, by decide, by decide, by decide⟩
  · exact ⟨.inr ⟨.inr ⟨0, _, _, rfl⟩, by decide, rfl⟩, by decide, by decide, by decide⟩
theorem wit_StepRunsDecoded_waits : nextUnit { one with cores := [], agenda := [⟨1, .issue 0 0⟩] } = none := by decide
theorem wit_StepRunsDecoded_decoded :
    let h := headOf 0x1046_E048
    let i := Instr.sadd ⟨0, 2, 7, false⟩ ⟨3, 1, .reg 2, .b32, false, false⟩
    let z := fetched 0x1046_E048
    let ready := { z with issue := { core := 0, unit := 0, tid := 16, run := BitVec.allOnes 64, pc := 0x10000, ilen := 4 : Issue } }
    decodeFor (roleOf (z.taskT 16).team 0) 0x1046_E048 = .ok i ∧ interlocked (z.thread 16) (i.usesOf false h) = false ∧
    mayIssue z 0 0 1 = true ∧ issueFault (z.thread 16) false (i.usesOf false h) z.time = none ∧
    outsideRegion (z.thread 16) (i.usesOf false h) = false ∧ (∃ u, exec i ready = .next u) ∧ decodeFor .any 0xE783 = .error 0x01 :=
  ⟨rfl, by decide, by decide, by decide, by decide, ⟨_, rfl⟩, rfl⟩
theorem wit_StepRunsDecoded_event : ({ one with agenda := [⟨0, .event (.leaseExpiry 0 0)⟩] } : State).agenda =
    [⟨0, .event (.leaseExpiry 0 0)⟩] ∧ (Instr.leaseExpiry 0 0).raw = none := ⟨rfl, rfl⟩
theorem wit_FetchReadsTheBytes :
    let s := fetching 0xE000
    (∃ s', translate 0 (s.taskT 16).cid 0x10000 .fetch s = (s', .inl 0x10000) ∧ homeGone s' 0x10000 = false ∧
      poisonedTo s' 16 0x10000 4 = false ∧ l1Find (s'.core 0) (lineOf 0x10000) (viewTag s 1) s.time = none) ∧
    (∃ z, fetchWord 0 16 0x10000 s = (z, .inl 0xE000) ∧ 0xE000 % 4 = 0) := ⟨⟨_, rfl, rfl, rfl, rfl⟩, _, rfl, rfl⟩
theorem wit_FetchReadsTheBytes_held : let l : L1Line := ⟨0x200, 1001, List.replicate 128 7, none⟩
    let s := { one with cores := [(0, { core0 with l1 := [l] })] }
    landsAt s 0x10000 = false ∧ l1Find (s.core 0) (lineOf 0x10000) (viewTag s 1) s.time = some l ∧
    landsAt { s with lwin := [(0, ⟨0x10000, 0x20000, true, 1⟩)] } 0x10000 = true := by decide
theorem wit_FetchReadsTheBytes_lengths :
    (∃ z0 z1 z2, fetchWord 0 16 0x10000 (fetching 0xE001) = (z0, .inl 0xE001) ∧ fetchWord 0 16 0x10004 z0 = (z1, .inl 0) ∧
      fetchWord 0 16 0x10008 z1 = (z2, .inl 0)) ∧
    (∃ z0 z1 z2, fetchWord 0 16 0x10000 (fetching 0xE302) = (z0, .inl 0xE302) ∧ fetchWord 0 16 0x10004 z0 = (z1, .inl 0) ∧
      fetchWord 0 16 0x10008 z1 = (z2, .inl 0)) ∧
    (∃ z0 z1 z2 z3 z4, fetchWord 0 16 0x10000 (fetching 0xE003) = (z0, .inl 0xE003) ∧ fetchWord 0 16 0x10004 z0 = (z1, .inl 0) ∧
      fetchWord 0 16 0x10008 z1 = (z2, .inl 0) ∧ fetchWord 0 16 0x1000C z2 = (z3, .inl 0) ∧
      fetchWord 0 16 0x10010 z3 = (z4, .inl 0)) :=
  ⟨⟨_, _, _, rfl, rfl, rfl⟩, ⟨_, _, _, rfl, rfl, rfl⟩, _, _, _, _, _, rfl, rfl, rfl, rfl, rfl⟩
theorem wit_DecodedWellFormed : decode 0x1046_E048 = .ok (.sadd ⟨0, 2, 7, false⟩ ⟨3, 1, .reg 2, .b32, false, false⟩) := rfl
/-- A `sadd` meets every hypothesis of the three frames. -/
theorem wit_Frames :
    let i := Instr.sadd h2 ⟨3, 1, .reg 2, .b32, false, false⟩
    mayWriteMemory i = false ∧ (∃ u, exec i one = .next u) ∧ i.wf = true ∧ i.raw.isSome = true ∧ one.cur.wait.retries = true ∧
    (∀ k, k < 64 → k ≠ 3 → RegName.s k ∉ (i.usesOf false h2).writes) ∧ mayMoveBlocks i = false ∧ mayServeOthers i = false ∧
    writesSpecials i = false ∧ mayRaiseFlags i = false ∧ readsTime i = false ∧ movesMonitor i = false ∧ entersFlight i = false ∧
    entersEngine i = false := ⟨rfl, ⟨_, rfl⟩, by decide, rfl, rfl, by decide, rfl, rfl, rfl, rfl, rfl, rfl, rfl, rfl⟩
theorem wit_EmptyExec : execMask ⟨2, 0, 1, false⟩ one = 0 ∧ (Instr.tret ⟨2, 0, 1, false⟩).raw.isSome = true := by decide
theorem wit_PredicateSeven : (6 : Pred) ≠ 7 ∧ Memory.wf 0 ({ warp with p := [(1, 5)] } : Thread).p = true := by decide
theorem wit_Nop : 0xE000 / 2 ^ 6 % 2 ^ 7 = 0 ∧ one.cur.lanes[63]? = some { pc := 0x10000 } := by decide

/-! Scalar instructions. -/

theorem wit_ScalarArithmetic : execMask h2 (ss 0x7F 0xFFFFFF80) ≠ 0 ∧ intTypes.contains .i8 = true ∧
    ReadsAs .i8 ((ss 0x7F 0xFFFFFF80).cur.sget 1) 127 ∧ ReadsAs .i8 ((SSrc.reg 2).v32 (ss 0x7F 0xFFFFFF80).cur) (-128) :=
  ⟨by decide, rfl, ⟨by decide, by decide, 0, by decide⟩, by decide, by decide, 2 ^ 24, by decide⟩
theorem wit_ScalarDivision : orderTys.contains .i32 = true ∧
    ReadsAs .i32 ((ss 0x80000000 0).cur.sget 1) (intMin .i32) ∧ ReadsAs .i32 ((SSrc.reg 2).v32 (ss 0x80000000 0).cur) 0 ∧
    ReadsAs .i32 ((SSrc.reg 2).v32 (ss 0x80000000 0xFFFFFFFF).cur) (-1) :=
  ⟨rfl, ⟨by decide, by decide, 1, by decide⟩, ⟨by decide, by decide, 0, by decide⟩, by decide, by decide, 1, by decide⟩
theorem wit_BitOperations : execMask h2 (ss 0 31) ≠ 0 ∧ (ss 0 31).cur.sget 1 = 0 ∧
    (∀ f : Nat, f ∈ [1, 2] → ∃ k, k < 32 ∧ ((ss 0x80000000 0).cur.sget 1).getLsbD k = true ∧
      (∀ i, k < i → i < 32 → ((ss 0x80000000 0).cur.sget 1).getLsbD i = false) ∧
      (∀ i, i < k → ((ss 0x80000000 0).cur.sget 1).getLsbD i = false)) :=
  ⟨by decide, by decide, fun _ _ => ⟨31, by decide, by decide, fun _ a b => absurd a (by omega), by decide⟩⟩
theorem wit_ScalarCompareAndMove : execMask h2 (ss 1 2) ≠ 0 ∧ orderTys.contains .n8 = true ∧
    ReadsAs .n8 ((ss 0xFF 0).cur.sget 1) 255 ∧ ReadsAs .n8 ((SSrc.reg 2).v32 (ss 0xFF 0).cur) 0 ∧ (5 : BitVec 3).toNat < 6 :=
  ⟨by decide, rfl, ⟨by decide, by decide, 0, by decide⟩, ⟨by decide, by decide, 0, by decide⟩, by decide⟩

/-! Vector instructions: lanes that hold the corners. -/

/-- v1, v2 and v3 hold the lists, and every lane runs. -/
def vs (a b c : List W32) : State :=
  { base { warp with v := [(1, row a), (2, row b), (3, row c)] } with issue := { tid := 16, run := BitVec.allOnes 64, pc := 0x10000, ilen := 12 } }
/-- NaN, the infinities, the zeros, and finite numbers against one another. -/
def corners : State :=
  vs [0x7F800001, 0x7F800000, 0x7F800000, 0x3F800000, 0x3F800000, 0x80000000, 0x7F800000, 0x7F7FFFFF, 0x3F800000, 0xFFFFFFFF]
     [0x3F800000, 0xFF800000, 0x3F800000, 0xFF800000, 0x3F800000, 0x7F800000, 0x7F800000, 0x00000001, 0x00000000, 0x7FC00000]
     [0x3F800000, 0x7FC00000]
theorem wit_VectorMatchesScalar : (⟨1, .vec 1, .vec 2, .i8, .rne, true, false⟩ : VBin).ty = (⟨3, 1, .reg 2, .i8, true, false⟩ : SBin).ty ∧
    (⟨1, .vec 1, .vec 2, .i8, .rne, true, false⟩ : VBin).ty ≠ .x64 ∧ execMask h2 corners ≠ 0 ∧
    (⟨1, .vec 1, .vec 2, 6⟩ : VBitF).f = (⟨3, 1, .reg 2, 6⟩ : SBit).f := by decide
theorem reads_n32 (w : W32) : ReadsAs .n32 w w.toNat :=
  ⟨by show (0 : Int) ≤ _; omega, by show _ ≤ (4294967295 : Int); omega, 0, by simp⟩
theorem reads_i32 (w : W32) : ReadsAs .i32 w w.toInt := by
  have h := BitVec.toInt_eq_toNat_cond w
  refine ⟨?_, ?_, if 2 * w.toNat < 2 ^ 32 then 0 else 1, ?_⟩
  · show (-2147483648 : Int) ≤ _; split at h <;> omega
  · show _ ≤ (2147483647 : Int); split at h <;> omega
  · rw [h]; show _ = _ + _ * (2 ^ 32 : Int); split <;> simp
theorem wit_VectorIntegerResults : execMask h2 corners ≠ 0 ∧ orderTys.contains .i32 = true ∧ [Ty.b32, .i32, .n32].contains .n32 = true ∧
    (∀ l, ReadsAs .n32 ((VSrc.vec 1).at corners.cur l) (((VSrc.vec 1).at corners.cur l).toNat)) ∧
    (∀ l, ReadsAs .i32 ((VSrc.vec 2).at corners.cur l) (((VSrc.vec 2).at corners.cur l).toInt)) ∧ (5 : BitVec 3).toNat < 6 :=
  ⟨by decide, rfl, rfl, fun _ => reads_n32 _, fun _ => reads_i32 _, by decide⟩
theorem wit_FloatArithmetic : let a := (VSrc.vec 1).at corners.cur
    let b := (VSrc.vec 2).at corners.cur
    let c := (VSrc.vec 3).at corners.cur
    IsNan32 (a 0) ∧ (IsInf32 (a 1) ∧ IsInf32 (b 1) ∧ a 1 ≠ b 1) ∧ (IsInf32 (a 2) ∧ ¬ IsNan32 (b 2) ∧ ¬ IsInf32 (b 2)) ∧
    (IsInf32 (b 3) ∧ ¬ IsNan32 (a 3) ∧ ¬ IsInf32 (a 3)) ∧ (a 4 = b 4 ∧ ¬ IsNan32 (a 4) ∧ ¬ IsInf32 (a 4) ∧ ¬ IsZero32 (a 4)) ∧
    (IsZero32 (a 5) ∧ IsInf32 (b 5)) ∧ (IsInf32 (a 6) ∧ IsInf32 (b 6) ∧ a 6 = b 6 ∧ ¬ IsZero32 (a 6) ∧ ¬ IsZero32 (b 6)) ∧
    (IsFin32 (a 7) ∧ IsFin32 (b 7) ∧ IsFin32 (c 7)) ∧ (IsZero32 (b 8) ∧ ¬ IsNan32 (a 8) ∧ ¬ IsInf32 (a 8)) ∧
    IsNan32 (b 9) ∧ IsNan32 (c 1) := by
  unfold IsNan32 IsInf32 IsZero32 IsFin32; decide
/-- Rounding: the largest finite number and half its last place more, which overflows, to nearest or toward +∞, and by less does
not; half the least subnormal, which is tiny; sums of 0. -/
theorem wit_RoundedTo : let m := numF32.mag numF32.top
    numF32.Past .rne false (2 * m + 2 ^ 253) 2 ∧ ¬ numF32.Past .rne false (2 * m + 2 ^ 253 - 1) 2 ∧ numF32.Past .rup false (m + 1) 1 ∧
    ¬ numF32.Past .rdn false (m + 1) 1 ∧ numF32.Tiny .rne true 1 2 ∧ ¬ numF32.Tiny .rtz false (2 ^ 23) 1 ∧
    val32 0x3F800000 + val32 0xBF800000 = 0 ∧ val32 0x3F800000 + val32 0x3F800000 ≠ 0 ∧ (0x80000000 : W32) == 0x80000000 := by
  unfold NumFmt.Past NumFmt.Tiny; decide +kernel
/-- A product of infinities with an addend: opposite, the same, finite; finite factors with an infinite addend. -/
theorem wit_FloatArithmetic_fma : ¬ IsZero32 0x7F800000 ∧ ¬ IsNan32 0x7F800000 ∧
    (((0x7F800000 : W32) ^^^ 0xBF800000) &&& 0x80000000) ||| 0x7F800000 = 0xFF800000 ∧ IsInf32 0xFF800000 ∧ IsFin32 0x3F800000 ∧
    val32 0x3F800000 * val32 0x3F800000 + val32 0xBF800000 * 2 ^ 149 = 0 := by
  unfold IsNan32 IsInf32 IsZero32 IsFin32; decide
theorem wit_FloatCompareAndClassify : let a := (VSrc.vec 1).at corners.cur
    let b := (VSrc.vec 2).at corners.cur
    (IsNan32 (a 9) ∧ IsNan32 (b 9)) ∧ (IsNan32 (a 0) ∧ ¬ IsNan32 (b 0)) ∧ (¬ IsNan32 (a 4) ∧ ¬ IsNan32 (b 4)) ∧
    (execMask h2 corners).getLsbD 63 = true := by unfold IsNan32; decide
/-- A lane for each special case of a special function, at the ends of its range. -/
def specials : List W32 := [0, 0x80000000, 0x7F800000, 0xFF800000, 0x40000000, 0x80000001, 0x40800000, 0x43000000, 0x7F7FFFFF,
  0xC3160000, 0xFF7FFFFF, 0x40400000, 0x41000000, 0x41200000, 0xC1200000, 0xC0400000, 0x3F000000, 0x3FC00000, 0x7FC00000]
theorem wit_SpecialFunctions : execMask h2 (vs specials [] []) ≠ 0 ∧
    (List.range 18).map (fun l => (VSrc.vec 1).at (vs specials [] []).cur l) = specials.take 18 ∧
    val32 0x7F7FFFFF = (2 ^ 127 * (2 - 1) * 2 - 2 ^ 104 : Int) * 2 ^ 149 ∧ val32 0xBF000000 = (2 * (-1) + 1) * 2 ^ 148 ∧ IsFin32 0x80000000 ∧
    IsNan32 ((VSrc.vec 1).at (vs specials [] []).cur 18) ∧ IsZero32 0x80000000 ∧ IsInf32 0xFF800000 := by
  unfold IsNan32 IsZero32 IsInf32 IsFin32; decide
theorem wit_ConversionsAndDotProducts : (Instr.vcvt h2 ⟨9, .vec 2, .f32, .e4m3, 0, 3, .rne, true⟩).wf = true ∧
    (Instr.vcvt h2 ⟨9, .vec 2, .e5m2, .f32, 3, 0, .rne, false⟩).wf = true ∧ Ty.e4m3.isSmallFp = true ∧ Ty.f32.isSmallFp = false ∧
    (IsNan32 0x7F800001 ∧ IsInf32 0xFF800000 ∧ IsZero32 0x80000000 ∧ 0x4B000000 ≤ (0x4B000000 : W32).toNat % 2 ^ 31) ∧
    (VSrc.vec 3).at (vs [] [] []).cur 5 = 0 ∧ ReadsAs .i32 ((VSrc.vec 3).at (vs [] [] []).cur 5) 0 ∧
    ReadsAs .n32 ((VSrc.vec 3).at (vs [] [] []).cur 5) 0 := by
  refine ⟨by decide, by decide, rfl, rfl, by unfold IsNan32 IsInf32 IsZero32; decide, by decide, ⟨by decide, by decide, 0, by decide⟩,
    by decide, by decide, 0, by decide⟩
/-- What a part may hold: an integer, NaNs, infinities, zeros, and numbers, whose integers fit or do not. -/
theorem wit_Conversions : (ReadsAs .i32 (BitVec.ofNat 32 0xFFFFFFFF) (-1) ∧ ReadsAs .n32 (BitVec.ofNat 32 0) 0) ∧
    (numE4m3.isNan 0x7F = true ∧ numE5m2.isInf 0xFC = true ∧ numF32.isInf 0x7F800000 = true ∧ numE4m3.inf = none) ∧
    (numBf16.abs 0x8000 = 0 ∧ 0 < numF32.abs 1 ∧ numF32.abs 0x7F7FFFFF ≤ numF32.top) ∧
    RoundsToInt .rne false (numF32.mag 0x40200000) (2 ^ numF32.low) 2 ∧ RoundsToInt .rup false (numF32.mag 0x40200000) (2 ^ numF32.low) 3 ∧
    RoundsToInt .rdn true (numF32.mag 0xCF000000) (2 ^ numF32.low) (2 ^ 31) ∧ RoundsToInt .rtz true (numF32.mag 0xCF000001) (2 ^ numF32.low) (2 ^ 31 + 256) ∧
    -(2 ^ 31 : Int) = intMin .i32 ∧ -(2 ^ 31 + 256 : Int) < intMin .i32 ∧ intMax .n32 < 2 ^ 32 := by
  refine ⟨⟨⟨by decide, by decide, 1, by decide⟩, by decide, by decide, 0, by decide⟩, ?_⟩
  unfold RoundsToInt; decide +kernel
theorem wit_IntegersAndScaling : IsFin32 0x40200000 ∧ RoundsToInt .rne (numF32.neg 0x40200000) (numF32.mag 0x40200000) (2 ^ 149) 2 ∧
    (0x80000000 : W32).toInt = -2147483648 ∧ (-(0x80000000 : W32).toInt).toNat = 2 ^ 31 ∧ (0x7F : W32).toInt.toNat = 127 := by
  unfold IsFin32 RoundsToInt; decide +kernel
/-- BF16 products: 0 by infinity, a NaN, infinities of both signs and of one, and none. -/
theorem wit_DotProducts : let f := numBf16
    ((f.abs 0 == 0 && f.isInf 0x7F80) = true) ∧ f.isNan 0x7FC1 = true ∧ (f.isInf 0xFF80 = true ∧ (f.neg 0xFF80 != f.neg 0x3F80) = true) ∧
    numF32.isInf 0x7F800000 = true ∧ numF32.isNan 0x7F800001 = true ∧ f.val 0x3F80 * f.val 0xBF80 + f.val 0x3F80 * f.val 0x3F80 = 0 ∧
    f.val 0x3F80 * f.val 0x3F80 ≠ 0 ∧ (0x80000000 : W32).getLsbD 31 = true := by decide
theorem wit_PredicatesAndLanes : execMask h2 corners ≠ 0 ∧ (2 : BitVec 2).toNat < 3 ∧ (5 : BitVec 3).toNat < 6 := by decide
/-- The first lane of an exclusive scan, and the second, which follows one value. -/
theorem wit_ScansAndReductions : let e := execMask h2 corners
    let among := fun (keep : Nat → Bool) => ((List.range 64).filter fun j => e.getLsbD j && keep j).map ((VSrc.vec 1).at corners.cur)
    e ≠ 0 ∧ (0 : BitVec 3).toNat < 6 ∧ e.getLsbD 63 = true ∧ among (fun j => j / 64 == 0 / 64 && decide (j < 0)) = [] ∧
    among (fun j => j / 64 == 1 / 64 && decide (j < 1)) = [0x7F800001] := by decide
theorem wit_SortingInstructions : execMask h2 corners ≠ 0 ∧ (63 : Nat) < 64 ∧ (15 : Nat) < 2 ^ 4 ∧ (64 : BitVec 12).toNat ≤ 64 := by
  decide
theorem wit_SortOrder : before .f32 true (2, 0) (1, 5) = true ∧ before .f32 true (1, 5) (1, 6) = true ∧
    (2 : W32).toInt ≠ (1 : W32).toInt ∧ (0x7F800000 : W32).toNat % 2 ^ 31 ≤ 0x7F800000 ∧
    0x7F800000 < (0xFF800001 : W32).toNat % 2 ^ 31 := by decide

/-! Control, traps, special registers. -/

/-- A task with a handler; its lanes fault. -/
def handled (k : Task) (t : Thread) : State := { withTask { k with flags := 1 } t with ctxs := [(1, { cores := [0], hpc := 0x33C : Ctx })] }
theorem wit_HandledHere : HandledHere (handled task1 warp) (execMask h2 (handled task1 warp)) ∧ execMask h2 (handled task1 warp) ≠ 0 :=
  ⟨⟨by decide, by decide, by decide, by decide, by decide⟩, by decide⟩
/-- The highest canonical aligned target of a branch, a pair that holds one, and a target outside. -/
theorem wit_ControlTransfers :
    (let target := { one with issue := { one.issue with pc := 0x000F_FFFF_FFFF_0000 } }.issue.pc + (0xFFFC : W32).signExtend 64
     target.toNat < 2 ^ 52 ∧ target.toNat % 4 = 0 ∧ target.toNat = 2 ^ 52 - 4) ∧
    (((base (sregs [(4, 0xFFFFFFFC), (5, 0x000FFFFF)])).cur.sget2 4).toNat = 2 ^ 52 - 4) ∧
    (∀ l, l < 64 → bit (execMask h2 one) l = true → (one.cur.vlane2 8 l).toNat < 2 ^ 52 ∧ (one.cur.vlane2 8 l).toNat % 4 = 0) := by decide
theorem wit_NoncanonicalTargetParks :
    let s := { handled task1 warp with issue := { one.issue with pc := 0x000F_FFFF_FFFF_0000 } }
    execMask h2 s ≠ 0 ∧ HandledHere s (execMask h2 s) ∧ 2 ^ 52 ≤ (s.issue.pc + (0x10000 : W32).signExtend 64).toNat :=
  ⟨by decide, ⟨by decide, by decide, by decide, by decide, by decide⟩, by decide⟩
theorem wit_ReconvergeAndYield : execMask h2 one ≠ 0 ∧ isSeq one.issue.tid = false ∧ one.curTask.ending = false ∧
    execMask h2 (context warp) ≠ 0 ∧ isSeq (context warp).issue.tid = true := by decide
theorem wit_UnhandledAndNestedFaults :
    let s := one
    let n := handled task1 { warp with lanes := { pc := 0x10000, inHandler := true, frec := ⟨0x85, 1, 2, 12, 0⟩ } :: warp.lanes.tail }
    (isSeq s.issue.tid = false ∧ isSpec s (taskOf s.issue.tid) = false ∧ (∀ l, l < 64 → bit (execMask h2 s) l = true → l < s.cur.lanes.length) ∧
      (∀ l, l < 64 → bit (execMask h2 s) l = true → (s.cur.lanes.getD l {}).inHandler = false) ∧
      hasHandler s (taskOf s.issue.tid) = false ∧ s.curTask.ending = false ∧ s.curTask.fout = none ∧ s.curTask.fatal = []) ∧
    execMask h2 n = 1#64 <<< 0 ∧ (n.cur.lanes.getD 0 {}).inHandler = true ∧ n.curTask.fatal = [] := by decide
theorem wit_ReturnsFromTheHandler :
    let n := handled task1 { warp with lanes := { pc := 0x10000, inHandler := true, frec := ⟨0x85, 1, 2, 12, 0⟩ } :: warp.lanes.tail }
    execMask h2 n ≠ 0 ∧ ∀ l, l < 64 → bit (execMask h2 n) l = true → (n.cur.lanes.getD l {}).inHandler = true := by decide
theorem wit_SpecialRegisters : execMask h2 one ≠ 0 ∧ isSeq one.issue.tid = false ∧ one.cur.flagsPending = false ∧
    (one.cur.lanes.getD (lowLane (execMask h2 one)) {}).inHandler = false ∧
    ((handled task1 { warp with lanes := { inHandler := true } :: warp.lanes.tail }).cur.lanes.getD 0 {}).inHandler = true := by decide
theorem wit_SpecialRegisterWrites : (0x0001 : W32).getLsbD 0 = true ∧ (0xFFF0 : W32).getLsbD 0 = false ∧
    isSeq (context warp).issue.tid = true ∧ ((0x19 : W8) ≠ 0x0F ∧ (0x19 : W8) ≠ 0x18) := by decide

/-! The bounds of R245, by the known values of 1/√3, √2, log2 3, tanh 1 and sin(π/4), and the neighbours of the first. -/

def nearest (x : Int) : W32 := rne32 (.fin (x < 0) x.natAbs (-256))
theorem test_special_values : nearest (expExact false 1 (-1)) = 0x3FB504F3 ∧ nearest (expExact true 1 (-1)) = 0x3F3504F3 ∧
    nearest (logExact 3 0) = 0x3FCAE00D ∧ nearest (tanhExact true 1 0) = 0xBF42F7D6 ∧ nearest (sinpiExact false 5 (-2)) = 0xBF3504F3 ∧
    nearest (cospiExact 1 (-2)) = 0x3F3504F3 := by decide +kernel
theorem test_special_bound : sfuWithin 1 none (rsqExact 3 0) (rsqExact 3 0 + 1) 0x3F13CD3A = true ∧ sfuWithin 1 none (rsqExact 3 0) (rsqExact 3 0 + 1) 0x3F13CD3B = true ∧
    sfuWithin 1 none (rsqExact 3 0) (rsqExact 3 0 + 1) 0x3F13CD39 = false ∧ sfuWithin 1 none (rsqExact 3 0) (rsqExact 3 0 + 1) 0x7FC00000 = false := by decide +kernel

/-! Memory: an address in the page, at its ends, and accesses in flight. -/

/-- The scalar pair s4 and the pair v4 of lane 0 hold an address. -/
def at_ (x : W32) : Thread := { sregs [(4, x)] with v := [(4, row [x])] }
def mf (bk : Bool) (var : BitVec 4) : MemF := ⟨20, 4, 0, bk, 0, 0, var⟩
/-- One access in flight. -/
def flying (a : Acc) (s : State) : State := s.onThread 16 fun t => { t with flight := [a] }
def acc (k : AccKind) (n : Nat) (strong : Bool) : Acc :=
  { seq := 0, kind := k, va := 0x10100, pa := 0x10100, n := n, data := 5, strong := strong, dst := .v 20 }

theorem wit_AccessChecksInOrder : 2 ^ 52 ≤ (0x0010_0000_0000_0000 : W64).toNat ∧ (0x000F_FFFF_FFFF_FFFF : W64).toNat < 2 ^ 52 ∧
    (0x10101 : W64).toNat % 2 ≠ 0 ∧ (0x1FFFF : W64).toNat % 1 = 0 ∧
    (lookup 0 1 0x1FFFF one).2 = .inl ⟨1, 0x10000, 16, 0x10000, true, true, false⟩ := by decide
theorem wit_GlobalLoadsAndStoresIssue :
    let s := base (at_ 0x1FFFC)
    let x := globalAddr s.cur (mf false 0) 0 0
    execMask h2 s ≠ 0 ∧ wpmBlocks s.cur x.toNat 4 = false ∧ checkGlobal 0 1 4 .read x s = (s, .inl 0x1FFFC) ∧
    checkGlobal 0 1 4 .write x s = (s, .inl 0x1FFFC) ∧ accBytes 0 = 4 := ⟨by decide, by decide, rfl, rfl, rfl⟩
theorem wit_GlobalLoadsAndStoresIssue_lanes :
    let s := { base (at_ 0x10000) with issue := { one.issue with run := 3 } }
    let addr := globalAddr s.cur (mf false 7) 16
    (∀ l, l < 64 → bit (execMask h2 s) l = true → wpmBlocks s.cur (addr l).toNat 16 = false) ∧
    (checkLanes 16 .read addr (lanesOf (execMask h2 s)) s).2.bad = [] ∧
    (checkLanes 16 .write addr (lanesOf (execMask h2 s)) s).2.bad = [] := by decide
theorem wit_DecodedLoadsIssue (f : Nat) (hf : f = 8 ∨ f = 9 ∨ f = 10) :
    let w : FWin := ⟨0x10000, 0x10100, true, f, 1, 0⟩
    let s := { base (at_ 0x100FE) with fwin := [(0, w)], issue := { one.issue with run := 3 } }
    let x := globalAddr s.cur (mf false 0) 0 0
    execMask h2 s ≠ 0 ∧ wpmBlocks s.cur x.toNat 256 = false ∧ checkGlobal 0 1 1 .read x s = (s, .inl 0x100FE) ∧
    fwinAt s 0x100FE = some w ∧ (0x100FE - w.base) % 2 = 0 := by
  rcases hf with rfl | rfl | rfl <;> exact ⟨by decide, by decide, rfl, by decide, by decide⟩
theorem wit_StorePerforms :
    let s := flying { acc .store 16 false with pa := 0x1FFF0 } one
    unitTid s 0 0 = some 16 ∧ accReady s 0 16 0 { acc .store 16 false with pa := 0x1FFF0 } = true ∧ sliceLost s 0x1FFF0 = false ∧
    isSpec s 1 = false ∧ hostHolds s 1 0x1FFF0 16 = false ∧ Memory.wf 0 s.mem = true := by decide
theorem wit_AtomicPerforms :
    let a := { acc .atm 4 true with lane := 63, aop := 9, data := 0xFFFFFFFF, data2 := 0xFFFFFFFF }
    let s := flying a one
    unitTid s 0 0 = some 16 ∧ (s.thread 16).flight[0]? = some a ∧ accReady s 0 16 0 a = true ∧ sliceLost s a.pa = false ∧
    isSpec s 1 = false ∧ overdue s a = false ∧ hostHolds s 1 a.pa 4 = false ∧ poisonedTo s 16 a.pa 4 = false ∧ Memory.wf 0 s.mem = true ∧
    a.data < 256 ^ a.n ∧ a.data2 < 256 ^ a.n ∧ (s.thread 16).pending = [] ∧ (s.thread 16).region = none ∧
    Memory.wf zeroRow (s.thread 16).v = true := by decide
theorem wit_AtomicPerforms_doubleword :
    let a := { acc .atm 8 true with aop := 7, code := 1, data := 2 ^ 64 - 1, data2 := 0 }
    let s := flying a one
    accReady s 0 16 0 a = true ∧ a.data < 256 ^ a.n ∧ (∀ q, ((s.thread 16).vmain q).length = 64) := ⟨by decide, by decide, fun _ => rfl⟩
theorem wit_LoadResultArrives :
    let line : L1Line := ⟨0x202, 1001, List.replicate 128 7, none⟩
    let a := acc .load 4 false
    let s := flying a one
    let t := { s with cores := [(0, { core0 with l1 := [line] })] }
    let w := { s with lwin := [(0, ⟨0x10000, 0x20000, true, 1⟩)] }
    (unitTid s 0 0 = some 16 ∧ accReady s 0 16 0 a = true ∧ overdue s a = false ∧
      (∀ p, p ∈ fromHome s 0 16 a → sliceLost s p.1 = false ∧ poisonedTo s 16 p.1 p.2 = false) ∧ landsAt s a.pa = false ∧ l1Find (s.core 0) (lineOf a.pa) (viewTag s 1) s.time = none) ∧
    l1Find (t.core 0) (lineOf a.pa) (viewTag t 1) t.time = some line ∧ landsAt w a.pa = true ∧ accReady w 0 16 0 a = true ∧
    (acc .load 16 true).strong = true ∧ accReady (flying (acc .ldx 2 false) one) 0 16 0 (acc .ldx 2 false) = true ∧ fromHome t 0 16 a = [] ∧
    (let x := { acc .ldx 2 false with pa := 0x1017F, data2 := 0x10180, fmt := 8 }
     fromHome (flying x one) 0 16 x = [(0x1017F, 1), (0x10180, 1)] ∧ sliceLost (flying x one) 0x10180 = false ∧ poisonedTo (flying x one) 16 0x10180 1 = false) := by decide
theorem wit_ResultsLandInTheirRegisters : Memory.wf 0 warp.s = true ∧ warp.pending = [] ∧ (63 : Nat) < 64 ∧
    (∀ q, (warp.vget q).length = 64) ∧ Memory.wf zeroRow warp.v = true ∧ (0 : SReg) ≠ 63 ∧ isSeq one.issue.tid = false ∧
    one.cur.pending = [] ∧ isSeq (context warp).issue.tid = true :=
  ⟨by decide, by decide, by decide, fun _ => rfl, by decide, by decide, by decide, by decide, by decide⟩
/-- The last word of the scratchpad, from one lane, and two lanes that do not overlap. -/
theorem wit_ScratchpadLoadsAndStores :
    let s := { base (at_ 0xFFF8) with issue := { one.issue with run := 3 } }
    let x := spadAddr s.cur (mf false 0) 4
    execMask h2 s ≠ 0 ∧ (∀ l, l < 64 → bit (execMask h2 s) l = true → x l % 4 = 0 ∧ x l + 4 ≤ s.curTask.size) ∧
    spadMay s.cur false (fun l => BitVec.ofNat 64 (x l)) (lanesOf (execMask h2 s)) 4 = true ∧
    spadMay s.cur true (fun l => BitVec.ofNat 64 (x l)) (lanesOf (execMask h2 s)) 4 = true ∧
    (∀ l i, l < 64 → bit (execMask h2 s) l = true → i < 4 → headerOf s.curTask (x l + i) = none) ∧
    Memory.wf 0 s.curTask.spad = true ∧ x 1 + 4 = 0x10000 := by
  refine ⟨by decide, by decide, by decide, by decide, fun _ _ _ _ _ => rfl, by decide, by decide⟩
theorem wit_AtomicsIssue :
    let s := base (at_ 0xFFFC)
    let x := spadAddr s.cur (mf true 0) 0 0
    let g := base (at_ 0x1FFF8)
    let addr := globalAddr g.cur (mf true 2) 0
    (execMask h2 s = 1#64 <<< 0 ∧ x % 4 = 0 ∧ x + 4 = s.curTask.size ∧ spadMay s.cur true (fun _ => BitVec.ofNat 64 x) [0] 4 = true ∧
      Memory.wf 0 s.curTask.spad = true) ∧
    (∀ i, i < 4 → headerOf s.curTask (x + i) = none) ∧ isSpec g 1 = false ∧
    (∀ l, l < 64 → bit (execMask h2 g) l = true → wpmBlocks g.cur (addr l).toNat 8 = false) ∧
    (checkLanes 8 .write addr (lanesOf (execMask h2 g)) g).2.bad = [] := by decide
theorem wit_CacheOperations :
    let s := base (at_ 0x1FFFF)
    (0x1FFFF ∈ (lineTranslate (lineAddrs h2 (mf false 0) s) s).2 ∧ landsAt s 0x1FFFF = false ∧ homeGone s 0x1FFFF = false) ∧
    isSpec s 1 = false ∧ checkGlobal 0 1 1 .read (globalAddr s.cur (mf false 0) 0 0) s = (s, .inl 0x1FFFF) ∧
    (checkLanes 1 .read (globalAddr s.cur (mf true 0) 0) (lanesOf (execMask h2 s)) s).2.bad = [] :=
  ⟨by decide, by decide, rfl, by decide⟩
/-- A gather to the end of the scratchpad, and a gang whose second member runs. -/
theorem wit_GatherClassIssues_gather :
    let s := base { at_ 0x1FFFC with s := [(20, 0xFFFC)] }
    let e := execMask h2 s
    e ≠ 0 ∧ opHeld s.cur 2 = false ∧
    (∀ l, l < 64 → bit e l = true → wpmBlocks s.cur (globalAddr s.cur (mf true 0) 0 l).toNat 4 = false) ∧
    (∀ l, l < 64 → bit e l = true → ((s.cur.sget 20).toNat + 4 * l) % 4 = 0 ∧ (s.cur.sget 20).toNat + 4 * l + 4 ≤ s.curTask.size) ∧
    (checkLanes 4 .read (globalAddr s.cur (mf true 0) 0) (lanesOf e) s).2.bad = [] ∧
    (checkLanes 4 .write (globalAddr s.cur (mf true 0) 0) (lanesOf e) s).2.bad = [] := by decide
def ganged (t : Thread) : State :=
  { withTask { task1 with gang := some (7, 0), launch := some 3 } t with
    tasks := [(1, { task1 with gang := some (7, 0), launch := some 3 }), (2, { task1 with gang := some (7, 1), launch := some 3 })]
    gangs := [(7, { launch := 3, members := [1, 2], started := true : Gang })], launches := [(3, { st := .running, gsize := 2 : Launch })] }
theorem wit_GatherClassIssues_gang :
    let s := ganged (at_ 0xFFFC)
    let x := spadAddr s.cur (mf true 1) 4
    s.curTask.gang = some (7, 0) ∧ (1 : Nat) < (s.launch (s.gang 7).launch).gsize ∧ (s.gang 7).members[1]? = some 2 ∧
    (s.task 2).st = .running ∧ opHeld s.cur 2 = false ∧
    (∀ l, l < 64 → bit (execMask h2 s) l = true → x l % 4 = 0 ∧ x l + 4 ≤ (s.task 2).size) ∧
    (∀ l, l < 64 → bit (execMask h2 s) l = true →
      x l % 1 = 0 ∧ s.curTask.size / 2 ≤ x l ∧ x l + 1 ≤ s.curTask.size) ∧
    s.curTask.size / 2 ≤ spadAddr (ganged (at_ 0x8000)).cur (mf true 0) 0 0 := by decide
/-- With nothing in flight fences take effect at once; a strong load in flight holds a release and an acquire fence. -/
theorem wit_FencesAndCounters :
    let s := flying (acc .load 4 true) one
    let f := handled task1 { warp with pendFault := [(5, (0x22, 0x40))] }
    (execMask h2 one ≠ 0 ∧ isSpec one 1 = false ∧ one.cur.flight = [] ∧ one.cur.maxw < one.time) ∧
    (s.cur.flight ≠ [] ∧ s.cur.flight.any Acc.returns = true ∧ ∀ a, a ∈ s.cur.flight → a.marker = false) ∧
    (firstPending one.cur 0x3F = none ∧ ∀ c, c < 6 → (0x3F : BitVec 6).getLsbD c = true → classCount one.cur c ≤ 0) ∧
    firstPending f.cur 0x20 = some (5, 0x22, 0x40) ∧ f.cur.wait ≠ .counters f.issue.pc ∧ (0x22 : W8) ≠ 0x12 ∧ HandledHere f (execMask h2 f) :=
  ⟨by decide, by decide, by decide, by decide, by decide, by decide, by decide, by decide, by decide, by decide, by decide⟩
/-- The only warp of a task, and the first of two. -/
theorem wit_Barriers :
    let s := ganged warp
    let two := withTask { task1 with team := 1 } warp
    (isSpec one 1 = false ∧ one.cur.flight = [] ∧ ∀ i, i ∈ participants one 1 → i ∈ one.curTask.barHere ++ [16]) ∧
    (¬ ∀ i, i ∈ participants two 1 → i ∈ two.curTask.barHere ++ [16]) ∧
    (s.curTask.gang = some (7, 0) ∧ s.cur.maxw < s.time ∧ classCount s.cur 2 = 0 ∧
      ¬ ∀ k, k ∈ (s.gang 7).members → hasExited s k = true ∨
        ((s.task k).st ≠ .staged ∧ ∀ i, i ∈ liveWarps s k → i ∈ (s.gang 7).here ++ [16])) ∧
    (let g := { s with gangs := [(7, { launch := 3, members := [1, 2], started := true, here := [32] : Gang })] }
     ∀ k, k ∈ (g.gang 7).members → hasExited g k = true ∨
      ((g.task k).st ≠ .staged ∧ ∀ i, i ∈ liveWarps g k → i ∈ (g.gang 7).here ++ [16])) := by decide

/-! Monitors, blocks, regions, tasks and futures. -/

def watch (trig full : Bool) (due : Nat) : Mon := ⟨false, 0x1FFF8, 0x1FFF8, 0, trig, full, due⟩
/-- A thread that waits in `mwait`. -/
def waiting (m : Mon) (dl : Option Nat) : State := base { warp with mon := some m, wait := .mwait 10 dl }
theorem wit_MonitorsAndWaits_arm :
    let s := base (at_ 0x1FFF8)
    let p := base (at_ 0xFFF8)
    (execMask h2 s ≠ 0 ∧ (s.cur.sget2 4).toNat % 8 = 0 ∧ checkGlobal 0 1 8 .read (s.cur.sget2 4) s = (s, .inl 0x1FFF8) ∧
      homeGone s 0x1FFF8 = false ∧ mayRead s 0 16 0x1FFF8 0x1FFF8 8 = true ∧ poisoned s 0x1FFF8 8 = false) ∧
    (acqPending p.cur = false ∧ spadHeld p.cur (p.cur.sget 4).toNat 8 = false ∧ (p.cur.sget 4).toNat % 8 = 0 ∧
      (p.cur.sget 4).toNat + 8 = p.curTask.size) ∧ s.cur.mon = none ∧ (watch false false 0).trig = false ∧
    Memory.wf 0 (waiting (watch true false 0) none).cur.s = true := ⟨⟨by decide, by decide, rfl, by decide, by decide, by decide⟩, by decide⟩
/-- A word that has changed, one that has not, a deadline now and one later, and full watch tables. -/
theorem wit_MonitorsAndWaits_wait :
    let s := withBytes 0x1FFF8 8 1 (waiting (watch true false 0) (some 1000))
    let q := waiting (watch true false 0) (some 1001)
    let r := { waiting (watch false true 1000) none with tasks := [(1, { task1 with st := .swapped })] }
    (unitTid s 0 0 = some 16 ∧ mayReread s 0 16 (watch true false 0) = true ∧ watchedNow s 16 (watch true false 0) ≠ 0) ∧
    (mayReread q 0 16 (watch true false 0) = true ∧ watchedNow q 16 (watch true false 0) = 0 ∧ q.time < 1001) ∧
    (waiting (watch false false 0) (some 1000)).time = 1000 ∧ (watch false true 1000).due ≤ r.time ∧
    (watch false true 1000).full = true ∧ (r.task 1).st = .swapped := by decide

def noBlocks : State := { one with cores := [(0, { core0 with retiredBlks := 64 })] }
theorem pool_one : poolFree one = true :=
  have h : 56 ≤ Config.poolBlocks 0 0 := Nat.le_add_right 56 _
  show decide (0 < Config.poolBlocks 0 0 - 0 - 0) = true from decide_eq_true (by omega)
theorem pool_none : poolFree noBlocks = false :=
  have h : Config.poolBlocks 0 0 < 65 := Nat.add_lt_add_left (Nat.mod_lt _ (by decide)) 56
  show decide (0 < Config.poolBlocks 0 0 - 64 - 0) = false from decide_eq_false (by omega)
theorem wit_RegisterBlocks : execMask h2 one ≠ 0 ∧ one.cur.xblk.getLsbD (0 : BitVec 4).toNat = true ∧
    one.cur.xblk.getLsbD (15 : BitVec 4).toNat = false ∧ poolFree one = true ∧ poolFree noBlocks = false ∧
    noBlocks.cur.xblk.getLsbD 15 = false ∧ one.cur.region = none ∧ (one.cur.busyIn fun r => r / 128 == 0) = false ∧
    blockedXacq one 0 = [] :=
  ⟨by decide, by decide, by decide, pool_one, pool_none, by decide, by decide, by decide, by decide⟩
/-- Nothing to wait for: a block held, a free pool, a block not held, a block idle; a set of v0 to v30; no region, and a region. -/
theorem wit_RegisterFormsComplete :
    let s := base { warp with region := some 0xF800, stage := [(1, row [2])] }
    execMask h2 one ≠ 0 ∧ one.cur.xblk.getLsbD (0 : BitVec 4).toNat = true ∧ poolFree one = true ∧
    one.cur.xblk.getLsbD (15 : BitVec 4).toNat = false ∧ (one.cur.busyIn fun r => r / 128 == 0) = false ∧ blockedXacq one 0 = [] ∧
    setOk 0xF800 = true ∧ (∀ r, r ∈ setOf 0xF800 → one.cur.held r = true) ∧ closeBusy one.cur = false ∧
    one.cur.busyIn (setOf 0xF800).contains = false ∧ closeBusy s.cur = false :=
  ⟨by decide, by decide, pool_one, by decide, by decide, by decide, by decide, by decide, by decide, by decide, by decide⟩
/-- A region of v0 to v30, a set with a start and no length, and an open region with a written register. -/
theorem wit_Regions :
    let s := base { warp with region := some 0x1000, stage := [(0, row [1]), (1, row [2])], written := [1] }
    (one.cur.region = none ∧ setOk 0xF800 = true ∧ (∀ r, r ∈ setOf 0xF800 → one.cur.held r = true) ∧
      one.cur.busyIn (setOf 0xF800).contains = false) ∧
    setOk 1 = false ∧ (s.cur.region ≠ none ∧ closeBusy s.cur = false ∧ Memory.wf zeroRow s.cur.v = true ∧
      ∀ r, r ∈ s.cur.written → thas s.cur.stage r = true) := by decide

/-- A closure image of zeros at 0x1FF80, and one whose entry is not aligned. -/
def closure (entry : Nat) : State := withBytes 0x1FF80 8 entry (handled task1 (at_ 0x1FF80))
theorem reads_closure (e : Nat) (he : e = 0x40 ∨ e = 0x41 ∨ e = 2 ^ 52) : TaskReads (closure e) (closure e) 0x1FF80 128 128 0x1FF80 := by
  rcases he with rfl | rfl | rfl <;> exact ⟨by decide, by decide, by decide, rfl, by decide, by decide, by decide⟩
theorem wit_SpawnPushesTheClosure :
    let s := closure 0x40
    execMask h2 s ≠ 0 ∧ storesDone s = true ∧ (s.core 0).deque.length < 512 ∧ TaskReads s s (s.cur.sget2 4) 128 128 0x1FF80 ∧
    closureFault (some s.curTask) (readImage s 16 0x1FF80 128) = none ∧ isSpec s 1 = false ∧
    translate 0 1 0x1FF80 .write s = (s, .inl 0x1FF80) ∧ wpmBlocks s.cur 0x1FF80 128 = false ∧ futureQuiet s 0x1FF80 = true ∧
    closureFault (some s.curTask) (imageOf s.cur 40) = none ∧ Memory.wf 0 s.mem = true ∧ s.cur.wait ≠ .push 0x1FF80 :=
  ⟨by decide, by decide, by decide, reads_closure _ (.inl rfl), by decide, by decide, rfl, by decide, by decide, by decide, by decide, by decide⟩
/-- Every entry of the deque is not raised, one of them included. -/
theorem wit_SpawnPushesTheClosure_deque : ∀ e, e ∈ [({ id := 1, kind := .range 3 0 1 } : Ent)] → e.raised = false := by decide
theorem wit_BadClosuresPark (e : Nat) (c : W8) (h : e = 0x41 ∧ c = 0x06 ∨ e = 2 ^ 52 ∧ c = 0x15) :
    let s := closure e
    execMask h2 s ≠ 0 ∧ storesDone s = true ∧ HandledHere s (execMask h2 s) ∧ TaskReads s s (s.cur.sget2 4) 128 128 0x1FF80 ∧
    closureFault (some s.curTask) (readImage s 16 0x1FF80 128) = some c := by
  rcases h with ⟨rfl, rfl⟩ | ⟨rfl, rfl⟩
  · exact ⟨by decide, by decide, ⟨by decide, by decide, by decide, by decide, by decide⟩, reads_closure _ (.inr (.inl rfl)), by decide⟩
  · exact ⟨by decide, by decide, ⟨by decide, by decide, by decide, by decide, by decide⟩, reads_closure _ (.inr (.inr rfl)), by decide⟩
/-- The last future of the page: EMPTY, and completed. -/
def future (st : Nat) : State := withBytes 0x1FFE0 1 st { paged (at_ 0x1FFE0) with time := 1000 }
theorem wit_JoinsAndPolls (st : Nat) (h : st = 0 ∨ st = 255) :
    let s := future st
    isSpec s 1 = false ∧ Memory.wf 0 s.mem = true ∧ Memory.wf 0 s.cur.s = true ∧ s.cur.pending = [] ∧ execMask h2 s ≠ 0 ∧
    TaskReads s s (s.cur.sget2 4) 32 32 0x1FFE0 ∧ bytesAt s.mem 0x1FFE0 1 = st := by
  rcases h with rfl | rfl <;>
    exact ⟨by decide, by decide, by decide, by decide, by decide, ⟨by decide, by decide, by decide, rfl, by decide, by decide, by decide⟩, by decide⟩
theorem wit_JoinsAndPolls_wake :
    let j : JoinAt := ⟨0x1FFE0, 0x10000, 4, 1, false⟩
    let s := withBytes 0x1FFE0 1 1 (paged { warp with wait := .join 0x1FFE0 10 12, joined := some j })
    unitTid s 0 0 = some s.issue.tid ∧ s.cur.wait = .join 0x1FFE0 10 12 ∧ s.cur.joined = some j ∧ j.pa = 0x1FFE0 ∧
    (translate 0 1 0x1FFE0 .read (leaveJoin s.issue.tid s)).2 = .inl 0x1FFE0 ∧ homeGone s 0x1FFE0 = false ∧
    poisoned (leaveJoin s.issue.tid s) 0x1FFE0 32 = false ∧ bytesAt s.mem 0x1FFE0 1 ≠ 0 := by decide
theorem wit_CompletingAnotherFuture (st : Nat) (h : st = 0 ∨ st = 4) :
    let s := future st
    execMask h2 s ≠ 0 ∧ isSpec s 1 = false ∧ storesDone s = true ∧ taskHeld s.cur = false ∧ Memory.wf 0 s.mem = true ∧
    (s.cur.sget2 4).toNat % 32 = 0 ∧ translate 0 1 0x1FFE0 .write s = (s, .inl 0x1FFE0) ∧ homeGone s 0x1FFE0 = false ∧
    wpmBlocks s.cur 0x1FFE0 32 = false ∧ mayRead s 0 16 0x1FFE0 0x1FFE0 32 = true ∧ poisoned s 0x1FFE0 32 = false ∧
    futureQuiet s 0x1FFE0 = true ∧ bytesAt s.mem 0x1FFE0 1 = st := by
  rcases h with rfl | rfl <;> exact ⟨by decide, by decide, by decide, by decide, by decide, by decide, rfl, by decide, by decide,
    by decide, by decide, by decide, by decide⟩
/-- Causes at the ends of the range that `fflt` takes, and one below. -/
theorem wit_TaskOutcomes : let s := handled task1 (sregs [(1, 0x80), (2, 0xFF), (3, 0x7F)])
    execMask h2 s ≠ 0 ∧ taskHeld s.cur = false ∧ 0x80 ≤ (s.cur.sget 1).toNat ∧ (s.cur.sget 2).toNat ≤ 0xFF ∧
    ¬ (0x80 ≤ (s.cur.sget 3).toNat ∧ (s.cur.sget 3).toNat ≤ 0xFF) ∧ HandledHere s (execMask h2 s) :=
  ⟨by decide, by decide, by decide, by decide, by decide, by decide, by decide, by decide, by decide, by decide⟩

/-! Layouts, copies, streams, matrix. -/

/-- A record of 64 by 32 BF16 elements at 0x10140, and its 64 bytes. -/
def record : Rec := { addr := 0x10140, base := 0x18000, fmt := 8, rank := 2, pad := 1, dim := [64, 32, 1, 1], stride := [1, 64, 0, 0]
                      tshape := [32, 32, 1, 1] }
def bound (t : Thread) : State := { base t with cores := [(0, { core0 with layout := [(5, record)] })] }
def recorded : State :=
  withBytes 0x10140 12 0x0001_0208_0000_0000_0001_8000 (withBytes 0x10150 16 0x00000001_00000001_00000020_00000040
    (withBytes 0x10160 12 0x0000_0000_0040_0000_0000_0001 (withBytes 0x10178 8 0x0001_0001_0020_0020
      { base (at_ 0x10140) with ctxs := [(1, { cores := [0], ltbase := 0x1FFF8 : Ctx })] })))
theorem wit_BindingAHandle_record :
    let s1 := (issueRead 0x10140 64 recorded).1
    (∃ bytes, issueRead 0x10140 64 recorded = (s1, .inl bytes) ∧ (recOf 0x10140 bytes).ok = true) ∧ entryVa s1 1 0xFFFF = 0x9FFF0 ∧
    entryVa s1 1 0 = 0x1FFF8 ∧ translate 0 1 0x1FFF8 .write s1 = (s1, .inl 0x1FFF8) ∧ homeGone s1 0x1FFF8 = false ∧
    futureQuiet s1 0x1FFF8 = true ∧ wpmBlocks s1.cur 0x1FFF8 8 = false ∧ mayRead s1 0 16 0x1FFF8 0x1FFF8 8 = true :=
  ⟨⟨_, rfl, by decide⟩, by decide, by decide, rfl, by decide, by decide, by decide, by decide⟩
theorem wit_BindingAHandle :
    let s := recorded
    execMask h2 s ≠ 0 ∧ isSpec s 1 = false ∧ acqPending s.cur = false ∧ relPending s.cur = false ∧ Memory.wf 0 s.mem = true ∧
    (s.cur.sget2 4).toNat % 64 = 0 ∧ s.cur.sget2 6 = 0 ∧ entryVa s 1 0 = 0x1FFF8 ∧
    translate 0 1 0x1FFF8 .write s = (s, .inl 0x1FFF8) ∧ homeGone s 0x1FFF8 = false ∧ futureQuiet s 0x1FFF8 = true ∧
    wpmBlocks s.cur 0x1FFF8 8 = false ∧ mayRead s 0 16 0x1FFF8 0x1FFF8 8 = true :=
  ⟨by decide, by decide, by decide, by decide, by decide, by decide, by decide, by decide, rfl, by decide, by decide, by decide, by decide⟩
/-- Lane 0 in bounds, and a lane outside with the pad that gives an address. -/
theorem wit_ElementAddresses :
    let s := bound { sregs [(4, 5)] with v := [(8, row [63]), (9, row [31])] }
    let t := bound { sregs [(4, 5)] with v := [(8, row [64]), (9, row [31])] }
    execMask h2 s ≠ 0 ∧ (6 : Pred) ≠ 7 ∧ (∃ s1, useRec 0 1 5 s = (s1, .ok record)) ∧
    (∀ l, l < 64 → bit (execMask h2 s) l = true → laddrBad record (quadAt s.cur l (.vec 2)) = false) ∧
    (∀ l, l < 64 → bit (execMask h2 t) l = true → laddrBad record (quadAt t.cur l (.vec 2)) = false) ∧
    s.cur.pending = [] ∧ Memory.wf zeroRow s.cur.v = true ∧ Memory.wf 0 s.cur.p = true :=
  ⟨by decide, by decide, ⟨_, rfl⟩, by decide, by decide, by decide, by decide, by decide⟩
theorem wit_rows (q : Nat) : ((bound warp).cur.vget q).length = 64 := rfl
/-- A copy of the last 64 bytes of the scratchpad onto its first, at issue, in its transfer, and over. -/
theorem wit_CopiesMoveBytes :
    let x : CpyCmd := { id := 9, tid := some 16, cid := 1, kind := 0, cmd := 0x1800, src := 0xFFC0, dst := 0, count := 64 }
    let s := base (sregs [(8, 0x1800), (10, 0xFFC0), (14, 64)])
    let t := { one with cores := [(0, { core0 with cpy := [x] })] }
    let u := { one with cores := [(0, { core0 with cpy := [{ x with state := 1, gwct := 999 }, { x with state := 1, tid := none, gwct := 999 }] })] }
    (execMask h2 s ≠ 0 ∧ (s.cur.sget2 (octet 1 0)).toNat % 8 = 0 ∧ linearFault s 1 0x1800 0xFFC0 0 64 = none ∧ cpyHeld s = false) ∧
    ((t.core 0).cpy[0]? = some x ∧ cmdReady t x = true ∧ cmdPoisoned t x = false ∧ cmdSpf x.cmd.toNat = true ∧ cmdSpt x.cmd.toNat = true ∧
      cmdCvt x.cmd.toNat = false ∧ x.src + x.count = (t.task 1).size ∧ (∀ o, o < 64 → headerOf (t.task 1) o = none) ∧
      Memory.wf 0 (t.task 1).spad = true) ∧
    ∀ y, y ∈ (u.core 0).cpy → y.state = 1 ∧ y.gwct < u.time := by decide
/-- Copies of the last 64 bytes of a line: into scratchpad, out of it, and from global memory to global memory. -/
def copying (cmd : W64) (src dst : Nat) : State :=
  { one with cores := [(0, { core0 with cpy := [{ id := 9, tid := some 16, cid := 1, kind := 0, cmd := cmd, src := src, dst := dst, count := 64 }] })] }
theorem wit_CopiesMoveBytes_global (cmd : W64) (src dst : Nat)
    (h : (cmd, src, dst) = (0x1000, 0x1FFC0, 0xFFC0) ∨ (cmd, src, dst) = (0x800, 0xFFC0, 0x1FFC0) ∨ (cmd, src, dst) = (0, 0x10040, 0x1FFC0)) :
    let s := copying cmd src dst
    let x := (s.core 0).cpy.headD { id := 0, tid := none, cid := 0, kind := 9, cmd := 0, src := 0, dst := 0, count := 0 }
    (x.state = 0 ∧ cmdReady s x = true ∧ cmdPoisoned s x = false ∧ x.kind = 0 ∧ cmdCvt x.cmd.toNat = false ∧ 0 < x.count ∧ isSpec s 1 = false) ∧
    (cmdSpf cmd.toNat = false → src % 128 + 64 ≤ 128 ∧ translate 0 1 src .read s = (s, .inl src) ∧ homeGone s src = false ∧
      poisoned s src 64 = false) ∧
    (cmdSpf cmd.toNat = true → src + 64 ≤ (s.task 1).size) ∧
    (cmdSpt cmd.toNat = true → dst + 64 ≤ (s.task 1).size ∧ (s.task 1).bufs = [] ∧ Memory.wf 0 (s.task 1).spad = true) ∧
    (cmdSpt cmd.toNat = false → dst % 128 + 64 ≤ 128 ∧ (∀ z, z = s ∨ z = fillL2 (lineOf src) s → translate 0 1 dst .write z = (z, .inl dst) ∧
      homeGone z dst = false ∧ (z.l2line (lineOf dst)).host = false)) ∧ Memory.wf 0 s.mem = true := by
  rcases h with h | h | h <;> cases h <;>
    refine ⟨by decide, fun hc => ?_, by decide, by decide, fun hc => ?_, by decide⟩ <;> first
      | exact absurd hc (by decide)
      | exact ⟨by decide, rfl, by decide⟩
      | exact ⟨by decide, fun z hz => by rcases hz with rfl | rfl <;> exact ⟨rfl, by decide⟩⟩
/-- A TLOAD into the last buffer of the scratchpad, EMPTY, and a TSTORE from it, FULL. -/
def tileCopy (kind st : Nat) : State :=
  let r := sregs [(8, BitVec.ofNat 32 (kind + 5 * 2 ^ 16)), (10, if kind = 1 then 0 else 0xF780), (12, if kind = 1 then 0xF780 else 0)]
  { bound r with tasks := [(1, { task1 with spad := bytesSet [] 0xF780 8 (hdrWord st 3 2048 7) })] }
theorem wit_TileCopiesIssue (kind st : Nat) (h : (kind, st) = (1, 0) ∨ (kind, st) = (2, 2)) : let s := tileCopy kind st
    let w := (s.cur.sget2 (octet 1 0)).toNat
    let src := (s.cur.sget2 (octet 1 2)).toNat
    let dst := (s.cur.sget2 (octet 1 4)).toNat
    let hdr := if kind = 1 then dst else src
    let c := coords (if kind = 1 then src else dst)
    execMask h2 s ≠ 0 ∧ acqPending s.cur = false ∧ cpyOk w src dst (s.cur.sget2 (octet 1 6)).toNat = true ∧ cmdKind w = kind ∧
    hdr % 128 = 0 ∧ hdr + (128 + record.tileSize) = s.curTask.size ∧
    (∃ s1, useRec 0 1 (cmdHandle w) s = (s1, .ok record) ∧ cpyHeld s1 = false) ∧ record.extra c = false ∧ record.pad = 1 ∧
    hdrState (readHdr s 1 hdr) = st ∧ hdrTarget (readHdr s 1 hdr) = record.tileSize ∧ Memory.wf 0 s.curTask.spad = true := by
  rcases h with h | h <;> obtain ⟨rfl, rfl⟩ := Prod.mk.inj h <;>
    exact ⟨by decide, by decide, by decide, by decide, by decide, by decide, ⟨_, rfl, by decide⟩, by decide, by decide, by decide, by decide,
      by decide⟩
def stream (next nsl : Nat) (poison : Bool) : Strm :=
  { id := 9, tid := 16, fifo := 3, lrec := record, spb := none, k0 := 0, row0 := 0, d2 := 0, d3 := 0, nsl := nsl, next := next, poison := poison }
theorem wit_Streams :
    let s := bound (sregs [(8, 5), (12, 2)])
    let t := { one with cores := [(0, { core0 with streams := [stream 2 2 false] })] }
    let mine := fun x : Strm => taskOf x.tid == 1 && x.fifo == 3
    execMask h2 s ≠ 0 ∧ (s.cur.sget (octet 1 0)).toNat = 5 ∧ (s.cur.sget (octet 1 4)).toNat ≠ 0 ∧
    (∃ s1, useRec 0 1 5 s = (s1, .ok record) ∧ strmFault s1 1 record false 0 0 0 0 0 2 = none) ∧ opHeld s.cur 0 = false ∧
    (s.core 0).streams.any mine = false ∧ (s.core 0).streams.find? mine = none ∧
    (t.core 0).streams.find? mine = some (stream 2 2 false) ∧ (stream 2 2 false).next ≤ (stream 2 2 false).nsl ∧
    (∀ y, y ∈ (t.core 0).streams → y.id = 9 → y = stream 2 2 false) :=
  ⟨by decide, by decide, by decide, ⟨_, rfl, by decide⟩, by decide, by decide, by decide, by decide, by decide, by decide⟩

/-- A task with 8 tiles. -/
def matrix (t : Thread) : State := withTask { task1 with nacc := 8, team := 8 } t
def drainRegs : Thread := sregs [(8, 0xF000), (10, 128), (14, 1)]
theorem wit_MatrixOperationsIssue :
    let s := matrix drainRegs
    let o : Adrn := ⟨.imm 7, 1, .f32, .rne, false⟩
    execMask h2 s ≠ 0 ∧ mtxHeld s.cur false = false ∧ tileNum s.cur (.imm 7) < s.curTask.nacc ∧
    (tileNum s.cur (.imm 6) % 2 = 0 ∧ tileNum s.cur (.imm 6) + 1 < s.curTask.nacc) ∧
    tileNum s.cur (.imm 0) + (8 : BitVec 11).toNat ≤ s.curTask.nacc ∧ tileNum s.cur (.imm 0) + 2 * (4 : BitVec 11).toNat ≤ s.curTask.nacc ∧
    drainFault s 1 (drainOf s.cur o) = none := by decide
/-- A thread with one matrix operation at the head of its queue. -/
def running (k : EngKind) : State := matrix { warp with ops := [{ id := 9, cls := 1, kind := k }] }
def sliceOf8 (fmt : Nat) : Slice := { task := 1, strm := 9, idx := 0, fmt := fmt, data := [], exps := [] }
theorem wit_MatrixOperationsTakeEffect (k : EngKind) : unitTid (running k) 0 0 = some 16 ∧
    Memory.wf 0 ((running k).task 1).cells = true ∧ ((running k).thread 16).pending = [] ∧
    (∀ r, (((running k).thread 16).vget r).length = 64) ∧ Memory.wf zeroRow ((running k).thread 16).v = true :=
  ⟨rfl, rfl, rfl, fun _ => rfl, rfl⟩
/-- Every kind of operation that has not been drained is the head: `acc`, `fskip`, `ardv.raw`, `mma`. -/
theorem wit_MatrixOperationsTakeEffect_head (k : EngKind) (hk : drained k = false) :
    headOp (running k) 16 = some { id := 9, cls := 1, kind := k } := by
  show ([{ id := 9, cls := 1, kind := k }] : List EngOp).find? (fun o => o.cls == 1 && !o.done && !drained o.kind) = _
  simp [hk]
theorem wit_MatrixOperationsTakeEffect_slices :
    takeSlice 1 [sliceOf8 8] = some (sliceOf8 8, []) ∧ takeSlice 1 [{ sliceOf8 9 with task := 2 }, sliceOf8 9] =
      some (sliceOf8 9, [{ sliceOf8 9 with task := 2 }]) := by decide
/-- Pairs of classes that multiply, and one that does not; `mma.sh` of tile 6, whose pair has no shadow yet, with a slice in each FIFO. -/
theorem wit_MatrixOperationsTakeEffect_pairs : FpPair 8 8 ∧ FpPair 9 10 ∧ BfpPair 0x12 0x18 ∧ ¬ FpPair 8 9 ∧ ¬ BfpPair 8 9 := by
  unfold FpPair BfpPair; decide
theorem wit_MatrixOperationsTakeEffect_mma (f : Nat) (h : f = 8 ∨ f = 9 ∨ f = 0x12) :
    let s := { running (.mma 6 true true 2 true) with cores := [(0, setFifo 1 [sliceOf8 f] (setFifo 3 [sliceOf8 f] core0))] }
    headOp s 16 = some { id := 9, cls := 1, kind := .mma 6 true true 2 true } ∧ 6 % 2 = 0 ∧ 6 / 2 ∉ (s.task 1).shadow ∧
    takeSlice 1 (fifoOf (s.core 0) 1) = some (sliceOf8 f, []) ∧ takeSlice 1 (fifoOf (s.core 0) 3) = some (sliceOf8 f, []) := by
  rcases h with rfl | rfl | rfl <;> decide
theorem wit_MatrixOperationsTakeEffect_drain :
    let d : Drain := { tile := 7, ty := .f32, rm := .rne, sat := false, dst := 0xF000, rowb := 128, scale := 0, amx := 0, flags := 1, hdr := 0 }
    let s := running (.adrn d none)
    headOp s 16 = some { id := 9, cls := 1, kind := .adrn d none } ∧ drainedDue (s.thread 16) s.time = none ∧
    opReady s 16 { id := 9, cls := 1, kind := .adrn d none } = true ∧ d.spd = true ∧ d.arv = false ∧ d.am = false ∧
    d.dst + 31 * d.rowb + 128 = (s.task 1).size ∧ (s.task 1).bufs = [] ∧ Memory.wf 0 (s.task 1).spad = true := by decide
/-- A task with no buffers has no headers. -/
theorem wit_MatrixOperationsTakeEffect_headers (t : Task) (b : Nat) (h : t.bufs = []) : headerOf t b = none := by simp [headerOf, h]
/-- A ring of 16 at its first slot in phase 0, and one whose last slot is FULL and held. -/
theorem wit_StageRings :
    let s := base (sregs [(3, 15)])
    let r : Ring := { ns := 16, phase := 0x8000, held := 0x8000, f := 15 }
    let t := withTask { task1 with rings := [(7, r)] } (sregs [(3, 15)])
    (execMask h2 s ≠ 0 ∧ s.issue.tid ∈ s.tids 1 ∧ ringWaiters s 1 7 false = [] ∧ ringWaiters s 1 7 true = [] ∧ s.cur.wait = .none ∧
      s.cur.pending = [] ∧ Memory.wf 0 s.cur.s = true ∧ Memory.wf {} s.curTask.rings = true) ∧
    ((ringOf s.curTask 7).phase.getLsbD 0 = false ∧ (ringOf s.curTask 7).held.getLsbD 0 = false) ∧
    (ringOf t.curTask 7 = r ∧ r.phase.getLsbD 15 = true ∧ r.held.getLsbD 15 = true ∧ (t.cur.sget 3).toNat < r.ns ∧
      Memory.wf {} t.curTask.rings = true) ∧ firstPending t.cur 0b111 = none ∧ sgrelMay t = true := by decide

/-! Beneath the memory: near-bank programs, landing packets, queries. -/

/-- A machine whose stacks work, with a page table. -/
def near (t : Thread) : State := { paged t with ready := 0xFF }
/-- A descriptor at 0x1FF80 of the program at 0x1FE00 that reads the row at 0x100000, for bank 0. -/
def nearRun : State :=
  withBytes 0x1FE00 1 1 (withBytes 0x1FF88 2 1 (withBytes 0x1FF90 8 0x100000 (withBytes 0x1FF80 8 0x1FE00 (near (at_ 0x1FF80)))))
def nbDesc : List W8 := bytesFrom nearRun 0x1FF80 128
def nbCode : List W8 := bytesFrom nearRun 0x1FE00 256
theorem wit_NearMemory_ready : let s := nearRun
    execMask h2 s ≠ 0 ∧ nearReady s = true ∧ isSpec s 1 = false ∧ s.cur.flight = [] ∧ s.cur.maxw < s.time ∧
    (s.cur.sget2 4).toNat % 128 = 0 ∧ fieldAt nbDesc 0 8 % 256 = 0 ∧ nbReserved nbDesc = false ∧ fieldAt nbDesc 8 2 ≠ 0 ∧
    progOk (nbProgOf 0x1FF80 nbDesc nbCode).uops = true := by decide
theorem wit_NearMemory_nbrun :
    let r1 := issueRead 0x1FF80 128 nearRun
    let r2 := issueRead 0x1FE00 256 r1.1
    let r3 := checkStreams 0 1 (nbProgOf 0x1FF80 nbDesc nbCode).rva (usedStreams (nbProgOf 0x1FF80 nbDesc nbCode).uops) none r2.1
    r1.2 = .inl nbDesc ∧ r2.2 = .inl nbCode ∧ r3.2 = .inl (some 0) ∧ opHeld nearRun.cur 5 = false ∧ unitRoom r3.1 0 = true ∧
    stackPresent r3.1 (0 / 64) = true := by decide +kernel
def landing_ (s : State) : State := { s with lwin := [(15, ⟨0x1FF00, 0x20000, true, 1⟩)] }
theorem wit_NearMemory_cland : let s := landing_ (near (at_ 0x1FF00))
    (s.cur.sget2 4).toNat % 256 = 0 ∧ opHeld s.cur 3 = false ∧ wpmBlocks s.cur 0x1FF00 256 = false ∧
    translate 0 1 0x1FF00 .write s = (s, .inl 0x1FF00) ∧ landsFor s 1 0x1FF00 256 = true ∧ nearReady s = true ∧ isSpec s 1 = false :=
  ⟨by decide, by decide, by decide, rfl, by decide, by decide, by decide⟩
/-- A packet at 0x1FFC0 that names the graph at 0x1FF40, of one node. -/
def qsubbing : State :=
  withBytes 0x1FFC0 8 0x1FF40 (withBytes 0x1FFD4 12 (2 ^ 96 - 1) (withBytes 0x1FFF0 6 0x0001_0001_0101 (withBytes 0x1FF40 8 0x1_00000001
    (withBytes 0x1FF50 8 0x18000 (near (at_ 0x1FFC0))))))
def qPacket : List W8 := bytesFrom qsubbing 0x1FFC0 64
def qHeader : List W8 := bytesFrom qsubbing 0x1FF40 64
theorem wit_NearMemory_qsub :
    let r1 := issueRead 0x1FFC0 64 qsubbing
    let r2 := issueRead (qGraph qPacket) 64 r1.1
    let r3 := issueRead (wrap64 (gPmap qHeader + qEntry qPacket 0)) 1 r2.1
    packetFault 0x1FFC0 qPacket = none ∧ headerOk qHeader = true ∧ qEntry qPacket 0 < gNnode qHeader ∧ r1.2 = .inl qPacket ∧
    r2.2 = .inl qHeader ∧ r3.2 = .inl [0] ∧ leNat [0] ≤ 15 ∧ stackPresent r3.1 (leNat [0]) = true ∧ opHeld qsubbing.cur 4 = false ∧
    admitted r3.1 (leNat [0]) = true := by decide +kernel
def landed (opc : Nat) : Landing :=
  { tid := some 16, op := 9, opc := opc, cid := 1, line := 0x3FF, mask := List.replicate 128 true, data := List.replicate 128 1, va := 0x1FF80 }
theorem wit_LandingPackets : let s := { landing_ one with landing := [landed 4] }
    let t := { one with landing := [landed 0] }
    (s.landing[0]? = some (landed 4) ∧ (landed 4).applied = none ∧ landReady s (landed 4) = true ∧ homeGone s (128 * 0x3FF) = false ∧
      landsFor s 1 (128 * 0x3FF) 128 = true ∧ (landed 4).data.length = 128 ∧ (∀ b, b ∈ (landed 4).mask → b = true) ∧
      Memory.wf 0 s.mem = true) ∧
    (t.landing[0]? = some (landed 0) ∧ landReady t (landed 0) = true ∧ landsFor t 1 (128 * 0x3FF) 128 = false ∧ (landed 0).seen = false) := by decide
theorem wit_LandingPackets_applied (g : Nat) (h : g = 999 ∨ g = 1000) :
    let s := { landing_ one with landing := [{ landed 4 with applied := some g }] }
    s.landing[0]? = some { landed 4 with applied := some g } ∧ (g < s.time ∨ s.time ≤ g) := by rcases h with rfl | rfl <;> decide

/-- A graph of one node at 0x18000 with 32 FP32 elements, whose placement byte at 0x1C000 and record are of stack 0. -/
def gHeader : List W8 := toBytes 4 1 ++ toBytes 4 1 ++ toBytes 8 0x18000 ++ toBytes 8 0x1C000 ++ toBytes 2 7 ++ toBytes 2 32 ++ toBytes 36 0
def gPacket : List W8 := toBytes 8 0x1FF40 ++ toBytes 8 0x1D000 ++ toBytes 4 0 ++ toBytes 12 (2 ^ 96 - 1) ++ toBytes 16 0 ++ toBytes 16 0x0001_0001_0101
def query_ (l : List QDist) : Query :=
  { tid := 16, op := 9, cid := 1, home := 0, wid := 0, pkt := gPacket, hdr := gHeader, list := l }
def asking (q : Query) : State := withBytes 0x18000 8 0x1E000 { near warp with queries := [(9, q)] }
def node (id : Nat) : QDist := ⟨id, 0xFFFFFFFF, none, none⟩
/-- Node 0 is read, node 1 does not exist. -/
theorem wit_GraphQueries_distance :
    let s := asking (query_ [node 0, node 1])
    let r1 := readNode 1 gHeader 0 s
    let r := bytesFrom s 0x18000 384
    let r2 := cerRead 1 (recEmb r) (gDim gHeader * embSize gHeader) 0 r1.1
    let r3 := cerRead 1 (qVec gPacket) (4 * gDim gHeader) 0 r2.1
    tfind s.queries 9 = some (query_ [node 0, node 1]) ∧ (query_ []).lost = none ∧ headerFull gHeader = true ∧ r1.2 = .good r 0 ∧ r2.2.2.2 = .none ∧
    r3.2.2.2 = .none ∧ (readNode 1 gHeader 1 s).2 = .bad ∧ qFlags gPacket = 0 ∧ (node 1).parent = 0xFFFFFFFF := by decide +kernel
/-- A query whose context is being destroyed, at a round boundary. -/
theorem wit_GraphQueries_dead : let x := query_ [⟨0, 0xFFFFFFFF, some 0, none⟩]
    let s := { asking x with ctxs := [(1, { cores := [0], dying := true : Ctx })] }
    tfind s.queries 9 = some x ∧ x.lost = none ∧ x.stopped = false ∧ issuerDead s x.tid x.cid = true ∧
    (∀ e, e ∈ x.list → e.d.isSome = true) := by decide +kernel
theorem wit_GraphQueries_rounds :
    let s := asking (query_ [])
    let t := asking { query_ [] with entryDone := true, c := [⟨0, 0, true, 0⟩] }
    let u := asking { query_ [] with stopped := true, gw := some 999 }
    issuerDead s 16 1 = false ∧ headerFull gHeader = true ∧ (query_ []).entryDone = false ∧ (query_ []).v = [] ∧
    issuerDead t 16 1 = false ∧ (∀ c, c ∈ [(⟨0, 0, true, 0⟩ : Cand)] → c.exp = true) ∧
    issuerDead u 16 1 = false ∧ qFuture gPacket = 0 ∧ 999 < u.time := by decide
/-- A program of one micro-op in unit 0. -/
def prog (w : W64) : NbProg := { tid := 16, op := 9, cid := 1, uops := [w], bmask := 1, rva := [0x100000], str := [0], progress := 0, sc := [] }
def bankRun (p : NbProg) : State := { near warp with nb := [(0, { run := some p : NbUnit })] }
theorem wit_NearBankPrograms (w : W64) (hw : w = 0 ∨ w = 1) :
    let q := { near warp with nb := [(0, { queue := [prog w] : NbUnit })] }
    Memory.wf ({} : NbUnit) q.nb = true ∧ (q.unit 0).run = none ∧ (q.unit 0).queue = [prog w] ∧ progDead q (prog w) = false ∧
    (prog w).lost = none ∧ (isData ((prog w).uops.getD 0 0) = true ∨ uopOf ((prog w).uops.getD 0 0) = 0) := by
  rcases hw with rfl | rfl <;> decide
/-- END, SCALE, a LOOP that is over and one that goes back to micro-op 1, and SYNC, each before a row operation or END. -/
def ops_ (l : List W64) : NbProg := { prog 0 with uops := l, progress := 0x1FFF8, sc := [0x3F800000] }
theorem wit_NearBankPrograms_ops (l : List W64) (h : l = [0] ∨ l = [5, 0] ∨ l = [6, 0] ∨ l = [0x0000_0002_0001_0006, 1] ∨ l = [7, 2]) :
    let p := ops_ l
    let s := bankRun p
    (s.unit 0).run = some p ∧ progHeld s 0 p = false ∧ Memory.wf [] p.acc = true ∧ accRow p 15 = [] ∧
    ([0, 5, 6, 7].contains (uopOf (nbOp p)) = true) ∧
    (uopOf (nbOp p) ≠ 0 → isData (nbOp { p with mpc := 1 }) = true ∨ uopOf (nbOp { p with mpc := 1 }) = 0) ∧
    (l = [6, 0] → uCount (nbOp p) ≤ p.i + 1) ∧ (l = [0x0000_0002_0001_0006, 1] → p.i + 1 < uCount (nbOp p) ∧ uTarget (nbOp p) = 1) ∧
    walkAddr s 1 p.progress .write = .inl 0x1FFF8 ∧ homeGone s 0x1FFF8 = false ∧ hostHolds s 0 0x1FFF8 8 = false ∧
    Memory.wf 0 s.mem = true := by
  rcases h with rfl | rfl | rfl | rfl | rfl <;> decide +kernel
/-- A write and a read of a row, the last of their banks before END or the first before another bank, with a request queued or none. -/
theorem wit_NearBankPrograms_rows (w : W64) (m : BitVec 16) (r : List (Nat × Nat)) (hw : w = 1 ∨ w = 2) (hm : m = 1 ∨ m = 3) (hr : r = [] ∨ r = [(0, 32)]) :
    let p := { ops_ [w, 0] with bmask := m }
    let s := { near warp with nb := [(0, { run := some p, reqs := r : NbUnit })] }
    uopOf (nbOp p) = w.toNat ∧ (s.unit 0).susp = none ∧ progHeld s 0 p = false ∧ uFmt (nbOp p) = false ∧
    (rowAt 0 p (uRs (nbOp p)) (rowNeed p (uRs (nbOp p))) s).2 = .inl 0x100000 ∧
    (∀ l, l ∈ rowLines 0x100000 p.bank → homeGone s (128 * l) = false ∧ (s.l2line l).dirty = false ∧ poisoned s (128 * l) 128 = false) ∧
    (let next := nbOp (if (banksOf m).all fun b => b ≤ p.bank then { p with mpc := p.mpc + 1 } else p)
     isData next = true ∨ uopOf next = 0) ∧ requested (s.unit 0) = !r.isEmpty ∧
    Memory.wf 0 s.mem = true ∧ Memory.wf 0 (accRow p p.bank) = true ∧ Memory.wf [] p.acc = true := by
  rcases hw with rfl | rfl <;> rcases hm with rfl | rfl <;> rcases hr with rfl | rfl <;> decide +kernel
theorem wit_NearBankPrograms_suspended :
    let s := { near warp with time := 20000, nb := [(0, { run := some (ops_ [1, 0]), susp := some 0, quiet := 0 : NbUnit })] }
    let c := { near warp with nb := [(0, { run := some { prog 0 with ended := true, lease := 999, fault := some (0x12, 5) } : NbUnit })] }
    ((s.unit 0).susp = some 0 ∧ requested (s.unit 0) = false ∧ (s.unit 0).quiet + ticksNs s s.nbWindow < s.time) ∧
    (rowAt 0 (ops_ [1, 0]) (uRs (nbOp (ops_ [1, 0]))) (rowNeed (ops_ [1, 0]) (uRs (nbOp (ops_ [1, 0])))) s).2 = .inl 0x100000 ∧
    (progHeld s 0 (ops_ [1, 0]) = false ∧ isData (nbOp (ops_ [1, 0])) = true ∧ 0 + ticksUs s s.nbMaxsusp ≤ s.time ∧ Memory.wf 0 s.nbCnt = true) ∧
    (∀ l, l ∈ rowLines 0x100000 0 → homeGone s (128 * l) = false ∧ poisoned s (128 * l) 128 = false) ∧
    (progDead c (prog 0) = false ∧ 999 < c.time ∧ thas (c.thread 16).pendFault 5 = false) := by decide +kernel
theorem wit_MemoryControllers :
    let x : NbUnit := { wq := [(0, 32)], reqs := [(64, 32)], burst := [15], postponed := [(15, 6)] }
    let s := { one with nb := [(1023, x)] }
    let t := { one with nb := [(1023, { x with postponed := [(15, 7)] })] }
    rowGoing ({ run := some (ops_ [1, 0]) } : NbUnit) = true ∧ (s.unit 1023).run = none ∧ Memory.wf ({} : NbUnit) s.nb = true ∧ forwards x.wq (0, 32) = true ∧
    (x.wq.any fun w => meets w (32, 32)) = false ∧ (x.wq.any fun w => meets w (64, 32)) = false ∧ x.burst.contains 0 = false ∧ x.burst.contains 15 = true ∧
    tget 0 x.postponed 15 + 1 < 8 ∧ 8 ≤ tget 0 (t.unit 1023).postponed 15 + 1 ∧ Memory.wf 0 t.nbCnt = true := by decide
/-- A ring of 2^0 slots full, and one of 2^3 slots with room for two more, at 0x1FF00 with its slots at 0x10000. -/
def ring (n w : Nat) : State := withBytes 0x1FF00 8 0x10000 (withBytes 0x1FF08 1 n (withBytes 0x1FF10 8 w (base (sregs [(4, 0x1FF00), (6, 0xFF80)]))))
theorem wit_PuttingPackets (n w : Nat) (h : n = 0 ∧ w = 1 ∨ n = 3 ∧ w = 6) :
    let s := ring n w
    execMask h2 s ≠ 0 ∧ isSpec s 1 = false ∧ taskHeld s.cur = false ∧ storesDone s = true ∧ (s.cur.sget2 4).toNat % 256 = 0 ∧
    (s.cur.sget 6).toNat % 64 = 0 ∧ (s.cur.sget 6).toNat + 64 * 2 = s.curTask.size ∧
    translate 0 1 0x1FF00 .write s = (s, .inl 0x1FF00) ∧ homeGone s 0x1FF00 = false ∧ wpmBlocks s.cur 0x1FF00 64 = false ∧
    futureQuiet s 0x1FF00 = true ∧ mayRead s 0 16 0x1FF00 0x1FF00 64 = true ∧ poisonedTo s 16 0x1FF00 64 = false ∧
    spadHeld s.cur 0xFF80 128 = false ∧ spLoc s 1 0xFF80 128 = some (1, 0xFF80) ∧ spPoisoned s (1, 0xFF80) 128 = false ∧ bytesAt s.mem 0x1FF08 1 = n ∧ bytesAt s.mem 0x1FF10 8 = w ∧ bytesAt s.mem 0x1FF18 8 = 0 ∧ (0 + 2 ^ n < w + 1 ∨ w + 2 ≤ 0 + 2 ^ n) ∧
    Memory.wf 0 s.mem = true := by
  rcases h with ⟨rfl, rfl⟩ | ⟨rfl, rfl⟩ <;>
    exact ⟨by decide, by decide, by decide, by decide, by decide, by decide, by decide, rfl, by decide, by decide, by decide, by decide,
      by decide, by decide, by decide, by decide, by decide, by decide, by decide, by decide, by decide⟩
theorem wit_PuttingPackets_slots :
    let s := ring 3 6
    let e : TlbEnt := ⟨1, 0x10000, 16, 0x10000, true, true, false⟩
    (∀ j, j < 2 → ((s.core 0).tlb.find? fun e => e.covers 1 (slotVa 0x10000 3 (6 + j))) = some e ∧
      slotVa 0x10000 3 (6 + j) < 2 ^ 52 ∧ e.w = true ∧ e.wpm = false) ∧
    (∀ j, j < 2 → homeGone s (slotVa 0x10000 3 (6 + j)) = false ∧ futureQuiet s (slotVa 0x10000 3 (6 + j)) = true ∧
      slotVa 0x10000 3 (6 + j) + 64 ≤ 0x1FF00) ∧ slotVa 0x10000 3 6 + 64 ≤ slotVa 0x10000 3 7 := by decide

/-! Staging, stealing, swapping, retiring, speculation. -/

/-- Launch 3 of 16 identifiers on cores 0 and 1. -/
def launch3 : Launch := { cid := 1, st := .running, widths := [4], ext := [15], box := [16], partition := [0, 1], image := List.replicate 128 0 }
def idle0 : Core := { ctx := some 1 }
def range_ (lo hi : Nat) : Ent := { id := 4, kind := .range 3 lo hi, launch := some 3 }
def popping (lo hi : Nat) : State :=
  { one with cores := [(0, { idle0 with deque := [range_ lo hi] })], launches := [(3, launch3)] }
/-- The last identifier of a range, and one of two. -/
theorem wit_TasksStageAndStart_pop (lo : Nat) (h : lo = 14 ∨ lo = 15) : let s := popping lo 16
    (s.core 0).deque = [range_ lo 16] ∧ (range_ lo 16).split = false ∧ (s.core 0).spill = [] ∧ lo < 16 ∧ (s.core 0).staged.length < 2 ∧
    (∀ l, l ∈ s.launches → l.2.pendingTails = []) ∧ (s.launch 3).gsize = 0 ∧ (s.launch 3).shape = 0 ∧ clNtile (s.launch 3).image = 0 ∧
    canHold (s.core 0) (ceilTo (4 * cfgSpk4 (s.launch 3).teamcfg) 4 * 1024) (cfgNacc (s.launch 3).teamcfg) = true := by
  rcases h with rfl | rfl <;> decide
/-- A task with one buffer, of two bytes, which the next arrival makes FULL. -/
def tile2 : Rec := { base := 0x18000, fmt := 1, rank := 1, dim := [2, 1, 1, 1], stride := [1, 0, 0, 0], tshape := [2, 1, 1, 1] }
def filling : State :=
  { withTask { task1 with st := .staged, spad := bytesSet [] 0 8 (hdrWord 0 0 2 0), bufs := [{ off := 0, size := 256, lrec := tile2 }]
                          descs := [⟨5, 1, false, 0, [0, 0, 0, 0]⟩] } warp with mem := [] }
theorem wit_TasksStageAndStart_arrival : let s := filling
    (s.task 1).st = .staged ∧ thas s.tasks 1 = true ∧ (s.task 1).lost = none ∧ (s.task 1).stageFault = none ∧ hdrState (readHdr s 1 0) = 0 ∧
    hdrTarget (readHdr s 1 0) = 2 ∧ (readTile 0 1 (viewTag s 1) tile2 [0, 0, 0, 0] s).2 = ([0, 0], .none) ∧
    headerOf (s.task 1) 128 = none ∧ headerOf (s.task 1) 129 = none ∧
    Memory.wf 0 (s.task 1).spad = true := by decide +kernel
theorem wit_TasksStageAndStart_start :
    let s := { one with cores := [(0, { core0 with staged := [2] })], tasks := [(1, task1), (2, { cid := 1 })] }
    let g := { ganged warp with tasks := [(2, { cid := 1, core := 0, gang := some (7, 0) }), (3, { cid := 1, core := 1, gang := some (7, 1) })]
                                gangs := [(7, { launch := 3, members := [2, 3] : Gang })] }
    (s.core 0).lost = false ∧ restoreFirst s 0 = false ∧ pickStart s 0 (startOrder s 0) = some 2 ∧
    (g.gang 7).started = false ∧ gangReady g 7 = true ∧ (∀ k, k ∈ liveMembers g 7 → restoreFirst g (g.task k).core = false) := by decide

/-- Core 0 is the thief and core 1 the victim. -/
def stealing (thief victim : Core) (m : List Msg) : State :=
  { one with cores := [(0, thief), (1, victim)], launches := [(3, launch3)], msgs := m }
def attempt_ (copy : Option Ent) : Attempt := ⟨1, 9, 1001, copy, 1000⟩
def thief_ (copy : Option Ent) : Core := { idle0 with thief := some (attempt_ copy) }
theorem wit_StealExchange_attempt :
    let s := stealing idle0 { idle0 with deque := [range_ 0 16], staged := [7, 8] } [⟨0, 0, 1, 9, none⟩]
    let t := stealing idle0 idle0 [⟨0, 0, 1, 9, none⟩]
    isIdle (s.core 0) = true ∧ popDue s 1 = false ∧ popDue t 1 = false ∧ (s.core 0).ctx ≠ none ∧ mayGoFar s 0 = false ∧ localVictim s 0 = some 1 ∧
    coldest s 1 0 = some (range_ 0 16) ∧ coldest t 1 0 = none ∧ stagedGift t 1 0 = none ∧ (t.core 1).lost = false ∧
    tfind (s.core 1).lends 0 = none ∧ tfind (t.core 1).lends 0 = none := by decide +kernel
theorem wit_StealExchange_offer :
    let s := stealing (thief_ none) idle0 [⟨1, 0, 1, 9, some (range_ 8 16)⟩, ⟨1, 0, 1, 9, none⟩]
    let t := stealing (thief_ (some (range_ 8 16))) idle0 [⟨3, 0, 1, 9, some (range_ 8 16)⟩, ⟨4, 0, 1, 9, none⟩]
    (s.core 0).thief = some (attempt_ none) ∧ (∀ m, m ∈ s.msgs → offerFresh s m = false) ∧ s.time < (attempt_ none).offerDue ∧
    (t.core 0).thief = some (attempt_ (some (range_ 8 16))) ∧ (attempt_ (some (range_ 8 16))).copy ≠ none ∧
    (attempt_ (some (range_ 8 16))).ackDue ≤ t.time ∧ (attempt_ none).offerDue ≤ ({ s with time := 1001 } : State).time := by decide
theorem wit_StealExchange_ack :
    let l : Lend := { tag := 9, ent := some 4, due := 1001 }
    let s := fun (l : Lend) => stealing idle0 { idle0 with deque := [{ range_ 8 16 with lent := some 0 }], lends := [(0, l)] } [⟨2, 0, 1, 9, none⟩]
    ((s l).core 0).lost = false ∧ ({ s l with cores := [(0, { idle0 with lost := true }), (1, { idle0 with lends := [(0, l)] })] } : State).core 0 =
      { idle0 with lost := true } ∧ (tfind ((s l).core 1).lends 0 = some l ∧ l.given = none ∧ l.kept = false ∧ (s l).time < l.due ∧
      (((s l).core 1).deque ++ ((s l).core 1).spill).find? (fun x => x.id == 4) = some { range_ 8 16 with lent := some 0 }) ∧
    tfind ((s { l with given := some (range_ 8 16) }).core 1).lends 0 = some { l with given := some (range_ 8 16) } ∧
    tfind ((s { l with kept := true }).core 1).lends 0 = some { l with kept := true } ∧ l.due ≤ ({ s l with time := 1001 } : State).time := by
  decide
/-- A warp blocked in `mwait`, asked for; saved, with its word changed; and one that no core can ever take. -/
theorem wit_SwapsRestoresAndHandlers :
    let s := { waiting (watch false false 0) none with tasks := [(1, { task1 with preempt := true })] }
    let t := { waiting (watch true false 0) none with
      tasks := [(1, { task1 with st := .swapped, launch := some 3 })], launches := [(3, launch3)], cores := [(0, idle0)] }
    let u := { one with tasks := [(1, { task1 with st := .swapped })] }
    (longestBlocked s 0 (fun k => (s.task k).preempt && (swapSet s k).isSome) = some 1 ∧ swapSet s 1 = some [1] ∧ (s.task 1).st = .running) ∧ swapSet one 1 = none ∧
    ((t.task 1).st = .swapped ∧ (t.task 1).ending = false ∧ (t.task 1).fatal = [] ∧ (t.task 1).gang = none ∧ wakeHolds t 1 = true ∧
      restoreCore t 1 = some 0) ∧ (t.task 1).record = none ∧ neverRestored u 1 = true ∧ isSpec u 1 = false := by decide
theorem wit_SwapsRestoresAndHandlers_never :
    let t := { one with tasks := [(1, { task1 with st := .swapped, launch := some 3 })], launches := [(3, { launch3 with partition := [0] })] }
    neverRestored t 1 = false := by
  show (decide (Config.poolBlocks 0 0 - 0 < 0) && true) = false
  simp
theorem wit_SwapsRestoresAndHandlers_record :
    let t := { waiting (watch true false 0) none with
      mem := pages, poison := [0x1FF08], tasks := [(1, { task1 with st := .swapped, launch := some 3, record := some (0x1FF00, 64) })]
      launches := [(3, { launch3 with partition := [0] })], cores := [(0, idle0)] }
    (t.task 1).st = .swapped ∧ (t.task 1).fatal = [] ∧ isSpec t 1 = false ∧ wakeHolds t 1 = true ∧ recordBad t 1 = true ∧
      neverRestored t 1 = false := by
  refine ⟨by decide, by decide, by decide, by decide, by decide, ?_⟩
  show (decide (Config.poolBlocks 0 0 - 0 < 0) && true) = false
  simp
theorem wit_SwapsRestoresAndHandlers_handler :
    let s := handled task1 { warp with lanes := { st := .parked, sub := 3 } :: { st := .parked, sub := 4 } :: warp.lanes.drop 2 }
    unitTid s 0 0 = some 16 ∧ hasHandler s 1 = true ∧ (s.taskT 16).fatal = [] ∧ (∀ x, x ∈ (s.thread 16).lanes → x.inHandler = false) ∧
    (∃ x, x ∈ (s.thread 16).lanes ∧ waitsForHandler x = true ∧ x.sub = 3) ∧
    (∀ x, x ∈ (s.thread 16).lanes → waitsForHandler x = true → 3 ≤ x.sub) ∧ (∀ x, mayJoin (s.thread 16) x = false) :=
  ⟨by decide, by decide, by decide, by decide, ⟨{ st := .parked, sub := 3 }, by decide, rfl, rfl⟩, by decide, fun _ => rfl⟩
def done_ : Thread := { warp with lanes := List.replicate 64 { st := .exited }, maxw := 999, retired := true }
def retiring (f : Nat) : State := { paged done_ with tasks := [(1, { task1 with written := true, wbGw := 999, out := .full 5, future := f })] }
theorem wit_RetirementAndFatalFaults_retire (f : Nat) (h : f = 0 ∨ f = 0x1FFE0) : let s := retiring f
    mayRetire { s with threads := [(16, { done_ with retired := false })] } 16 = true ∧ (s.task 1).st = .running ∧ (s.task 1).fatal = [] ∧
    isSpec s 1 = false ∧ (∀ i, i ∈ s.tids 1 → (s.thread i).retired = true) ∧ (s.task 1).wbGw < s.time ∧ (s.task 1).fout = none ∧
    (s.thread 16).joined = none ∧ owesWriteBack s 1 = false ∧
    walkAddr s 1 0x1FFE0 .write = .inl 0x1FFE0 ∧ homeGone s 0x1FFE0 = false ∧ poisoned s 0x1FFE0 1 = false ∧
    bytesAt s.mem 0x1FFE0 1 = 0 ∧ futureQuiet s 0x1FFE0 = true ∧ Memory.wf 0 s.mem = true := by
  rcases h with rfl | rfl <;> decide
theorem wit_RetirementAndFatalFaults_fatal :
    let c : DumpCause := ⟨0x20, 0, 0xFF, 0xFF, 0, 0⟩
    let s := withTask { task1 with st := .swapped, fatal := [c], dump := .over } warp
    isSpec (withTask { task1 with tag := some 5 } warp) 1 = true ∧ isSpec one 1 = false ∧ (one.task 1).fatal = [] ∧ (one.task 1).dump = .idle ∧ (one.task 1).st = .running ∧
    (s.task 1).fatal = [c] ∧ (s.task 1).dump = .over ∧ isSpec s 1 = false ∧ (s.task 1).future = 0 ∧ storesLeft 1 s = false ∧
    (∀ i, i ∈ s.tids 1 → (s.thread i).joined = none) := by decide
/-- A speculative launch: its record holds 3, or 17, which its width of 4 bits cannot; the last tag. -/
def speculating (st : LSt) (n : Nat) : State :=
  withBytes 0x1FF00 4 n { one with launches := [(3, { launch3 with st := st, tag := some 63, shapePa := 0x1FF00, lb := [1], deadline := 1000 })] }
theorem wit_SpeculationSettles :
    let s := speculating .resolving 3
    let b := speculating .resolving 17
    let t := speculating .speculating 0
    let q := speculating .squashing 0
    let d := speculating .draining 0
    ((s.launch 3).tag = some 63 ∧ (s.launch 3).st = .resolving ∧ (s.launch 3).truth = [] ∧ (s.launch 3).widths ≠ [] ∧ shapeBad (s.launch 3) (shapeExt s (s.launch 3)) = false ∧
      mergeReady s (mergeLines s (s.launch 3) 63 (shapeExt s (s.launch 3))) = true) ∧
    shapeBad (b.launch 3) (shapeExt b (b.launch 3)) = true ∧ (t.launch 3).deadline ≤ t.time ∧ (t.launch 3).st = .speculating ∧
    (q.launch 3).merges = [] ∧ (q.launch 3).squashes = [] ∧ (q.launch 3).st = .squashing ∧
    tagCarried d 3 = false ∧ (d.launch 3).st = .draining := by decide
/-- A task of the tag with a future, and one of a root that is in the true shape and one of a root that is not. -/
theorem wit_SpeculationSettles_tasks :
    let k : Task := { task1 with tag := some 63, launch := some 3, ident := true, root := 2, future := 0x1FFE0 }
    let b := { speculating .resolving 17 with tasks := [(1, k)], threads := [(16, { warp with retired := true })], mem := bytesSet pages 0x1FF00 4 17 }
    let s := { speculating .resolving 3 with tasks := [(1, k), (2, { k with root := 3, future := 0 })] }
    ((b.task 1).tag = some 63 ∧ (b.task 1).st ≠ .done ∧ (b.task 1).st ≠ .dead ∧ taggedTasks b 63 = [1]) ∧
    ((b.cores.flatMap fun c => lostFutures (b.launch 3) 63 [] (c.2.deque ++ c.2.spill)) ++
      ((taggedTasks b 63).map fun k => ((b.task k).future, (b.task k).root)) ++ (b.launch 3).doneRoots.map fun d => (d.future, d.root)) =
        [(0x1FFE0, 2)] ∧
    ((b.launch 3).squashes = [] ∧ (∀ i, i ∈ b.tids 1 → (b.thread i).joined = none) ∧ walkAddr b 1 0x1FFE0 .write = .inl 0x1FFE0 ∧
      homeGone b 0x1FFE0 = false ∧ poisoned b 0x1FFE0 1 = false ∧ futureQuiet b 0x1FFE0 = true ∧ bytesAt b.mem 0x1FFE0 1 = 0 ∧
      Memory.wf 0 b.mem = true) ∧
    (∀ x, x ∈ b.launches → x.2.pendingTails = []) ∧ isCommitted (s.launch 3) (shapeExt s (s.launch 3)) (s.task 1).root = true ∧
    isCommitted (s.launch 3) (shapeExt s (s.launch 3)) (s.task 2).root = false := by decide

/-! Queues, packets, launches. -/

/-- Queue 5 in slot 7, its control block at 0x10000 with a ring of 4 slots at 0x11000. -/
def queued (ps : List (Nat × Pkt)) : State :=
  withBytes 0x10000 9 (0x11000 + 2 * 2 ^ 64) { paged warp with
    queues := [(5, { cid := 1, qcb := 0x10000, send := false, slot := some 7, idle := false })]
    slots := [(7, { qid := some 5, lastQid := some 5 })], packets := ps }
def pk (kind n : Nat) : Pkt :=
  { qid := 5, index := 0, addr := 0x11000, kind := kind, barrier := false, intr := false, bytes := toBytes 64 (kind + n) }
def sending (kind n : Nat) : State := queued [(3, pk kind n)]
theorem wit_FrontEnd_notify : let s := sending 0 0
    tfind s.queues (0x1005 % 2 ^ 12) = some (s.queue 5) ∧ (s.queue 5).slot = some 7 ∧ tfind s.queues (6 % 2 ^ 12) = none := by decide
/-- An empty slot, a header with a wrong HCHK, and the header of a NOP. -/
def slotted (n : Nat) : State := withBytes 0x11000 8 n (queued [])
theorem wit_FrontEndReadsRings (n : Nat) (h : n = 0 ∨ n = 0xA500_0000_0001_0000 ∨ n = 0xA55B_0000_0001_0000) : let s := slotted n
    let q := s.queue 5
    (tget {} s.slots 7 : Slot).qid = some 5 ∧ q.idle = false ∧ q.send = false ∧ q.dying = false ∧ q.heldWait = none ∧ q.errOwed = none ∧ qErr s q = 0 ∧
    (queuePkts s 5).any (fun e => !e.2.started) = false ∧ slotVa (qRbase s q) (qLog2n s q) (qRdidx s q) = 0x11000 ∧
    AgentReads s 1 0x11000 64 0x11000 := by
  rcases h with rfl | rfl | rfl <;>
    exact ⟨by decide, by decide, by decide, by decide, by decide, by decide, by decide, by decide, by decide, by decide, by decide, by decide, by decide⟩
theorem wit_FrontEndReadsRings_headers : (bytesFrom (slotted 0) 0x11000 64).getD 7 0 ≠ 0xA5 ∧
    (let b := bytesFrom (slotted 0xA500_0000_0001_0000) 0x11000 64
     b.getD 7 0 = 0xA5 ∧ fieldAt b 0 8 / 2 ^ 48 % 256 ≠ hchk (fieldAt b 0 8)) ∧
    (let b := bytesFrom (slotted 0xA55B_0000_0001_0000) 0x11000 64
     b.getD 7 0 = 0xA5 ∧ headerError (fieldAt b 0 8) 0 1 false = 0 ∧ bodyError b = 0 ∧ fieldAt b 0 1 ≠ 1) := by decide
theorem wit_FrontEndWrites : let s := queued []
    AgentWrites s 1 (slotVa (qRbase s (s.queue 5)) (qLog2n s (s.queue 5)) 7) 8 0x110C0 ∧
    AgentWrites s 1 ((s.queue 5).qcb + 0x18) 8 0x10018 :=
  ⟨⟨by decide, by decide, by decide, by decide, by decide, by decide⟩, by decide, by decide, by decide, by decide, by decide, by decide⟩
/-- The slot and RDIDX that consuming the NOP writes. -/
theorem wit_FrontEndReadsRings_consume : let s := slotted 0xA55B_0000_0001_0000
    futureQuiet s 0x11000 = true ∧ AgentWrites s 1 (slotVa (qRbase s (s.queue 5)) (qLog2n s (s.queue 5)) (qRdidx s (s.queue 5))) 8 0x11000 ∧
    AgentWrites s 1 ((s.queue 5).qcb + 0x18) 8 0x10018 :=
  ⟨by decide, ⟨by decide, by decide, by decide, by decide, by decide, by decide⟩, by decide, by decide, by decide, by decide, by decide, by decide⟩
theorem wins_pk (k n : Nat) (h : (k, n) = (0, 0) ∨ (k, n) = (7, 0)) : Wins (sending k n) 3 k (pk k n) := by
  rcases h with h | h <;> obtain ⟨rfl, rfl⟩ := Prod.mk.inj h <;> exact ⟨7, by decide, by decide, by decide, by decide⟩
def copyBody : Nat := 0x12000 * 2 ^ 64 + 0x13000 * 2 ^ 128 + 128 * 2 ^ 192
theorem wit_PacketsStart_copy (n : Nat) (h : n = copyBody ∨ n = copyBody + 2 ^ 192 * 2 ^ 192) : let s := sending 3 n
    Wins s 3 3 (pk 3 n) ∧ 223 < Config.cores ∧ (s.core 223).lost = false ∧ (s.core 223).cpy.length < 64 := by
  rcases h with rfl | rfl <;> exact ⟨⟨7, by decide, by decide, by decide, by decide⟩, by decide, by decide, by decide⟩
theorem wit_PacketsStart_copyFault : copyFault (pk 3 copyBody).bytes = none ∧ copyFault (pk 3 (copyBody + 2 ^ 192 * 2 ^ 192)).bytes ≠ none := by decide
def fillBody : Nat := 0x1FF80 * 2 ^ 64 + 128 * 2 ^ 128 + 0x0807060504030201 * 2 ^ 192 + 8 * 2 ^ 256
theorem wit_PacketsStart_fill : let s := sending 4 fillBody
    let b := (pk 4 fillBody).bytes
    Wins s 3 4 (pk 4 fillBody) ∧ transferBad b = false ∧ Memory.wf 0 s.mem = true ∧ fieldAt b 8 8 % fieldAt b 0x20 1 = 0 ∧
    fieldAt b 0x10 8 % fieldAt b 0x20 1 = 0 ∧ AgentWrites s 1 (fieldAt b 8 8) (fieldAt b 0x10 8) 0x1FF80 :=
  ⟨⟨7, by decide, by decide, by decide, by decide⟩, by decide, by decide, by decide, by decide, by decide, by decide, by decide,
    by decide, by decide, by decide⟩
/-- A packet that is over, and a FILL with a future. -/
theorem wit_PacketsComplete :
    let n := fillBody + 0x1FFE0 * 2 ^ 160 * 2 ^ 160
    let s := queued [(3, { pk 0 0 with started := true, done := true, gwct := 999, intr := true, intrx := true }),
                     (4, { pk 4 n with started := true, done := true })]
    tsorted s.packets 0 = true ∧ 999 < s.time ∧ fieldAt (pk 4 n).bytes 0x28 8 = 0x1FFE0 ∧
    walkAddr s (s.queue 5).cid 0x1FFE0 .write = .inl 0x1FFE0 ∧ homeGone s 0x1FFE0 = false ∧ poisoned s 0x1FFE0 1 = false ∧
    bytesAt s.mem 0x1FFE0 1 = 0 ∧ futureQuiet s 0x1FFE0 = true ∧ Memory.wf 0 s.mem = true := by decide
def signalBody (op t : Nat) : Nat := t * 2 ^ 64 + (2 ^ 64 - 1) * 2 ^ 128 + op * 2 ^ 192 + 4 * 2 ^ 200
theorem wit_Signals (op t : Nat) (h : (op, t) = (0, 0x1FFF8) ∨ (op, t) = (1, 0x1FFF8) ∨ (op, t) = (2, 0x1FFE0) ∨ (op, t) = (0, 2 ^ 25) ∨
      (op, t) = (1, 2 ^ 25) ∨ (op, t) = (2, 2 ^ 25)) :
    Wins (sending 5 (signalBody op t)) 3 5 (pk 5 (signalBody op t)) ∧ fieldAt (pk 5 (signalBody op t)).bytes 8 8 = t ∧
    fieldAt (pk 5 (signalBody op t)).bytes 0x18 1 = op := by
  rcases h with h | h | h | h | h | h <;> obtain ⟨rfl, rfl⟩ := Prod.mk.inj h <;>
    exact ⟨⟨7, by decide, by decide, by decide, by decide⟩, by decide, by decide⟩
theorem wit_Signals_targets : let s := sending 5 (signalBody 1 0x1FFF8)
    AgentWrites s 1 0x1FFF8 8 0x1FFF8 ∧ poisoned s 0x1FFF8 8 = false ∧ walkAddr s 1 0x1FFE0 .write = .inl 0x1FFE0 ∧
    homeGone s 0x1FFE0 = false ∧ poisoned s 0x1FFE0 1 = false ∧ bytesAt s.mem 0x1FFE0 1 = 0 ∧ futureQuiet s 0x1FFE0 = true ∧
    bytesAt (withBytes 0x1FFE0 1 1 s).mem 0x1FFE0 1 ≠ 0 ∧
    walkAddr s 1 (2 ^ 25) .write = .inr 0x10 ∧ (0x10 : W8) ≠ 0x12 ∧ upfOf s 1 = false ∧ (s.queue 5).slot = some 7 :=
  ⟨⟨by decide, by decide, by decide, by decide, by decide, by decide⟩, by decide⟩
/-- A WAIT of each condition at 0x1FFF8, met or not by the value there; one held, and one whose time is up. -/
def waitBody (code us : Nat) : Nat := 0x1FFF8 * 2 ^ 64 + 5 * 2 ^ 128 + 0xFF * 2 ^ 192 + code * 2 ^ 256 + us * 2 ^ 144 * 2 ^ 144
theorem wit_Waits (code v : Nat) (h : (code, v) = (0, 5) ∨ (code, v) = (3, 0)) : let s := withBytes 0x1FFF8 8 v (sending 6 (waitBody code 1))
    let b := (pk 6 (waitBody code 1)).bytes
    Wins s 3 6 (pk 6 (waitBody code 1)) ∧ fieldAt b 0x20 1 = code ∧ code < 4 ∧ bytesAt s.mem 0x1FFF8 8 = v ∧
    (consumeReady (s.queue 5) 0 1 s).2 = .none ∧
    AgentReads s 1 (fieldAt b 8 8) (if code = 3 then 1 else 8) 0x1FFF8 := by
  rcases h with h | h <;> obtain ⟨rfl, rfl⟩ := Prod.mk.inj h <;>
    exact ⟨⟨7, by decide, by decide, by decide, by decide⟩, by decide, by decide, by decide, by decide, by decide, by decide, by decide, by decide,
      by decide⟩
theorem wit_Waits_held : let s := queued [(3, { pk 6 (waitBody 0 1) with started := true, deadline := some 1000 })]
    s.pkt 3 = some { pk 6 (waitBody 0 1) with started := true, deadline := some 1000 } ∧ 1000 ≤ s.time ∧ (s.queue 5).slot = some 7 ∧
    tsorted s.packets 0 = true := by decide
/-- A launch of 16 identifiers on core 0 from the template at 0x1FF80, and one whose widths say no level. -/
def launchBody (ww : Nat) : Nat := 0x40 * 2 ^ 64 + 0x1FF80 * 2 ^ 128 + ww * 2 ^ 192 + 15 * 2 ^ 256
theorem wit_LaunchesStart (ww : Nat) (h : ww = 4 + 2 ^ 36 ∨ ww = 0) :
    let s := withBytes 0x1FF80 8 0x40 (sending 1 (launchBody ww))
    Wins s 3 1 (pk 1 (launchBody ww)) ∧ launchOfPkt s 3 = none ∧
    (ww = 0 → earlyRefusal s 1 (reqOf (pk 1 (launchBody ww))) = some 0x02) := by
  rcases h with rfl | rfl <;> exact ⟨⟨7, by decide, by decide, by decide, by decide⟩, by decide, by decide +kernel⟩
theorem wit_LaunchesStart_template :
    let s := withBytes 0x1FF80 8 0x40 (sending 1 (launchBody (4 + 2 ^ 36)))
    let r := reqOf (pk 1 (launchBody (4 + 2 ^ 36)))
    earlyRefusal s 1 r = none ∧ r.shape = 0 ∧ r.gang = false ∧ r.closure % 128 = 0 ∧ AgentReads s 1 r.closure 128 0x1FF80 ∧
    templateBad r (launchImage r.teamcfg (bytesFrom s 0x1FF80 128)) = none ∧ s.stitching = false ∧ partition s 1 r.pmask = [0] ∧
    (∀ c, c ∈ [0] → (s.core c).deque.length < 512) ∧ 0 * r.total / 1 < (0 + 1) * r.total / 1 :=
  ⟨by decide +kernel, by decide, by decide, by decide, ⟨by decide, by decide, by decide, by decide, by decide⟩, by decide +kernel,
    by decide, by decide +kernel, by decide, by decide +kernel⟩
theorem wit_VfSettle : let s := { one with launches := [(3, { launch3 with vf := 2 })], ppoint := 1 }
    (∀ e, e ∈ ({ one with launches := [(3, launch3)] } : State).launches → e.2.st ≠ .complete → 8 ≤ e.2.vf) ∧
    (∀ e, e ∈ s.launches → e.2.st ≠ .complete ∧ e.2.vf < 8 ∧ ∀ f, f ∈ s.launches → f.2.st ≠ .complete → e.2.vf ≤ f.2.vf) := by decide
/-- A launch with no work left: with no DONE record, with one at 0x1FF80, and with its future still to complete. -/
def ending_ (done : Nat) (rec : Option Nat) : State :=
  { paged warp with tasks := [], cores := [(0, idle0)], launches := [(3, { launch3 with done := done, recGw := rec })] }
theorem wit_LaunchesComplete (done : Nat) (rec : Option Nat) (h : (done, rec) = (0, none) ∨ (done, rec) = (0x1FF80, none) ∨
      (done, rec) = (0x1FF80, some 999)) : let s := ending_ done rec
    thas s.launches 3 = true ∧ (s.launch 3).st = .running ∧ (s.launch 3).refused = none ∧ (s.launch 3).status = 0 ∧
    (s.launch 3).aborted = false ∧ (s.launch 3).linkDown = false ∧ Memory.wf 0 s.mem = true ∧ launchBusy s 3 = false ∧ 999 < s.time := by
  rcases h with h | h | h <;> obtain ⟨rfl, rfl⟩ := Prod.mk.inj h <;> decide
theorem wit_LaunchesComplete_record : let s := ending_ 0x1FF80 none
    AgentWrites s 1 (0x1FF80 + 0x40) 64 0x1FFC0 ∧ walkAddr s 1 0x1FF80 .write = .inl 0x1FF80 ∧ homeGone s 0x1FF80 = false ∧
    poisoned s 0x1FF80 1 = false ∧ bytesAt s.mem 0x1FF80 1 = 0 ∧ futureQuiet s 0x1FF80 = true :=
  ⟨⟨by decide, by decide, by decide, by decide, by decide, by decide⟩, by decide⟩

/-! Engine operations, leases, walks, slices, windows. -/

/-- One operation of the gather class, of lane 63, in a gang of two. -/
def gathering (k : EngKind) : State :=
  ganged { warp with ops := [{ id := 9, cls := 2, kind := k }] }
def glane : GLane := { lane := 63, va := 0x1FFF0, pa := 0x1FFF0, off := 0xFFF0, data := 2 ^ 128 - 1 }
theorem wit_GatherOperations (k : EngKind) (h : k = .vgth [glane] 16 ∨ k = .vsct [glane] 16 ∨ k = .vsct [] 1 ∨ k = .gld 2 2047 [glane] ∨
      k = .gst 2 [glane] ∨ k = .mst [glane] 16 [] ∨ k = .mst [glane] 16 [1, 2]) : let s := gathering k
    unitTid s 0 0 = some 16 ∧ opAt s 16 0 = some { id := 9, cls := 2, kind := k } ∧
    opReady s 16 { id := 9, cls := 2, kind := k } = true ∧ homeGone s glane.pa = false ∧ poisonedTo s 16 glane.pa 16 = false ∧
    spPoisoned s (1, 0xFFF0) 16 = false ∧ spPoisoned s (2, 0xFFF0) 4 = false ∧ isSpec s 1 = false ∧ hostHolds s 1 glane.pa 16 = false ∧ spLoc s 1 glane.off 16 = some (1, 0xFFF0) ∧ (s.task 1).bufs = [] ∧
    Memory.wf 0 (s.task 1).spad = true ∧ (s.task 2).bufs = [] ∧ Memory.wf 0 s.mem = true ∧
    gangOrder (s.thread 16) { id := 9, cls := 2, kind := k } 2 = true ∧ hasExited s 2 = false ∧ glane.lane < 64 ∧ 0 < s.time ∧
    (s.thread 16).pending = [] ∧ (s.thread 16).region = none := by
  rcases h with rfl | rfl | rfl | rfl | rfl | rfl | rfl <;> decide
theorem rows_ok : RowsOk ((gathering (.gld 2 2047 [glane])).thread 16) := ⟨by decide, fun _ => rfl⟩
theorem wit_GatherOperations_exited :
    let s := { gathering (.mst [glane] 16 [1, 2]) with tasks := [(1, { task1 with gang := some (7, 0) }), (2, { task1 with st := .done, gang := some (7, 1) })] }
    hasExited s 2 = true ∧ (s.taskT 16).gang = some (7, 0) ∧ 2 ∈ [1, 2] ∧
    gangOrder (s.thread 16) { id := 9, cls := 2, kind := .mst [glane] 16 [1, 2] } 2 = true := by decide
/-- A result due now and one due later; a walk's leaf, and an address that no entry maps; slices, one of them poisoned. -/
theorem wit_ResultsLeasesWalksAndSlices :
    let s := base { warp with pending := [⟨1000, .s 3 5⟩, ⟨1001, .s 4 6⟩] }
    (unitTid s 0 0 = some 16 ∧ (s.thread 16).pending = [⟨1000, .s 3 5⟩] ++ [⟨1001, .s 4 6⟩] ∧
      (∀ x, x ∈ [(⟨1000, .s 3 5⟩ : Pend)] → x.due ≤ s.time) ∧ ∀ x, x ∈ [(⟨1001, .s 4 6⟩ : Pend)].head? → s.time < x.due) ∧
    (let p := paged warp
     (∀ e, e ∈ (p.core 0).tlb → e.covers 1 0 = false) ∧ (∀ e, e ∈ tget [] p.dieTlb (dieOfCore 0) → e.covers 1 0 = false) ∧
      merged p 1 0 = false ∧ walkVia p (dieOfCore 0) 1 0 = .leaf ⟨1, 0, 25, 0, true, true, false⟩ ∧
      walkVia p (dieOfCore 0) 1 (2 ^ 52 - 1) = .bad 0x10 false) := by decide
/-- A stream of one element of BF16, the rest of it padding. -/
def streaming (poison : Bool) : State :=
  { one with cores := [(0, { core0 with streams := [{ stream 0 2 poison with lrec := { tile2 with fmt := 8, rank := 2, dim := [1, 1, 1, 1] } }] })] }
theorem wit_ResultsLeasesWalksAndSlices_slices (p : Bool) : let s := streaming p
    let x := ((s.core 0).streams.headD (stream 0 2 p))
    (s.core 0).streams[0]? = some x ∧ x.fifo < 4 ∧ fifoRoom s 0 (taskOf x.tid) x.fifo = true ∧ x.poison = p ∧ strmMay s x = true := by
  cases p <;> decide
theorem wit_ResultsLeasesWalksAndSlices_fetch : let s := streaming false
    let x := ((s.core 0).streams.headD (stream 0 2 false))
    (fetchSlice 0 x (strmBuf s x) s).2.2 = .none ∧ (fetchSlice 0 x (strmBuf s x) s).2.1.data.length = 1024 := by decide +kernel
theorem wit_ShootdownsAndRegisterBlocks :
    let x : Shoot := ⟨1, 2, 0x1000000, 1⟩
    let s := { one with shoots := [x] }
    shootHeld s x = false ∧ (∀ e, e ∈ ({ queued [] with shoots := [x] } : State).queues → e.2.errOwed = none) ∧ Memory.wf ({} : L2Line) s.l2 = true ∧ (63 : Nat) < 64 ∧ (15 : Nat) < 16 ∧ (3 : Nat) < 4 ∧
    (1 : W64).toNat % 2 ^ 32 ≠ 0 ∧ (0x1FFF8 : Nat) < 0x20000 := by decide

/-! The mailbox, Umber, links, the host, the fabric, reset and power. -/

/-- A command in the mailbox, with its arguments. -/
def mailed (opc : Nat) (args : List (Nat × W64)) : State := { paged warp with mbxOpc := BitVec.ofNat 16 opc, mbxArg := args }
/-- CTX_CREATE of no core, of one too many, of every core there is, and of as many as are free. -/
def creating (n : Nat) : State :=
  mailed 1 [(0, 0xFFFFF_FFFF_0000), (1, 0xFFFFF_FFFF_FFFC), (2, 0xFFFFF_FFFF_0000), (3, BitVec.ofNat 64 (n + 32 * 2 ^ 16)), (5, 0xFFFFF_FFFF_F000)]
theorem wit_MailboxContexts_create (n : Nat) (h : n = 0 ∨ n = 225 ∨ n = 224 ∨ n = 223 ∨ n = 1) : let s := creating n
    Takes s 1 ∧ argAt s 3 % 2 ^ 16 = n ∧ argAt s 3 / 2 ^ 16 % 2 ^ 8 = 32 ∧ addrOk (argAt s 0) 65536 = true ∧
    addrOk (argAt s 1) 4 = true ∧ addrOk (argAt s 2) 65536 = true ∧ addrOk (argAt s 5) 4096 = true ∧ workReady s = true ∧
    (freeCores s).length = 223 ∧ usedQuota s + 32 ≤ 32 ∧ freeCid s = some 2 ∧ hostIn s (s.ctxBase + 8 * 2) 8 = false ∧ Memory.wf 0 s.mem = true := by
  rcases h with rfl | rfl | rfl | rfl | rfl <;> exact ⟨⟨rfl, by decide, by decide, by decide⟩, by decide +kernel⟩
/-- CTX_DESTROY of a context that is not there, of one with a running task, and of one with nothing left. -/
theorem wit_MailboxContexts_destroy : let s := mailed 2 [(0, 1)]
    let u := { s with tasks := [] }
    Takes s 2 ∧ Takes u 2 ∧ thas s.ctxs (argAt s 0) = true ∧ tornDown s (argAt s 0) = false ∧ (s.task 1).st = .running ∧
    thas s.tasks 1 = true ∧ (s.task 1).cid = argAt s 0 ∧ tornDown u (argAt u 0) = true ∧ tsorted u.ctxs 0 = true ∧ Memory.wf 0 u.mem = true ∧
    hostIn u (u.ctxBase + 8) 8 = false ∧ (s.task 1).dump ≠ .over ∧ thas (mailed 2 [(0, 2)]).ctxs (argAt (mailed 2 [(0, 2)]) 0) = false :=
  ⟨⟨rfl, by decide, by decide, by decide⟩, ⟨rfl, by decide, by decide, by decide⟩, by decide⟩
/-- Q_CREATE of rings of 4 and of 16 as LOG2N, for packets and for sending; of a context that is not there. -/
def queueing (log2n send cid : Nat) : State :=
  withBytes 0x10000 9 (0x20000 + log2n * 2 ^ 64) (mailed 3 [(0, BitVec.ofNat 64 cid), (1, 0x10000), (2, BitVec.ofNat 64 send)])
theorem wit_MailboxQueues_create (l k : Nat) (h : (l, k) = (4, 0) ∨ (l, k) = (16, 1)) : let s := queueing l k 1
    Takes s 3 ∧ thas s.ctxs (argAt s 0) = true ∧ (s.ctx (argAt s 0)).dying = false ∧ addrOk (argAt s 1) 256 = true ∧ argAt s 2 < 2 ∧
    workReady s = true ∧ AgentReads s (argAt s 0) (argAt s 1) 16 0x10000 ∧ qcbOk (bytesFrom s 0x10000 16) = true ∧ freeQid s = some 1 ∧
    AgentWrites s (argAt s 0) (argAt s 1 + 0x0A) 4 0x1000A ∧ Memory.wf 0 s.mem = true := by
  rcases h with h | h <;> obtain ⟨rfl, rfl⟩ := Prod.mk.inj h <;>
    exact ⟨⟨rfl, by decide, by decide, by decide⟩, by decide, by decide, by decide, by decide, by decide,
      ⟨by decide, by decide, by decide, by decide, by decide⟩, by decide, by decide,
      ⟨by decide, by decide, by decide, by decide, by decide, by decide⟩, by decide⟩
/-- A context that is not there; a control block off its boundary, a kind that is none; before bring-up is over. -/
theorem wit_MailboxQueues_notFound : let s := queueing 4 0 2
    let b := { mailed 3 [(0, 1), (1, 0x10080)] with ready := 0x7F }
    let u := { queueing 4 0 1 with ready := 0x0F }
    thas s.ctxs (argAt s 0) = false ∧ Takes s 3 ∧ addrOk (argAt s 1) 256 = true ∧ workReady s = true ∧
    (Takes b 3 ∧ addrOk (argAt b 1) 256 = false) ∧ 2 ≤ argAt (queueing 4 2 1) 2 ∧ Takes (queueing 4 2 1) 3 ∧
    Takes u 3 ∧ addrOk (argAt u 1) 256 = true ∧ argAt u 2 < 2 ∧ workReady u = false :=
  ⟨by decide, ⟨rfl, by decide, by decide, by decide⟩, by decide, by decide, ⟨⟨rfl, by decide, by decide, by decide⟩, by decide⟩, by decide,
    ⟨rfl, by decide, by decide, by decide⟩, ⟨rfl, by decide, by decide, by decide⟩, by decide, by decide, by decide⟩
/-- Q_DESTROY of queue 5, which is mapped and has no packet, and of a queue that is not there. -/
theorem wit_MailboxQueues_destroy : let s := { queued [] with mbxOpc := 4, mbxArg := [(0, 5)] }
    let u := { queued [] with mbxOpc := 4, mbxArg := [(0, 6)] }
    Takes s 4 ∧ Takes u 4 ∧ thas u.queues (argAt u 0) = false ∧ thas s.queues (argAt s 0) = true ∧ tsorted s.queues 0 = true ∧
    queuePkts s (argAt s 0) = [] ∧ (∀ e, e ∈ s.descs → e.2.qid ≠ argAt s 0) ∧ saveWaits s (argAt s 0) = false ∧ (s.queue (argAt s 0)).slot = some 7 :=
  ⟨⟨rfl, by decide, by decide, by decide⟩, ⟨rfl, by decide, by decide, by decide⟩, by decide⟩
/-- RANGES_FREE at the highest address, of a range that is not there, and of one that is. -/
theorem wit_MailboxBindings_ranges : let s := { mailed 5 [(0, 1), (1, 0xFFFFF_FFFF_FFFF)] with ranges := [(1, 2 ^ 52 - 1, 64)] }
    Takes s 5 ∧ argAt s 1 < 2 ^ 52 ∧ (∃ n, (argAt s 0, argAt s 1, n) ∈ s.ranges) ∧
    (∀ r, r ∈ (mailed 5 []).ranges → ¬ (r.1 = 0 ∧ r.2.1 = 0)) ∧ Takes (mailed 5 [(1, 0x10_0000_0000_0000)]) 5 ∧
    2 ^ 52 ≤ argAt (mailed 5 [(1, 0x10_0000_0000_0000)]) 1 :=
  ⟨⟨rfl, by decide, by decide, by decide⟩, by decide, ⟨64, by decide⟩, by decide, ⟨rfl, by decide, by decide, by decide⟩, by decide⟩
theorem wit_MailboxBindings_peers : let s := { mailed 6 [(0, 1), (1, 0x1FFFFFF)] with links := 0xFFFF }
    Takes s 6 ∧ thas s.ctxs (argAt s 0) = true ∧ s.links = BitVec.allOnes 16 ∧
    thas (mailed 6 []).ctxs (argAt (mailed 6 []) 0) = false ∧ Takes (mailed 6 []) 6 :=
  ⟨⟨rfl, by decide, by decide, by decide⟩, by decide, by decide, by decide, rfl, by decide, by decide, by decide⟩
theorem wit_MailboxBindings_checkpoints :
    let s := mailed 7 [(0, 1), (1, 0xFFFFF_FFFF_FFFF), (3, 0xFFF), (4, 0xFFFFF_FFFF_FFFF), (6, 0xFFFFF_FFFF_FFFF), (7, 0xFFFFF_FFFF_FFF8)]
    Takes s 7 ∧ thas s.ctxs (argAt s 0) = true ∧ addrOk (argAt s 1) 1 = true ∧ addrOk (argAt s 4) 1 = true ∧ addrOk (argAt s 6) 1 = true ∧
    addrOk (argAt s 7) 8 = true ∧ argAt s 3 < 2 ^ 12 ∧ Takes (mailed 7 []) 7 ∧ thas (mailed 7 []).ctxs (argAt (mailed 7 []) 0) = false :=
  ⟨⟨rfl, by decide, by decide, by decide⟩, by decide, by decide, by decide, by decide, by decide, by decide,
    ⟨rfl, by decide, by decide, by decide⟩, by decide⟩
theorem wit_MailboxBindings_unknown : Takes (mailed 0 []) 0 ∧ Takes (mailed 10 []) 10 ∧ Takes (mailed 0xFFFF []) 0xFFFF :=
  ⟨⟨rfl, by decide, by decide, by decide⟩, ⟨rfl, by decide, by decide, by decide⟩, rfl, by decide, by decide, by decide⟩
/-- ATTEST at the highest addresses; FW_LOAD outside recovery and in it, with a signature that fails. Whether an image passes
rests on the keys of the device, which nothing in Lean evaluates: the clause of an image that passes has this state's hypotheses but
that one. -/
def recovering (opc : Nat) : State := { mailed opc [(0, 0x200), (1, 0x7FFFF_FFFF_FE00)] with ready := 0x101 }
theorem wit_MailboxFirmware : let s := mailed 8 [(0, 0x7_FFFF_FFFF_FFD0), (1, 0x7_FFFF_FFFF_FED0)]
    Takes s 8 ∧ Memory.wf 0 s.mem = true ∧ argAt s 0 + 48 ≤ 2 ^ 51 ∧ argAt s 1 + 304 ≤ 2 ^ 51 ∧ Takes (mailed 9 []) 9 ∧
    argAt s 0 + 48 = 2 ^ 51 :=
  ⟨⟨rfl, by decide, by decide, by decide⟩, by decide, by decide, by decide, ⟨rfl, by decide, by decide, by decide⟩, by decide⟩
theorem wit_MailboxFirmware_recovery (opc : Nat) (h : opc = 1 ∨ opc = 2 ∨ opc = 3 ∨ opc = 4 ∨ opc = 5 ∨ opc = 6 ∨ opc = 7 ∨ opc = 8 ∨ opc = 9) :
    let s := recovering opc
    readyBit s 8 = true ∧ s.mbxRun = none ∧ s.mbxOpc.toNat = opc ∧ argAt s 0 + argAt s 1 ≤ 2 ^ 51 := by
  rcases h with rfl | rfl | rfl | rfl | rfl | rfl | rfl | rfl | rfl <;> decide
theorem wit_MailboxFirmware_unknown (opc : Nat) (h : opc = 0 ∨ opc = 10 ∨ opc = 0xFFFF) : let s := recovering opc
    readyBit s 8 = true ∧ s.mbxRun = none ∧ (s.mbxOpc.toNat = 0 ∨ 9 < s.mbxOpc.toNat) := by
  rcases h with rfl | rfl | rfl <;> decide
theorem wit_MailboxFirmware_image : imageOk (List.replicate 0x200 0) = false := by decide

/-! Umber. -/

/-- Queue 6 beside queue 5, not mapped; a doorbell rings for it. -/
def unmapped : State :=
  { queued [] with queues := [(6, { cid := 1, qcb := 0x10100, send := false })], slots := [], doorbell := [6], lastQuantum := 0
                   ctxs := [(1, { cores := [0], quota := 1 })], quantum := 1 }
theorem wit_QueuesAreMapped (t : Nat) (h : t = 940 ∨ t = 939) : let s := { unmapped with time := t }
    thas s.queues 6 = true ∧ (∃ l, freeSlots s = 0 :: l) ∧ (∃ c, s.ctxs = [(1, c)] ∧ 0 < c.quota) ∧ ranking s 1 = [6] ∧
    isMapped s 6 = false ∧ queueReady s 6 = true ∧ mappedCount s 1 < 1 := by
  rcases h with rfl | rfl <;> exact ⟨by decide, ⟨_, rfl⟩, ⟨_, rfl, by decide⟩, by decide, by decide, by decide, by decide⟩
theorem wit_QueuesAreMapped_quantum : { unmapped with time := 940 }.lastQuantum + { unmapped with time := 940 }.quantum * mhzOf 0 = 940 ∧
    ∀ q, isMapped unmapped q = false := by
  refine ⟨by decide, fun q => ?_⟩
  simp only [isMapped, State.queue, unmapped, tget]
  split <;> rfl
/-- Queue 5 is mapped and idle, or a WAIT that is not met holds it; queue 6 is ready. -/
def swapping (held : Bool) : State :=
  let w := withBytes 0x1FFF8 8 1 (queued (if held then [(3, { pk 6 (waitBody 0 1) with started := true })] else []))
  { w with queues := [(5, { cid := 1, qcb := 0x10000, send := false, slot := some 7, idle := true, heldWait := if held then some 3 else none }),
                      (6, { cid := 1, qcb := 0x10100, send := false })], doorbell := [6] }
theorem wit_QueuesAreMapped_swap (b : Bool) : let s := swapping b
    (s.queue 5).slot = some 7 ∧ bestReady s (s.queue 5).cid = some 6 ∧ thas s.queues 6 = true ∧ thas s.queues 5 = true ∧
    (b = false → (s.queue 5).idle = true) ∧
    (b = true → heldByWait s (s.queue 5) = true) ∧ saveWaits s 5 = false ∧ ∃ l, freeSlots s = 0 :: l := by
  cases b <;> exact ⟨by decide, by decide, by decide, by decide, by decide, by decide, by decide, _, rfl⟩
/-- Lane 63 waits for Umber. -/
def waiting63 : Thread :=
  { warp with lanes := List.replicate 63 { pc := 0x10000 } ++
      [{ pc := 0x10004, st := .parked, hold := .umber, sub := 5, frec := ⟨0x10, 0x10000, 0x10000, 4, 0⟩ }] }
theorem wit_UmberServices_faults : let s := { handled task1 waiting63 with faultq := [(16, 5)] }
    unitTid s 0 0 = some 16 ∧ s.faultq = [(16, 5)] ∧ (∃ x, (s.thread 16).lanes[63]? = some x ∧ x.hold = .umber ∧ x.sub = 5 ∧ x.st = .parked) ∧
    isSeq 16 = false ∧ hasHandler s (taskOf 16) = true ∧ (s.taskT 16).ending = false ∧
    ∀ x, x ∈ (s.thread 16).lanes → x.inHandler = false := ⟨by decide, rfl, ⟨_, rfl, by decide⟩, by decide, by decide, by decide, by decide⟩
/-- A page of 32 MiB that moves to the second or the last 32 MiB of HBM, in each phase; a shootdown that is over. -/
def moving (phase page : Nat) : State := { paged warp with migr := if phase = 0 then [] else [⟨1, 0, page, phase, 9⟩] }
theorem wit_UmberServices_migration (phase page : Nat)
    (h : (phase, page) = (0, 2 ^ 25) ∨ (phase, page) = (0, 2 ^ 40 - 2 ^ 25) ∨ (phase, page) = (1, 2 ^ 25) ∨ (phase, page) = (2, 2 ^ 25) ∨
      (phase, page) = (3, 2 ^ 25)) : let s := moving phase page
    thas s.ctxs 1 = true ∧ leafOf s 1 0 = some (0x3000, 1) ∧ hostIn s 0x3000 8 = false ∧ hostIn s page (2 ^ pageBits 1) = false ∧ Memory.wf 0 s.mem = true ∧ tsorted s.mem 0 = true ∧
    (phase = 0 → (s.migr.find? fun m => m.cid == 1 && m.va == 0) = none) ∧
    (phase ≠ 0 → (s.migr.find? fun m => m.cid == 1 && m.va == 0) = some ⟨1, 0, page, phase, 9⟩) ∧
    page % 2 ^ pageBits 1 = 0 ∧ present s page = true ∧ present s (page + 2 ^ pageBits 1 - 1) = true ∧ shootOver s 9 = true ∧
    pteAddr (BitVec.ofNat 64 (bytesAt s.mem 0x3000 8)) + 2 ^ pageBits 1 ≤ page ∧ page < 2 ^ 52 ∧ page % 16 = 0 := by
  rcases h with h | h | h | h | h <;> obtain ⟨rfl, rfl⟩ := Prod.mk.inj h <;> decide +kernel

/-- Slate takes over with no migration, and with one that stands in its third or its fourth step. -/
theorem wit_UmberServices_takeover (phase : Nat) (h : phase = 0 ∨ phase = 2 ∨ phase = 3) : let s := { moving phase (2 ^ 25) with standby := true }
    readyBit s 1 = true ∧ s.standby = true ∧ (phase = 0 → s.migr = []) ∧ (phase ≠ 0 → s.migr = [⟨1, 0, 2 ^ 25, phase, 9⟩]) ∧
    leafOf s 1 0 = some (0x3000, 1) ∧ thas s.ctxs 1 = true ∧ hostIn s 0x3000 8 = false ∧ 2 ^ 25 % 2 ^ pageBits 1 = 0 ∧
    present s (2 ^ 25) = true ∧ present s (2 ^ 25 + 2 ^ pageBits 1 - 1) = true := by
  rcases h with rfl | rfl | rfl <;> decide +kernel

/-! Links. -/

/-- A descriptor of a send ring: its kind, the peer device 3, the peer's CID 2, 64 bytes at 0x1FF80, a future or none. -/
def descBody (kind fut : Nat) : Nat :=
  kind + 3 * 2 ^ 16 + 2 * 2 ^ 28 + (if kind = 4 then 2 ^ 48 else 0) + 0xA5 * 2 ^ 56 + 0x1FF80 * 2 ^ 64 + 0x2000 * 2 ^ 128 +
    (if kind = 4 then 128 else 64) * 2 ^ 192 + fut * 2 ^ 256
/-- Ring 5 sends; slot 0 holds the image. -/
def sendRing (n : Nat) : State :=
  { withBytes 0x11000 64 n (queued []) with queues := [(5, { cid := 1, qcb := 0x10000, send := true })] }
theorem wit_AxyelDescriptors_notify (n : Nat) (h : n = 0 ∨ n = descBody 5 0 ∨ n = descBody 2 0) : let s := sendRing n
    let q := s.queue 5
    tfind s.queues (0x1005 % 2 ^ 12) = some q ∧ q.send = true ∧ q.dying = false ∧ q.errOwed = none ∧ qErr s q = 0 ∧
    AgentReads s q.cid (slotVa (qRbase s q) (qLog2n s q) (qRdidx s q)) 64 0x11000 ∧
    futureQuiet s 0x11000 = true ∧ AgentWrites s q.cid (slotVa (qRbase s q) (qLog2n s q) (qRdidx s q)) 8 0x11000 ∧ AgentWrites s q.cid (q.qcb + 0x18) 8 0x10018 := by
  rcases h with rfl | rfl | rfl <;>
    exact ⟨by decide, by decide, by decide, by decide, by decide, ⟨by decide, by decide, by decide, by decide, by decide⟩,
      by decide, ⟨by decide, by decide, by decide, by decide, by decide, by decide⟩, by decide, by decide, by decide, by decide, by decide, by decide⟩
theorem wit_AxyelDescriptors_images : (bytesFrom (sendRing 0) 0x11000 64).getD 7 0 ≠ 0xA5 ∧
    (let b := bytesFrom (sendRing (descBody 5 0)) 0x11000 64; b.getD 7 0 = 0xA5 ∧ descError b ≠ 0) ∧
    (let b := bytesFrom (sendRing (descBody 2 0)) 0x11000 64; b.getD 7 0 = 0xA5 ∧ descError b = 0) := by decide +kernel
/-- A descriptor that has been read, with a lost device or not. -/
def desc (kind fut : Nat) (started : Bool) : AxDesc := { qid := 5, cid := 1, index := 0, bytes := toBytes 64 (descBody kind fut), started := started }
def described (kind fut : Nat) (started lost : Bool) : State :=
  { queued [] with descs := [(8, desc kind fut started)], lostDevs := if lost then [3] else [], peers := [(1, 3, 2, false)] }
theorem wit_AxyelDescriptors_starts (k : Nat) (lost : Bool) (h : k = 1 ∨ k = 2 ∨ k = 4) : let s := described k 0 false lost
    let b := (desc k 0 false).bytes
    tfind s.descs 8 = some (desc k 0 false) ∧ descStarts s 8 (desc k 0 false) = true ∧ dKind b = k ∧ s.lostDevs.contains (dDev b) = lost ∧
    AgentReads s 1 (dLaddr b) (dCount b) 0x1FF80 := by
  rcases h with rfl | rfl | rfl <;> cases lost <;>
    exact ⟨by decide, by decide, by decide, by decide, by decide, by decide, by decide, by decide, by decide⟩
theorem wit_AxyelDescriptors_asks : let s := described 3 0 false false
    tfind s.descs 8 = some (desc 3 0 false) ∧ descStarts s 8 (desc 3 0 false) = true ∧ dKind (desc 3 0 false).bytes = 3 ∧
    (desc 3 0 false).asked = false ∧ s.lostDevs.contains (dDev (desc 3 0 false).bytes) = false := by decide
/-- A GET that has been asked for, with the bytes that come, and with an answer that refuses it. -/
theorem wit_AxyelDescriptors_get : let x := { desc 3 0 false with asked := true }
    let s := { described 3 0 false false with descs := [(8, x)] }
    let b := (desc 3 0 false).bytes
    tfind s.descs 8 = some x ∧ x.asked = true ∧ x.started = false ∧ x.done = false ∧ x.gwct = 0 ∧ x.fault = none ∧ (0x11 : W8) ≠ 0 ∧ dKind b = 3 ∧ s.lostDevs.contains (dDev b) = false ∧
    (List.replicate 64 (7 : W8)).length = dCount b ∧ (desc 3 0 false).purpose = 0 ∧ exported s (desc 3 0 false) = true ∧ AgentWrites s 1 (dLaddr b) 64 0x1FF80 ∧
    Memory.wf 0 s.mem = true :=
  ⟨by decide, by decide, by decide, by decide, by decide, by decide, by decide, by decide, by decide, by decide, by decide, by decide,
    ⟨by decide, by decide, by decide, by decide, by decide, by decide⟩, by decide⟩
theorem wit_AxyelDescriptors_over (fut : Nat) (h : fut = 0 ∨ fut = 0x1FFE0) : let s := described 2 fut true false
    let x := desc 2 fut true
    tfind s.descs 8 = some x ∧ x.started = true ∧ x.gwct = 0 ∧ tsorted s.descs 0 = true ∧ x.purpose = 0 ∧ x.fault = none ∧
    exported s x = true ∧ exported { s with peers := [] } x = false ∧ dFuture x.bytes = fut ∧ walkAddr s 1 0x1FFE0 .write = .inl 0x1FFE0 ∧
    homeGone s 0x1FFE0 = false ∧ poisoned s 0x1FFE0 1 = false ∧ bytesAt s.mem 0x1FFE0 1 = 0 ∧ futureQuiet s 0x1FFE0 = true ∧
    Memory.wf 0 s.mem = true := by
  rcases h with rfl | rfl <;> decide
/-- What a peer sends, with a binding for it and without one. -/
def importing : State := { queued [] with peers := [(1, 3, 2, true)] }
theorem wit_PeersAndLosses_receives (d : List W8) (h : d = [7] ∨ d = List.replicate 128 7) : let s := importing
    (1, 3, 2, true) ∈ s.peers ∧ (1, 3, 2, true) ∉ one.peers ∧ AgentWrites s 1 0x1FF80 d.length 0x1FF80 ∧ Memory.wf 0 s.mem = true ∧
    AgentReads s 1 0x1FF80 d.length 0x1FF80 := by
  rcases h with rfl | rfl <;>
    exact ⟨by decide, by decide, ⟨by decide, by decide, by decide, by decide, by decide, by decide⟩, by decide,
      by decide, by decide, by decide, by decide, by decide⟩
theorem wit_PeersAndLosses_lands : (0x1FF80 : Nat) % 128 = 0 ∧ (0x1FF00 : Nat) % 256 = 0 ∧ walkAddr importing 1 0x1FF00 .write = .inl 0x1FF00 ∧
    ([7] : List W8).length ≠ 128 ∧ walkAddr importing 1 0x1FF80 .write = .inl 0x1FF80 ∧
    homeGone importing 0x1FF80 = false ∧ (List.replicate 128 (7 : W8)).length = 128 ∧ (List.replicate 256 (7 : W8)).length = 256 := by decide
theorem wit_PeersAndLosses_loss : let s := described 2 0 true false
    let c := { one with ckpts := [[1, 0, 0, 3, 0, 0, 0, 0]], peers := [(1, 3, 2, false)] }
    (3 ∉ s.lostDevs ∧ s.recov = [] ∧ s.ckpts = [] ∧ tfind s.descs 8 = some (desc 2 0 true) ∧ dDev (desc 2 0 true).bytes = 3 ∧
      (desc 2 0 true).done = false ∧ tsorted s.descs 0 = true) ∧
    (3 ∉ c.lostDevs ∧ c.recov = [] ∧ c.ckpts = [[1, 0, 0, 3, 0, 0, 0, 0]] ∧
      ((([1, 0, 0, 3, 0, 0, 0, 0] : List W64).headD 0).toNat, 3, 2, false) ∈ c.peers ∧ thas c.tasks 1 = true ∧
      (c.task 1).cid = (([1, 0, 0, 3, 0, 0, 0, 0] : List W64).headD 0).toNat ∧ (c.task 1).st = .running ∧ (c.task 1).fatal = []) := by decide

/-! The host, the fabric, reset and power. -/

theorem wit_HostAndDeviceCoherence (pa : Nat) (h : pa = 0 ∨ pa = 2 ^ 40 - 128) : isHbm one pa = true ∧
    isHbm one (pa + 128 - 1) = true ∧ (∀ l, l ∈ linesOf pa 128 → homeGone one (128 * l) = false) ∧
    isHbm { one with hbmMask := 0 } pa = false := by rcases h with rfl | rfl <;> decide +kernel
theorem wit_HostAndDeviceCoherence_host (pa : Nat) (h : pa = hostBase ∨ pa = 2 ^ 52 - 128) : hostBase ≤ pa ∧ pa + 128 ≤ 2 ^ 52 ∧
    ∀ l, l ∈ linesOf pa 128 → (one.l2line l).inL2 = false := by rcases h with rfl | rfl <;> decide +kernel
/-- A line that a store waits for; a host line that the device holds, without a lease and with one. -/
theorem wit_HostAndDeviceCoherence_lines (lease : Nat) (h : lease = 999 ∨ lease = 1000) :
    let line := 2 ^ 45 - 1
    let s := { one with l2 := [(line, { inL2 := true, dirty := true, lease := lease })] }
    ({ one with l2 := [(5, { host := true, biWait := true : L2Line })] }.l2line 5).biWait = true ∧ hostBase ≤ 128 * line ∧
    (s.l2line line).inL2 = true ∧ fwinAt s (128 * line) = none ∧ Memory.wf ({} : L2Line) s.l2 = true ∧
    ((s.l2line line).lease < s.time ∨ s.time ≤ (s.l2line line).lease) := by rcases h with rfl | rfl <;> decide +kernel
/-- A load sent at tick 0 of a task with a handler, whose answer is due by now. -/
theorem wit_FabricLosses_timeout : let a := { acc .load 4 true with lane := 63, out := some 0 }
    let s := { flying a (handled task1 warp) with opTimeout := 1000 }
    unitTid s 0 0 = some 16 ∧ (s.thread 16).flight[0]? = some a ∧ (0 : Nat) < 64 ∧
    (∀ x, x ∈ (s.thread 16).lanes → x.st = .parked → sameInst x a = false) ∧ overdue s a = true ∧
    a.isLoad = true ∧ a.blk = 0 ∧ (∀ r, a.dst ≠ .s r) ∧ (∃ x, (s.thread 16).lanes[a.lane]? = some x ∧ x.st ≠ .exited ∧ x.inHandler = false) ∧
    a.lane < 64 ∧ isSeq 16 = false ∧ hasHandler s (taskOf 16) = true ∧ isSpec s (taskOf 16) = false ∧ (s.taskT 16).ending = false :=
  ⟨by decide, rfl, by decide, by decide, by decide, by decide, by decide, fun _ => (nomatch ·), ⟨_, rfl, by decide⟩, by decide, by decide, by decide, by decide, by decide⟩
/-- Site 31 of die 7, alone and as the fifth of its die. -/
theorem wit_FabricLosses_routers : let s := { one with bypass := [(7, 0xF)] }
    bypassed one 7 31 = false ∧ bypassed s 7 31 = false ∧ 4 ≤ bypassCount s 7 ∧ bypassCount one 7 = 0 ∧ 7 ∉ one.lostDies := by decide
theorem wit_FabricLosses_core : coreAt { one with siteMap := (List.range 28).map fun i => (196 + i, 4 + i) } 7 31 = some 223 := by decide
theorem wit_FabricLosses_log : let s := { one with fabNext := 1, fabLog := [(0, ⟨one.time, 2, 0, 0, 1⟩)] }
    ∀ p, tfind s.fabLog ((s.fabNext + 15) % 16) = some p → p.time = s.time → p.die ≤ 2 := by
  intro s p h _
  have e : tfind s.fabLog ((s.fabNext + 15) % 16) = some ⟨one.time, 2, 0, 0, 1⟩ := by decide
  cases e.symm.trans h
  decide
theorem wit_FabricLosses_bridges : bridged 0 8 = true ∧ bridged 6 7 = true ∧ bridgeKey 0 8 ∉ one.lostBridges ∧
    bridgeKey 8 0 ∈ ({ one with lostBridges := [(0, 8)] } : State).lostBridges ∧ ({ one with stitching := true } : State).stitching = true := by decide
theorem wit_ResetAndBringUp (m : BitVec 16) (h : m = 0 ∨ m = 0xFFFF) : let s := { one with ready := 3, hbmMask := m }
    bringingUp s = true ∧ readyBit s 2 = false ∧ readyBit s 3 = false ∧ readyBit s 0 = true ∧ readyBit s 8 = false ∧ readyBit s 7 = false ∧
    readyBit { one with ready := 0x7F, links := 0x7FFF } 7 = false ∧ ∀ i, i < 7 → readyBit { one with ready := 0x7F, links := 0x7FFF } i = true := by
  rcases h with rfl | rfl <;> decide
/-- The stages: the fuses, the image, HBM with no stack that works, the cores, the fabric, the queues, the near-bank units. -/
theorem wit_ResetAndBringUp_stages :
    readyBit { one with ready := 0 } 0 = false ∧ (readyBit { one with ready := 1 } 0 = true ∧ mbxLive { one with ready := 1 } = false) ∧
    (let h := { one with ready := 3, hbmMask := 0 }
     bringingUp h = true ∧ h.hbmMask = 0) ∧
    (let c := { one with ready := 0xF }
     bringingUp c = true ∧ readyBit c 3 = true ∧ readyBit c 4 = false ∧ readyBit { one with ready := 7 } 2 = true ∧ readyBit { one with ready := 7 } 3 = false) ∧
    ∀ i, i < 7 → i = 2 ∨ 4 ≤ i → let s := { one with ready := BitVec.ofNat 10 (2 ^ i - 1) }
      bringingUp s = true ∧ s.hbmMask ≠ 0 ∧ (∀ j, j < i → readyBit s j = true) ∧ readyBit s i = false := by decide
/-- A scrub of a task's word; a block in the pool; within a scrub pass and after it, with the sixteenth error of a row. -/
theorem wit_PowerAndErrors_scrub : thas one.tasks 1 = true ∧ 4 * 16383 < (one.task 1).size ∧ 0 < freePool one 0 ∧
    tget 0 ({ one with life := { one.life with scrubRows := [(7, 15)] } } : State).life.scrubRows 7 + 1 = 16 ∧
    ¬ (one.life.scrubAt + 24 * 3600 * 1000000 * mhzOf one.op ≤ one.time) ∧
    one.life.scrubAt + 24 * 3600 * 1000000 * mhzOf one.op ≤ ({ one with time := 24 * 3600 * 1000000 * mhzOf 0 } : State).time :=
  ⟨by decide, by decide, of_decide_eq_true pool_one, by decide, by decide, by decide⟩
/-- No crossing of the cap yet, one less than a step of the regulator ago, and one that long ago; the same below 95 %. -/
theorem wit_PowerAndErrors_regulator : let ms := 1000 * mhzOf one.op
    (∀ t, one.overAt = some t → t + ms ≤ one.time) ∧ one.underAt = none ∧
    (let s := { one with overAt := some 0, underAt := some 0 }
     s.time < 0 + ms ∧ s.time < 0 + 10 * ms ∧ 0 + ms ≤ ({ s with time := 20000000 } : State).time ∧
     0 + 10 * ms ≤ ({ s with time := 20000000 } : State).time) := by decide
theorem wit_PowerAndErrors : let s := { one with cap := 1000 }
    s.cap < 1001 ∧ 1000 ≤ s.cap ∧ 100 * 949 < 95 * s.cap ∧ 95 * s.cap ≤ 100 * 950 ∧ Memory.wf 0 s.life.scrubRows = true ∧
    (s.l2line 5).inL2 = false ∧ ({ s with l2 := [(5, { inL2 := true : L2Line })] }.l2line 5).inL2 = true ∧ Memory.wf 0 s.life.now.opTicks = true ∧
    Memory.wf 0 s.life.now.tjhist = true := by decide

end Sys2Proof.Tests
end

/-! Scalar and control instructions: integers as a type reads and holds them (R46), `sdiv` and `nop`. -/
namespace Sys2Proof.Machine

/-! The range of an integer type, and reading within it (R45, R46). -/

theorem two_pow_bits (t : Ty) : (2 : Int) ^ t.bits = 2 * 2 ^ (t.bits - 1) := by
  have hpos : t.bits - 1 + 1 = t.bits := Nat.sub_add_cancel (by cases t <;> simp [Ty.bits])
  rw [← Int.pow_succ', hpos]

theorem intMin_nonpos (t : Ty) : intMin t ≤ 0 := by
  have : (0 : Int) < 2 ^ (t.bits - 1) := Int.pow_pos (by decide)
  unfold intMin
  split <;> omega

/-- A type of n bits has 2^n values. -/
theorem intMax_eq (t : Ty) : intMax t = intMin t + 2 ^ t.bits - 1 := by
  have := two_pow_bits t
  unfold intMax intMin
  split <;> omega

theorem intMax_nonneg (t : Ty) : 0 ≤ intMax t := by
  have : (0 : Int) < 2 ^ (t.bits - 1) := Int.pow_pos (by decide)
  have := two_pow_bits t
  unfold intMax
  split <;> omega

/-- Two values of a type that agree with one integer modulo 2^n are equal. -/
theorem eq_of_intRange {t : Ty} {r x y j k : Int} (hx : intMin t ≤ x) (hx' : x ≤ intMax t) (hy : intMin t ≤ y)
    (hy' : y ≤ intMax t) (hrx : r = x + j * 2 ^ t.bits) (hry : r = y + k * 2 ^ t.bits) : x = y := by
  have hm := intMax_eq t
  have hdvd : (2 : Int) ^ t.bits ∣ x - y := ⟨k - j, by rw [Int.mul_comm, Int.sub_mul]; omega⟩
  have hlt : (x - y).natAbs < ((2 : Int) ^ t.bits).natAbs := by omega
  have := Int.eq_zero_of_dvd_of_natAbs_lt_natAbs hdvd hlt
  omega

/-- What a type reads from a number is a value of the type, and agrees with the number modulo 2^n. -/
theorem rdInt_spec (t : Ty) (w : Nat) :
    intMin t ≤ rdInt t w ∧ rdInt t w ≤ intMax t ∧ ∃ k : Int, (w : Int) = rdInt t w + k * 2 ^ t.bits := by
  have hbits := two_pow_bits t
  have hlt : ((w % 2 ^ t.bits : Nat) : Int) < 2 ^ t.bits := by exact_mod_cast Nat.mod_lt w (Nat.two_pow_pos _)
  have hdiv : (w : Int) = (w % 2 ^ t.bits : Nat) + (w / 2 ^ t.bits : Nat) * 2 ^ t.bits := by
    exact_mod_cast (Nat.mod_add_div' w (2 ^ t.bits)).symm
  simp only [rdInt]
  split
  next hneg =>
    simp only [Bool.and_eq_true, decide_eq_true_eq] at hneg
    obtain ⟨hsigned, hhalf⟩ := hneg
    have hhalf : (2 : Int) ^ (t.bits - 1) ≤ (w % 2 ^ t.bits : Nat) := by exact_mod_cast hhalf
    simp only [intMin, intMax, hsigned, if_true]
    exact ⟨by omega, by omega, (w / 2 ^ t.bits : Nat) + 1, by rw [Int.add_mul]; omega⟩
  next hpos =>
    refine ⟨Int.le_trans (intMin_nonpos t) (by omega), ?_, (w / 2 ^ t.bits : Nat), hdiv⟩
    unfold intMax
    split
    next hsigned =>
      have hhalf : w % 2 ^ t.bits < 2 ^ (t.bits - 1) := by simpa [hsigned] using hpos
      have : ((w % 2 ^ t.bits : Nat) : Int) < 2 ^ (t.bits - 1) := by exact_mod_cast hhalf
      omega
    next => omega

/-- The model's read of an operand is the value that its type reads. -/
theorem rdInt_of_readsAs {t : Ty} {w : W32} {x : Int} (h : ReadsAs t w x) : rdInt t w.toNat = x := by
  obtain ⟨hlo, hhi, k, hk⟩ := h
  obtain ⟨rlo, rhi, j, hj⟩ := rdInt_spec t w.toNat
  exact eq_of_intRange rlo rhi hlo hhi hj hk

/-! Results wrapped to the type and extended to 32 bits (R46, R206). -/

/-- Wrapping keeps a result modulo 2^n. -/
theorem eq_rdInt_emod (t : Ty) (r : Int) : ∃ k : Int, r = rdInt t (r % 2 ^ t.bits).toNat + k * 2 ^ t.bits := by
  obtain ⟨-, -, j, hj⟩ := rdInt_spec t (r % 2 ^ t.bits).toNat
  rw [Int.toNat_of_nonneg (Int.emod_nonneg _ (Int.ne_of_gt (Int.pow_pos (by decide))))] at hj
  have hdiv := Int.emod_add_mul_ediv r (2 ^ t.bits)
  exact ⟨j + r / 2 ^ t.bits, by rw [Int.add_mul, Int.mul_comm (r / 2 ^ t.bits)]; omega⟩

/-- A wrapped result holds the one value of the type that agrees with it modulo 2^n. -/
theorem holdsInt_wrInt {t : Ty} {r x k : Int} (hlo : intMin t ≤ x) (hhi : x ≤ intMax t) (h : r = x + k * 2 ^ t.bits) :
    HoldsInt t (wrInt t r) x := by
  obtain ⟨rlo, rhi, -⟩ := rdInt_spec t (r % 2 ^ t.bits).toNat
  obtain ⟨j, hj⟩ := eq_rdInt_emod t r
  have hread : rdInt t (r % 2 ^ t.bits).toNat = x := eq_of_intRange rlo rhi hlo hhi hj h
  refine ⟨hlo, hhi, ?_⟩
  rw [wrInt, hread, BitVec.toNat_ofInt]
  exact Int.toNat_of_nonneg (Int.emod_nonneg _ (by decide))

theorem holdsInt_wrInt_of_mem {t : Ty} {x : Int} (hlo : intMin t ≤ x) (hhi : x ≤ intMax t) : HoldsInt t (wrInt t x) x :=
  holdsInt_wrInt (k := 0) hlo hhi (by simp)

/-- A wrapped result is the result that R206 asks for without SAT. -/
theorem intResult_wrInt (t : Ty) (r : Int) : IntResult t false r (wrInt t r) := by
  obtain ⟨rlo, rhi, -⟩ := rdInt_spec t (r % 2 ^ t.bits).toNat
  obtain ⟨k, hk⟩ := eq_rdInt_emod t r
  exact ⟨_, holdsInt_wrInt rlo rhi hk, k, hk⟩

/-! Division (R207). -/

/-- A remainder takes the sign of its dividend. -/
theorem tmod_nonpos {x : Int} (y : Int) (h : x ≤ 0) : x.tmod y ≤ 0 := by
  have := Int.tmod_nonneg y (Int.neg_nonneg_of_nonpos h)
  rw [Int.neg_tmod] at this
  omega

/-- The remainder of a value of a type is a value of the type: it lies between 0 and the dividend. -/
theorem tmod_mem_intRange {t : Ty} {x : Int} (y : Int) (hlo : intMin t ≤ x) (hhi : x ≤ intMax t) :
    intMin t ≤ x.tmod y ∧ x.tmod y ≤ intMax t := by
  have hle : (x.tmod y).natAbs ≤ x.natAbs := by
    rw [Int.natAbs_tmod]
    exact Nat.mod_le _ _
  have hmin := intMin_nonpos t
  have hmax := intMax_nonneg t
  rcases Int.le_total 0 x with hx | hx
  · have := Int.tmod_nonneg y hx
    omega
  · have := tmod_nonpos y hx
    omega

/-- The quotient of the minimum by -1 wraps to the minimum. -/
theorem holdsInt_wrInt_neg_intMin (t : Ty) : HoldsInt t (wrInt t (-intMin t)) (intMin t) := by
  have hle : intMin t ≤ intMax t := Int.le_trans (intMin_nonpos t) (intMax_nonneg t)
  refine holdsInt_wrInt (k := if Ty.signed t then 1 else 0) (Int.le_refl _) hle ?_
  have := two_pow_bits t
  unfold intMin
  split <;> omega

theorem intDiv_of_zero {t : Ty} {a b : W32} {x : Int} (rem : Bool) (hx : ReadsAs t a x) (hy : ReadsAs t b 0) :
    intDiv t rem a b = wrInt t (if rem then x else -1) := by
  unfold intDiv
  rw [rdInt_of_readsAs hx, rdInt_of_readsAs hy]
  cases rem <;> rfl

theorem intDiv_of_ne_zero {t : Ty} {a b : W32} {x y : Int} (rem : Bool) (hx : ReadsAs t a x) (hy : ReadsAs t b y)
    (h0 : y ≠ 0) : intDiv t rem a b = wrInt t (if rem then x.tmod y else x.tdiv y) := by
  unfold intDiv
  rw [rdInt_of_readsAs hx, rdInt_of_readsAs hy]
  cases rem <;> exact if_neg h0

/-- Truncating division: the quotient is wrapped, and the remainder has the sign of the dividend and is never wrapped. -/
theorem intDiv_truncates {t : Ty} {a b : W32} {x y : Int} (rem : Bool) (hx : ReadsAs t a x) (hy : ReadsAs t b y) (h0 : y ≠ 0) :
    ∃ q r : Int, x = y * q + r ∧ r.natAbs < y.natAbs ∧ (0 ≤ x → 0 ≤ r) ∧ (x ≤ 0 → r ≤ 0) ∧
      (if rem then HoldsInt t (intDiv t rem a b) r else IntResult t false q (intDiv t rem a b)) := by
  have hlt : (x.tmod y).natAbs < y.natAbs := by
    rw [Int.natAbs_tmod]
    exact Nat.mod_lt _ (Int.natAbs_pos.mpr h0)
  refine ⟨x.tdiv y, x.tmod y, (Int.mul_tdiv_add_tmod x y).symm, hlt, Int.tmod_nonneg y, tmod_nonpos y, ?_⟩
  rw [intDiv_of_ne_zero rem hx hy h0]
  cases rem with
  | false => exact intResult_wrInt t _
  | true =>
    obtain ⟨hlo, hhi, -⟩ := hx
    obtain ⟨rlo, rhi⟩ := tmod_mem_intRange y hlo hhi
    exact holdsInt_wrInt_of_mem rlo rhi

theorem intDiv_intMin_neg_one {t : Ty} {a b : W32} (rem : Bool) (hx : ReadsAs t a (intMin t)) (hy : ReadsAs t b (-1)) :
    HoldsInt t (intDiv t rem a b) (if rem then 0 else intMin t) := by
  rw [intDiv_of_ne_zero rem hx hy (by decide)]
  cases rem with
  | false => simpa using holdsInt_wrInt_neg_intMin t
  | true => simpa using holdsInt_wrInt_of_mem (intMin_nonpos t) (intMax_nonneg t)

/-- A scalar instruction with one destination writes its result and moves the run on (R206). -/
theorem scalar1_run (h : Head) (d : SReg) (f : Thread → W32) (s : State) (he : execMask h s ≠ 0) :
    scalar1 h d f s = .next (advance h (putS d (f s.cur) s)) := plain_run h _ s he

theorem exec_sdiv_run (h : Head) (o : SBin) (s : State) (he : execMask h s ≠ 0) :
    exec (.sdiv h o) s = .next (advance h (putS o.d (intDiv o.ty o.x (s.cur.sget o.a) (o.b.v32 s.cur)) s)) :=
  scalar1_run h o.d (fun t => intDiv o.ty o.x (t.sget o.a) (o.b.v32 t)) s he

/-- Settles O14: `sdiv` writes `intDiv` of its operands, whose three cases are a zero divisor, truncation, and the minimum by -1. -/
theorem scalarDivision : Obligations.ScalarDivision := by
  intro h o s x y he _ hx hy
  refine ⟨_, exec_sdiv_run h o s he, ?_, ?_, intDiv_truncates o.x hx hy, ?_⟩
  · rintro rfl hq
    rw [intDiv_of_zero o.x hx hy, hq]
    exact intResult_wrInt o.ty (-1)
  · rintro rfl hr
    obtain ⟨hlo, hhi, -⟩ := id hx
    rw [intDiv_of_zero o.x hx hy, hr]
    exact holdsInt_wrInt_of_mem hlo hhi
  · rintro rfl rfl
    exact intDiv_intMin_neg_one o.x hx hy

/-! `nop` (R215). -/

/-- The decoder reads `nop` from OP 0 alone: no other field is checked. -/
theorem decode_of_opOf_zero (n : Nat) (h : opOf n = 0) : decode n = .ok (.nop (headOf n)) := by
  have hops : operands n = some (.nop (headOf n)) := by simp [operands, h]
  simp [decode, h, hops, opReserved, lenOk, opLit, fnOk]

/-- Settles O12: `nop` is the advance of the run, and it decodes from every word with OP 0. -/
theorem nopMovesTheRun : Obligations.NopMovesTheRun := by
  have hdecode (n : Nat) (hn : n / 2 ^ 6 % 2 ^ 7 = 0) : decode n = .ok (.nop (headOf n)) :=
    decode_of_opOf_zero n (bits_eq n 6 7 0 hn)
  refine ⟨fun h s => ?_, hdecode, hdecode 0xE000 (by decide)⟩
  obtain ⟨hthreads, hothers, hcur⟩ := onlyLanes_advance h s
  obtain ⟨hlength, hlanes⟩ := lanesBecome_advance h s
  exact ⟨advance h s, rfl, hthreads, hothers, hcur, hlength, hlanes⟩

end Sys2Proof.Machine

/-! Sorting: the order of elements (R336). -/
namespace Sys2Proof.Machine

/-! FP32 keys: which are NaNs, and the order of the others. -/

/-- A format with infinities keeps its NaNs at the top exponent, with a fraction that is not 0 (R48). -/
theorem isNan_unpack {f : Fmt} (hinf : f.inf = true) (n : Nat) :
    (unpack f n).isNan = (n / 2 ^ (f.p - 1) % 2 ^ f.ew == 2 ^ f.ew - 1 && n % 2 ^ (f.p - 1) != 0) := by
  by_cases htop : n / 2 ^ (f.p - 1) % 2 ^ f.ew = 2 ^ f.ew - 1
  · by_cases hfr : n % 2 ^ (f.p - 1) = 0 <;> simp [unpack, hinf, htop, hfr, XV.isNan]
  · simp only [unpack, hinf, beq_eq_false_iff_ne.mpr htop, Bool.and_false, Bool.false_and, Bool.not_true, Bool.false_eq_true,
      if_false]
    split
    · split <;> rfl
    · rfl

/-- An FP32 key is a NaN when its magnitude lies above that of infinity, whatever its sign. -/
theorem isNan32_eq (w : W32) : isNan32 w = decide (0x7F800000 < w.toNat % 2 ^ 31) := by
  rw [isNan32, f32v, isNan_unpack rfl, Bool.eq_iff_iff]
  simp only [fmtF32, Bool.and_eq_true, beq_iff_eq, bne_iff_ne, decide_eq_true_eq]
  omega

theorem toNat_of_sign_clear {w : W32} (h : w.getLsbD 31 = false) : w.toNat = w.toNat % 2 ^ 31 := by
  have hmsb : w.msb = false := by rwa [BitVec.msb_eq_getLsbD_last]
  have := BitVec.msb_eq_false_iff_two_mul_lt.mp hmsb
  omega

theorem toNat_of_sign_set {w : W32} (h : w.getLsbD 31 = true) : w.toNat = w.toNat % 2 ^ 31 + 2 ^ 31 := by
  have hmsb : w.msb = true := by rwa [BitVec.msb_eq_getLsbD_last]
  have := BitVec.msb_eq_true_iff_two_mul_ge.mp hmsb
  omega

/-- The order of FP32 keys counts magnitudes, downwards from -1 under a sign. -/
theorem fkey_eq (w : W32) :
    fkey w = if w.getLsbD 31 then -((w.toNat % 2 ^ 31 : Nat) : Int) - 1 else ((w.toNat % 2 ^ 31 : Nat) : Int) := by
  unfold fkey
  split
  next => rfl
  next hsign => rw [← toNat_of_sign_clear (Bool.eq_false_iff.mpr hsign)]

/-- No two FP32 words share a place in the order: -0 stands below +0. -/
theorem fkey_injective : Function.Injective fkey := by
  intro v w h
  rw [fkey_eq, fkey_eq] at h
  apply BitVec.eq_of_toNat_eq
  cases hv : v.getLsbD 31 <;> cases hw : w.getLsbD 31 <;> simp only [hv, hw, if_true, Bool.false_eq_true, if_false] at h
  · rw [toNat_of_sign_clear hv, toNat_of_sign_clear hw]
    omega
  · omega
  · omega
  · rw [toNat_of_sign_set hv, toNat_of_sign_set hw]
    omega

/-! The cases of `before`. -/

/-- The key is a NaN of its type. -/
def nanKey (ty : Ty) (k : W32) : Bool := ty == .f32 && isNan32 k

theorem nanKey_f32_of_lt {k : W32} (h : 0x7F800000 < k.toNat % 2 ^ 31) : nanKey .f32 k = true :=
  (isNan32_eq k).trans (decide_eq_true h)

theorem nanKey_f32_of_le {k : W32} (h : k.toNat % 2 ^ 31 ≤ 0x7F800000) : nanKey .f32 k = false :=
  (isNan32_eq k).trans (decide_eq_false (Nat.not_lt.mpr h))

section
variable {ty : Ty} {a b : Elem} (dn : Bool)

theorem before_of_nans (ha : nanKey ty a.1 = true) (hb : nanKey ty b.1 = true) :
    before ty dn a b = decide (a.2.toNat < b.2.toNat) := by
  rw [nanKey] at ha hb
  simp [before, ha, hb]

theorem before_of_nan_left (ha : nanKey ty a.1 = true) (hb : nanKey ty b.1 = false) : before ty dn a b = false := by
  rw [nanKey] at ha hb
  simp [before, ha, hb]

theorem before_of_nan_right (ha : nanKey ty a.1 = false) (hb : nanKey ty b.1 = true) : before ty dn a b = true := by
  rw [nanKey] at ha hb
  simp [before, ha, hb]

/-- Elements without a NaN key go by their keys in the direction, and by index where the keys are equal. -/
theorem before_of_not_nan (ha : nanKey ty a.1 = false) (hb : nanKey ty b.1 = false) :
    before ty dn a b = if keyInt ty a.1 = keyInt ty b.1 then decide (a.2.toNat < b.2.toNat)
      else if dn then decide (keyInt ty b.1 < keyInt ty a.1) else decide (keyInt ty a.1 < keyInt ty b.1) := by
  rw [nanKey] at ha hb
  simp [before, ha, hb]

theorem before_of_key_ne (ha : nanKey ty a.1 = false) (hb : nanKey ty b.1 = false) (h : keyInt ty a.1 ≠ keyInt ty b.1) :
    before ty dn a b =
      if dn then decide (keyInt ty b.1 < keyInt ty a.1) else decide (keyInt ty a.1 < keyInt ty b.1) := by
  rw [before_of_not_nan dn ha hb, if_neg h]

theorem before_of_same_key (k i j : W32) : before ty dn (k, i) (k, j) = decide (i.toNat < j.toNat) := by
  cases hk : nanKey ty k with
  | true => exact before_of_nans dn hk hk
  | false => rw [before_of_not_nan dn hk hk, if_pos rfl]

end

/-! `before` is a lexicographic order, so it is a strict order. -/

/-- NaN keys form a class after that of all other keys. -/
def sortClass (ty : Ty) (a : Elem) : Nat := if nanKey ty a.1 then 1 else 0

/-- The key within its class: a number in its direction, and one place for all NaNs. -/
def sortKey (ty : Ty) (dn : Bool) (a : Elem) : Int :=
  if nanKey ty a.1 then 0 else if dn then -keyInt ty a.1 else keyInt ty a.1

/-- The order is lexicographic: by class, then by key, then by index. -/
theorem before_iff (ty : Ty) (dn : Bool) (a b : Elem) :
    before ty dn a b = true ↔ sortClass ty a < sortClass ty b ∨ sortClass ty a = sortClass ty b ∧
      (sortKey ty dn a < sortKey ty dn b ∨ sortKey ty dn a = sortKey ty dn b ∧ a.2.toNat < b.2.toNat) := by
  cases ha : nanKey ty a.1 <;> cases hb : nanKey ty b.1 <;>
    simp only [sortClass, sortKey, ha, hb, Bool.false_eq_true, if_true, if_false, Nat.lt_irrefl, Int.lt_irrefl, false_or, true_and]
  · by_cases hkey : keyInt ty a.1 = keyInt ty b.1
    · rw [before_of_not_nan dn ha hb, if_pos hkey, hkey, decide_eq_true_eq]
      omega
    · rw [before_of_key_ne dn ha hb hkey]
      cases dn <;> simp only [Bool.false_eq_true, if_true, if_false, decide_eq_true_eq] <;> omega
  · simp [before_of_nan_right dn ha hb]
  · simp [before_of_nan_left dn ha hb]
  · rw [before_of_nans dn ha hb, decide_eq_true_eq]

/-- R336 orders elements strictly: the laws are those of the lexicographic order. -/
theorem before_strictOrder (ty : Ty) (dn : Bool) (a b c : Elem) :
    before ty dn a a = false ∧
    (before ty dn a b = true → before ty dn b a = false) ∧
    (before ty dn a b = true → before ty dn b c = true → before ty dn a c = true) := by
  simp only [← Bool.not_eq_true, before_iff]
  refine ⟨?_, ?_, ?_⟩ <;> omega

/-- Settles O23: `before` is a lexicographic order, and its cases give each kind of key. -/
theorem sortOrder : Obligations.SortOrder := by
  refine ⟨before_strictOrder, ?_, ?_, ?_, ?_, ?_, fun ty dn => before_of_same_key dn⟩
  · exact fun dn a b hne => before_of_key_ne (ty := .i32) dn rfl rfl hne
  · intro dn a b hne
    have hkey : keyInt .n32 a.1 ≠ keyInt .n32 b.1 := fun h => hne (BitVec.eq_of_toNat_eq (Int.ofNat.inj h))
    simpa only [keyInt, Int.ofNat_lt] using before_of_key_ne dn rfl rfl hkey
  · exact fun dn a b hb ha => before_of_nan_right dn (nanKey_f32_of_le ha) (nanKey_f32_of_lt hb)
  · exact fun dn a b ha hb => before_of_nans dn (nanKey_f32_of_lt ha) (nanKey_f32_of_lt hb)
  · intro dn a b ha hb hne
    have hkey : keyInt .f32 a.1 ≠ keyInt .f32 b.1 := fkey_injective.ne hne
    simpa only [keyInt, fkey_eq] using before_of_key_ne dn (nanKey_f32_of_le ha) (nanKey_f32_of_le hb) hkey

end Sys2Proof.Machine
